-- ==== Sys2Proof/Word.lean ====
section
/-!
DEFINITION. The word type of HCLB: every register and every host word is a 32-bit quantity moved whole
(spec/20_memory.md R91), and the command word is one too (spec/30_encoding.md R120).
-/

namespace Sys2Proof

/-- A register, a host word of a local memory, a Pixel or a command word: 32 bits. -/
abbrev Word := BitVec 32

end Sys2Proof
end

