-- ==== Sys2Proof/Config.lean ====
section
/-!
DEFINITION. What an implementation of HCLB fixes (its capability constants, R5), the constants the spec fixes (R8),
and the free values: constants with no body, for what the spec leaves unspecified (spec/93_implementation_defined.md
U1 to U5). Nothing can be proved about the value of a free constant.
-/

namespace Sys2Proof

/-- The implementation parameters of spec/00_scope.md R5, each as the value of its read-only capability register
(spec/10_state.md R40). -/
structure Caps where
  /-- CAP_PIX, `PIX_DEPTH` -/
  pix : Word
  /-- CAP_TD, `TD_DEPTH` -/
  td : Word
  /-- CAP_REFS, `REFS_DEPTH` -/
  refs : Word
  /-- CAP_TH, `TH_DEPTH` -/
  th : Word
  /-- CAP_BITQ, `BITQ_DEPTH` -/
  bitq : Word
  /-- CAP_HASH, `HASH_BITS_MAX` -/
  hash : Word
deriving DecidableEq, Repr

/-- The constraints of R5 on the implementation parameters. -/
def Caps.legal (c : Caps) : Bool :=
  decide (1 ≤ c.pix.toNat) && decide (c.pix.toNat ≤ 16383 * 16383) && decide (1 ≤ c.td.toNat) &&
  decide (1 ≤ c.refs.toNat) && decide (1 ≤ c.th.toNat) && decide (1 ≤ c.bitq.toNat) &&
  decide (1 ≤ c.hash.toNat) && decide (c.hash.toNat ≤ 32)

/-- DESIGN CHOICE (log 1): the parameters of the reset state are those of test instance T
(spec/95_test_vectors.md, "Test instance"). -/
def Config.instanceT : Caps :=
  { pix := 4096, td := 64, refs := 4096, th := 4, bitq := 64, hash := 18 }

/-- Free value (U1, U2; R381, R382; log 2): what the element at host word `index` of local memory `id` holds after
draw number `epoch` left that memory unspecified, before a write to it. It is stable until written. -/
opaque Config.unspecElem (epoch id index : Nat) : Word

/-- Free value (U3; R383; log 10): the data a host read returns when it overlaps a hard reset. -/
opaque Config.unspecRead (draw : Nat) : Word

/-- Free value (U4; R222; log 7): the stream of records `(w0, w1)` an implementation's Box search proposes for
`BOX(PIX[0..N-1], WIDTH, HEIGHT, CACHE_BITS, MAX_LEN, WINDOW)`; `draw` makes every use a fresh value. -/
opaque Config.boxStream (draw : Nat) (pix : List Word) (width height cacheBits maxLen window : Nat) :
    List (Word × Word)

/-- R8: number of distance prefix codes. -/
def numDistanceCodes : Nat := 40
/-- R8: number of length prefix codes. -/
def numLengthCodes : Nat := 24
/-- R8: number of green values at the head of the literal array. -/
def numLiteralCodes : Nat := 256
/-- R8: largest CACHE_BITS. -/
def maxCacheBits : Nat := 10
/-- R8: an image dimension of this size or more is an input error. -/
def maxDimension : Nat := 16384
/-- R8: the hash multiplier. -/
def hashMul : Word := 0x1E35A7BD
/-- R8: size of the largest alphabet. -/
def nsymMax : Nat := 1304
/-- R8: size of the code-length alphabet. -/
def codeLengthCodes : Nat := 19
/-- R8, R53: the marker for "no back-pointer". -/
def noneMark : Word := 0xFFFFFFFF
/-- R8: the prediction of mode 0. -/
def black : Word := 0xFF000000
/-- R154: the largest length the 24 length codes carry, and the bound of MAX_LEN (R42). -/
def maxLength : Nat := 4096
/-- R154: the largest distance the 40 distance codes carry, and the bound of WINDOW (R42). -/
def maxDistance : Nat := 1048576

end Sys2Proof
end

