-- ==== Sys2Proof/Machine/Helpers.lean ====
section
/-!
DEFINITION. The internal helper functions of spec/40_helpers.md R150 to R156 and the Pixel's channels
(spec/00_scope.md R7).
-/

namespace Sys2Proof.Machine

/-- R7: the blue channel, bits 7:0. -/
def blueOf (p : Word) : Nat := (p.extractLsb' 0 8).toNat
/-- R7: the green channel, bits 15:8. -/
def greenOf (p : Word) : Nat := (p.extractLsb' 8 8).toNat
/-- R7: the red channel, bits 23:16. -/
def redOf (p : Word) : Nat := (p.extractLsb' 16 8).toNat
/-- R7: the alpha channel, bits 31:24. -/
def alphaOf (p : Word) : Nat := (p.extractLsb' 24 8).toNat

/-- R7: `PACK(b, g, r, a)` of channel values 0 to 255. -/
def pack (b g r a : Nat) : Word := BitVec.ofNat 8 a ++ BitVec.ofNat 8 r ++ BitVec.ofNat 8 g ++ BitVec.ofNat 8 b

/-- R159: a channel-wise operation on two Pixels. -/
def lanes2 (f : Nat → Nat → Nat) (p q : Word) : Word :=
  pack (f (blueOf p) (blueOf q)) (f (greenOf p) (greenOf q)) (f (redOf p) (redOf q)) (f (alphaOf p) (alphaOf q))

/-- R159: a channel-wise operation on three Pixels. -/
def lanes3 (f : Nat → Nat → Nat → Nat) (p q s : Word) : Word :=
  pack (f (blueOf p) (blueOf q) (blueOf s)) (f (greenOf p) (greenOf q) (greenOf s))
    (f (redOf p) (redOf q) (redOf s)) (f (alphaOf p) (alphaOf q) (alphaOf s))

/-- R159: a sum over the four channels. -/
def lanesSum (f : Nat → Nat → Nat) (p q : Word) : Nat :=
  f (blueOf p) (blueOf q) + f (greenOf p) (greenOf q) + f (redOf p) (redOf q) + f (alphaOf p) (alphaOf q)

/-- R150: the channel-wise difference modulo 256. -/
def subPixels (a b : Word) : Word := lanes2 (fun x y => (x + 256 - y) % 256) a b

/-- R300: the channel-wise sum modulo 256, which undoes `subPixels`. -/
def addPixels (a b : Word) : Word := lanes2 (fun x y => (x + y) % 256) a b

/-- R151: `ceil(size / 2^bits)`. -/
def subSampleSize (size bits : Nat) : Nat := (size + (1 <<< bits) - 1) >>> bits

/-- R152: the position of the most significant 1 bit. -/
def bitsLog2Floor (x : Nat) : Nat := Nat.log2 x

/-- R153: the loop of `flog2`: `count` fraction bits are still to be computed, of mantissa `m`. -/
def flog2Loop : Nat → Nat → Nat → Nat
  | 0, _, r => r
  | k + 1, m, r =>
    let sq := (m * m) >>> 31
    if 4294967296 ≤ sq then flog2Loop k (sq >>> 1) (r ||| (1 <<< k)) else flog2Loop k sq r

/-- R153: the base-2 logarithm with 16 fraction bits. -/
def flog2 (x : Nat) : Nat :=
  let e := bitsLog2Floor x
  flog2Loop 16 (x <<< (31 - e)) (e <<< 16)

/-- R154: `(code, extra, n)` of `prefix_encode`. -/
structure PrefixCode where
  code : Nat
  extra : Nat
  nbits : Nat
deriving DecidableEq, Repr

/-- R154: the prefix coding of a length or a distance `v ≥ 1`. -/
def prefixEncode (v : Nat) : PrefixCode :=
  let d := v - 1
  if d < 2 then ⟨d, 0, 0⟩
  else
    let hb := bitsLog2Floor d
    let sb := (d >>> (hb - 1)) % 2
    let n := hb - 1
    ⟨2 * hb + sb, d % 2 ^ n, n⟩

/-- R155: the multiplicative hash of a word, `bits` wide. -/
def hashOf (v : Word) (bits : Nat) : Nat := ((v * hashMul) >>> (32 - bits)).toNat

/-- R156: the `n` low bits of `v` in reverse order. -/
def rev : Nat → Nat → Nat
  | _, 0 => 0
  | v, n + 1 => (v % 2) * 2 ^ n + rev (v / 2) n

end Sys2Proof.Machine
end

