-- ==== Sys2Proof/Syntax.lean ====
section
/-!
DEFINITION. The commands of HCLB: one constructor per row of spec/opcode_table.json (spec/30_encoding.md R123). A
constructor's arguments are the bits the row leaves free; a value the row's "further condition" excludes can be
written here and is refused by `Instr.wf`.
-/

namespace Sys2Proof

/-- A command word's contents (R120, R123). -/
inductive Instr where
  /-- `NOP`, R340 -/
  | nop
  /-- `HUF.BUILD L`, R171: `L` is the free part of field `a`, bits 19:16. -/
  | hufBuild (L : BitVec 4)
  /-- `HUF.RLE`, R180 -/
  | hufRle
  /-- `HUF.STORE`, R186 -/
  | hufStore
  /-- `LZ.FILL`, R212 -/
  | lzFill
  /-- `LZ.REFS f`, R217: the flavor, bits 17:16. -/
  | lzRefs (f : BitVec 2)
  /-- `HIST.BUILD`, R252 -/
  | histBuild
  /-- `HIST.CLUSTER`, R262 -/
  | histCluster
  /-- `HIST.EXPORT arr, k`, R268: the array, bits 18:16, and the histogram index, bits 15:0. -/
  | histExport (arr : BitVec 3) (k : BitVec 16)
  /-- `HIST.ENTROPY`, R270 -/
  | histEntropy
  /-- `PRED.RESID`, R292 -/
  | predResid
  /-- `PMAP.BUILD`, R322 -/
  | pmapBuild
  /-- `PMAP.QUERY`, R330 -/
  | pmapQuery
deriving DecidableEq, Repr

end Sys2Proof
end

