-- ==== Sys2Proof/WellFormed.lean ====
section
/-!
DEFINITION. Which commands are legal: the column "further condition for a legal word" of spec/30_encoding.md R123.
-/

namespace Sys2Proof

/-- R123, R125 (c) (d) (e): HUF.BUILD needs `L` not 0, LZ.REFS a flavor 0, 1 or 2, HIST.EXPORT an array 0 to 4. -/
def Instr.wf : Instr → Bool
  | .nop => true
  | .hufBuild L => L != 0
  | .hufRle => true
  | .hufStore => true
  | .lzFill => true
  | .lzRefs f => f != 3
  | .histBuild => true
  | .histCluster => true
  | .histExport arr _ => decide (arr.toNat ≤ 4)
  | .histEntropy => true
  | .predResid => true
  | .pmapBuild => true
  | .pmapQuery => true

end Sys2Proof
end

