-- ==== Sys2Proof/Decode.lean ====
section
/-!
DEFINITION. The command word's encoding (spec/30_encoding.md R120 to R126): the opcode map of R123 row by row, the
decoder, total on every 32-bit word and rejecting by name, and the encoder.
-/

namespace Sys2Proof

/-- Why a command word is not legal (R124, R125). Each of them ends the command in `E_ILLEGAL` (R353). -/
inductive DecodeError where
  /-- R125 (a): no row has this `op`. -/
  | unallocatedOp
  /-- R125 (b): a bit the row's mask requires to be zero is not (an unused field, or a used argument too wide). -/
  | mustBeZero
  /-- R125 (c) (d) (e): the row's further condition fails. -/
  | argumentExcluded
deriving DecidableEq, Repr

/-- One row of the opcode map (R123): a word `w` has the row's fixed bits when `w &&& mask = pattern`. -/
structure OpcodeRow where
  mask : Word
  pattern : Word
deriving DecidableEq, Repr

/-- R123, the columns mask and match. -/
def Instr.row : Instr → OpcodeRow
  | .nop => ⟨0xFFFFFFFF, 0x00000000⟩
  | .hufBuild _ => ⟨0xFFF0FFFF, 0x10000000⟩
  | .hufRle => ⟨0xFFFFFFFF, 0x11000000⟩
  | .hufStore => ⟨0xFFFFFFFF, 0x12000000⟩
  | .lzFill => ⟨0xFFFFFFFF, 0x20000000⟩
  | .lzRefs _ => ⟨0xFFFCFFFF, 0x21000000⟩
  | .histBuild => ⟨0xFFFFFFFF, 0x30000000⟩
  | .histCluster => ⟨0xFFFFFFFF, 0x31000000⟩
  | .histExport _ _ => ⟨0xFFF80000, 0x32000000⟩
  | .histEntropy => ⟨0xFFFFFFFF, 0x33000000⟩
  | .predResid => ⟨0xFFFFFFFF, 0x40000000⟩
  | .pmapBuild => ⟨0xFFFFFFFF, 0x50000000⟩
  | .pmapQuery => ⟨0xFFFFFFFF, 0x51000000⟩

/-- R120: the field `op`, bits 31:24. -/
def opField (w : Word) : BitVec 8 := w.extractLsb' 24 8
/-- R120, R122: the field `a`, bits 23:16. -/
def aField (w : Word) : BitVec 8 := w.extractLsb' 16 8
/-- R120, R122: the field `b`, bits 15:0. -/
def bField (w : Word) : BitVec 16 := w.extractLsb' 0 16

/-- R123: the row that `op` selects, its arguments filled in from the word. -/
def rowOf (w : Word) : Option Instr :=
  match (opField w).toNat with
  | 0x00 => some .nop
  | 0x10 => some (.hufBuild ((aField w).extractLsb' 0 4))
  | 0x11 => some .hufRle
  | 0x12 => some .hufStore
  | 0x20 => some .lzFill
  | 0x21 => some (.lzRefs ((aField w).extractLsb' 0 2))
  | 0x30 => some .histBuild
  | 0x31 => some .histCluster
  | 0x32 => some (.histExport ((aField w).extractLsb' 0 3) (bField w))
  | 0x33 => some .histEntropy
  | 0x40 => some .predResid
  | 0x50 => some .pmapBuild
  | 0x51 => some .pmapQuery
  | _ => none

/-- R124: a word is legal when a row exists, its must-be-zero bits are zero and its further condition holds. -/
def decode (w : Word) : Except DecodeError Instr :=
  match rowOf w with
  | none => .error .unallocatedOp
  | some i =>
    if w &&& i.row.mask = i.row.pattern then
      if i.wf then .ok i else .error .argumentExcluded
    else .error .mustBeZero

/-- R120: the command word of the three fields. -/
def commandWord (op a : BitVec 8) (b : BitVec 16) : Word := op ++ a ++ b

/-- R123: the fields `op`, `a` and `b` of a command; an unused argument field is zero (R121). -/
def encode : Instr → Word
  | .nop => commandWord 0x00 0 0
  | .hufBuild L => commandWord 0x10 (L.setWidth 8) 0
  | .hufRle => commandWord 0x11 0 0
  | .hufStore => commandWord 0x12 0 0
  | .lzFill => commandWord 0x20 0 0
  | .lzRefs f => commandWord 0x21 (f.setWidth 8) 0
  | .histBuild => commandWord 0x30 0 0
  | .histCluster => commandWord 0x31 0 0
  | .histExport arr k => commandWord 0x32 (arr.setWidth 8) k
  | .histEntropy => commandWord 0x33 0 0
  | .predResid => commandWord 0x40 0 0
  | .pmapBuild => commandWord 0x50 0 0
  | .pmapQuery => commandWord 0x51 0 0

/-- The command read from a table row's word: a command is one 32-bit word delivered whole (R126), so the word is
its own layout; bits at and above `nbits` are 0. -/
def decodeTableWord (nbits w : Nat) : Option Instr :=
  (decode (BitVec.ofNat 32 (w % 2 ^ nbits))).toOption

end Sys2Proof
end

