-- ==== Sys2Proof/Machine/State.lean ====
section
/-!
DEFINITION. The state of one HCLB instance as plain data: the registers of spec/10_state.md R32, the sixteen local
memories of R50, the capability constants of R40, and the model's own bookkeeping (whose turn it is, the data the last
host read returned, the draws of free values). Also the reasons a step can stop, and the state after reset.
-/

namespace Sys2Proof.Machine

/-- The sixteen local memories (R50), in the order of their ids 0 to 15. -/
inductive MemId where
  | pix | tdata | chain | ccache | refs | th | syms | hcnt
  | clen | code | tok | bitq | pal | pmatch | taken | same
deriving DecidableEq, Repr

/-- One local memory. `cells` lists the host words written since the memory was last left unspecified, by host word
index (R96); an unlisted word reads as the free value of draw `epoch` (R381, log 2). One cell is one 32-bit host word,
the smallest unit the spec gives (log 3). -/
structure Memory where
  epoch : Nat
  cells : List (Nat × Word)
deriving DecidableEq, Repr

/-- The sixteen local memories of R50. -/
structure Mems where
  /-- id 0, R51 -/
  pix : Memory
  /-- id 1, R52 -/
  tdata : Memory
  /-- id 2, R53 -/
  chain : Memory
  /-- id 3, R54 -/
  ccache : Memory
  /-- id 4, R55 -/
  refs : Memory
  /-- id 5, R56 -/
  th : Memory
  /-- id 6, R57 -/
  syms : Memory
  /-- id 7, R58 -/
  hcnt : Memory
  /-- id 8, R59 -/
  clen : Memory
  /-- id 9, R60 -/
  code : Memory
  /-- id 10, R61 -/
  tok : Memory
  /-- id 11, R62 -/
  bitq : Memory
  /-- id 12, R63 -/
  pal : Memory
  /-- id 13, R64 -/
  pmatch : Memory
  /-- id 14, R65 -/
  taken : Memory
  /-- id 15, R66 -/
  same : Memory
deriving DecidableEq, Repr

/-- The registers that hold a value (R32). ID is a constant, CMD and MEM_DATA hold nothing, and the capability
registers are in `Caps`. -/
structure Regs where
  /-- CTRL.IE_DONE, R34 -/
  ieDone : Bool
  /-- CTRL.IE_ERR, R34 -/
  ieErr : Bool
  /-- STATUS.BUSY, R35 -/
  busy : Bool
  /-- STATUS.DONE, R35 -/
  done : Bool
  /-- STATUS.ERR, R35 -/
  err : Bool
  /-- STATUS.ACCV, R35 -/
  accv : Bool
  /-- STATUS.ERRCODE, R35 -/
  errCode : BitVec 8
  /-- LASTCMD, R37 -/
  lastCmd : Word
  /-- ERRINFO, R38 -/
  errInfo : Word
  /-- CMDCNT, R39 -/
  cmdCnt : Word
  /-- MEM_SEL, R41: only bits 3:0 are stored. -/
  memSel : BitVec 4
  /-- MEM_IDX, R41 -/
  memIdx : Word
  /-- WIDTH, R42 -/
  width : Word
  /-- HEIGHT, R42 -/
  height : Word
  /-- NSYM, R42 -/
  nsym : Word
  /-- CACHE_BITS, R42 -/
  cacheBits : Word
  /-- HISTO_BITS, R42 -/
  histoBits : Word
  /-- PRED_BITS, R42 -/
  predBits : Word
  /-- HASH_BITS, R42 -/
  hashBits : Word
  /-- MAX_CHAIN, R42 -/
  maxChain : Word
  /-- WINDOW, R42 -/
  window : Word
  /-- MAX_LEN, R42 -/
  maxLen : Word
  /-- PAL_SIZE, R42 -/
  palSize : Word
  /-- ENT_CORR, R42 -/
  entCorr : Word
  /-- QPIX, R42 -/
  qpix : Word
  /-- NREFS, R43 -/
  nrefs : Word
  /-- NTOK, R43 -/
  ntok : Word
  /-- NHISTO, R43 -/
  nhisto : Word
  /-- NBITQ, R43 -/
  nbitq : Word
  /-- RES0, R43 -/
  res0 : Word
  /-- RES1, R43 -/
  res1 : Word
  /-- QIDX, R43 -/
  qidx : Word
  /-- QPAL, R43 -/
  qpal : Word
deriving DecidableEq, Repr

/-- The size of a host access (R92, R94). -/
inductive AccessWidth where
  | byte | half | word
deriving DecidableEq, Repr

/-- One access by the host to the register space, at a byte offset (R92, R94). -/
inductive HostAccess where
  | read (width : AccessWidth) (offset : Nat)
  | write (width : AccessWidth) (offset : Nat) (value : Word)
deriving DecidableEq, Repr

/-- Whose move is next (R11, R93, R107; log 4): a host access, the block, or the reset input. A hard reset may overlap
a host access (R383). -/
inductive Turn where
  | host (access : HostAccess)
  | block
  | hardReset (overlapped : Option HostAccess)
deriving DecidableEq, Repr

/-- The state of one HCLB instance. -/
structure State where
  /-- The capability constants, R40. -/
  caps : Caps
  /-- The registers, R32. -/
  regs : Regs
  /-- The local memories, R50. -/
  mems : Mems
  /-- MODEL: the data the most recent host read returned (log 13). -/
  rdata : Word
  /-- MODEL: the turns still to come, the next one first; when it is empty the block moves (log 4). -/
  agenda : List Turn
  /-- MODEL: the number of the next draw of a free value (log 20). -/
  fresh : Nat
deriving DecidableEq, Repr

/-- Why a step stops with a fault: never. Every command word and every host access has a described outcome
(spec/93_implementation_defined.md, "HCLB has no undefined behaviour"), and an error of a command is a next state
(R352); so there is no constructor (log 15). -/
inductive Fault where
deriving DecidableEq, Repr

/-- Why a step is refused. -/
inductive Refusal where
  /-- Raised by `exec` for a command that has no meaning yet; no arm does so. Safe: the step stops. -/
  | notModelled (mnemonic : String)
deriving DecidableEq, Repr

/-- R380: the registers after either reset. -/
def Regs.reset : Regs :=
  { ieDone := false, ieErr := false, busy := false, done := false, err := false, accv := false, errCode := 0,
    lastCmd := 0, errInfo := 0, cmdCnt := 0, memSel := 0, memIdx := 0, width := 0, height := 0, nsym := 0,
    cacheBits := 0, histoBits := 0, predBits := 0, hashBits := 0, maxChain := 0, window := 0, maxLen := 0,
    palSize := 0, entCorr := 0, qpix := 0, nrefs := 0, ntok := 0, nhisto := 0, nbitq := 0, res0 := 0, res1 := 0,
    qidx := 0, qpal := 0 }

/-- R381: a memory whose every element is unspecified, as draw `epoch` leaves it. -/
def Memory.unspecified (epoch : Nat) : Memory := { epoch := epoch, cells := [] }

/-- R381: all sixteen memories unspecified. -/
def Mems.unspecified (epoch : Nat) : Mems :=
  let m := Memory.unspecified epoch
  { pix := m, tdata := m, chain := m, ccache := m, refs := m, th := m, syms := m, hcnt := m, clen := m, code := m,
    tok := m, bitq := m, pal := m, pmatch := m, taken := m, same := m }

/-- R380, R381: the state after hard reset of an instance with parameters `caps`. The model's own fields are
DESIGN CHOICE: no turn waits (log 5), no read data yet (log 13), the draws begin at 0 (log 20). -/
def State.resetWith (caps : Caps) : State :=
  { caps := caps, regs := Regs.reset, mems := Mems.unspecified 0, rdata := 0, agenda := [], fresh := 1 }

/-- R380, R381: the state after hard reset. DESIGN CHOICE (log 1): the instance is T of spec/95_test_vectors.md. -/
def State.reset : State := State.resetWith Config.instanceT

end Sys2Proof.Machine
end

