-- ==== Sys2Proof/Machine/Ops.lean ====
section
/-!
DEFINITION. The operations every command and every host access is made of: the local memories by host word
(spec/20_memory.md R96 to R99, R103), acceptance, completion and error completion of a command
(spec/00_scope.md R13, R14; spec/60_exceptions.md R352), the return from an error (R356), the two resets
(spec/70_reset_and_hazards.md R380 to R383), and the tuple "pre-checks, then effect" (R351).
-/

namespace Sys2Proof.Machine

/-! ### The memories' shapes -/

/-- R50: the memory id. -/
def MemId.num : MemId → Nat
  | .pix => 0 | .tdata => 1 | .chain => 2 | .ccache => 3 | .refs => 4 | .th => 5 | .syms => 6 | .hcnt => 7
  | .clen => 8 | .code => 9 | .tok => 10 | .bitq => 11 | .pal => 12 | .pmatch => 13 | .taken => 14 | .same => 15

/-- R95: the memory MEM_SEL selects; all sixteen values are valid ids. -/
def MemId.ofSel (sel : BitVec 4) : MemId :=
  match sel.toNat with
  | 0 => .pix | 1 => .tdata | 2 => .chain | 3 => .ccache | 4 => .refs | 5 => .th | 6 => .syms | 7 => .hcnt
  | 8 => .clen | 9 => .code | 10 => .tok | 11 => .bitq | 12 => .pal | 13 => .pmatch | 14 => .taken | _ => .same

/-- R56: host words (counters) of one histogram record. -/
def histWords : Nat := 2112

/-- R50: host words per element. -/
def MemId.wordsPer : MemId → Nat
  | .refs => 2 | .bitq => 2 | .th => histWords
  | _ => 1

/-- R50: depth in elements. -/
def MemId.depth (c : Caps) : MemId → Nat
  | .pix => c.pix.toNat | .tdata => c.td.toNat | .chain => c.pix.toNat | .ccache => 1024
  | .refs => c.refs.toNat | .th => c.th.toNat | .syms => c.th.toNat | .hcnt => nsymMax
  | .clen => nsymMax | .code => nsymMax | .tok => nsymMax | .bitq => c.bitq.toNat
  | .pal => 256 | .pmatch => 65536 | .taken => 65536 | .same => 256

/-- R96: the window size, depth times host words per element. -/
def MemId.windowSize (c : Caps) (id : MemId) : Nat := id.depth c * id.wordsPer

/-- R99: the bits of a host word that the element at host word `index` stores; the others read 0 (R59 to R66). -/
def MemId.widthMask (id : MemId) (index : Nat) : Word :=
  match id with
  | .clen => 0x0000000F
  | .code => 0x0000FFFF
  | .tok => 0x00007F1F
  | .bitq => if index % 2 = 1 then 0x0000003F else 0xFFFFFFFF
  | .pmatch => 0x000000FF
  | .taken => 0x00000001
  | .same => 0x00000001
  | _ => 0xFFFFFFFF

/-- R99: what storing `v` at host word `index` keeps of it. -/
def MemId.keep (id : MemId) (index : Nat) (v : Word) : Word := v &&& id.widthMask index

/-! ### One memory -/

/-- The word written at a host word index, or nothing when the memory is unspecified there. -/
def Memory.get? (m : Memory) (index : Nat) : Option Word := m.cells.lookup index

/-- R381: the value an unwritten host word reads as, inside the element's width. -/
def Memory.background (m : Memory) (id : MemId) (index : Nat) : Word :=
  id.keep index (Config.unspecElem m.epoch id.num index)

/-- R97, R103: the value of a host word. -/
def Memory.read (m : Memory) (id : MemId) (index : Nat) : Word :=
  (m.get? index).getD (m.background id index)

/-- The words from `start` on, `count` of them, of a memory whose cells from `start` on are `cells`. -/
def Memory.slice (background : Nat → Word) : List (Nat × Word) → Nat → Nat → List Word
  | _, _, 0 => []
  | [], start, count + 1 => background start :: Memory.slice background [] (start + 1) count
  | (k, v) :: cells, start, count + 1 =>
    if k = start then v :: Memory.slice background cells (start + 1) count
    else background start :: Memory.slice background ((k, v) :: cells) (start + 1) count

/-- R103: the values of `count` consecutive host words. On a canonical memory (`Memory.wf`) each of them is
`Memory.read` (`Laws/Memory.lean`, `Memory.readRange_getElem?`). -/
def Memory.readRange (m : Memory) (id : MemId) (start count : Nat) : List Word :=
  Memory.slice (m.background id) (m.cells.filter (fun c => decide (start ≤ c.1))) start count

/-- The cells of consecutive host words from `start` on, each cut to its element's width (R99). -/
def Memory.rangeCells (id : MemId) : Nat → List Word → List (Nat × Word)
  | _, [] => []
  | start, v :: vs => (start, id.keep start v) :: Memory.rangeCells id (start + 1) vs

/-- R99, R103: consecutive host words written from `start` on; every other word keeps its value. -/
def Memory.writeRange (m : Memory) (id : MemId) (start : Nat) (vs : List Word) : Memory :=
  { epoch := m.epoch
    cells := m.cells.filter (fun c => decide (c.1 < start)) ++ Memory.rangeCells id start vs ++
      m.cells.filter (fun c => decide (start + vs.length ≤ c.1)) }

/-- Addresses strictly rising. -/
def Memory.rising : List (Nat × Word) → Bool
  | [] => true
  | [_] => true
  | a :: b :: rest => decide (a.1 < b.1) && Memory.rising (b :: rest)

/-- The one canonical form of a memory: addresses strictly rising, every listed value inside its element's width
(R59 to R66). An unlisted word has no value of its own (`Memory.get?` answers none), so no listed value can equal it. -/
def Memory.wf (id : MemId) (m : Memory) : Bool :=
  Memory.rising m.cells && m.cells.all (fun c => id.keep c.1 c.2 == c.2)

/-- R103: every listed word lies below the memory's window size. -/
def Memory.inside (c : Caps) (id : MemId) (m : Memory) : Bool :=
  m.cells.all (fun e => decide (e.1 < id.windowSize c))

/-! ### The sixteen memories in the state -/

/-- The memory with an id. -/
def Mems.get (ms : Mems) : MemId → Memory
  | .pix => ms.pix | .tdata => ms.tdata | .chain => ms.chain | .ccache => ms.ccache | .refs => ms.refs
  | .th => ms.th | .syms => ms.syms | .hcnt => ms.hcnt | .clen => ms.clen | .code => ms.code | .tok => ms.tok
  | .bitq => ms.bitq | .pal => ms.pal | .pmatch => ms.pmatch | .taken => ms.taken | .same => ms.same

/-- The memories with one replaced. -/
def Mems.set (ms : Mems) (id : MemId) (m : Memory) : Mems :=
  match id with
  | .pix => { ms with pix := m } | .tdata => { ms with tdata := m } | .chain => { ms with chain := m }
  | .ccache => { ms with ccache := m } | .refs => { ms with refs := m } | .th => { ms with th := m }
  | .syms => { ms with syms := m } | .hcnt => { ms with hcnt := m } | .clen => { ms with clen := m }
  | .code => { ms with code := m } | .tok => { ms with tok := m } | .bitq => { ms with bitq := m }
  | .pal => { ms with pal := m } | .pmatch => { ms with pmatch := m } | .taken => { ms with taken := m }
  | .same => { ms with same := m }

/-- R10 `M[i]`: the value of one host word of a memory. -/
def State.readWord (s : State) (id : MemId) (index : Nat) : Word := (s.mems.get id).read id index

/-- R10: the values of consecutive host words of a memory. -/
def State.readWords (s : State) (id : MemId) (start count : Nat) : List Word :=
  (s.mems.get id).readRange id start count

/-- R10: the values of consecutive host words, as numbers. -/
def State.readNats (s : State) (id : MemId) (start count : Nat) : List Nat :=
  (s.readWords id start count).map BitVec.toNat

/-- R10 `M[i] <- v`, for consecutive host words of a memory. -/
def State.writeWords (s : State) (id : MemId) (start : Nat) (vs : List Word) : State :=
  { s with mems := s.mems.set id ((s.mems.get id).writeRange id start vs) }

/-- R10: consecutive host words written with numbers that fit them. -/
def State.writeNats (s : State) (id : MemId) (start : Nat) (vs : List Nat) : State :=
  s.writeWords id start (vs.map (BitVec.ofNat 32))

/-- R381, R382: the named memories become unspecified, by draw `epoch`. -/
def Mems.forget (epoch : Nat) : List MemId → Mems → Mems
  | [], ms => ms
  | id :: ids, ms => Mems.forget epoch ids (ms.set id (Memory.unspecified epoch))

/-! ### Registers by name -/

/-- The names of the register map (R32). -/
inductive Reg where
  | id | ctrl | status | cmd | lastcmd | errinfo | cmdcnt | memSel | memIdx | memData
  | capPix | capTd | capRefs | capTh | capBitq | capHash
  | width | height | nsym | cacheBits | histoBits | predBits | hashBits | maxChain | window | maxLen
  | palSize | entCorr | qpix
  | nrefs | ntok | nhisto | nbitq | res0 | res1 | qidx | qpal
deriving DecidableEq, Repr

/-- R32: the byte offset of a register. -/
def Reg.offset : Reg → Nat
  | .id => 0x00 | .ctrl => 0x08 | .status => 0x0C | .cmd => 0x10 | .lastcmd => 0x14 | .errinfo => 0x18
  | .cmdcnt => 0x1C | .memSel => 0x20 | .memIdx => 0x24 | .memData => 0x28
  | .capPix => 0x30 | .capTd => 0x34 | .capRefs => 0x38 | .capTh => 0x3C | .capBitq => 0x40 | .capHash => 0x44
  | .width => 0x80 | .height => 0x84 | .nsym => 0x88 | .cacheBits => 0x8C | .histoBits => 0x90
  | .predBits => 0x94 | .hashBits => 0x98 | .maxChain => 0x9C | .window => 0xA0 | .maxLen => 0xA4
  | .palSize => 0xA8 | .entCorr => 0xAC | .qpix => 0xB0
  | .nrefs => 0xC0 | .ntok => 0xC4 | .nhisto => 0xC8 | .nbitq => 0xCC | .res0 => 0xD0 | .res1 => 0xD4
  | .qidx => 0xD8 | .qpal => 0xDC

/-! ### The life of a command -/

/-- R350: the error classes. -/
inductive ErrorCode where
  | illegal | dim | param | resource | stream | kraft | range
deriving DecidableEq, Repr

/-- R350: the value of STATUS.ERRCODE. -/
def ErrorCode.num : ErrorCode → BitVec 8
  | .illegal => 0x01 | .dim => 0x02 | .param => 0x03 | .resource => 0x04 | .stream => 0x05 | .kraft => 0x06
  | .range => 0x07

/-- R10 `raise E_X(info)`: an error and its information word. -/
structure CmdError where
  code : ErrorCode
  info : Word
deriving DecidableEq, Repr

/-- R13 (1), R36: acceptance of a command word: LASTCMD latched, BUSY set, DONE cleared. The snapshot of the parameter
registers needs no state of its own (log 6). MODEL: each accepted command gets a draw of free values of its own, which
only flavor Box of LZ.REFS looks at (log 7, log 20). -/
def State.issue (s : State) (w : Word) : State :=
  { s with regs := { s.regs with lastCmd := w, busy := true, done := false }, fresh := s.fresh + 1 }

/-- R13 (3), R39: successful completion: DONE set, BUSY cleared, CMDCNT incremented modulo 2^32. -/
def State.complete (s : State) : State :=
  { s with regs := { s.regs with done := true, busy := false, cmdCnt := s.regs.cmdCnt + 1 } }

/-- R352, the whole of HCLB's trap entry: ERRCODE, ERRINFO and ERR written, BUSY cleared, nothing else. -/
def State.errorComplete (s : State) (e : CmdError) : State :=
  { s with regs := { s.regs with errCode := e.code.num, errInfo := e.info, err := true, busy := false } }

/-- R356, the return from an error: ERR, ERRCODE and ERRINFO cleared. -/
def State.acknowledgeError (s : State) : State :=
  { s with regs := { s.regs with err := false, errCode := 0, errInfo := 0 } }

/-- R362: the record of a refused host access. -/
def State.setAccv (s : State) : State := { s with regs := { s.regs with accv := true } }

/-- One pre-check (R351): the error when the condition fails. -/
def need (ok : Bool) (e : CmdError) : Option CmdError := if ok then none else some e

/-- R351, R352: a command whose first failing pre-check is `err`, and whose effect is `effect` when none fails. -/
def runCommand (s : State) (err : Option CmdError) (effect : State) : Host.Outcome State Fault Refusal :=
  match err with
  | some e => .next (s.errorComplete e)
  | none => .next effect.complete

/-- R353: the pre-check every command begins with; a command whose word is not legal has `ERRINFO` = the word. -/
def needLegal (i : Instr) : Option CmdError := need i.wf ⟨.illegal, encode i⟩

/-! ### Resets -/

/-- R382, R50: the memories a command's rule lists under "Writes". -/
def memoriesWritten : Instr → List MemId
  | .nop => []
  | .hufBuild _ => [.clen, .code]
  | .hufRle => [.tok]
  | .hufStore => [.bitq, .tok]
  | .lzFill => [.chain]
  | .lzRefs _ => [.refs, .ccache]
  | .histBuild => [.th, .syms]
  | .histCluster => [.th, .syms]
  | .histExport _ _ => [.hcnt]
  | .histEntropy => []
  | .predResid => [.pix, .tdata]
  | .pmapBuild => [.pmatch, .taken, .same]
  | .pmapQuery => []

/-- The memories the command in flight would have written; an illegal word writes none (R353; log 9). -/
def inFlightWrites (w : Word) : List MemId :=
  match decode w with
  | .ok i => memoriesWritten i
  | .error _ => []

/-- R382, soft reset: every register takes its reset value; when a command was in flight it is abandoned and the
memories it would have written become unspecified. -/
def State.softReset (s : State) : State :=
  if s.regs.busy then
    { s with
      regs := Regs.reset
      mems := Mems.forget s.fresh (inFlightWrites s.regs.lastCmd) s.mems
      fresh := s.fresh + 1 }
  else { s with regs := Regs.reset }

/-- R383, U3: the data of a host access that a hard reset overlaps: a read returns a free value. -/
def State.overlapData (s : State) : Option HostAccess → Word
  | some (.read _ _) => Config.unspecRead s.fresh
  | some (.write _ _ _) => s.rdata
  | none => s.rdata

/-- R380, R381, R383, hard reset: every register takes its reset value and every memory becomes unspecified. -/
def State.hardReset (s : State) (overlapped : Option HostAccess) : State :=
  { s with
    regs := Regs.reset
    mems := Mems.unspecified s.fresh
    rdata := s.overlapData overlapped
    fresh := s.fresh + 1 }

end Sys2Proof.Machine
end

