-- ==== Sys2Proof/Machine/Operands.lean ====
section
/-!
DEFINITION. The implicit operands of commands, the parameter registers, with the pre-checks on them: the legal ranges
of spec/10_state.md R42, R43 and the errors of spec/60_exceptions.md R354, R355, R357. A command chains the checks its
rule names in test order (R351) with `Option.or`.
-/

namespace Sys2Proof.Machine

/-- The number of pixels `N = WIDTH * HEIGHT` (spec/00_scope.md, glossary). -/
def State.pixelCount (s : State) : Nat := s.regs.width.toNat * s.regs.height.toNat

/-- R355: the error of a register outside its legal range: ERRINFO is its offset. -/
def paramError (r : Reg) : CmdError := ⟨.param, BitVec.ofNat 32 r.offset⟩

/-- R357: the error of a memory too small for the job: ERRINFO is its id. -/
def resourceError (id : MemId) : CmdError := ⟨.resource, BitVec.ofNat 32 id.num⟩

/-- R42, R354: an image dimension is legal from 1 to 16383. -/
def legalDim (v : Word) : Bool := decide (1 ≤ v.toNat) && decide (v.toNat < maxDimension)

/-- R211, R354: `E_DIM`, WIDTH before HEIGHT. -/
def checkDim (s : State) : Option CmdError :=
  (need (legalDim s.regs.width) ⟨.dim, 0⟩).or (need (legalDim s.regs.height) ⟨.dim, 1⟩)

/-- R42: NSYM 1 to 1304. -/
def checkNsym (s : State) : Option CmdError :=
  need (decide (1 ≤ s.regs.nsym.toNat) && decide (s.regs.nsym.toNat ≤ nsymMax)) (paramError .nsym)

/-- R42: CACHE_BITS 0 to 10. -/
def checkCacheBits (s : State) : Option CmdError :=
  need (decide (s.regs.cacheBits.toNat ≤ maxCacheBits)) (paramError .cacheBits)

/-- R42: HISTO_BITS 2 to 9. -/
def checkHistoBits (s : State) : Option CmdError :=
  need (decide (2 ≤ s.regs.histoBits.toNat) && decide (s.regs.histoBits.toNat ≤ 9)) (paramError .histoBits)

/-- R42: PRED_BITS 2 to 9. -/
def checkPredBits (s : State) : Option CmdError :=
  need (decide (2 ≤ s.regs.predBits.toNat) && decide (s.regs.predBits.toNat ≤ 9)) (paramError .predBits)

/-- R42: HASH_BITS 1 to HASH_BITS_MAX. -/
def checkHashBits (s : State) : Option CmdError :=
  need (decide (1 ≤ s.regs.hashBits.toNat) && decide (s.regs.hashBits.toNat ≤ s.caps.hash.toNat))
    (paramError .hashBits)

/-- R42: WINDOW 1 to 1048576. -/
def checkWindow (s : State) : Option CmdError :=
  need (decide (1 ≤ s.regs.window.toNat) && decide (s.regs.window.toNat ≤ maxDistance)) (paramError .window)

/-- R42: MAX_LEN 1 to 4096. -/
def checkMaxLen (s : State) : Option CmdError :=
  need (decide (1 ≤ s.regs.maxLen.toNat) && decide (s.regs.maxLen.toNat ≤ maxLength)) (paramError .maxLen)

/-- R42: PAL_SIZE 1 to 256. -/
def checkPalSize (s : State) : Option CmdError :=
  need (decide (1 ≤ s.regs.palSize.toNat) && decide (s.regs.palSize.toNat ≤ 256)) (paramError .palSize)

/-- R43: NREFS 0 to REFS_DEPTH. -/
def checkNrefs (s : State) : Option CmdError :=
  need (decide (s.regs.nrefs.toNat ≤ s.caps.refs.toNat)) (paramError .nrefs)

/-- R43: NHISTO 1 to TH_DEPTH. -/
def checkNhisto (s : State) : Option CmdError :=
  need (decide (1 ≤ s.regs.nhisto.toNat) && decide (s.regs.nhisto.toNat ≤ s.caps.th.toNat)) (paramError .nhisto)

/-- R43: NBITQ 0 to BITQ_DEPTH. -/
def checkNbitq (s : State) : Option CmdError :=
  need (decide (s.regs.nbitq.toNat ≤ s.caps.bitq.toNat)) (paramError .nbitq)

/-- R357: the job's `elements` fit the memory. -/
def checkFits (s : State) (id : MemId) (elements : Nat) : Option CmdError :=
  need (decide (elements ≤ id.depth s.caps)) (resourceError id)

end Sys2Proof.Machine
end

