-- ==== Sys2Proof/Machine/Lz.lean ====
section
/-!
DEFINITION. The LZ unit (spec/42_lz.md): LZ.FILL (hash chain, R213, R214) and LZ.REFS in the flavors Standard (R219),
RLE (R220) and Box (R222), with the colour cache (R221).
-/

namespace Sys2Proof.Machine

/-- R210: the pixel stream `PIX[0..N-1]`. -/
def State.pixels (s : State) : List Word := s.readWords .pix 0 s.pixelCount

/-! ### LZ.FILL -/

/-- R214: the back-pointers of the pixels from position `p` on, of a stream of `n`; `heads` lists every position
entered so far under its hash, the most recent first, so a lookup is `head[k]`. -/
def fillChain (n bits : Nat) : List Word → Nat → List (Nat × Nat) → List Word
  | [], _, _ => []
  | v :: vs, p, heads =>
    if p + 2 < n then
      let k := hashOf v bits
      ((heads.lookup k).elim noneMark (BitVec.ofNat 32)) :: fillChain n bits vs (p + 1) ((k, p) :: heads)
    else noneMark :: fillChain n bits vs (p + 1) heads

/-- R212: the pre-checks of LZ.FILL. -/
def lzFillError (s : State) : Option CmdError :=
  (needLegal .lzFill).or ((checkDim s).or ((checkHashBits s).or (checkFits s .pix s.pixelCount)))

/-- R212: `LZ.FILL`. -/
def execLzFill (s : State) : Host.Outcome State Fault Refusal :=
  runCommand s (lzFillError s)
    (s.writeWords .chain 0 (fillChain s.pixelCount s.regs.hashBits.toNat s.pixels 0 []))

/-! ### Records -/

/-- R55: a record of a backward-reference stream, two host words. -/
structure RefRec where
  w0 : Word
  w1 : Word
deriving DecidableEq, Repr

/-- R55: `mode`, bits 1:0 of `w0`: 0 Literal, 1 CacheIdx, 2 Copy. -/
def RefRec.mode (r : RefRec) : Nat := (r.w0.extractLsb' 0 2).toNat
/-- R55: bits 15:2 of `w0`, which must be 0. -/
def RefRec.zero (r : RefRec) : Nat := (r.w0.extractLsb' 2 14).toNat
/-- R55: `len`, bits 31:16 of `w0`. -/
def RefRec.len (r : RefRec) : Nat := (r.w0.extractLsb' 16 16).toNat
/-- R55: `val`, the pixel, the cache index or the distance. -/
def RefRec.val (r : RefRec) : Nat := r.w1.toNat

/-- R218: `emit Literal(px)`. -/
def literalRec (px : Word) : RefRec := ⟨0x00010000, px⟩
/-- R218: `emit CacheIdx(i)`. -/
def cacheRec (i : Nat) : RefRec := ⟨0x00010001, BitVec.ofNat 32 i⟩
/-- R218: `emit Copy(l, d)`. -/
def copyRec (l d : Nat) : RefRec := ⟨BitVec.ofNat 32 (l * 65536 + 2), BitVec.ofNat 32 d⟩

/-- R55: the host words of a stream. -/
def refWords (recs : List RefRec) : List Word := recs.flatMap (fun r => [r.w0, r.w1])

/-! ### The colour cache -/

/-- R221: the cleared cache. -/
def clearedCache (cacheBits : Nat) : List Word := if cacheBits = 0 then [] else List.replicate (2 ^ cacheBits) 0

/-- R221: `cache_insert(px)`. -/
def cacheInsert (cacheBits : Nat) (cache : List Word) (px : Word) : List Word :=
  if cacheBits = 0 then cache else cache.set (hashOf px cacheBits) px

/-- R221: whether the cache contains the pixel. -/
def cacheHit (cacheBits : Nat) (cache : List Word) (px : Word) : Bool :=
  decide (0 < cacheBits) && decide (cache[hashOf px cacheBits]? = some px)

/-- R221: the record `emit_pixel(px)` emits. -/
def pixelRec (cacheBits : Nat) (cache : List Word) (px : Word) : RefRec :=
  if cacheHit cacheBits cache px then cacheRec (hashOf px cacheBits) else literalRec px

/-! ### The searches -/

/-- The number of leading words on which two lists agree, limited to `cap`. -/
def commonPrefix : Nat → List Word → List Word → Nat
  | cap + 1, a :: as, b :: bs => if a = b then commonPrefix cap as bs + 1 else 0
  | _, _, _ => 0

/-- R216: `matchlen(q, p, cap)`. -/
def matchLen (px : List Word) (q p cap : Nat) : Nat := commonPrefix cap (px.drop q) (px.drop p)

/-- A match: its length and its distance. -/
structure Match where
  len : Nat
  dist : Nat
deriving DecidableEq, Repr

/-- R219: the walk along the chain from candidate `q`, with `it` candidates still allowed. -/
def chainWalk (px chain : List Word) (p cap window : Nat) : Nat → Word → Match → Match
  | 0, _, best => best
  | it + 1, q, best =>
    if q ≠ noneMark ∧ q.toNat < p ∧ p - q.toNat ≤ window then
      let l := matchLen px q.toNat p cap
      chainWalk px chain p cap window it (chain.getD q.toNat noneMark)
        (if best.len < l then ⟨l, p - q.toNat⟩ else best)
    else best

/-- R219: the match flavor Standard takes at position `p`, of length 3 at least. -/
def standardMatch (px chain : List Word) (maxChain window maxLen p : Nat) : Option Match :=
  let best := chainWalk px chain p (min maxLen (px.length - p)) window maxChain (chain.getD p noneMark) ⟨0, 0⟩
  if 3 ≤ best.len then some best else none

/-- R220: the match flavor RLE takes at position `p`: the run of the previous pixel. -/
def rleMatch (px : List Word) (maxLen p : Nat) : Option Match :=
  if 1 ≤ p ∧ px.getD p 0 = px.getD (p - 1) 0 then
    some ⟨matchLen px (p - 1) p (min maxLen (px.length - p)), 1⟩
  else none

/-- What LZ.REFS makes: the records and the final cache. -/
structure RefsResult where
  recs : List RefRec
  cache : List Word
deriving DecidableEq, Repr

/-- R219, R220: the loop both flavors share. `choose p` is the match taken at `p`; each covered pixel enters the cache
(R221). -/
def emitLoop (px : List Word) (cacheBits : Nat) (choose : Nat → Option Match) :
    Nat → Nat → List Word → RefsResult
  | 0, _, cache => ⟨[], cache⟩
  | fuel + 1, p, cache =>
    if p < px.length then
      match choose p with
      | some m =>
        let rest := emitLoop px cacheBits choose fuel (p + m.len)
          (((px.drop p).take m.len).foldl (cacheInsert cacheBits) cache)
        ⟨copyRec m.len m.dist :: rest.recs, rest.cache⟩
      | none =>
        let v := px.getD p 0
        let rest := emitLoop px cacheBits choose fuel (p + 1) (cacheInsert cacheBits cache v)
        ⟨pixelRec cacheBits cache v :: rest.recs, rest.cache⟩
    else ⟨[], cache⟩

/-- R219: flavor Standard. -/
def refsStandard (px chain : List Word) (cacheBits maxChain window maxLen : Nat) : RefsResult :=
  emitLoop px cacheBits (standardMatch px chain maxChain window maxLen) px.length 0 (clearedCache cacheBits)

/-- R220: flavor RLE. -/
def refsRle (px : List Word) (cacheBits maxLen : Nat) : RefsResult :=
  emitLoop px cacheBits (rleMatch px maxLen) px.length 0 (clearedCache cacheBits)

/-! ### Flavor Box -/

/-- R223, invariants 2 to 5: whether a record may stand at position `pos`, the cache being `cache`. -/
def admissibleAt (px : List Word) (cacheBits maxLen pos : Nat) (cache : List Word) (r : RefRec) : Bool :=
  let v := px.getD pos 0
  decide (r.zero = 0) && decide (1 ≤ r.len) && decide (pos + r.len ≤ px.length) &&
    ((decide (r.mode = 0) && decide (r.len = 1) && decide (r.w1 = v)) ||
     (decide (r.mode = 1) && decide (r.len = 1) && cacheHit cacheBits cache v &&
        decide (r.val = hashOf v cacheBits)) ||
     (decide (r.mode = 2) && decide (r.len ≤ maxLen) && decide (1 ≤ r.val) && decide (r.val ≤ pos) &&
        decide (r.val ≤ maxDistance) && decide (matchLen px (pos - r.val) pos r.len = r.len)))

/-- R222, R223: replay of a stream from position `pos`: the cache it leaves, or none when it breaks an invariant of
R223. -/
def replayRefs (px : List Word) (cacheBits maxLen : Nat) : List RefRec → Nat → List Word → Option (List Word)
  | [], pos, cache => if pos = px.length then some cache else none
  | r :: recs, pos, cache =>
    if admissibleAt px cacheBits maxLen pos cache r then
      replayRefs px cacheBits maxLen recs (pos + r.len)
        (((px.drop pos).take r.len).foldl (cacheInsert cacheBits) cache)
    else none

/-- R222, U4: flavor Box: the implementation's own stream (a free value) when it meets R223; a proposal that does not
is no Box search, and the RLE stream, an admissible value, stands for it (log 7). -/
def refsBox (proposal : List RefRec) (px : List Word) (cacheBits maxLen : Nat) : RefsResult :=
  match replayRefs px cacheBits maxLen proposal 0 (clearedCache cacheBits) with
  | some cache => ⟨proposal, cache⟩
  | none => refsRle px cacheBits maxLen

/-- R222: the stream the implementation's Box search proposes in state `s`; the draw is the accepted command's own
(`State.issue`), so no two uses are related (log 7). -/
def State.boxProposal (s : State) : List RefRec :=
  (Config.boxStream s.fresh s.pixels s.regs.width.toNat s.regs.height.toNat s.regs.cacheBits.toNat
    s.regs.maxLen.toNat s.regs.window.toNat).map (fun w => ⟨w.1, w.2⟩)

/-! ### LZ.REFS -/

/-- R217: the result of a flavor; Standard is 0, RLE is 1, Box is 2. -/
def State.refsResult (s : State) (f : BitVec 2) : RefsResult :=
  let cb := s.regs.cacheBits.toNat
  let maxLen := s.regs.maxLen.toNat
  if f = 0 then
    refsStandard s.pixels (s.readWords .chain 0 s.pixelCount) cb s.regs.maxChain.toNat s.regs.window.toNat maxLen
  else if f = 1 then refsRle s.pixels cb maxLen
  else refsBox s.boxProposal s.pixels cb maxLen

/-- R217: the pre-checks of LZ.REFS. -/
def lzRefsError (f : BitVec 2) (s : State) : Option CmdError :=
  (needLegal (.lzRefs f)).or ((checkDim s).or ((checkCacheBits s).or
    ((if f = 1 then none else checkWindow s).or ((checkMaxLen s).or
      ((checkFits s .pix s.pixelCount).or (checkFits s .refs (s.refsResult f).recs.length))))))

/-- R217: REFS, NREFS and, when CACHE_BITS > 0, CCACHE written with a result. -/
def State.writeRefs (s : State) (r : RefsResult) : State :=
  let t := (s.writeWords .refs 0 (refWords r.recs)).writeWords .ccache 0 r.cache
  { t with regs := { t.regs with nrefs := BitVec.ofNat 32 r.recs.length } }

/-- R217: `LZ.REFS f`. -/
def execLzRefs (f : BitVec 2) (s : State) : Host.Outcome State Fault Refusal :=
  runCommand s (lzRefsError f s) (s.writeRefs (s.refsResult f))

end Sys2Proof.Machine
end

