-- ==== Sys2Proof/Machine/Hist.lean ====
section
/-!
DEFINITION. The HIST unit (spec/43_hist.md): HIST.BUILD (R251 to R255), the entropy estimate (R258, R260),
HIST.CLUSTER (R263 to R266), HIST.EXPORT (R268) and HIST.ENTROPY (R270).
-/

namespace Sys2Proof.Machine

/-! ### Geometry -/

/-- R251: tiles on the horizontal axis. -/
def State.histTilesX (s : State) : Nat := subSampleSize s.regs.width.toNat s.regs.histoBits.toNat

/-- R251: `NT`, the number of histogram tiles. -/
def State.histTiles (s : State) : Nat :=
  s.histTilesX * subSampleSize s.regs.height.toNat s.regs.histoBits.toNat

/-- R251: the tile of the pixel at a position of the stream. -/
def histTileAt (width histoBits tilesX pos : Nat) : Nat :=
  ((pos / width) >>> histoBits) * tilesX + ((pos % width) >>> histoBits)

/-- R250: `LIT_SIZE(cb)`. -/
def litSize (cacheBits : Nat) : Nat := numLiteralCodes + numLengthCodes + 2 ^ cacheBits

/-- R56: the five arrays of a histogram, by their number in HIST.EXPORT (R268). -/
def arrayOffset (arr : Nat) : Nat :=
  if arr = 0 then 0 else if arr = 1 then 1304 else if arr = 2 then 1560 else if arr = 3 then 1816 else 2072

/-- R56: the number of counters of an array. -/
def arraySize (arr : Nat) : Nat := if arr = 0 then 1304 else if arr ≤ 3 then 256 else numDistanceCodes

/-- R56: the first `size` counters of an array of a histogram record. -/
def arrayOf (h : List Nat) (arr size : Nat) : List Nat := (h.drop (arrayOffset arr)).take size

/-! ### HIST.BUILD -/

/-- R253: whether record `r` is valid at position `pos` of an image of `n` pixels. -/
def recordValid (n cacheBits pos : Nat) (r : RefRec) : Bool :=
  decide (r.zero = 0) && decide (pos + r.len ≤ n) &&
    ((decide (r.mode = 0) && decide (r.len = 1)) ||
     (decide (r.mode = 1) && decide (r.len = 1) && decide (0 < cacheBits) && decide (r.val < 2 ^ cacheBits)) ||
     (decide (r.mode = 2) && decide (1 ≤ r.len) && decide (r.len ≤ maxLength) && decide (1 ≤ r.val) &&
        decide (r.val ≤ maxDistance) && decide (r.val ≤ pos)))

/-- R253: the index `E_STREAM` reports, of a stream whose next record is number `j` at position `pos`. -/
def streamFault (n cacheBits : Nat) : List RefRec → Nat → Nat → Option Nat
  | [], j, pos => if pos = n then none else some j
  | r :: recs, j, pos =>
    if recordValid n cacheBits pos r then streamFault n cacheBits recs (j + 1) (pos + r.len) else some j

/-- R254: the counters of a histogram record (by their offset, R56) that a stream record increments. -/
def recordCounters (r : RefRec) : List Nat :=
  if r.mode = 0 then
    [greenOf r.w1, arrayOffset 1 + redOf r.w1, arrayOffset 2 + blueOf r.w1, arrayOffset 3 + alphaOf r.w1]
  else if r.mode = 1 then [numLiteralCodes + numLengthCodes + r.val]
  else [numLiteralCodes + (prefixEncode r.len).code, arrayOffset 4 + (prefixEncode r.val).code]

/-- R254: a record added to a histogram. -/
def addRecord (h : List Nat) (r : RefRec) : List Nat :=
  (recordCounters r).foldl (fun h j => h.modify j (· + 1)) h

/-- R252, R255: the records from position `pos` on, each counted in the tile of its first pixel. -/
def accumulate (width histoBits tilesX : Nat) : List RefRec → Nat → List (List Nat) → List (List Nat)
  | [], _, hists => hists
  | r :: recs, pos, hists =>
    accumulate width histoBits tilesX recs (pos + r.len)
      (hists.modify (histTileAt width histoBits tilesX pos) (fun h => addRecord h r))

/-- R55: the records in a list of host words. -/
def recordsOf : List Word → List RefRec
  | w0 :: w1 :: rest => ⟨w0, w1⟩ :: recordsOf rest
  | _ => []

/-- R252: the stream `REFS[0..NREFS-1]`. -/
def State.refStream (s : State) : List RefRec := recordsOf (s.readWords .refs 0 (2 * s.regs.nrefs.toNat))

/-- R252: the histograms HIST.BUILD makes. -/
def State.builtHistograms (s : State) : List (List Nat) :=
  accumulate s.regs.width.toNat s.regs.histoBits.toNat s.histTilesX s.refStream 0
    (List.replicate s.histTiles (List.replicate histWords 0))

/-- R252 (7), R253: `E_STREAM` of the first invalid record. -/
def checkStream (s : State) : Option CmdError :=
  (streamFault s.pixelCount s.regs.cacheBits.toNat s.refStream 0 0).map (fun j => ⟨.stream, BitVec.ofNat 32 j⟩)

/-- R252: the pre-checks of HIST.BUILD. -/
def histBuildError (s : State) : Option CmdError :=
  (needLegal .histBuild).or ((checkDim s).or ((checkCacheBits s).or ((checkHistoBits s).or
    ((checkNrefs s).or ((checkFits s .th s.histTiles).or (checkStream s))))))

/-- R252, R266: `TH[0..]` written with histograms, `SYMS[0..]` with indices, NHISTO with the number of histograms. -/
def State.writeHistograms (s : State) (hists : List (List Nat)) (syms : List Nat) : State :=
  let t := (s.writeNats .th 0 hists.flatten).writeNats .syms 0 syms
  { t with regs := { t.regs with nhisto := BitVec.ofNat 32 hists.length } }

/-- R252: `HIST.BUILD`. -/
def execHistBuild (s : State) : Host.Outcome State Fault Refusal :=
  runCommand s (histBuildError s) (s.writeHistograms s.builtHistograms (List.range s.histTiles))

/-! ### The entropy estimate -/

/-- R258: a value with 16 fraction bits rounded up to a whole number. -/
def roundUp16 (v : Nat) : Nat := (v + 0xFFFF) >>> 16

/-- R258: `ent(c, corr)`. -/
def ent (c : List Nat) (corr : Nat) : Nat :=
  let nonzero := c.filter (fun x => decide (0 < x))
  let total := c.sum
  if nonzero.length ≤ 1 then 0
  else if nonzero.all (fun x => decide (x = nonzero.headD 0)) then roundUp16 (total * flog2 nonzero.length)
  else
    let logTotal := flog2 total
    roundUp16 ((nonzero.map (fun x => x * (logTotal - flog2 x))).sum) + corr

/-- R260: `cost(h)`. -/
def histCost (cacheBits corr : Nat) (h : List Nat) : Nat :=
  ent (arrayOf h 0 (litSize cacheBits)) corr + ent (arrayOf h 1 256) corr + ent (arrayOf h 2 256) corr +
    ent (arrayOf h 3 256) corr + ent (arrayOf h 4 numDistanceCodes) corr

/-! ### HIST.CLUSTER -/

/-- R263: a live index with its working histogram and its cost. -/
structure Cluster where
  index : Nat
  counters : List Nat
  cost : Nat
deriving DecidableEq, Repr

/-- R263: a candidate merge of the live indices `lo < hi`. -/
structure Merge where
  lo : Nat
  hi : Nat
  counters : List Nat
  cost : Nat
  gain : Nat
deriving DecidableEq, Repr

/-- R263: `M(i,j)`, the counter-by-counter sum. -/
def addCounters (a b : List Nat) : List Nat := List.zipWith (· + ·) a b

/-- R263: the pair as a candidate, when its gain is strictly positive. -/
def candidate (cacheBits corr : Nat) (a b : Cluster) : Option Merge :=
  let counters := addCounters a.counters b.counters
  let cost := histCost cacheBits corr counters
  if cost < a.cost + b.cost then some ⟨a.index, b.index, counters, cost, a.cost + b.cost - cost⟩ else none

/-- R264: all candidate pairs, by lowest `i`, then lowest `j`. -/
def candidates (cacheBits corr : Nat) : List Cluster → List Merge
  | [] => []
  | a :: rest => rest.filterMap (candidate cacheBits corr a) ++ candidates cacheBits corr rest

/-- R264: the first candidate of largest gain. -/
def bestMerge (merges : List Merge) : Option Merge :=
  merges.foldl (fun best m =>
    match best with
    | none => some m
    | some b => if b.gain < m.gain then some m else some b) none

/-- R264: the live list after a merge: the lower index holds the sum, the higher one is no longer live. -/
def applyMerge (m : Merge) (live : List Cluster) : List Cluster :=
  live.filterMap (fun c =>
    if c.index = m.lo then some ⟨c.index, m.counters, m.cost⟩ else if c.index = m.hi then none else some c)

/-- R264: the merge loop, at most `fuel` merges: the live indices and `parent`. -/
def mergeLoop (cacheBits corr : Nat) : Nat → List Cluster → List Nat → List Cluster × List Nat
  | 0, live, parent => (live, parent)
  | fuel + 1, live, parent =>
    match bestMerge (candidates cacheBits corr live) with
    | none => (live, parent)
    | some m => mergeLoop cacheBits corr fuel (applyMerge m live) (parent.set m.hi m.lo)

/-- R265: `root(k)`, following `parent` at most `fuel` times. -/
def rootOf (parent : List Nat) : Nat → Nat → Nat
  | 0, k => k
  | fuel + 1, k => if parent.getD k k = k then k else rootOf parent fuel (parent.getD k k)

/-- R266: the result of clustering: the histograms kept and the new symbols. -/
structure ClusterResult where
  hists : List (List Nat)
  syms : List Nat
deriving DecidableEq, Repr

/-- R263: the clusters at the start: every index live with its histogram and cost. -/
def startClusters (cacheBits corr : Nat) (hists : List (List Nat)) : List Cluster :=
  hists.zipIdx.map (fun h => ⟨h.2, h.1, histCost cacheBits corr h.1⟩)

/-- R263 to R266: clustering and compaction. -/
def clusterHistograms (cacheBits corr : Nat) (hists : List (List Nat)) (syms : List Nat) : ClusterResult :=
  let k := hists.length
  let merged := mergeLoop cacheBits corr k (startClusters cacheBits corr hists) (List.range k)
  let live := merged.1.map Cluster.index
  ⟨merged.1.map Cluster.counters, syms.map (fun t => live.idxOf (rootOf merged.2 k t))⟩

/-- The histogram records in a list of host words (R56). -/
def histogramsOf : Nat → List Nat → List (List Nat)
  | 0, _ => []
  | k + 1, ws => ws.take histWords :: histogramsOf k (ws.drop histWords)

/-- R262: the histograms `TH[0..NHISTO-1]`. -/
def State.histograms (s : State) : List (List Nat) :=
  histogramsOf s.regs.nhisto.toNat (s.readNats .th 0 (s.regs.nhisto.toNat * histWords))

/-- R262: the symbols `SYMS[0..NT-1]`. -/
def State.tileSymbols (s : State) : List Nat := s.readNats .syms 0 s.histTiles

/-- R262 (7): `E_STREAM` of the lowest tile whose symbol is not below NHISTO. -/
def checkSymbols (s : State) : Option CmdError :=
  (s.tileSymbols.findIdx? (fun v => decide (s.regs.nhisto.toNat ≤ v))).map (fun t => ⟨.stream, BitVec.ofNat 32 t⟩)

/-- R262 (8), R360: the total of one array over all histograms. -/
def arrayTotal (hists : List (List Nat)) (arr : Nat) : Nat :=
  (hists.map (fun h => (arrayOf h arr (arraySize arr)).sum)).sum

/-- R262 (8), R360: `E_RANGE` of the lowest array whose total exceeds `2^32 - 1`. -/
def checkTotals (s : State) : Option CmdError :=
  ((List.range 5).find? (fun arr => decide (2 ^ 32 ≤ arrayTotal s.histograms arr))).map
    (fun arr => ⟨.range, BitVec.ofNat 32 arr⟩)

/-- R262: the pre-checks of HIST.CLUSTER. -/
def histClusterError (s : State) : Option CmdError :=
  (needLegal .histCluster).or ((checkDim s).or ((checkCacheBits s).or ((checkHistoBits s).or
    ((checkNhisto s).or ((checkFits s .syms s.histTiles).or ((checkSymbols s).or (checkTotals s)))))))

/-- R262: `HIST.CLUSTER`. -/
def execHistCluster (s : State) : Host.Outcome State Fault Refusal :=
  let r := clusterHistograms s.regs.cacheBits.toNat s.regs.entCorr.toNat s.histograms s.tileSymbols
  runCommand s (histClusterError s) (s.writeHistograms r.hists r.syms)

/-! ### HIST.EXPORT and HIST.ENTROPY -/

/-- R268: the number of symbols exported. -/
def State.exportSize (s : State) (arr : Nat) : Nat :=
  if arr = 0 then litSize s.regs.cacheBits.toNat else arraySize arr

/-- R268: the pre-checks of HIST.EXPORT. -/
def histExportError (arr : BitVec 3) (k : BitVec 16) (s : State) : Option CmdError :=
  (needLegal (.histExport arr k)).or ((if arr = 0 then checkCacheBits s else none).or
    ((checkNhisto s).or (need (decide (k.toNat < s.regs.nhisto.toNat)) (paramError .nhisto))))

/-- R268: `HIST.EXPORT arr, k`. -/
def execHistExport (arr : BitVec 3) (k : BitVec 16) (s : State) : Host.Outcome State Fault Refusal :=
  let size := s.exportSize arr.toNat
  let t := s.writeWords .hcnt 0 (s.readWords .th (k.toNat * histWords + arrayOffset arr.toNat) size)
  runCommand s (histExportError arr k s) { t with regs := { t.regs with nsym := BitVec.ofNat 32 size } }

/-- R270: the counts `HCNT[0..NSYM-1]`. -/
def State.counts (s : State) : List Nat := s.readNats .hcnt 0 s.regs.nsym.toNat

/-- R270: the pre-checks of HIST.ENTROPY. -/
def histEntropyError (s : State) : Option CmdError :=
  (needLegal .histEntropy).or ((checkNsym s).or (need (decide (s.counts.sum < 2 ^ 32)) ⟨.range, 0⟩))

/-- R270: `HIST.ENTROPY`. -/
def execHistEntropy (s : State) : Host.Outcome State Fault Refusal :=
  let e := ent s.counts s.regs.entCorr.toNat
  runCommand s (histEntropyError s)
    { s with regs := { s.regs with res0 := BitVec.ofNat 32 e, res1 := BitVec.ofNat 32 (e / 2 ^ 32) } }

end Sys2Proof.Machine
end

