-- ==== Sys2Proof/Machine/Huf.lean ====
section
/-!
DEFINITION. The HUF unit (spec/41_huf.md): HUF.BUILD (package-merge lengths R172 to R176 and canonical codes R177),
HUF.RLE (token compression R181 to R183) and HUF.STORE (R187 to R194).
-/

namespace Sys2Proof.Machine

/-! ### Code lengths by package-merge -/

/-- R173: an item, a weight and a multiset of symbols. -/
structure HufItem where
  weight : Nat
  symbols : List Nat
deriving DecidableEq, Repr

/-- R173: the order of leaves `(weight, symbol)`: ascending weight, then ascending symbol. -/
abbrev leafLe (a b : Nat × Nat) : Prop := a.1 < b.1 ∨ (a.1 = b.1 ∧ a.2 ≤ b.2)

/-- R172: the pairs (count, symbol) of the symbols with a non-zero count, ascending symbol. -/
def usedSymbols (hist : List Nat) : List (Nat × Nat) := hist.zipIdx.filter (fun c => decide (0 < c.1))

/-- R172: `m`, the number of symbols with a non-zero count. -/
def usedCount (hist : List Nat) : Nat := (usedSymbols hist).length

/-- R173: the leaves in their order. -/
def hufLeaves (hist : List Nat) : List HufItem :=
  ((usedSymbols hist).insertionSort leafLe).map (fun c => ⟨c.1, [c.2]⟩)

/-- R174: the packages of consecutive pairs; an odd last item is not packaged. -/
def hufPackages : List HufItem → List HufItem
  | a :: b :: rest => ⟨a.weight + b.weight, a.symbols ++ b.symbols⟩ :: hufPackages rest
  | _ => []

/-- R175: merge of leaves and packages, `n` items at most: the front item of lower weight, the leaf on a tie. -/
def hufMerge : Nat → List HufItem → List HufItem → List HufItem
  | 0, _, _ => []
  | _ + 1, [], packages => packages
  | _ + 1, leaf :: leaves, [] => leaf :: leaves
  | n + 1, leaf :: leaves, package :: packages =>
    if leaf.weight ≤ package.weight then leaf :: hufMerge n leaves (package :: packages)
    else package :: hufMerge n (leaf :: leaves) packages

/-- R174: `list_(j+1)`. -/
def hufLevel (leaves : List HufItem) : Nat → List HufItem
  | 0 => leaves
  | j + 1 =>
    let packages := hufPackages (hufLevel leaves j)
    hufMerge (leaves.length + packages.length) leaves packages

/-- R176: the symbols of the first `2m - 2` items of `list_L`, with multiplicity. -/
def hufSelected (leaves : List HufItem) (L : Nat) : List Nat :=
  ((hufLevel leaves (L - 1)).take (2 * leaves.length - 2)).flatMap HufItem.symbols

/-- R172 to R176: the code length of every symbol of a histogram, at most `L`. -/
def codeLengths (hist : List Nat) (L : Nat) : List Nat :=
  if usedCount hist ≤ 1 then hist.map (fun c => if 0 < c then 1 else 0)
  else
    let selected := hufSelected (hufLeaves hist) L
    (List.range hist.length).map (fun sym => selected.count sym)

/-! ### Canonical codes -/

/-- R177: `count[l]`, with `count[0] = 0`. -/
def lengthCount (lens : List Nat) (l : Nat) : Nat := if l = 0 then 0 else lens.count l

/-- R177: the first code of each length. -/
def firstCode (lens : List Nat) : Nat → Nat
  | 0 => 0
  | l + 1 => (firstCode lens l + lengthCount lens l) <<< 1

/-- R177: codes handed out in ascending symbol order from the table `next`. -/
def assignCodes : List Nat → List Nat → List Nat
  | [], _ => []
  | len :: lens, next =>
    if len = 0 then 0 :: assignCodes lens next
    else next.getD len 0 :: assignCodes lens (next.modify len (· + 1))

/-- R177: the canonical code values of a length vector. -/
def canonical (lens : List Nat) : List Nat := assignCodes lens ((List.range 16).map (firstCode lens))

/-! ### Run-length tokens -/

/-- R61, R181: a token. -/
structure Token where
  code : Nat
  extra : Nat
deriving DecidableEq, Repr

/-- R181: the maximal runs `(value, size)` of a sequence. -/
def runs : List Nat → List (Nat × Nat)
  | [] => []
  | x :: xs =>
    match runs xs with
    | [] => [(x, 1)]
    | (v, r) :: rest => if v = x then (v, r + 1) :: rest else (x, 1) :: (v, r) :: rest

/-- R182: the tokens of a run of `r` zeros, at most `fuel` of the repeated ones. -/
def zeroRun : Nat → Nat → List Token
  | 0, _ => []
  | fuel + 1, r =>
    if r < 3 then List.replicate r ⟨0, 0⟩
    else if r < 11 then [⟨17, r - 3⟩]
    else if r < 139 then [⟨18, r - 11⟩]
    else ⟨18, 127⟩ :: zeroRun fuel (r - 138)

/-- R183: the tokens of `r` further copies of a value already in force. -/
def repeatRun (v : Nat) : Nat → Nat → List Token
  | 0, _ => []
  | fuel + 1, r =>
    if r < 3 then List.replicate r ⟨v, 0⟩
    else if r < 7 then [⟨16, r - 3⟩]
    else ⟨16, 3⟩ :: repeatRun v fuel (r - 6)

/-- R183: the tokens of a run of `r` copies of a non-zero value `v`, coded against `prev`. -/
def valueRun (prev v r : Nat) : List Token :=
  if v ≠ prev then ⟨v, 0⟩ :: repeatRun v r (r - 1) else repeatRun v (r + 1) r

/-- R181 to R183: the tokens of a list of runs; a zero run leaves `prev` as it is. -/
def runTokens : Nat → List (Nat × Nat) → List Token
  | _, [] => []
  | prev, (v, r) :: rest =>
    if v = 0 then zeroRun (r + 1) r ++ runTokens prev rest else valueRun prev v r ++ runTokens v rest

/-- R180: the token compression of a length sequence; the previous value starts at 8 (R183). -/
def rle (lens : List Nat) : List Token := runTokens 8 (runs lens)

/-- R61: the host word of a token. -/
def Token.word (t : Token) : Word := BitVec.ofNat 32 (t.code + 256 * t.extra)

/-! ### Storing a code -/

/-- R62: one bit field. -/
structure BitField where
  value : Nat
  nbits : Nat
deriving DecidableEq, Repr

/-- R193: one `put`; a width of 0 leaves no record. -/
def put (value nbits : Nat) : List BitField := if nbits = 0 then [] else [⟨value, nbits⟩]

/-- R187: the symbols with a non-zero length, ascending. -/
def nonzeroSymbols (lens : List Nat) : List Nat :=
  ((lens.zipIdx).filter (fun c => decide (c.1 ≠ 0))).map Prod.snd

/-- R189: the small-tree path, for one or two used symbols. -/
def storeSmall (nz : List Nat) : List BitField :=
  let first := nz.getD 0 0
  put 1 1 ++ put (nz.length - 1) 1 ++
    (if first ≤ 1 then put 0 1 ++ put first 1 else put 1 1 ++ put first 8) ++
    (if nz.length = 2 then put (nz.getD 1 0) 8 else [])

/-- R191: the storage order of the code-length code. -/
def storageOrder : List Nat := [17, 18, 0, 1, 2, 3, 4, 5, 16, 6, 7, 8, 9, 10, 11, 12, 13, 14, 15]

/-- R190: how often each of the 19 token codes occurs. -/
def tokenHistogram (tokens : List Token) : List Nat :=
  (List.range codeLengthCodes).map (fun c => (tokens.map Token.code).count c)

/-- R191: how many code-length-code lengths are stored: trailing zeros dropped, down to 4. -/
def storedLengths (mlen : List Nat) : Nat → Nat
  | 0 => 0
  | cts + 1 =>
    if 4 < cts + 1 ∧ mlen.getD (storageOrder.getD cts 0) 0 = 0 then storedLengths mlen cts else cts + 1

/-- R181, R192, R194: the number of extra bits of a token code. -/
def extraBits (code : Nat) : Nat := if code = 16 then 2 else if code = 17 then 3 else if code = 18 then 7 else 0

/-- R192: a token that stands for zeros only. -/
def Token.isZero (t : Token) : Bool := decide (t.code = 0) || decide (t.code = 17) || decide (t.code = 18)

/-- R192: the all-zero tokens at the end of the stream. -/
def trailingZeros (tokens : List Token) : List Token := tokens.reverse.takeWhile Token.isZero

/-- R192: `tzb`, the bits the trailing all-zero tokens would cost. -/
def trailingBits (mlen : List Nat) (tokens : List Token) : Nat :=
  ((trailingZeros tokens).map (fun t => mlen.getD t.code 0 + extraBits t.code)).sum

/-- R192: the header of the trimmed form. -/
def storeTrimmedLength (trimmed : Nat) : List BitField :=
  if trimmed = 2 then put 0 3 ++ put 0 2
  else
    let nbitpairs := (bitsLog2Floor (trimmed - 2) >>> 1) + 1
    put (nbitpairs - 1) 3 ++ put (trimmed - 2) (2 * nbitpairs)

/-- R194: one token: its code, reversed, then its extra bits. -/
def storeToken (mlen mcode : List Nat) (t : Token) : List BitField :=
  put (rev (mcode.getD t.code 0) (mlen.getD t.code 0)) (mlen.getD t.code 0) ++ put t.extra (extraBits t.code)

/-- R191: a code-length code with exactly one symbol in use. DESIGN CHOICE (log 22): it alone makes tokens cost no bits;
the remark of R186 on a single used symbol at index 256 or above is not followed. -/
def oneSymbolCode (mlen : List Nat) : Bool := decide ((nonzeroSymbols mlen).length = 1)

/-- R190 to R194: the full path, of a token sequence. Which tokens cost no bits is R191's test, also for a single used
symbol at index 256 or above (DESIGN CHOICE, log 22). -/
def storeFull (tokens : List Token) : List BitField :=
  let emitted := codeLengths (tokenHistogram tokens) 7
  let cts := storedLengths emitted codeLengthCodes
  let mlen := if oneSymbolCode emitted then List.replicate codeLengthCodes 0 else emitted
  let mcode := if oneSymbolCode emitted then List.replicate codeLengthCodes 0 else canonical emitted
  let trimmed := tokens.length - (trailingZeros tokens).length
  let wt := decide (1 < trimmed) && decide (12 < trailingBits mlen tokens)
  put 0 1 ++ put (cts - 4) 4 ++
    (storageOrder.take cts).flatMap (fun c => put (emitted.getD c 0) 3) ++
    (if wt then put 1 1 ++ storeTrimmedLength trimmed else put 0 1) ++
    (tokens.take (if wt then trimmed else tokens.length)).flatMap (storeToken mlen mcode)

/-- R187: whether the full path is taken. -/
def fullPath (lens : List Nat) : Bool :=
  let nz := nonzeroSymbols lens
  !(nz.isEmpty || (decide (nz.length ≤ 2) && nz.all (fun sym => decide (sym < 256))))

/-- R187 to R194: the bit fields that describe a code. -/
def storeFields (lens : List Nat) : List BitField :=
  if (nonzeroSymbols lens).isEmpty then put 1 4
  else if fullPath lens then storeFull (rle lens)
  else storeSmall (nonzeroSymbols lens)

/-- R62: the two host words of each bit field. -/
def bitFieldWords (fields : List BitField) : List Word :=
  fields.flatMap (fun f => [BitVec.ofNat 32 f.value, BitVec.ofNat 32 f.nbits])

/-! ### The commands -/

/-- R171: the histogram `HCNT[0..n-1]`. -/
def State.histogram (s : State) : List Nat := s.readNats .hcnt 0 s.regs.nsym.toNat

/-- R180, R186: the lengths `CLEN[0..n-1]`. -/
def State.lengths (s : State) : List Nat := s.readNats .clen 0 s.regs.nsym.toNat

/-- R171: the pre-checks of HUF.BUILD. -/
def hufBuildError (L : BitVec 4) (s : State) : Option CmdError :=
  (needLegal (.hufBuild L)).or ((checkNsym s).or
    (need (decide (usedCount s.histogram ≤ 2 ^ L.toNat)) ⟨.kraft, BitVec.ofNat 32 (usedCount s.histogram)⟩))

/-- R171: `HUF.BUILD L`. -/
def execHufBuild (L : BitVec 4) (s : State) : Host.Outcome State Fault Refusal :=
  let lens := codeLengths s.histogram L.toNat
  runCommand s (hufBuildError L s) ((s.writeNats .clen 0 lens).writeNats .code 0 (canonical lens))

/-- R180, R190: `TOK[0..k-1]` and NTOK written. -/
def State.writeTokens (s : State) (tokens : List Token) : State :=
  let t := s.writeWords .tok 0 (tokens.map Token.word)
  { t with regs := { t.regs with ntok := BitVec.ofNat 32 tokens.length } }

/-- R180: `HUF.RLE`. -/
def execHufRle (s : State) : Host.Outcome State Fault Refusal :=
  runCommand s ((needLegal .hufRle).or (checkNsym s)) (s.writeTokens (rle s.lengths))

/-- R186: the pre-checks of HUF.STORE. -/
def hufStoreError (s : State) : Option CmdError :=
  (needLegal .hufStore).or ((checkNsym s).or ((checkNbitq s).or
    (checkFits s .bitq (s.regs.nbitq.toNat + (storeFields s.lengths).length))))

/-- R186, R193: the bit fields appended to BITQ at NBITQ. -/
def State.appendFields (s : State) (fields : List BitField) : State :=
  let t := s.writeWords .bitq (2 * s.regs.nbitq.toNat) (bitFieldWords fields)
  { t with regs := { t.regs with nbitq := BitVec.ofNat 32 (s.regs.nbitq.toNat + fields.length) } }

/-- R186: `HUF.STORE`; TOK and NTOK are written on the full path only. -/
def execHufStore (s : State) : Host.Outcome State Fault Refusal :=
  let lens := s.lengths
  let stored := s.appendFields (storeFields lens)
  runCommand s (hufStoreError s) (if fullPath lens then stored.writeTokens (rle lens) else stored)

end Sys2Proof.Machine
end

