-- ==== Sys2Proof/Machine/Pmap.lean ====
section
/-!
DEFINITION. The PMAP unit (spec/45_pmap.md): the cube of cells (R320, R321), PMAP.BUILD by seeding and flood
(R323 to R326) and PMAP.QUERY (R330).
-/

namespace Sys2Proof.Machine

/-- R320: a cell of the 32 x 64 x 32 cube. -/
structure PalCell where
  r : Nat
  g : Nat
  b : Nat
deriving DecidableEq, Repr

/-- R320: the number of cells. -/
def palCells : Nat := 65536

/-- R321: the cell of a Pixel; alpha plays no part. -/
def cellOf (px : Word) : PalCell := ⟨redOf px >>> 3, greenOf px >>> 2, blueOf px >>> 3⟩

/-- R321: the index of a cell. -/
def PalCell.idx (c : PalCell) : Nat := c.b * 2048 + c.g * 32 + c.r

/-- R321: the cell of an index. -/
def cellAt (k : Nat) : PalCell := ⟨k % 32, (k / 32) % 64, k / 2048⟩

/-- R325: the Chebyshev distance of two cells; `shell(c, s)` is the set of the cube's cells at distance `s` from `c`. -/
def PalCell.dist (a c : PalCell) : Nat :=
  max (max ((a.r - c.r) + (c.r - a.r)) ((a.g - c.g) + (c.g - a.g))) ((a.b - c.b) + (c.b - a.b))

/-- R323: what seeding leaves: the claimed cells with their entry, and the entries marked SAME. -/
structure Seeding where
  claims : List (Nat × Nat)
  marked : List Nat
deriving DecidableEq, Repr

/-- R323: seeding with the entries from number `i` on. -/
def seedFrom : List Word → Nat → Seeding → Seeding
  | [], _, sd => sd
  | px :: rest, i, sd =>
    match sd.claims.lookup (cellOf px).idx with
    | none => seedFrom rest (i + 1) { sd with claims := ((cellOf px).idx, i) :: sd.claims }
    | some first => seedFrom rest (i + 1) { sd with marked := first :: sd.marked }

/-- R323: seeding with a palette. -/
def seed (palette : List Word) : Seeding := seedFrom palette 0 ⟨[], []⟩

/-- R324: the entries that flood, `SAME[i] = 0`, ascending, with their cells. -/
def flooders (palette : List Word) : List (Nat × PalCell) :=
  (palette.zipIdx.filter (fun e => !(seed palette).marked.contains e.2)).map (fun e => (e.2, cellOf e.1))

/-- R324: the flood seen from one cell: steps `s` ascending, within a step the entries ascending, the first whose
shell holds the cell writes it. Offers to different cells do not interact, so the loop may end cell by cell (R326). -/
def floodCell (entries : List (Nat × PalCell)) (c : PalCell) : Nat → Nat → Option Nat
  | 0, _ => none
  | fuel + 1, s =>
    match entries.find? (fun e => decide (e.2.dist c = s)) with
    | some e => some e.1
    | none => floodCell entries c fuel (s + 1)

/-- R323, R324: the entry that claims a cell: its first occupier, else the flood, which ends by step 63 (R326). -/
def claimOf (claims : List (Nat × Nat)) (entries : List (Nat × PalCell)) (k : Nat) : Option Nat :=
  match claims.lookup k with
  | some i => some i
  | none => floodCell entries (cellAt k) 63 1

/-- R322: the palette `PAL[0..PAL_SIZE-1]`. -/
def State.palette (s : State) : List Word := s.readWords .pal 0 s.regs.palSize.toNat

/-- R323, R324: the claim of every cell. -/
def cellClaims (palette : List Word) : List (Option Nat) :=
  let claims := (seed palette).claims
  let entries := flooders palette
  (List.range palCells).map (claimOf claims entries)

/-- R322: the pre-checks of PMAP.BUILD. -/
def pmapBuildError (s : State) : Option CmdError := (needLegal .pmapBuild).or (checkPalSize s)

/-- R322: `PMAP.BUILD`: every element of PMATCH, TAKEN and SAME is written. -/
def execPmapBuild (s : State) : Host.Outcome State Fault Refusal :=
  let claims := cellClaims s.palette
  let marked := (seed s.palette).marked
  runCommand s (pmapBuildError s)
    (((s.writeNats .pmatch 0 (claims.map (fun c => c.getD 0))).writeNats
        .taken 0 (claims.map (fun c => if c.isSome then 1 else 0))).writeNats
      .same 0 ((List.range 256).map (fun i => if marked.contains i then 1 else 0)))

/-- R330: the index PMATCH holds for the cell of QPIX. -/
def State.queryIndex (s : State) : Word := s.readWord .pmatch (cellOf s.regs.qpix).idx

/-- R330, R331: `PMAP.QUERY`; PAL is read when the query runs. -/
def execPmapQuery (s : State) : Host.Outcome State Fault Refusal :=
  runCommand s (needLegal .pmapQuery)
    { s with regs := { s.regs with qidx := s.queryIndex, qpal := s.readWord .pal s.queryIndex.toNat } }

end Sys2Proof.Machine
end

