-- ==== Sys2Proof/Machine/Pred.lean ====
section
/-!
DEFINITION. The PRED unit (spec/44_pred.md): the predictor arithmetic (R295, R296), the mode search (R297), the edge
rule (R298) and PRED.RESID (R292).
-/

namespace Sys2Proof.Machine

/-! ### Predictor arithmetic -/

/-- R295: the channel-wise mean, rounded down. -/
def avg2 (p q : Word) : Word := lanes2 (fun x y => (x + y) / 2) p q

/-- R295: a channel value brought into 0 to 255. -/
def clampByte (v : Int) : Nat := if v < 0 then 0 else if 255 < v then 255 else v.toNat

/-- R9, R295: division by 2 toward zero. -/
def tdiv2 (v : Int) : Int := Int.tdiv v 2

/-- R295: clamp add subtract full. -/
def casf (p q s : Word) : Word := lanes3 (fun x y z => clampByte ((x : Int) + y - z)) p q s

/-- R295: clamp add subtract half. -/
def cash (p s : Word) : Word := lanes2 (fun x z => clampByte ((x : Int) + tdiv2 ((x : Int) - z))) p s

/-- The absolute difference of two channel values. -/
def absDiff (x y : Nat) : Nat := (x - y) + (y - x)

/-- R295: the Select predictor; a tie gives the top pixel. -/
def selectPixel (left top topLeft : Word) : Word :=
  if lanesSum absDiff top topLeft < lanesSum absDiff left topLeft then left else top

/-- R296: `P(m, p)` from the four neighbours. -/
def predictor (m : Nat) (left top topRight topLeft : Word) : Word :=
  match m with
  | 0 => black
  | 1 => left
  | 2 => top
  | 3 => topRight
  | 4 => topLeft
  | 5 => avg2 (avg2 left topRight) top
  | 6 => avg2 left topLeft
  | 7 => avg2 left top
  | 8 => avg2 topLeft top
  | 9 => avg2 top topRight
  | 10 => avg2 (avg2 left topLeft) (avg2 top topRight)
  | 11 => selectPixel left top topLeft
  | 12 => casf left top topLeft
  | _ => cash (avg2 left top) topLeft

/-- R296: the number of predictor modes. -/
def predictorModes : Nat := 14

/-- R291, R296: the prediction of mode `m` at an interior position, from the original pixels. -/
def predictAt (orig : List Word) (width m p : Nat) : Word :=
  predictor m (orig.getD (p - 1) 0) (orig.getD (p - width) 0) (orig.getD (p + 1 - width) 0)
    (orig.getD (p - width - 1) 0)

/-! ### Mode selection -/

/-- R290, R297: the coordinates of tile `t` on one axis, inside the image and off its first row or column. -/
def interior (bits size t : Nat) : List Nat :=
  ((List.range (1 <<< bits)).map (fun i => (t <<< bits) + i)).filter (fun x => decide (1 ≤ x) && decide (x < size))

/-- R297: the tile error of mode `m`. -/
def tileError (orig : List Word) (width height bits tx ty m : Nat) : Nat :=
  ((interior bits height ty).map (fun y =>
    ((interior bits width tx).map (fun x =>
      lanesSum absDiff (orig.getD (y * width + x) 0) (predictAt orig width m (y * width + x)))).sum)).sum

/-- R297: the position of the least entry, the lowest among equal ones. -/
def leastIndex (errors : List Nat) : Nat :=
  (List.range errors.length).foldl (fun best m => if errors.getD m 0 < errors.getD best 0 then m else best) 0

/-- R297: `best_mode(tx, ty)`. -/
def bestMode (orig : List Word) (width height bits tx ty : Nat) : Nat :=
  leastIndex ((List.range predictorModes).map (tileError orig width height bits tx ty))

/-- R290: predictor tiles on the horizontal axis. -/
def State.predTilesX (s : State) : Nat := subSampleSize s.regs.width.toNat s.regs.predBits.toNat

/-- R290: `PT`, the number of predictor tiles. -/
def State.predTiles (s : State) : Nat :=
  s.predTilesX * subSampleSize s.regs.height.toNat s.regs.predBits.toNat

/-- R292: the modes of all tiles, in TDATA order. -/
def tileModes (orig : List Word) (width height bits tilesX tiles : Nat) : List Nat :=
  (List.range tiles).map (fun t => bestMode orig width height bits (t % tilesX) (t / tilesX))

/-- R299: the TDATA word of a tile. -/
def modeWord (m : Nat) : Word := 0xFF000000 ||| BitVec.ofNat 32 (m <<< 8)

/-- R298: the effective predictor of the pixel at position `p`. -/
def effectivePred (orig : List Word) (width bits tilesX : Nat) (modes : List Nat) (p : Nat) : Word :=
  let x := p % width
  let y := p / width
  if y = 0 then black
  else if x = 0 then orig.getD (p - 1) 0
  else predictAt orig width (modes.getD ((y >>> bits) * tilesX + (x >>> bits)) 0) p

/-- R300: the residuals of all pixels. -/
def residuals (orig : List Word) (width bits tilesX : Nat) (modes : List Nat) : List Word :=
  orig.zipIdx.map (fun v => subPixels v.1 (effectivePred orig width bits tilesX modes v.2))

/-! ### PRED.RESID -/

/-- R297: the modes PRED.RESID chooses in state `s`. -/
def State.predModes (s : State) : List Nat :=
  tileModes s.pixels s.regs.width.toNat s.regs.height.toNat s.regs.predBits.toNat s.predTilesX s.predTiles

/-- R292: the pre-checks of PRED.RESID. -/
def predResidError (s : State) : Option CmdError :=
  (needLegal .predResid).or ((checkDim s).or ((checkPredBits s).or
    ((checkFits s .pix s.pixelCount).or (checkFits s .tdata s.predTiles))))

/-- R292: `PRED.RESID`; every prediction reads the original pixels (R293). -/
def execPredResid (s : State) : Host.Outcome State Fault Refusal :=
  let modes := s.predModes
  runCommand s (predResidError s)
    ((s.writeWords .pix 0
        (residuals s.pixels s.regs.width.toNat s.regs.predBits.toNat s.predTilesX modes)).writeWords
      .tdata 0 (modes.map modeWord))

end Sys2Proof.Machine
end

