-- ==== Sys2Proof/Machine/System.lean ====
section
/-!
DEFINITION. The system command NOP (spec/46_system.md R340).
-/

namespace Sys2Proof.Machine

/-- R340: `NOP` reads and writes nothing and completes. -/
def execNop (s : State) : Host.Outcome State Fault Refusal := runCommand s (needLegal .nop) s

end Sys2Proof.Machine
end

