-- ==== Sys2Proof/Machine/Dispatch.lean ====
section
/-!
DEFINITION. The completion step of each command (spec/00_scope.md R13 step 3): one arm per constructor of Instr.
-/

namespace Sys2Proof.Machine

def exec (i : Instr) (s : State) : Host.Outcome State Fault Refusal :=
  match i with
  | .nop => Sys2Proof.Machine.execNop s
  | .hufBuild L => Sys2Proof.Machine.execHufBuild L s
  | .hufRle => Sys2Proof.Machine.execHufRle s
  | .hufStore => Sys2Proof.Machine.execHufStore s
  | .lzFill => Sys2Proof.Machine.execLzFill s
  | .lzRefs f => Sys2Proof.Machine.execLzRefs f s
  | .histBuild => Sys2Proof.Machine.execHistBuild s
  | .histCluster => Sys2Proof.Machine.execHistCluster s
  | .histExport arr k => Sys2Proof.Machine.execHistExport arr k s
  | .histEntropy => Sys2Proof.Machine.execHistEntropy s
  | .predResid => Sys2Proof.Machine.execPredResid s
  | .pmapBuild => Sys2Proof.Machine.execPmapBuild s
  | .pmapQuery => Sys2Proof.Machine.execPmapQuery s

end Sys2Proof.Machine
end

