-- ==== Sys2Proof/Machine/Flags.lean ====
section
/-!
DEFINITION. The status and control words and the interrupt output: how STATUS is composed and cleared
(spec/10_state.md R35), CTRL (R34), and `irq` (R45). No operation of HCLB produces arithmetic condition flags
(spec/40_helpers.md R157 f).
-/

namespace Sys2Proof.Machine

/-- A flag as a number. -/
def flag (b : Bool) : Nat := if b then 1 else 0

/-- R35: BUSY bit 0, DONE bit 1, ERR bit 2, ACCV bit 3, ERRCODE bits 15:8, the rest 0. -/
def Regs.statusWord (r : Regs) : Word :=
  BitVec.ofNat 32 (flag r.busy + 2 * flag r.done + 4 * flag r.err + 8 * flag r.accv + 256 * r.errCode.toNat)

/-- R34: SRST reads 0, IE_DONE bit 1, IE_ERR bit 2, the rest 0. -/
def Regs.ctrlWord (r : Regs) : Word := BitVec.ofNat 32 (2 * flag r.ieDone + 4 * flag r.ieErr)

/-- R45, R363: the interrupt output. -/
def State.irq (s : State) : Bool := (s.regs.done && s.regs.ieDone) || (s.regs.err && s.regs.ieErr)

/-- R35: a host write to STATUS. Writing 1 to DONE, ERR or ACCV clears it, ERR together with ERRCODE and ERRINFO
(R356); the other bits have no effect. -/
def State.writeStatus (s : State) (v : Word) : State :=
  let s := if v.getLsbD 1 then { s with regs := { s.regs with done := false } } else s
  let s := if v.getLsbD 2 then s.acknowledgeError else s
  if v.getLsbD 3 then { s with regs := { s.regs with accv := false } } else s

/-- R34: a host write to CTRL. With SRST = 1 it is the soft reset and the IE bits written are discarded; otherwise it
stores the two enables. -/
def State.writeCtrl (s : State) (v : Word) : State :=
  if v.getLsbD 0 then s.softReset
  else { s with regs := { s.regs with ieDone := v.getLsbD 1, ieErr := v.getLsbD 2 } }

end Sys2Proof.Machine
end

