-- ==== Sys2Proof/Machine/Port.lean ====
section
/-!
DEFINITION. The register port: what a host read and a host write do (spec/20_memory.md R92 to R102), register by
register (spec/10_state.md R32 to R44).
-/

namespace Sys2Proof.Machine

/-- R32, R44: the register at a byte offset; none where the map has no register. -/
def Reg.ofOffset (off : Nat) : Option Reg :=
  match off with
  | 0x00 => some .id | 0x08 => some .ctrl | 0x0C => some .status | 0x10 => some .cmd
  | 0x14 => some .lastcmd | 0x18 => some .errinfo | 0x1C => some .cmdcnt
  | 0x20 => some .memSel | 0x24 => some .memIdx | 0x28 => some .memData
  | 0x30 => some .capPix | 0x34 => some .capTd | 0x38 => some .capRefs | 0x3C => some .capTh
  | 0x40 => some .capBitq | 0x44 => some .capHash
  | 0x80 => some .width | 0x84 => some .height | 0x88 => some .nsym | 0x8C => some .cacheBits
  | 0x90 => some .histoBits | 0x94 => some .predBits | 0x98 => some .hashBits | 0x9C => some .maxChain
  | 0xA0 => some .window | 0xA4 => some .maxLen | 0xA8 => some .palSize | 0xAC => some .entCorr
  | 0xB0 => some .qpix
  | 0xC0 => some .nrefs | 0xC4 => some .ntok | 0xC8 => some .nhisto | 0xCC => some .nbitq
  | 0xD0 => some .res0 | 0xD4 => some .res1 | 0xD8 => some .qidx | 0xDC => some .qpal
  | _ => none

/-- R32: the value of a register read that has no side effect. CMD reads 0 (R36); MEM_DATA holds nothing of its own
(R41) and is read by `State.windowRead`. -/
def State.readReg (s : State) : Reg → Word
  | .id => 0x48434C42
  | .ctrl => s.regs.ctrlWord
  | .status => s.regs.statusWord
  | .cmd => 0
  | .lastcmd => s.regs.lastCmd
  | .errinfo => s.regs.errInfo
  | .cmdcnt => s.regs.cmdCnt
  | .memSel => s.regs.memSel.setWidth 32
  | .memIdx => s.regs.memIdx
  | .memData => 0
  | .capPix => s.caps.pix
  | .capTd => s.caps.td
  | .capRefs => s.caps.refs
  | .capTh => s.caps.th
  | .capBitq => s.caps.bitq
  | .capHash => s.caps.hash
  | .width => s.regs.width
  | .height => s.regs.height
  | .nsym => s.regs.nsym
  | .cacheBits => s.regs.cacheBits
  | .histoBits => s.regs.histoBits
  | .predBits => s.regs.predBits
  | .hashBits => s.regs.hashBits
  | .maxChain => s.regs.maxChain
  | .window => s.regs.window
  | .maxLen => s.regs.maxLen
  | .palSize => s.regs.palSize
  | .entCorr => s.regs.entCorr
  | .qpix => s.regs.qpix
  | .nrefs => s.regs.nrefs
  | .ntok => s.regs.ntok
  | .nhisto => s.regs.nhisto
  | .nbitq => s.regs.nbitq
  | .res0 => s.regs.res0
  | .res1 => s.regs.res1
  | .qidx => s.regs.qidx
  | .qpal => s.regs.qpal

/-- The selected memory and whether MEM_IDX is below its window size (R95, R96). -/
def State.windowInRange (s : State) : Bool :=
  decide (s.regs.memIdx.toNat < (MemId.ofSel s.regs.memSel).windowSize s.caps)

/-- R97, R98, R100: a host read of MEM_DATA. -/
def State.windowRead (s : State) : State :=
  if s.regs.busy then { s.setAccv with rdata := 0 }
  else if s.windowInRange then
    { s with
      rdata := s.readWord (MemId.ofSel s.regs.memSel) s.regs.memIdx.toNat
      regs := { s.regs with memIdx := s.regs.memIdx + 1 } }
  else { s.setAccv with rdata := 0 }

/-- R98, R99: a host write of MEM_DATA while the block is idle. -/
def State.windowWrite (s : State) (v : Word) : State :=
  if s.windowInRange then
    let t := s.writeWords (MemId.ofSel s.regs.memSel) s.regs.memIdx.toNat [v]
    { t with regs := { t.regs with memIdx := t.regs.memIdx + 1 } }
  else s.setAccv

/-- R36, R101: a host write of CMD while the block is idle: the word is issued, or dropped with ACCV while ERR = 1. -/
def State.writeCmd (s : State) (v : Word) : State := if s.regs.err then s.setAccv else s.issue v

/-- R32: a host write to a register while the block is idle; read-only registers ignore it, MEM_SEL keeps bits 3:0
(R41, R95). -/
def State.writeReg (s : State) (r : Reg) (v : Word) : State :=
  match r with
  | .id => s
  | .ctrl => s.writeCtrl v
  | .status => s.writeStatus v
  | .cmd => s.writeCmd v
  | .lastcmd => s
  | .errinfo => s
  | .cmdcnt => s
  | .memSel => { s with regs := { s.regs with memSel := v.setWidth 4 } }
  | .memIdx => { s with regs := { s.regs with memIdx := v } }
  | .memData => s.windowWrite v
  | .capPix => s
  | .capTd => s
  | .capRefs => s
  | .capTh => s
  | .capBitq => s
  | .capHash => s
  | .width => { s with regs := { s.regs with width := v } }
  | .height => { s with regs := { s.regs with height := v } }
  | .nsym => { s with regs := { s.regs with nsym := v } }
  | .cacheBits => { s with regs := { s.regs with cacheBits := v } }
  | .histoBits => { s with regs := { s.regs with histoBits := v } }
  | .predBits => { s with regs := { s.regs with predBits := v } }
  | .hashBits => { s with regs := { s.regs with hashBits := v } }
  | .maxChain => { s with regs := { s.regs with maxChain := v } }
  | .window => { s with regs := { s.regs with window := v } }
  | .maxLen => { s with regs := { s.regs with maxLen := v } }
  | .palSize => { s with regs := { s.regs with palSize := v } }
  | .entCorr => { s with regs := { s.regs with entCorr := v } }
  | .qpix => { s with regs := { s.regs with qpix := v } }
  | .nrefs => { s with regs := { s.regs with nrefs := v } }
  | .ntok => s
  | .nhisto => { s with regs := { s.regs with nhisto := v } }
  | .nbitq => { s with regs := { s.regs with nbitq := v } }
  | .res0 => s
  | .res1 => s
  | .qidx => s
  | .qpal => s

/-- R92, R94: an access is accepted only as a 32-bit access at a multiple of 4. -/
def aligned (w : AccessWidth) (off : Nat) : Bool := decide (w = .word) && decide (off % 4 = 0)

/-- R92, R94, R44: a host read. A narrow or misaligned one is refused and returns 0 (R94, before R44: log 11). -/
def State.hostRead (s : State) (w : AccessWidth) (off : Nat) : State :=
  if aligned w off then
    match Reg.ofOffset off with
    | none => { s with rdata := 0 }
    | some r => if r = .memData then s.windowRead else { s with rdata := s.readReg r }
  else { s.setAccv with rdata := 0 }

/-- R100: CTRL and STATUS are the registers a host write reaches also while the block is busy. -/
def Reg.writableBusy (r : Reg) : Bool := decide (r = .ctrl) || decide (r = .status)

/-- R92, R94, R44, R100: a host write. A narrow or misaligned one is refused; one to an unmapped offset is ignored
without a flag, also while BUSY (log 12). -/
def State.hostWrite (s : State) (w : AccessWidth) (off : Nat) (v : Word) : State :=
  if aligned w off then
    match Reg.ofOffset off with
    | none => s
    | some r => if s.regs.busy && !r.writableBusy then s.setAccv else s.writeReg r v
  else s.setAccv

/-- One host access. -/
def State.hostAccess (s : State) : HostAccess → State
  | .read w off => s.hostRead w off
  | .write w off v => s.hostWrite w off v

end Sys2Proof.Machine
end

