-- ==== Sys2Proof/Machine/Step.lean ====
section
/-!
DEFINITION. One step of the machine: the next turn of the agenda (spec/00_scope.md R11, R13; spec/20_memory.md R93,
R107). A host access and a hard reset are one step each; the block's turn completes the command in flight.
-/

namespace Sys2Proof.Machine

/-- R13 (3), R124: the completion step of the command in flight: the word in LASTCMD is decoded; a legal one runs, any
other ends in `E_ILLEGAL` with ERRINFO = the word (R353). -/
def State.completionStep (s : State) : Host.Outcome State Fault Refusal :=
  match decode s.regs.lastCmd with
  | .ok i => exec i s
  | .error _ => .next (s.errorComplete ⟨.illegal, s.regs.lastCmd⟩)

/-- The block's turn: with a command in flight its completion step; an idle block does nothing (R346). -/
def State.blockTurn (s : State) : Host.Outcome State Fault Refusal :=
  if s.regs.busy then s.completionStep else .next s

/-- One step: the first turn of the agenda is taken; with no turn waiting the block moves (log 4). -/
def step (s : State) : Host.Outcome State Fault Refusal :=
  match s.agenda with
  | [] => s.blockTurn
  | .block :: rest => State.blockTurn { s with agenda := rest }
  | .host a :: rest => .next (State.hostAccess { s with agenda := rest } a)
  | .hardReset o :: rest => .next (State.hardReset { s with agenda := rest } o)

/-- `s` with the command word `w` accepted (R13 (1)) and the block to move next, so that the next step runs it
(log 5). -/
def State.withFetchWord (s : State) (nbits w : Nat) : State :=
  let t := s.issue (BitVec.ofNat 32 (w % 2 ^ nbits))
  { t with agenda := .block :: t.agenda }

end Sys2Proof.Machine
end

