-- ==== Sys2Proof/Safety.lean ====
section
/-!
DEFINITION. What counts as a safe state, and the words the statements use, written from the rules and apart from the
machine's own definitions: legal register ranges (R42, R43, R355), what a completion leaves unchanged (R14, R352), and
the readers that undo what the commands write (tokens R181, streams R223, residuals R300).
-/

namespace Sys2Proof.Machine

/-! ### Invariants -/

/-- The sixteen memory ids. -/
def allMems : List MemId :=
  [.pix, .tdata, .chain, .ccache, .refs, .th, .syms, .hcnt, .clen, .code, .tok, .bitq, .pal, .pmatch, .taken, .same]

/-- R35, R38, R350: BUSY, DONE and ERR are never 1 two at a time; ERRCODE and ERRINFO are 0 while ERR is 0, and ERRCODE
is one of the codes 1 to 7 while ERR is 1. -/
def Regs.flagsOk (r : Regs) : Bool :=
  !(r.busy && r.done) && !(r.busy && r.err) && !(r.done && r.err) &&
    (if r.err then decide (1 ≤ r.errCode.toNat) && decide (r.errCode.toNat ≤ 7)
     else decide (r.errCode = 0) && decide (r.errInfo = 0))

/-- Every memory is in its canonical form, each element inside its width (R50, R59 to R66). -/
def State.memsWf (s : State) : Bool := allMems.all (fun id => Memory.wf id (s.mems.get id))

/-- R103: no memory holds a word at or above its window size. -/
def State.memsInside (s : State) : Bool := allMems.all (fun id => Memory.inside s.caps id (s.mems.get id))

/-! ### Legal operands -/

/-- R42: WIDTH and HEIGHT are legal. -/
abbrev State.DimsLegal (s : State) : Prop :=
  1 ≤ s.regs.width.toNat ∧ s.regs.width.toNat ≤ 16383 ∧ 1 ≤ s.regs.height.toNat ∧ s.regs.height.toNat ≤ 16383

/-- R42, R43: whether a register's value is in the legal range of the tables. -/
def State.regLegal (s : State) : Reg → Bool
  | .nsym => decide (1 ≤ s.regs.nsym.toNat ∧ s.regs.nsym.toNat ≤ 1304)
  | .cacheBits => decide (s.regs.cacheBits.toNat ≤ 10)
  | .histoBits => decide (2 ≤ s.regs.histoBits.toNat ∧ s.regs.histoBits.toNat ≤ 9)
  | .predBits => decide (2 ≤ s.regs.predBits.toNat ∧ s.regs.predBits.toNat ≤ 9)
  | .hashBits => decide (1 ≤ s.regs.hashBits.toNat ∧ s.regs.hashBits.toNat ≤ s.caps.hash.toNat)
  | .window => decide (1 ≤ s.regs.window.toNat ∧ s.regs.window.toNat ≤ 1048576)
  | .maxLen => decide (1 ≤ s.regs.maxLen.toNat ∧ s.regs.maxLen.toNat ≤ 4096)
  | .palSize => decide (1 ≤ s.regs.palSize.toNat ∧ s.regs.palSize.toNat ≤ 256)
  | .nrefs => decide (s.regs.nrefs.toNat ≤ s.caps.refs.toNat)
  | .nhisto => decide (1 ≤ s.regs.nhisto.toNat ∧ s.regs.nhisto.toNat ≤ s.caps.th.toNat)
  | .nbitq => decide (s.regs.nbitq.toNat ≤ s.caps.bitq.toNat)
  | _ => true

/-- R354: the five commands that read WIDTH and HEIGHT. -/
def readsDims : Instr → Bool
  | .lzFill => true
  | .lzRefs _ => true
  | .histBuild => true
  | .histCluster => true
  | .predResid => true
  | _ => false

/-- R355, the table: the registers a command checks, in test order. -/
def checkedRegs : Instr → List Reg
  | .nop => []
  | .hufBuild _ => [.nsym]
  | .hufRle => [.nsym]
  | .hufStore => [.nsym, .nbitq]
  | .lzFill => [.hashBits]
  | .lzRefs f => if f = 1 then [.cacheBits, .maxLen] else [.cacheBits, .window, .maxLen]
  | .histBuild => [.cacheBits, .histoBits, .nrefs]
  | .histCluster => [.cacheBits, .histoBits, .nhisto]
  | .histExport arr _ => if arr = 0 then [.cacheBits, .nhisto] else [.nhisto]
  | .histEntropy => [.nsym]
  | .predResid => [.predBits]
  | .pmapBuild => [.palSize]
  | .pmapQuery => []

/-- R355: the histogram index of HIST.EXPORT is below NHISTO; the other commands have none. -/
def indexLegal (s : State) : Instr → Bool
  | .histExport _ k => decide (k.toNat < s.regs.nhisto.toNat)
  | _ => true

/-- R351 (1) (2) (3): the word is legal, the dimensions a command reads are legal, and so is every register it
checks. -/
abbrev ParamsLegal (i : Instr) (s : State) : Prop :=
  i.wf = true ∧ (readsDims i = true → s.DimsLegal) ∧ (∀ r ∈ checkedRegs i, s.regLegal r = true) ∧
    indexLegal s i = true

/-- R357: the elements a command needs of each memory it may find too small, in ascending memory id. -/
def resourceNeeds (s : State) : Instr → List (MemId × Nat)
  | .hufStore => [(.bitq, s.regs.nbitq.toNat + (storeFields s.lengths).length)]
  | .lzFill => [(.pix, s.regs.width.toNat * s.regs.height.toNat)]
  | .lzRefs f => [(.pix, s.regs.width.toNat * s.regs.height.toNat), (.refs, (s.refsResult f).recs.length)]
  | .histBuild => [(.th, s.histTiles)]
  | .histCluster => [(.syms, s.histTiles)]
  | .predResid => [(.pix, s.regs.width.toNat * s.regs.height.toNat), (.tdata, s.predTiles)]
  | _ => []

/-- R357: every memory a command needs is deep enough. -/
abbrev ResourcesFit (i : Instr) (s : State) : Prop := ∀ x ∈ resourceNeeds s i, x.2 ≤ x.1.depth s.caps

/-- R123, R124: the legal command words, by their three fields as numbers. -/
abbrev LegalWord (w : Word) : Prop :=
  let op := w.toNat / 2 ^ 24
  let a := w.toNat / 2 ^ 16 % 2 ^ 8
  let b := w.toNat % 2 ^ 16
  (op ∈ [0x00, 0x11, 0x12, 0x20, 0x30, 0x31, 0x33, 0x40, 0x50, 0x51] ∧ a = 0 ∧ b = 0) ∨
  (op = 0x10 ∧ 1 ≤ a ∧ a ≤ 15 ∧ b = 0) ∨ (op = 0x21 ∧ a ≤ 2 ∧ b = 0) ∨ (op = 0x32 ∧ a ≤ 4)

/-- R380: the value every register reads as after reset; MEM_DATA holds none and CMD reads 0. -/
def resetValue (c : Caps) : Reg → Word
  | .id => 0x48434C42
  | .capPix => c.pix
  | .capTd => c.td
  | .capRefs => c.refs
  | .capTh => c.th
  | .capBitq => c.bitq
  | .capHash => c.hash
  | _ => 0

/-- R99: what the window stores of `v` at host word `idx`. -/
def storedBits (id : MemId) (idx : Nat) (v : Word) : Nat :=
  match id with
  | .clen => v.toNat % 16
  | .code => v.toNat % 65536
  | .tok => v.toNat % 32 + 256 * (v.toNat / 256 % 128)
  | .bitq => if idx % 2 = 1 then v.toNat % 64 else v.toNat
  | .pmatch => v.toNat % 256
  | .taken => v.toNat % 2
  | .same => v.toNat % 2
  | _ => v.toNat

/-- R50, R95, R56: the table of the local memories, by the value of MEM_SEL: the memory, its depth in elements and the
host words of one element. -/
def memoryTable (c : Caps) : List (MemId × Nat × Nat) :=
  [(.pix, c.pix.toNat, 1), (.tdata, c.td.toNat, 1), (.chain, c.pix.toNat, 1), (.ccache, 1024, 1),
   (.refs, c.refs.toNat, 2), (.th, c.th.toNat, 2112), (.syms, c.th.toNat, 1), (.hcnt, 1304, 1),
   (.clen, 1304, 1), (.code, 1304, 1), (.tok, 1304, 1), (.bitq, c.bitq.toNat, 2),
   (.pal, 256, 1), (.pmatch, 65536, 1), (.taken, 65536, 1), (.same, 256, 1)]

/-- R50, the column "read by commands": the memories a command's rule lists under "Reads". -/
def memoriesRead : Instr → List MemId
  | .nop => []
  | .hufBuild _ => [.hcnt]
  | .hufRle => [.clen]
  | .hufStore => [.clen]
  | .lzFill => [.pix]
  | .lzRefs f => if f = 0 then [.pix, .chain] else [.pix]
  | .histBuild => [.refs]
  | .histCluster => [.th, .syms]
  | .histExport _ _ => [.th]
  | .histEntropy => [.hcnt]
  | .predResid => [.pix]
  | .pmapBuild => [.pal]
  | .pmapQuery => [.pmatch, .pal]

/-! ### What a step leaves unchanged -/

/-- R352: the state after an error completion. -/
def State.errored (s : State) (code : BitVec 8) (info : Word) : State :=
  { s with regs := { s.regs with errCode := code, errInfo := info, err := true, busy := false } }

/-- R13 (3), R39: the registers after a successful completion that writes no result register. -/
def Regs.completed (r : Regs) : Regs := { r with done := true, busy := false, cmdCnt := r.cmdCnt + 1 }

/-- Everything but the registers and the named memories is as before: the capability constants, the model's own fields
and every other memory. -/
def SameBut (s t : State) (ids : List MemId) : Prop :=
  t.caps = s.caps ∧ t.rdata = s.rdata ∧ t.agenda = s.agenda ∧ t.fresh = s.fresh ∧
    ∀ id, id ∉ ids → t.mems.get id = s.mems.get id

/-- Every host word of a memory outside `lo .. lo + n - 1` reads as before. -/
def SameOutside (s t : State) (id : MemId) (lo n : Nat) : Prop :=
  ∀ a, a < lo ∨ lo + n ≤ a → t.readWord id a = s.readWord id a

/-! ### Readers of what commands write -/

/-- R181: the lengths a token sequence stands for, `prev` being the previous non-zero length. -/
def expandTokens : Nat → List Token → List Nat
  | _, [] => []
  | prev, t :: ts =>
    if t.code = 16 then List.replicate (3 + t.extra) prev ++ expandTokens prev ts
    else if t.code = 17 then List.replicate (3 + t.extra) 0 ++ expandTokens prev ts
    else if t.code = 18 then List.replicate (11 + t.extra) 0 ++ expandTokens prev ts
    else t.code :: expandTokens (if t.code = 0 then prev else t.code) ts

/-- R61: the token in a host word of TOK. -/
def tokenOf (w : Nat) : Token := ⟨w % 32, w / 256 % 128⟩

/-- R181 to R183: the value in force after a length sequence: its last non-zero one, 8 when it has none. -/
def lastNonzero (lens : List Nat) : Nat := (lens.filter (fun l => decide (l ≠ 0))).getLast?.getD 8

/-- R182: the tokens of a run of `r` zeros, longest first. -/
def zeroTokens (r : Nat) : List Token :=
  List.replicate (r / 138) ⟨18, 127⟩ ++
    (if r % 138 < 3 then List.replicate (r % 138) ⟨0, 0⟩
     else if r % 138 < 11 then [⟨17, r % 138 - 3⟩] else [⟨18, r % 138 - 11⟩])

/-- R183: the tokens of a run of `r` copies of `v ≠ 0` when `prev` is in force: six copies to a full repeat. -/
def copyTokens (prev v r : Nat) : List Token :=
  let k := if v = prev then r else r - 1
  (if v = prev then [] else [⟨v, 0⟩]) ++ List.replicate (k / 6) ⟨16, 3⟩ ++
    (if k % 6 < 3 then List.replicate (k % 6) ⟨v, 0⟩ else [⟨16, k % 6 - 3⟩])

/-- R190: the histogram of the 19 token codes. -/
def tokenCounts (tokens : List Token) : List Nat :=
  (List.range 19).map (fun c => (tokens.filter (fun t => decide (t.code = c))).length)

/-- R191: the lengths by which tokens are stored: all 0 for a code-length code with exactly one symbol in use, and only
then (log 22). -/
def storedCodeLength (mlen : List Nat) (c : Nat) : Nat :=
  if (mlen.filter (fun l => decide (l ≠ 0))).length = 1 then 0 else mlen.getD c 0

/-- R192, R194: the extra bits of a token code. -/
def extraWidth (c : Nat) : Nat := if c = 16 then 2 else if c = 17 then 3 else if c = 18 then 7 else 0

/-- R192: the token codes that stand for zeros only. -/
abbrev ZeroCode (c : Nat) : Prop := c = 0 ∨ c = 17 ∨ c = 18

/-- R194: the bit fields of one token: its code reversed, unless that has no bits, then its extra bits. -/
def tokenFields (mlen : List Nat) (t : Token) : List BitField :=
  let w := storedCodeLength mlen t.code
  (if w = 0 then [] else [⟨rev ((canonical mlen).getD t.code 0) w, w⟩]) ++
    (if 16 ≤ t.code then [⟨t.extra, extraWidth t.code⟩] else [])

/-- R192: the bit fields between the code-length code and the tokens: the full form, or the trimmed one with the number
of tokens it keeps. -/
def streamHeader (trim : Bool) (kept : Nat) : List BitField :=
  if trim = false then [⟨0, 1⟩]
  else if kept = 2 then [⟨1, 1⟩, ⟨0, 3⟩, ⟨0, 2⟩]
  else [⟨1, 1⟩, ⟨bitsLog2Floor (kept - 2) / 2, 3⟩, ⟨kept - 2, 2 * (bitsLog2Floor (kept - 2) / 2 + 1)⟩]

/-- R190 to R194: the bit fields of the full path, for the tokens of a length sequence. `cts` is the number of stored
code-length-code lengths, `kept` the number of tokens up to the last one that is not all zeros. -/
def FullPathLayout (tokens : List Token) (fields : List BitField) : Prop :=
  ∃ (mlen order : List Nat) (cts kept : Nat) (trim : Bool),
    mlen = codeLengths (tokenCounts tokens) 7 ∧
    order = [17, 18, 0, 1, 2, 3, 4, 5, 16, 6, 7, 8, 9, 10, 11, 12, 13, 14, 15] ∧
    (4 ≤ cts ∧ cts ≤ 19 ∧ (∀ i, cts ≤ i → i < 19 → mlen.getD (order.getD i 0) 0 = 0) ∧
      (cts = 4 ∨ mlen.getD (order.getD (cts - 1) 0) 0 ≠ 0)) ∧
    (kept ≤ tokens.length ∧ (∀ t ∈ tokens.drop kept, ZeroCode t.code) ∧
      (kept = 0 ∨ ¬ ZeroCode (tokens.getD (kept - 1) ⟨0, 0⟩).code)) ∧
    (trim = true ↔ 1 < kept ∧
      12 < ((tokens.drop kept).map (fun t => storedCodeLength mlen t.code + extraWidth t.code)).sum) ∧
    fields = [⟨0, 1⟩, ⟨cts - 4, 4⟩] ++ (order.take cts).map (fun c => ⟨mlen.getD c 0, 3⟩) ++
      streamHeader trim kept ++ (if trim then tokens.take kept else tokens).flatMap (tokenFields mlen)

/-- R173: items in ascending weight; items of equal weight keep their order. -/
def byWeight (items : List (Nat × List Nat)) : List (Nat × List Nat) :=
  items.insertionSort (fun a b => a.1 ≤ b.1)

/-- R173: the leaves `(HCNT[s], {s})` by ascending weight, then ascending symbol. -/
def sortedLeaves (hist : List Nat) : List (Nat × List Nat) :=
  byWeight (((List.range hist.length).filter (fun s => decide (0 < hist.getD s 0))).map
    (fun s => (hist.getD s 0, [s])))

/-- R174: package `i` is made of the items `2 i` and `2 i + 1`. -/
def pairedItems (items : List (Nat × List Nat)) : List (Nat × List Nat) :=
  (List.range (items.length / 2)).map (fun i =>
    ((items.getD (2 * i) (0, [])).1 + (items.getD (2 * i + 1) (0, [])).1,
     (items.getD (2 * i) (0, [])).2 ++ (items.getD (2 * i + 1) (0, [])).2))

/-- R174, R175: `list_(j+1)`: the leaves and the packages of `list_j` by ascending weight, a leaf before a package of
equal weight. -/
def levelList (hist : List Nat) : Nat → List (Nat × List Nat)
  | 0 => sortedLeaves hist
  | j + 1 => byWeight (sortedLeaves hist ++ pairedItems (levelList hist j))

/-- R176: how often a symbol occurs in the first `2 m - 2` items of `list_L`, `m` being the number of leaves. -/
def selectedCount (hist : List Nat) (L sym : Nat) : Nat :=
  (((levelList hist (L - 1)).take (2 * (sortedLeaves hist).length - 2)).flatMap Prod.snd).count sym

/-- R177: the symbols whose codes come before that of symbol `i`: the shorter ones, and of its length the lower ones. -/
def codesBefore (lens : List Nat) (i : Nat) : List Nat :=
  (List.range lens.length).filter (fun j => decide (lens.getD j 0 ≠ 0) &&
    (decide (lens.getD j 0 < lens.getD i 0) || decide (lens.getD j 0 = lens.getD i 0) && decide (j < i)))

/-- The Kraft sum of a length vector, times `2^L` (R176). -/
def kraftSum (L : Nat) (lens : List Nat) : Nat :=
  ((lens.filter (fun l => decide (l ≠ 0))).map (fun l => 2 ^ (L - l))).sum

/-- R223: `n` pixels, each equal to the pixel `dist` positions back. -/
def copyBack (dist : Nat) : Nat → List Word → List Word
  | 0, _ => []
  | n + 1, out => out.getD (out.length - dist) 0 :: copyBack dist n (out ++ [out.getD (out.length - dist) 0])

/-- R223: the pixels a record stands for, after the output `out`, with the cache `cache`. -/
def recordPixels (r : RefRec) (out cache : List Word) : List Word :=
  if r.mode = 0 then [r.w1] else if r.mode = 1 then [cache.getD r.val 0] else copyBack r.val r.len out

/-- R223: the replay of a stream, which knows only the records: the pixels and the cache it ends with. -/
def replayStream (cacheBits : Nat) : List RefRec → List Word → List Word → List Word × List Word
  | [], out, cache => (out, cache)
  | r :: recs, out, cache =>
    let px := recordPixels r out cache
    replayStream cacheBits recs (out ++ px) (px.foldl (cacheInsert cacheBits) cache)

/-- R217: the number of pixels a stream stands for. -/
def streamLength (recs : List RefRec) : Nat := (recs.map RefRec.len).sum

/-- R253: a record is valid at position `pos` of an image of `n` pixels. -/
abbrev ValidRecord (n cacheBits pos : Nat) (r : RefRec) : Prop :=
  r.zero = 0 ∧ pos + r.len ≤ n ∧
    ((r.mode = 0 ∧ r.len = 1) ∨
     (r.mode = 1 ∧ r.len = 1 ∧ 0 < cacheBits ∧ r.val < 2 ^ cacheBits) ∨
     (r.mode = 2 ∧ 1 ≤ r.len ∧ r.len ≤ 4096 ∧ 1 ≤ r.val ∧ r.val ≤ 1048576 ∧ r.val ≤ pos))

/-- R253: a stream is valid: every record is, and its length is the image's. -/
abbrev ValidStream (n cacheBits : Nat) (recs : List RefRec) : Prop :=
  (∀ j, j < recs.length → ValidRecord n cacheBits (streamLength (recs.take j)) (recs.getD j ⟨0, 0⟩)) ∧
    streamLength recs = n

/-- R217: the operands LZ.REFS needs, with REFS deep enough for the stream it makes (`N ≤ REFS_DEPTH` is sufficient). -/
abbrev RefsReady (f : BitVec 2) (s : State) : Prop :=
  ParamsLegal (.lzRefs f) s ∧ s.pixelCount ≤ s.caps.pix.toNat ∧
    (s.pixelCount ≤ s.caps.refs.toNat ∨ (s.refsResult f).recs.length ≤ s.caps.refs.toNat)

/-- R55: the first `k` records of REFS. -/
def State.storedRecords (s : State) (k : Nat) : List RefRec := recordsOf (s.readWords .refs 0 (2 * k))

/-- R221: the number of CCACHE elements a command uses. -/
def cacheSize (cacheBits : Nat) : Nat := if cacheBits = 0 then 0 else 2 ^ cacheBits

/-- R219: the candidates the walk examines, in its order. -/
def visited (chain : List Word) (p window : Nat) : Nat → Word → List Nat
  | 0, _ => []
  | it + 1, q =>
    if q ≠ noneMark ∧ q.toNat < p ∧ p - q.toNat ≤ window then
      q.toNat :: visited chain p window it (chain.getD q.toNat noneMark)
    else []

/-- R56, R254: how often a record increments counter `j` of a histogram: a Literal its green, red, blue and alpha counts,
a CacheIdx `i` the counter 280 + `i`, a Copy 256 + the length's prefix code and the distance's. -/
def increments (r : RefRec) (j : Nat) : Nat :=
  if r.mode = 0 then
    [r.val / 256 % 256, 1304 + r.val / 65536 % 256, 1560 + r.val % 256, 1816 + r.val / 16777216].count j
  else if r.mode = 1 then if j = 280 + r.val then 1 else 0
  else if j = 256 + (prefixEncode r.len).code ∨ j = 2072 + (prefixEncode r.val).code then 1 else 0

/-- R254, R255: how often the records from position `pos` on increment counter `j` of tile `k`. -/
def tally (width histoBits tilesX k j : Nat) : List RefRec → Nat → Nat
  | [], _ => 0
  | r :: recs, pos =>
    (if (pos / width / 2 ^ histoBits) * tilesX + pos % width / 2 ^ histoBits = k then increments r j else 0) +
      tally width histoBits tilesX k j recs (pos + r.len)

/-- R253: the operands HIST.BUILD needs, with a valid stream in REFS. -/
abbrev BuildReady (s : State) : Prop :=
  ParamsLegal .histBuild s ∧ ResourcesFit .histBuild s ∧
    ValidStream s.pixelCount s.regs.cacheBits.toNat s.refStream

/-- R262: the operands HIST.CLUSTER needs. -/
abbrev ClusterReady (s : State) : Prop :=
  ParamsLegal .histCluster s ∧ ResourcesFit .histCluster s ∧
    (∀ v ∈ s.tileSymbols, v < s.regs.nhisto.toNat) ∧ ∀ arr, arr < 5 → arrayTotal s.histograms arr < 2 ^ 32

/-- R56: the counters of histogram `k` in TH. -/
def State.histogramAt (s : State) (k : Nat) : List Nat := s.readNats .th (k * histWords) histWords

/-- R263: the gain of merging two histograms. -/
def mergeGain (cost : List Nat → Nat) (a b : List Nat) : Int :=
  (cost a + cost b : Nat) - (cost (addCounters a b) : Nat)

/-- R264: `i < j` is the live pair to merge: its gain is strictly positive and the largest, and among the pairs of that
gain it has the smallest `i`, then the smallest `j`. `work` holds the working histograms. -/
def BestPair (cost : List Nat → Nat) (live : List Nat) (work : Nat → List Nat) (i j : Nat) : Prop :=
  i ∈ live ∧ j ∈ live ∧ i < j ∧ 0 < mergeGain cost (work i) (work j) ∧
    ∀ c ∈ live, ∀ d ∈ live, c < d →
      mergeGain cost (work c) (work d) < mergeGain cost (work i) (work j) ∨
      (mergeGain cost (work c) (work d) = mergeGain cost (work i) (work j) ∧ (i < c ∨ (i = c ∧ j ≤ d)))

/-- R264: the merges are those of the loop, in order: each is the best pair of its turn, after which the lower index
holds the sum and the higher one is no longer live; they end when no pair gains. -/
def GreedyMerges (cost : List Nat → Nat) : List (Nat × Nat) → List Nat → (Nat → List Nat) → Prop
  | [], live, work => ∀ c ∈ live, ∀ d ∈ live, c < d → mergeGain cost (work c) (work d) ≤ 0
  | (i, j) :: merges, live, work => BestPair cost live work i j ∧
      GreedyMerges cost merges (live.erase j) (Function.update work i (addCounters (work i) (work j)))

/-- R153: the mantissa before fraction bit `15 - k` is computed: squared and shifted, halved when it reached 2^32. -/
def mantissa (x : Nat) : Nat → Nat
  | 0 => x * 2 ^ (31 - bitsLog2Floor x)
  | k + 1 =>
    if 2 ^ 32 ≤ mantissa x k * mantissa x k / 2 ^ 31 then mantissa x k * mantissa x k / 2 ^ 31 / 2
    else mantissa x k * mantissa x k / 2 ^ 31

/-- R258: the entropy estimate of an array of counts, by its three cases. -/
def estimate (c : List Nat) (corr : Nat) : Nat :=
  let nz := c.filter (fun x => decide (0 < x))
  if nz.length ≤ 1 then 0
  else if ∀ x ∈ nz, ∀ y ∈ nz, x = y then (c.sum * flog2 nz.length + 65535) / 65536
  else ((nz.map (fun x => x * (flog2 c.sum - flog2 x))).sum + 65535) / 65536 + corr

/-- R7: channel `c` of a Pixel: 0 blue, 1 green, 2 red, 3 alpha. -/
def channel (p : Word) (c : Nat) : Nat := p.toNat / 256 ^ c % 256

/-- The absolute difference of two channel values. -/
def gap (x y : Nat) : Nat := max x y - min x y

/-- R295: the sum over the channels of the absolute differences of two Pixels. -/
def pixelGap (p q : Word) : Nat := ((List.range 4).map (fun c => gap (channel p c) (channel q c))).sum

/-- R295, R296: channel `c` of the prediction of mode `m`, from the left, top, top-right and top-left neighbours. -/
def modeChannel (m : Nat) (left top topRight topLeft : Word) (c : Nat) : Nat :=
  let l := channel left c
  let t := channel top c
  let tr := channel topRight c
  let tl := channel topLeft c
  if m = 0 then if c = 3 then 255 else 0
  else if m = 1 then l
  else if m = 2 then t
  else if m = 3 then tr
  else if m = 4 then tl
  else if m = 5 then ((l + tr) / 2 + t) / 2
  else if m = 6 then (l + tl) / 2
  else if m = 7 then (l + t) / 2
  else if m = 8 then (tl + t) / 2
  else if m = 9 then (t + tr) / 2
  else if m = 10 then ((l + tl) / 2 + (t + tr) / 2) / 2
  else if m = 11 then if pixelGap top topLeft < pixelGap left topLeft then l else t
  else if m = 12 then min 255 (l + t - tl)
  else if tl ≤ (l + t) / 2 then min 255 ((l + t) / 2 + ((l + t) / 2 - tl) / 2)
  else (l + t) / 2 - (tl - (l + t) / 2) / 2

/-- R291, R296: channel `c` of the prediction of mode `m` at an interior position, by linear addressing. -/
def predictedChannel (orig : List Word) (width m p c : Nat) : Nat :=
  modeChannel m (orig.getD (p - 1) 0) (orig.getD (p - width) 0) (orig.getD (p - width + 1) 0)
    (orig.getD (p - width - 1) 0) c

/-- R297: the error of mode `m` in tile `tile`: over all pixels of that tile off the first row and column. -/
def modeError (orig : List Word) (width bits tilesX tile m : Nat) : Nat :=
  (((List.range orig.length).filter (fun p =>
      decide (1 ≤ p % width) && decide (1 ≤ p / width) &&
        decide ((p / width / 2 ^ bits) * tilesX + p % width / 2 ^ bits = tile))).map (fun p =>
    ((List.range 4).map (fun c =>
      gap (channel (orig.getD p 0) c) (predictedChannel orig width m p c))).sum)).sum

/-- R321: the index of the cell of palette entry `i`. -/
def State.entryCell (s : State) (i : Nat) : Nat :=
  channel (s.readWord .pal i) 0 / 8 * 2048 + channel (s.readWord .pal i) 1 / 4 * 32 + channel (s.readWord .pal i) 2 / 8

/-- R321, R328: the Chebyshev distance between two cells, given by their indices. -/
def cellGap (j k : Nat) : Nat :=
  max (gap (j % 32) (k % 32)) (max (gap (j / 32 % 64) (k / 32 % 64)) (gap (j / 2048) (k / 2048)))

/-- R298: channel `c` of the effective predictor at position `p`: black in the first row, the pixel before in the first
column, elsewhere the prediction of the tile's mode. -/
def effectiveChannel (orig : List Word) (width bits tilesX : Nat) (modes : List Nat) (p c : Nat) : Nat :=
  if p / width = 0 then if c = 3 then 255 else 0
  else if p % width = 0 then channel (orig.getD (p - 1) 0) c
  else predictedChannel orig width (modes.getD ((p / width / 2 ^ bits) * tilesX + p % width / 2 ^ bits) 0) p c

/-- R7: the Pixel of four channel values. -/
def pixelOf (f : Nat → Nat) : Word := BitVec.ofNat 32 (f 0 + 256 * f 1 + 65536 * f 2 + 16777216 * f 3)

/-- R300: the pixels recovered in ascending position from residuals and tile modes, after `done`: each channel is the
residual's plus the prediction's modulo 256. -/
def recoverPixels (width bits tilesX : Nat) (modes : List Nat) : List Word → List Word → List Word
  | [], done => done
  | r :: rs, done =>
    recoverPixels width bits tilesX modes rs
      (done ++ [pixelOf (fun c =>
        (channel r c + effectiveChannel done width bits tilesX modes done.length c) % 256)])

end Sys2Proof.Machine
end

