-- ==== Sys2Proof/Certificates/Slice0/Obligations.lean ====
section
/-!
DEFINITION. The statements about the model. A premise `s.memsWf = true` (every memory in its canonical form) is the
invariant of `Obligations.StepKeepsMemoriesCanonical`; every run from reset has it. `expect` of each is in
OBLIGATIONS.json.
-/

open Sys2Proof Sys2Proof.Machine

/-! ### The command word -/

/-- R120 to R123: decoding what was encoded gives the command back, every operand at every legal value. -/
def Obligations.DecodeUndoesEncode : Prop := ∀ i : Instr, i.wf = true → decode (encode i) = .ok i

/-- R120, R121, R123: a legal word is the encoding of the command it decodes to: no bit of it is ignored. -/
def Obligations.EncodeUndoesDecode : Prop := ∀ (w : Word) (i : Instr), decode w = .ok i → i.wf = true ∧ encode i = w

/-- R124, R125, R353: a word with a row, zero must-be-zero bits and a legal argument runs as the command it decodes to;
every other accepted word ends in `E_ILLEGAL` with ERRINFO = the word, whatever the parameter registers hold. -/
def Obligations.LegalityDecidesTheCompletion : Prop :=
  ∀ (s : State) (w : Word), s.regs.busy = true → s.regs.lastCmd = w →
    (LegalWord w → ∃ i, decode w = .ok i ∧ s.blockTurn = exec i s) ∧
    (¬ LegalWord w → s.blockTurn = .next (s.errored 0x01 w))

/-- R130: the worked encodings, and the listed illegal words. -/
def Obligations.WorkedEncodings : Prop :=
  decode 0x100F0000 = .ok (.hufBuild 15) ∧ decode 0x10070000 = .ok (.hufBuild 7) ∧
  decode 0x21000000 = .ok (.lzRefs 0) ∧ decode 0x21010000 = .ok (.lzRefs 1) ∧
  decode 0x21020000 = .ok (.lzRefs 2) ∧ decode 0x32040003 = .ok (.histExport 4 3) ∧
  decode 0x32000000 = .ok (.histExport 0 0) ∧
  ∀ w ∈ ([0x10000000, 0x10100000, 0x100F0001, 0x21030000, 0x32050000, 0x11000001, 0x00010000, 0x01000000,
      0xFFFFFFFF] : List Word),
    ∀ s : State, s.regs.busy = true → s.regs.lastCmd = w → s.blockTurn = .next (s.errored 0x01 w)

/-! ### The life of a command -/

/-- R13: the busy block's turn runs the command decoded from the word in LASTCMD, and a host turn performs its access;
the step itself only takes the turn off the agenda (log 4). -/
def Obligations.StepRunsDecodedCommand : Prop :=
  ∀ s : State,
    (∀ i : Instr, s.regs.busy = true → decode s.regs.lastCmd = .ok i →
      (s.agenda = [] → step s = exec i s) ∧
      (∀ rest, s.agenda = .block :: rest → step s = exec i { s with agenda := rest })) ∧
    (∀ w off rest, s.agenda = .host (.read w off) :: rest →
      step s = .next (State.hostRead { s with agenda := rest } w off)) ∧
    (∀ w off v rest, s.agenda = .host (.write w off v) :: rest →
      step s = .next (State.hostWrite { s with agenda := rest } w off v))

/-- R13 (1), R36: a CMD write to an idle block without error latches the word, sets BUSY and clears DONE, and the block's
next turn runs the command it encodes. -/
def Obligations.IssuedCommandRunsNext : Prop :=
  ∀ (s : State) (i : Instr) (rest : List Turn), i.wf = true → s.regs.busy = false → s.regs.err = false →
    s.agenda = .host (.write .word 0x10 (encode i)) :: .block :: rest →
    ∃ t, step s = .next t ∧ t.regs = { s.regs with lastCmd := encode i, busy := true, done := false } ∧
      t.mems = s.mems ∧ t.caps = s.caps ∧ t.rdata = s.rdata ∧ step t = exec i { t with agenda := rest }

/-- R13 (3), R14, R39, R350, R352: one turn of the block ends every accepted word: in an error completion, which
changes the error registers and BUSY only, or in a completion, which sets DONE, clears BUSY, counts, and leaves the
error registers, ACCV, CTRL, LASTCMD and the window registers as they were. -/
def Obligations.EveryAcceptedWordCompletes : Prop :=
  ∀ s : State, s.regs.busy = true →
    ∃ t, s.blockTurn = .next t ∧
      ((∃ code info, 1 ≤ code.toNat ∧ code.toNat ≤ 7 ∧ t = s.errored code info) ∨
       (t.regs.done = true ∧ t.regs.busy = false ∧ t.regs.cmdCnt = s.regs.cmdCnt + 1 ∧ t.regs.err = s.regs.err ∧
        t.regs.errCode = s.regs.errCode ∧ t.regs.errInfo = s.regs.errInfo ∧ t.regs.accv = s.regs.accv ∧
        t.regs.ieDone = s.regs.ieDone ∧ t.regs.ieErr = s.regs.ieErr ∧ t.regs.lastCmd = s.regs.lastCmd ∧
        t.regs.memSel = s.regs.memSel ∧ t.regs.memIdx = s.regs.memIdx ∧ t.caps = s.caps ∧ t.rdata = s.rdata ∧
        t.agenda = s.agenda))

/-- R42: only HIST.EXPORT writes a parameter register, and it writes NSYM only. -/
def Obligations.OnlyExportWritesAParameter : Prop :=
  ∀ (i : Instr) (s t : State), exec i s = .next t →
    t.regs.width = s.regs.width ∧ t.regs.height = s.regs.height ∧ t.regs.cacheBits = s.regs.cacheBits ∧
    t.regs.histoBits = s.regs.histoBits ∧ t.regs.predBits = s.regs.predBits ∧ t.regs.hashBits = s.regs.hashBits ∧
    t.regs.maxChain = s.regs.maxChain ∧ t.regs.window = s.regs.window ∧ t.regs.maxLen = s.regs.maxLen ∧
    t.regs.palSize = s.regs.palSize ∧ t.regs.entCorr = s.regs.entCorr ∧ t.regs.qpix = s.regs.qpix ∧
    ((∀ arr k, i ≠ .histExport arr k) → t.regs.nsym = s.regs.nsym)

/-- R15, R50, R103: with all registers equal, the result of every command but LZ.REFS BOX depends on the registers, the capability constants and the
memories its rule reads, and on nothing else: not on the other memories, nor on the model's own fields. Each host word
of each memory ends equal in the two runs, or unchanged in both. -/
def Obligations.CommandsReadOnlyWhatTheirRuleLists : Prop :=
  ∀ (i : Instr) (s s' t t' : State), i ≠ .lzRefs 2 → s.caps = s'.caps → s.regs = s'.regs →
    (∀ id ∈ memoriesRead i, s.mems.get id = s'.mems.get id) → exec i s = .next t → exec i s' = .next t' →
    t.regs = t'.regs ∧
    ∀ id a, t.readWord id a = t'.readWord id a ∨
      (t.readWord id a = s.readWord id a ∧ t'.readWord id a = s'.readWord id a)

/-! ### Invariants of a step -/

/-- R35, R38, R350: BUSY, DONE and ERR are never 1 two at a time, and ERRCODE and ERRINFO are 0 while ERR is 0: every
step keeps this. -/
def Obligations.StepKeepsStatusFlags : Prop :=
  ∀ s t : State, s.regs.flagsOk = true → step s = .next t → t.regs.flagsOk = true

/-- Every step keeps every memory in its canonical form, each listed value inside its element's width. -/
def Obligations.StepKeepsMemoriesCanonical : Prop :=
  ∀ s t : State, s.memsWf = true → step s = .next t → t.memsWf = true

/-- R98, R103: no step writes a host word at or above the window size of its memory. -/
def Obligations.StepKeepsMemoriesInside : Prop :=
  ∀ s t : State, s.memsInside = true → step s = .next t → t.memsInside = true

/-- The three invariants hold in the state after reset, for every choice of the implementation parameters. -/
def Obligations.ResetMeetsTheInvariants : Prop :=
  ∀ c : Caps, (State.resetWith c).regs.flagsOk = true ∧ (State.resetWith c).memsWf = true ∧
    (State.resetWith c).memsInside = true

/-- R39: CMDCNT counts successful completions modulo 2^32; error completions, host accesses other than a soft reset and
idle turns leave it, both resets clear it. -/
def Obligations.CmdcntCountsCompletions : Prop :=
  ∀ s t : State, s.regs.flagsOk = true → step s = .next t →
    ((s.agenda = [] ∨ ∃ rest, s.agenda = .block :: rest) →
      t.regs.cmdCnt = if s.regs.busy && t.regs.done then s.regs.cmdCnt + 1 else s.regs.cmdCnt) ∧
    (∀ v rest, s.agenda = .host (.write .word 0x08 v) :: rest →
      t.regs.cmdCnt = if v.getLsbD 0 then 0 else s.regs.cmdCnt) ∧
    (∀ a rest, s.agenda = .host a :: rest → (∀ v, a ≠ .write .word 0x08 v) → t.regs.cmdCnt = s.regs.cmdCnt) ∧
    (∀ o rest, s.agenda = .hardReset o :: rest → t.regs.cmdCnt = 0)

/-- R40: the capability registers read as the implementation parameters, and no step changes them. -/
def Obligations.CapabilitiesNeverChange : Prop :=
  ∀ s t : State, step s = .next t → t.caps = s.caps ∧
    t.readReg .capPix = s.caps.pix ∧ t.readReg .capTd = s.caps.td ∧ t.readReg .capRefs = s.caps.refs ∧
    t.readReg .capTh = s.caps.th ∧ t.readReg .capBitq = s.caps.bitq ∧ t.readReg .capHash = s.caps.hash

/-! ### Resets -/

/-- R380: the register values after either reset, `irq` among them, and the commands that cannot run yet. -/
def Obligations.ResetRegisterValues : Prop :=
  ∀ s t : State, (t = State.resetWith s.caps ∨ t = s.softReset ∨ ∃ o, t = s.hardReset o) →
    (∀ r : Reg, t.readReg r = resetValue s.caps r) ∧ t.irq = false ∧
    ∀ i : Instr, i.wf = true → i ≠ .nop → i ≠ .pmapQuery →
      ∃ code info, (code = 0x02 ∨ code = 0x03) ∧
        exec i (t.issue (encode i)) = .next ((t.issue (encode i)).errored code info)

/-- R381, R383: a hard reset leaves the block idle and every memory without any written word; what a word then reads as
is a free value (log 2) inside the element's width. -/
def Obligations.HardResetForgetsEveryMemory : Prop :=
  ∀ (s t : State) (o : Option HostAccess) (rest : List Turn), s.agenda = .hardReset o :: rest → step s = .next t →
    t.regs = Regs.reset ∧ t.caps = s.caps ∧ t.agenda = rest ∧
    ∀ id a, (t.mems.get id).get? a = none ∧ (t.readWord id a).toNat = storedBits id a (t.readWord id a)

/-- R382: a CTRL write with SRST = 1, at any time: every register takes its reset value, the IE bits of the write are
discarded; with no command in flight every memory is unchanged; a command in flight is abandoned, the memories its
rule lists under "Writes" become unspecified and all others are unchanged. -/
def Obligations.SoftResetAtAnyTime : Prop :=
  ∀ (s t : State) (v : Word) (rest : List Turn), s.agenda = .host (.write .word 0x08 v) :: rest →
    v.getLsbD 0 = true → step s = .next t →
    t.regs = Regs.reset ∧ t.caps = s.caps ∧ t.agenda = rest ∧
    (s.regs.busy = false → t.mems = s.mems) ∧
    (s.regs.busy = true → ∀ i, decode s.regs.lastCmd = .ok i → ∀ id,
      (id ∈ memoriesWritten i → ∀ a, (t.mems.get id).get? a = none ∧
        (t.readWord id a).toNat = storedBits id a (t.readWord id a)) ∧
      (id ∉ memoriesWritten i → t.mems.get id = s.mems.get id))

/-! ### The register port -/

/-- R34, R35, R45: the places of the bits of STATUS and CTRL, and `irq`, the level of two bits of each. -/
def Obligations.IrqIsALevelOfStatusAndControlBits : Prop :=
  ∀ s : State,
    (∀ b, b < 32 →
      (s.readReg .status).getLsbD b =
        (if b = 0 then s.regs.busy else if b = 1 then s.regs.done else if b = 2 then s.regs.err
         else if b = 3 then s.regs.accv else if 8 ≤ b then s.regs.errCode.getLsbD (b - 8) else false) ∧
      (s.readReg .ctrl).getLsbD b = (if b = 1 then s.regs.ieDone else if b = 2 then s.regs.ieErr else false)) ∧
    s.irq = (((s.readReg .status).getLsbD 1 && (s.readReg .ctrl).getLsbD 1) ||
      ((s.readReg .status).getLsbD 2 && (s.readReg .ctrl).getLsbD 2))

/-- R44, R94: an unmapped offset reads 0 and ignores writes, without a flag, also while BUSY (before R100: the model's
reading, log 12); a narrow or misaligned access is refused at every offset (before R44: the model's reading, log 11): a
read returns 0, a write changes nothing, and ACCV is set. -/
def Obligations.UnmappedAndNarrowAccesses : Prop :=
  ∀ (s : State) (w : AccessWidth) (off : Nat) (v : Word),
    (off % 4 = 0 → (∀ r : Reg, off ≠ r.offset) →
      s.hostRead .word off = { s with rdata := 0 } ∧ s.hostWrite .word off v = s) ∧
    ((w ≠ .word ∨ off % 4 ≠ 0) →
      s.hostRead w off = { s with rdata := 0, regs := { s.regs with accv := true } } ∧
      s.hostWrite w off v = { s with regs := { s.regs with accv := true } })

/-- R32, R34, R41 to R43, R95: a register read returns the register and changes nothing else; a write to CTRL without
SRST stores bits 2:1, also while BUSY; on an idle block a write to a plain register stores all 32 bits, to MEM_SEL bits
3:0, and to a read-only register nothing; every other register, every memory and the capability constants stay as they
were. -/
def Obligations.RegisterReadsAndWrites : Prop :=
  ∀ (s : State) (r : Reg) (v : Word),
    (r ≠ .memData → s.hostRead .word r.offset = { s with rdata := s.readReg r }) ∧
    (s.regs.busy = false ∨ r = .ctrl → ∃ t, s.hostWrite .word r.offset v = t ∧
      ((r ∈ [Reg.memIdx, .width, .height, .nsym, .cacheBits, .histoBits, .predBits, .hashBits, .maxChain, .window,
          .maxLen, .palSize, .entCorr, .qpix, .nrefs, .nhisto, .nbitq] ∨ r = .memSel ∨
          (r = .ctrl ∧ v.getLsbD 0 = false)) →
        t.readReg r = (if r = .memSel then v &&& 15 else if r = .ctrl then v &&& 6 else v) ∧
        (∀ q : Reg, q ≠ r → t.readReg q = s.readReg q) ∧ t.mems = s.mems ∧ t.caps = s.caps ∧ t.rdata = s.rdata ∧
        t.agenda = s.agenda ∧ t.fresh = s.fresh) ∧
      (r ∈ [Reg.id, .lastcmd, .errinfo, .cmdcnt, .capPix, .capTd, .capRefs, .capTh, .capBitq, .capHash, .ntok, .res0,
          .res1, .qidx, .qpal] → t = s))

/-- R100: the busy lock: every register write but those of CTRL and STATUS only sets ACCV (of a read-only register too:
the model's reading of R100 against R32, log 12); a MEM_DATA read returns 0, leaves MEM_IDX and sets ACCV; every other
read returns the register and changes nothing. -/
def Obligations.BusyLock : Prop :=
  ∀ s : State, s.regs.busy = true →
    (∀ (r : Reg) (v : Word), r ≠ .ctrl → r ≠ .status →
      s.hostWrite .word r.offset v = { s with regs := { s.regs with accv := true } }) ∧
    s.hostRead .word 0x28 = { s with rdata := 0, regs := { s.regs with accv := true } } ∧
    (∀ r : Reg, r ≠ .memData → s.hostRead .word r.offset = { s with rdata := s.readReg r })

/-- R36, R101: a CMD write issues the word on an idle block without error, and is dropped with ACCV otherwise; CMD reads
0. -/
def Obligations.CmdWriteIssuesOrIsDropped : Prop :=
  ∀ (s : State) (v : Word),
    (s.regs.busy = false → s.regs.err = false → ∃ t, s.hostWrite .word 0x10 v = t ∧
      t.regs = { s.regs with lastCmd := v, busy := true, done := false } ∧ t.mems = s.mems ∧ t.caps = s.caps ∧
      t.rdata = s.rdata ∧ t.agenda = s.agenda) ∧
    ((s.regs.busy = true ∨ s.regs.err = true) →
      s.hostWrite .word 0x10 v = { s with regs := { s.regs with accv := true } }) ∧
    s.hostRead .word 0x10 = { s with rdata := 0 }

/-- R35, R356: a STATUS write clears exactly the flags whose bits are 1 in it, ERR together with ERRCODE and ERRINFO, and
changes nothing else, also while BUSY; afterwards an idle block accepts a command again. -/
def Obligations.StatusWriteClearsFlags : Prop :=
  ∀ (s : State) (v w : Word), ∃ t, s.hostWrite .word 0x0C v = t ∧
    t = { s with regs := { s.regs with
      done := s.regs.done && !v.getLsbD 1
      err := s.regs.err && !v.getLsbD 2
      accv := s.regs.accv && !v.getLsbD 3
      errCode := if v.getLsbD 2 then 0 else s.regs.errCode
      errInfo := if v.getLsbD 2 then 0 else s.regs.errInfo } } ∧
    (v.getLsbD 2 = true → s.regs.busy = false → (t.hostWrite .word 0x10 w).regs.busy = true ∧
      (t.hostWrite .word 0x10 w).regs.lastCmd = w)

/-- R50, R95 to R98: a MEM_DATA read on an idle block, of the memory MEM_SEL names in the table of R50: inside the window
size (depth times host words per element) it returns the host word and moves MEM_IDX on, else it is refused. The model's
memory numbers, depths and window sizes are the table's. -/
def Obligations.WindowReadAdvances : Prop :=
  ∀ (s : State) (id : MemId) (depth words : Nat),
    (memoryTable s.caps)[s.regs.memSel.toNat]? = some (id, depth, words) →
    (id.num = s.regs.memSel.toNat ∧ id.depth s.caps = depth ∧ id.windowSize s.caps = depth * words) ∧
    (s.regs.busy = false →
      (s.regs.memIdx.toNat < depth * words →
        s.hostRead .word 0x28 =
          { s with rdata := s.readWord id s.regs.memIdx.toNat
                   regs := { s.regs with memIdx := s.regs.memIdx + 1 } }) ∧
      (depth * words ≤ s.regs.memIdx.toNat →
        s.hostRead .word 0x28 = { s with rdata := 0, regs := { s.regs with accv := true } }))

/-- R50, R95, R98, R99: a MEM_DATA write on an idle block, to the memory MEM_SEL names in the table of R50, stores the bits
its element keeps, and only there. -/
def Obligations.WindowWriteStoresTheElement : Prop :=
  ∀ (s : State) (v : Word) (id : MemId) (depth words : Nat), s.regs.busy = false →
    (memoryTable s.caps)[s.regs.memSel.toNat]? = some (id, depth, words) →
    (s.regs.memIdx.toNat < depth * words →
      ∃ t, s.hostWrite .word 0x28 v = t ∧ t.regs = { s.regs with memIdx := s.regs.memIdx + 1 } ∧
        SameBut s t [id] ∧
        (t.readWord id s.regs.memIdx.toNat).toNat = storedBits id s.regs.memIdx.toNat v ∧
        SameOutside s t id s.regs.memIdx.toNat 1) ∧
    (depth * words ≤ s.regs.memIdx.toNat →
      s.hostWrite .word 0x28 v = { s with regs := { s.regs with accv := true } })

/-! ### Errors -/

/-- R354: `E_DIM` of the five commands that read WIDTH and HEIGHT, WIDTH first; with legal dimensions N is at most
268402689 and no command reports it. -/
def Obligations.DimensionErrors : Prop :=
  ∀ (i : Instr) (s : State), i.wf = true →
    (readsDims i = true →
      ((s.regs.width.toNat = 0 ∨ 16384 ≤ s.regs.width.toNat) → exec i s = .next (s.errored 0x02 0)) ∧
      ((1 ≤ s.regs.width.toNat ∧ s.regs.width.toNat ≤ 16383) →
        (s.regs.height.toNat = 0 ∨ 16384 ≤ s.regs.height.toNat) → exec i s = .next (s.errored 0x02 1))) ∧
    ((readsDims i = true → s.DimsLegal) → ∀ info, exec i s ≠ .next (s.errored 0x02 info)) ∧
    (s.DimsLegal → s.regs.width.toNat * s.regs.height.toNat ≤ 268402689)

/-- R355: `E_PARAM` reports the offset of the lowest register at fault among those the table lists for the command, and
NHISTO's for `k ≥ NHISTO`; with all of them legal no command reports it. -/
def Obligations.ParameterErrors : Prop :=
  ∀ (i : Instr) (s : State), i.wf = true → (readsDims i = true → s.DimsLegal) →
    (∀ pre r post, checkedRegs i = pre ++ r :: post → (∀ q ∈ pre, s.regLegal q = true) → s.regLegal r = false →
      exec i s = .next (s.errored 0x03 (BitVec.ofNat 32 r.offset))) ∧
    ((∀ r ∈ checkedRegs i, s.regLegal r = true) → indexLegal s i = false →
      exec i s = .next (s.errored 0x03 0xC8)) ∧
    ((∀ r ∈ checkedRegs i, s.regLegal r = true) → indexLegal s i = true →
      ∀ info, exec i s ≠ .next (s.errored 0x03 info))

/-- R357: `E_RESOURCE` reports the lowest memory that is too small for the job; when all fit no command reports it. -/
def Obligations.ResourceErrors : Prop :=
  ∀ (i : Instr) (s : State), ParamsLegal i s →
    (∀ pre id n post, resourceNeeds s i = pre ++ (id, n) :: post → (∀ x ∈ pre, x.2 ≤ x.1.depth s.caps) →
      id.depth s.caps < n → exec i s = .next (s.errored 0x04 (BitVec.ofNat 32 id.num))) ∧
    (ResourcesFit i s → ∀ info, exec i s ≠ .next (s.errored 0x04 info))

/-- R253, R262 (7), R358: `E_STREAM` of HIST.BUILD reports the lowest invalid record, or NREFS for a stream that ends
short; of HIST.CLUSTER the lowest tile whose symbol is not below NHISTO. -/
def Obligations.StreamErrors : Prop :=
  ∀ s : State, s.memsWf = true →
    (ParamsLegal .histBuild s → ResourcesFit .histBuild s →
      (∀ j, j < s.refStream.length →
        (∀ j' < j, ValidRecord s.pixelCount s.regs.cacheBits.toNat (streamLength (s.refStream.take j'))
          (s.refStream.getD j' ⟨0, 0⟩)) →
        ¬ ValidRecord s.pixelCount s.regs.cacheBits.toNat (streamLength (s.refStream.take j))
          (s.refStream.getD j ⟨0, 0⟩) →
        exec .histBuild s = .next (s.errored 0x05 (BitVec.ofNat 32 j))) ∧
      ((∀ j < s.refStream.length, ValidRecord s.pixelCount s.regs.cacheBits.toNat
          (streamLength (s.refStream.take j)) (s.refStream.getD j ⟨0, 0⟩)) →
        streamLength s.refStream ≠ s.pixelCount →
        exec .histBuild s = .next (s.errored 0x05 s.regs.nrefs))) ∧
    (ParamsLegal .histCluster s → ResourcesFit .histCluster s → ∀ k, k < s.histTiles →
      (∀ k' < k, (s.readWord .syms k').toNat < s.regs.nhisto.toNat) →
      s.regs.nhisto.toNat ≤ (s.readWord .syms k).toNat →
      exec .histCluster s = .next (s.errored 0x05 (BitVec.ofNat 32 k)))

/-- R359: `E_KRAFT` arises in HUF.BUILD only, with a legal word and a legal NSYM exactly when more than `2^L` counts are
non-zero, and reports their number; with `L = 15` never. -/
def Obligations.KraftErrors : Prop :=
  ∀ (i : Instr) (s : State) (m : Nat),
    m = ((s.readNats .hcnt 0 s.regs.nsym.toNat).filter (fun c => decide (0 < c))).length →
    (∀ L, i = .hufBuild L →
      (L ≠ 0 → s.regLegal .nsym = true → 2 ^ L.toNat < m → exec i s = .next (s.errored 0x06 (BitVec.ofNat 32 m))) ∧
      ((L = 0 ∨ s.regLegal .nsym = false ∨ m ≤ 2 ^ L.toNat) → ∀ info, exec i s ≠ .next (s.errored 0x06 info))) ∧
    ((i = .hufBuild 15 ∨ ∀ L, i ≠ .hufBuild L) → ∀ info, exec i s ≠ .next (s.errored 0x06 info))

/-- R360: `E_RANGE` of HIST.ENTROPY (info 0) and of HIST.CLUSTER (the lowest array whose total over all histograms
exceeds 2^32 - 1). -/
def Obligations.RangeErrors : Prop :=
  ∀ s : State,
    (s.regLegal .nsym = true → 2 ^ 32 ≤ (s.readNats .hcnt 0 s.regs.nsym.toNat).sum →
      exec .histEntropy s = .next (s.errored 0x07 0)) ∧
    (ParamsLegal .histCluster s → ResourcesFit .histCluster s → (∀ v ∈ s.tileSymbols, v < s.regs.nhisto.toNat) →
      ∀ arr, arr < 5 → (∀ arr' < arr, arrayTotal s.histograms arr' < 2 ^ 32) →
        2 ^ 32 ≤ arrayTotal s.histograms arr →
        exec .histCluster s = .next (s.errored 0x07 (BitVec.ofNat 32 arr)))

/-! ### NOP and the HUF unit -/

/-- R340: NOP completes and changes nothing else; from reset STATUS then reads 2 and CMDCNT 1. -/
def Obligations.NopCompletes : Prop :=
  (∀ s : State, exec .nop s = .next { s with regs := s.regs.completed }) ∧
  ∀ (c : Caps) (t : State), ((State.resetWith c).issue 0x00000000).blockTurn = .next t →
    t.readReg .status = 0x00000002 ∧ t.readReg .cmdcnt = 1 ∧ t.readReg .lastcmd = 0x00000000

/-- R171: HUF.BUILD completes on every histogram with at most `2^L` non-zero counts; CLEN and CODE below NSYM receive
the lengths and codes (a code cut to CODE's 16 bits; `CanonicalCodesArePrefixFree` says it fits), and nothing else
changes. -/
def Obligations.HufBuildCompletes : Prop :=
  ∀ (L : BitVec 4) (s : State), L ≠ 0 → s.regLegal .nsym = true →
    ((s.readNats .hcnt 0 s.regs.nsym.toNat).filter (fun c => decide (0 < c))).length ≤ 2 ^ L.toNat →
    ∃ t, exec (.hufBuild L) s = .next t ∧ t.regs = s.regs.completed ∧ SameBut s t [.clen, .code] ∧
      SameOutside s t .clen 0 s.regs.nsym.toNat ∧ SameOutside s t .code 0 s.regs.nsym.toNat ∧
      ∀ j < s.regs.nsym.toNat,
        (t.readWord .clen j).toNat = (codeLengths (s.readNats .hcnt 0 s.regs.nsym.toNat) L.toNat).getD j 0 ∧
        (t.readWord .code j).toNat =
          (canonical (codeLengths (s.readNats .hcnt 0 s.regs.nsym.toNat) L.toNat)).getD j 0 % 65536

/-- R172: the code lengths of a histogram without a non-zero count and with one; and of every histogram with at most
`2^L` of them (more are `E_KRAFT`: `KraftErrors`): a zero count gets length 0 and a non-zero one a length of at least
1. -/
def Obligations.DegenerateHistograms : Prop :=
  ∀ (hist : List Nat) (L : Nat), 1 ≤ L →
    ((∀ c ∈ hist, c = 0) → ∀ l ∈ codeLengths hist L, l = 0) ∧
    ((hist.filter (fun c => decide (0 < c))).length = 1 → ∀ j < hist.length,
      (codeLengths hist L).getD j 0 = if 0 < hist.getD j 0 then 1 else 0) ∧
    ((hist.filter (fun c => decide (0 < c))).length ≤ 2 ^ L → ∀ j < hist.length,
      ((codeLengths hist L).getD j 0 = 0 ↔ hist.getD j 0 = 0))

/-- R173 to R176: with two or more used symbols, at most `2^L`, the length of a symbol is the number of times it occurs in
the first 2m - 2 items of the last list (`selectedCount`: lists by ascending weight, leaves before packages of equal
weight); no length exceeds `L` and the Kraft sum is exactly 1; of two used symbols the one with the larger count never has the longer length, and of two with equal counts the lower one
never has the shorter length. -/
def Obligations.CodeLengthsMeetKraftEquality : Prop :=
  ∀ (hist : List Nat) (L : Nat), 1 ≤ L → 2 ≤ (hist.filter (fun c => decide (0 < c))).length →
    (hist.filter (fun c => decide (0 < c))).length ≤ 2 ^ L →
    (∀ l ∈ codeLengths hist L, l ≤ L) ∧ kraftSum L (codeLengths hist L) = 2 ^ L ∧
    (∀ i < hist.length, (codeLengths hist L).getD i 0 = selectedCount hist L i) ∧
    ∀ i j, i < hist.length → j < hist.length → 0 < hist.getD i 0 → 0 < hist.getD j 0 →
      (hist.getD j 0 < hist.getD i 0 → (codeLengths hist L).getD i 0 ≤ (codeLengths hist L).getD j 0) ∧
      (hist.getD i 0 = hist.getD j 0 → i < j → (codeLengths hist L).getD j 0 ≤ (codeLengths hist L).getD i 0)

/-- R177: from lengths at most 15, a symbol of length 0 has code 0, and any other code is the sum of 2^(its length - the
other length) over the codes before it, the shorter ones and the lower symbols of its length, so the first code of the
shortest length is 0. With a Kraft sum of at most 1 the codes fit their lengths, no code is a leading part of another,
shorter codes come first, and codes of one length ascend with the symbol. -/
def Obligations.CanonicalCodesArePrefixFree : Prop :=
  ∀ lens : List Nat, (∀ l ∈ lens, l ≤ 15) →
    (∀ i < lens.length,
      (lens.getD i 0 = 0 → (canonical lens).getD i 0 = 0) ∧
      (lens.getD i 0 ≠ 0 → (canonical lens).getD i 0 =
        ((codesBefore lens i).map (fun j => 2 ^ (lens.getD i 0 - lens.getD j 0))).sum)) ∧
    (kraftSum 15 lens ≤ 2 ^ 15 → ∀ i j, i < lens.length → j < lens.length → lens.getD i 0 ≠ 0 →
      (canonical lens).getD i 0 < 2 ^ lens.getD i 0 ∧
      (i ≠ j → lens.getD j 0 ≠ 0 → lens.getD i 0 ≤ lens.getD j 0 →
        (canonical lens).getD j 0 / 2 ^ (lens.getD j 0 - lens.getD i 0) ≠ (canonical lens).getD i 0) ∧
      (lens.getD i 0 < lens.getD j 0 →
        ((canonical lens).getD i 0 + 1) * 2 ^ (lens.getD j 0 - lens.getD i 0) ≤ (canonical lens).getD j 0) ∧
      (i < j → lens.getD i 0 = lens.getD j 0 → (canonical lens).getD i 0 < (canonical lens).getD j 0))

/-- R180, R184: HUF.RLE completes; the tokens it leaves are those of the lengths it read (`rle`, which
`RunsAreCodedLongestTokenFirst` gives run by run), expanding them gives back the lengths, and nothing but TOK and NTOK
changes. -/
def Obligations.HufRleTokensExpandToTheLengths : Prop :=
  ∀ s : State, s.memsWf = true → s.regLegal .nsym = true →
    ∃ t k, exec .hufRle s = .next t ∧ t.regs = { s.regs.completed with ntok := BitVec.ofNat 32 k } ∧
      k ≤ s.regs.nsym.toNat ∧ SameBut s t [.tok] ∧ SameOutside s t .tok 0 k ∧
      (t.readNats .tok 0 k).map tokenOf = rle (s.readNats .clen 0 s.regs.nsym.toNat) ∧
      expandTokens 8 ((t.readNats .tok 0 k).map tokenOf) = s.readNats .clen 0 s.regs.nsym.toNat

/-- R181 to R183: appending a run to a length sequence that does not end in its value appends the run's tokens: longest
first, 138 zeros to a full zero token; a non-zero value first as itself unless it is the one in force (the last non-zero
value, over zeros in between, 8 at the start), then six copies to a full repeat. -/
def Obligations.RunsAreCodedLongestTokenFirst : Prop :=
  ∀ (lens : List Nat) (r v : Nat), 1 ≤ r →
    (lens.getLast? ≠ some 0 → rle (lens ++ List.replicate r 0) = rle lens ++ zeroTokens r) ∧
    (1 ≤ v → v ≤ 15 → lens.getLast? ≠ some v →
      rle (lens ++ List.replicate r v) = rle lens ++ copyTokens (lastNonzero lens) v r)

/-- R186, R187, R190 to R195: HUF.STORE completes whenever its records fit: they stand in BITQ from NBITQ on in order, NBITQ
moves past them, TOK and NTOK change on the full path only, and there the records are laid out as R190 to R194 say. The
full path is that of three or more used symbols, or of a used symbol at index 256 or above. That tokens cost bits whenever
two or more token codes are in use, R186's remark notwithstanding, is the model's choice (log 22). The width is cut to
BITQ's 6 bits; `StoredBitFieldsFit` says it fits. -/
def Obligations.HufStoreAppendsItsBitFields : Prop :=
  ∀ s : State, s.memsWf = true → ParamsLegal .hufStore s → ResourcesFit .hufStore s →
    ∃ t, exec .hufStore s = .next t ∧
      t.regs = { s.regs.completed with
        nbitq := BitVec.ofNat 32 (s.regs.nbitq.toNat + (storeFields s.lengths).length)
        ntok := if fullPath s.lengths then BitVec.ofNat 32 (rle s.lengths).length else s.regs.ntok } ∧
      SameBut s t (if fullPath s.lengths then [.bitq, .tok] else [.bitq]) ∧
      SameOutside s t .bitq (2 * s.regs.nbitq.toNat) (2 * (storeFields s.lengths).length) ∧
      SameOutside s t .tok 0 (rle s.lengths).length ∧
      (fullPath s.lengths = true ↔ 3 ≤ (s.lengths.filter (fun l => decide (l ≠ 0))).length ∨
        ∃ j, 256 ≤ j ∧ j < s.lengths.length ∧ s.lengths.getD j 0 ≠ 0) ∧
      (fullPath s.lengths = true →
        (t.readNats .tok 0 (rle s.lengths).length).map tokenOf = rle s.lengths ∧
        expandTokens 8 (rle s.lengths) = s.lengths ∧ FullPathLayout (rle s.lengths) (storeFields s.lengths)) ∧
      ∀ j (h : j < (storeFields s.lengths).length),
        t.readWord .bitq (2 * (s.regs.nbitq.toNat + j)) = BitVec.ofNat 32 ((storeFields s.lengths)[j]).value ∧
        (t.readWord .bitq (2 * (s.regs.nbitq.toNat + j) + 1)).toNat = ((storeFields s.lengths)[j]).nbits % 64

/-- R193: every bit field HUF.STORE makes has a width of 1 to 12 bits and a value that fits it. -/
def Obligations.StoredBitFieldsFit : Prop :=
  ∀ lens : List Nat, lens.length ≤ 1304 → (∀ l ∈ lens, l ≤ 15) →
    ∀ f ∈ storeFields lens, 1 ≤ f.nbits ∧ f.nbits ≤ 12 ∧ f.value < 2 ^ f.nbits

/-- R188, R189: the bit fields of a code with no, one or two used symbols, the used ones below 256. -/
def Obligations.SmallTreesAreStoredShort : Prop :=
  ∀ lens : List Nat,
    ((∀ l ∈ lens, l = 0) → storeFields lens = [⟨1, 4⟩]) ∧
    (∀ a, a < lens.length → a < 256 → (∀ j < lens.length, lens.getD j 0 ≠ 0 ↔ j = a) →
      storeFields lens = [⟨1, 1⟩, ⟨0, 1⟩] ++ (if a ≤ 1 then [⟨0, 1⟩, ⟨a, 1⟩] else [⟨1, 1⟩, ⟨a, 8⟩])) ∧
    (∀ a b, a < b → b < lens.length → b < 256 → (∀ j < lens.length, lens.getD j 0 ≠ 0 ↔ j = a ∨ j = b) →
      storeFields lens =
        [⟨1, 1⟩, ⟨1, 1⟩] ++ (if a ≤ 1 then [⟨0, 1⟩, ⟨a, 1⟩] else [⟨1, 1⟩, ⟨a, 8⟩]) ++ [⟨b, 8⟩])

/-! ### The LZ unit -/

/-- R212, R214: LZ.FILL completes; each position below N receives the largest earlier position of the same hash, or NONE
when there is none or the position is one of the last two; nothing else changes. -/
def Obligations.LzFillChainsMostRecentPosition : Prop :=
  ∀ s : State, s.memsWf = true → ParamsLegal .lzFill s → ResourcesFit .lzFill s →
    ∃ t, exec .lzFill s = .next t ∧ t.regs = s.regs.completed ∧ SameBut s t [.chain] ∧
      SameOutside s t .chain 0 s.pixelCount ∧
      ∀ p < s.pixelCount,
        ((s.pixelCount ≤ p + 2 ∨ ∀ q < p, hashOf (s.readWord .pix q) s.regs.hashBits.toNat ≠
            hashOf (s.readWord .pix p) s.regs.hashBits.toNat) → t.readWord .chain p = 0xFFFFFFFF) ∧
        (∀ q < p, p + 2 < s.pixelCount →
          hashOf (s.readWord .pix q) s.regs.hashBits.toNat = hashOf (s.readWord .pix p) s.regs.hashBits.toNat →
          (∀ q', q < q' → q' < p → hashOf (s.readWord .pix q') s.regs.hashBits.toNat ≠
            hashOf (s.readWord .pix p) s.regs.hashBits.toNat) →
          (t.readWord .chain p).toNat = q)

/-- R217, R221, R223: LZ.REFS completes in every flavor when REFS can hold its stream; replaying the records it leaves,
which looks at nothing else, gives back the pixels and the contents of CCACHE; nothing else changes. For flavor Box this
holds whatever stream the implementation's search finds (log 7). -/
def Obligations.LzRefsStreamReplaysToThePixels : Prop :=
  ∀ (f : BitVec 2) (s : State), s.memsWf = true → RefsReady f s →
    ∃ t k, exec (.lzRefs f) s = .next t ∧ t.regs = { s.regs.completed with nrefs := BitVec.ofNat 32 k } ∧
      1 ≤ k ∧ k ≤ s.pixelCount ∧ SameBut s t [.refs, .ccache] ∧ SameOutside s t .refs 0 (2 * k) ∧
      SameOutside s t .ccache 0 (cacheSize s.regs.cacheBits.toNat) ∧
      replayStream s.regs.cacheBits.toNat (t.storedRecords k) []
          (List.replicate (cacheSize s.regs.cacheBits.toNat) 0) =
        (s.pixels, t.readWords .ccache 0 (cacheSize s.regs.cacheBits.toNat))

/-- R219, R220, R223: the form of every record LZ.REFS leaves, and which record the flavors Standard and RLE leave at
each position: a Copy exactly where a match is taken, else a CacheIdx on a cache hit and a Literal on a miss. Standard
copies the match of `StandardTakesTheFirstLongestMatch`, of length 3 or more and within WINDOW; RLE copies wherever a
pixel equals the one before it, from distance 1, to the end of the run, MAX_LEN or the last pixel. -/
def Obligations.LzRefsRecordsKeepTheInvariants : Prop :=
  ∀ (f : BitVec 2) (s t : State), s.memsWf = true → RefsReady f s → exec (.lzRefs f) s = .next t →
    ∀ recs, recs = t.storedRecords t.regs.nrefs.toNat → streamLength recs = s.pixelCount ∧
      ∀ j (h : j < recs.length) (pos : Nat) (cache : List Word), pos = streamLength (recs.take j) →
        cache = (replayStream s.regs.cacheBits.toNat (recs.take j) []
          (List.replicate (cacheSize s.regs.cacheBits.toNat) 0)).2 →
        (recs[j]).zero = 0 ∧
        (((recs[j]).mode = 0 ∧ (recs[j]).len = 1 ∧ (recs[j]).w1 = s.readWord .pix pos ∧
            (f ≠ 2 → cacheHit s.regs.cacheBits.toNat cache (s.readWord .pix pos) = false)) ∨
         ((recs[j]).mode = 1 ∧ (recs[j]).len = 1 ∧ 0 < s.regs.cacheBits.toNat ∧
            (recs[j]).val = hashOf (s.readWord .pix pos) s.regs.cacheBits.toNat ∧
            (recs[j]).val < 2 ^ s.regs.cacheBits.toNat ∧ cache[(recs[j]).val]? = some (s.readWord .pix pos)) ∨
         ((recs[j]).mode = 2 ∧ 1 ≤ (recs[j]).len ∧ (recs[j]).len ≤ s.regs.maxLen.toNat ∧
            1 ≤ (recs[j]).val ∧ (recs[j]).val ≤ pos ∧ (recs[j]).val ≤ 1048576 ∧
            (f = 0 → (recs[j]).val ≤ s.regs.window.toNat ∧ 3 ≤ (recs[j]).len) ∧ (f = 1 → (recs[j]).val = 1) ∧
            ∀ d < (recs[j]).len, s.readWord .pix (pos + d) = s.readWord .pix (pos + d - (recs[j]).val))) ∧
        (f = 0 → ∀ best, best = standardMatch s.pixels (s.readWords .chain 0 s.pixelCount) s.regs.maxChain.toNat
            s.regs.window.toNat s.regs.maxLen.toNat pos →
          ((recs[j]).mode = 2 ↔ best ≠ none) ∧ ∀ m, best = some m → (recs[j]).len = m.len ∧ (recs[j]).val = m.dist) ∧
        (f = 1 →
          ((recs[j]).mode = 2 ↔ 1 ≤ pos ∧ s.readWord .pix pos = s.readWord .pix (pos - 1)) ∧
          ((recs[j]).mode = 2 → (recs[j]).len = s.regs.maxLen.toNat ∨ pos + (recs[j]).len = s.pixelCount ∨
            s.readWord .pix (pos + (recs[j]).len) ≠ s.readWord .pix (pos - 1)))

/-- R216, R219: the match flavor Standard takes is the first longest one among the candidates it examines, and it takes
none when all of them are shorter than 3; a match length is the largest number of pixels that agree, up to its cap. -/
def Obligations.StandardTakesTheFirstLongestMatch : Prop :=
  ∀ (px chain : List Word) (maxChain window maxLen p : Nat),
    (∀ m, standardMatch px chain maxChain window maxLen p = some m →
      3 ≤ m.len ∧ ∃ pre q post, visited chain p window maxChain (chain.getD p noneMark) = pre ++ q :: post ∧
        m.dist = p - q ∧ m.len = matchLen px q p (min maxLen (px.length - p)) ∧
        (∀ x ∈ pre, matchLen px x p (min maxLen (px.length - p)) < m.len) ∧
        (∀ x ∈ post, matchLen px x p (min maxLen (px.length - p)) ≤ m.len)) ∧
    (standardMatch px chain maxChain window maxLen p = none →
      ∀ x ∈ visited chain p window maxChain (chain.getD p noneMark),
        matchLen px x p (min maxLen (px.length - p)) < 3) ∧
    ∀ q cap, q < p → p + cap ≤ px.length →
      matchLen px q p cap ≤ cap ∧ (∀ d < matchLen px q p cap, px.getD (q + d) 0 = px.getD (p + d) 0) ∧
      (matchLen px q p cap < cap →
        px.getD (q + matchLen px q p cap) 0 ≠ px.getD (p + matchLen px q p cap) 0)

/-- R253: the stream LZ.REFS leaves is always valid for HIST.BUILD under the same WIDTH, HEIGHT and CACHE_BITS: the two
commands complete one after the other. -/
def Obligations.LzRefsStreamSuitsHistBuild : Prop :=
  ∀ (f : BitVec 2) (s : State), s.memsWf = true → RefsReady f s → s.regLegal .histoBits = true →
    s.histTiles ≤ s.caps.th.toNat →
    ∃ t u, exec (.lzRefs f) s = .next t ∧ exec .histBuild t = .next u ∧
      u.regs = { t.regs.completed with nhisto := BitVec.ofNat 32 s.histTiles }

/-! ### The HIST unit -/

/-- R252, R254, R255: HIST.BUILD completes on every valid stream; each counter of each tile's histogram is the number of
times the records that start in that tile increment it, by R254's keys of each record mode (`increments`); SYMS is the
identity, NHISTO the number of tiles; nothing else changes. -/
def Obligations.HistBuildTalliesEachTile : Prop :=
  ∀ s : State, s.memsWf = true → BuildReady s →
    ∃ t, exec .histBuild s = .next t ∧
      t.regs = { s.regs.completed with nhisto := BitVec.ofNat 32 s.histTiles } ∧ SameBut s t [.th, .syms] ∧
      SameOutside s t .th 0 (s.histTiles * 2112) ∧ SameOutside s t .syms 0 s.histTiles ∧
      ∀ k < s.histTiles, (t.readWord .syms k).toNat = k ∧
        ∀ j < 2112, t.readWord .th (k * 2112 + j) =
          BitVec.ofNat 32 (tally s.regs.width.toNat s.regs.histoBits.toNat s.histTilesX k j s.refStream 0)

/-- R262 to R266: HIST.CLUSTER completes; a map `ρ` of the old histogram indices onto the new ones relabels SYMS, each
new counter is the sum of the old ones mapped to it, and new indices follow the lowest old index of each class. The
classes are those of R264's merges and no others: each merge joins the pair of largest positive gain of its turn, the
lowest indices among equals, and no pair of the result could still be merged with gain. -/
def Obligations.HistClusterMergesIntoClasses : Prop :=
  ∀ s : State, s.memsWf = true → ClusterReady s →
    ∃ t n, ∃ ρ : Nat → Nat, ∃ merges : List (Nat × Nat), exec .histCluster s = .next t ∧
      t.regs = { s.regs.completed with nhisto := BitVec.ofNat 32 n } ∧ 1 ≤ n ∧ n ≤ s.regs.nhisto.toNat ∧
      SameBut s t [.th, .syms] ∧ SameOutside s t .th 0 (n * 2112) ∧ SameOutside s t .syms 0 s.histTiles ∧
      GreedyMerges (histCost s.regs.cacheBits.toNat s.regs.entCorr.toNat) merges (List.range s.regs.nhisto.toNat)
        s.histogramAt ∧
      n + merges.length = s.regs.nhisto.toNat ∧ (∀ m ∈ merges, ρ m.1 = ρ m.2) ∧
      (∀ k < s.regs.nhisto.toNat, ρ k < n) ∧ (∀ r < n, ∃ k < s.regs.nhisto.toNat, ρ k = r) ∧
      (∀ k < s.regs.nhisto.toNat, (∀ k' < k, ρ k' ≠ ρ k) → ∀ k' < k, ρ k' < ρ k) ∧
      (∀ a < s.histTiles, (t.readWord .syms a).toNat = ρ (s.readWord .syms a).toNat) ∧
      (∀ r < n, ∀ j < 2112, (t.readWord .th (r * 2112 + j)).toNat =
        (((List.range s.regs.nhisto.toNat).filter (fun k => decide (ρ k = r))).map
          (fun k => (s.readWord .th (k * 2112 + j)).toNat)).sum) ∧
      (∀ r r', r < r' → r' < n →
        histCost s.regs.cacheBits.toNat s.regs.entCorr.toNat (t.histogramAt r) +
            histCost s.regs.cacheBits.toNat s.regs.entCorr.toNat (t.histogramAt r') ≤
          histCost s.regs.cacheBits.toNat s.regs.entCorr.toNat
            (addCounters (t.histogramAt r) (t.histogramAt r')))

/-- R258, R260, R263, R264: the cost of a histogram is the sum of the estimates of its five arrays, the literal array cut
to 280 + 2^CACHE_BITS counters; the merge chosen has a strictly positive gain, the largest of all pairs, and among equal
gains the lowest indices; none is chosen only when no pair gains. -/
def Obligations.ClusterPicksTheLargestGain : Prop :=
  (∀ (cb corr : Nat) (h : List Nat), histCost cb corr h =
    estimate (h.take (280 + 2 ^ cb)) corr + estimate ((h.drop 1304).take 256) corr +
      estimate ((h.drop 1560).take 256) corr + estimate ((h.drop 1816).take 256) corr +
      estimate ((h.drop 2072).take 40) corr) ∧
  ∀ (cb corr : Nat) (live : List Cluster), (live.map Cluster.index).Pairwise (· < ·) →
    (∀ m, bestMerge (candidates cb corr live) = some m →
      (∃ a ∈ live, ∃ b ∈ live, a.index = m.lo ∧ b.index = m.hi ∧ m.lo < m.hi ∧
        m.counters = addCounters a.counters b.counters ∧ m.cost = histCost cb corr m.counters ∧
        m.cost + m.gain = a.cost + b.cost ∧ 0 < m.gain) ∧
      ∀ c ∈ live, ∀ d ∈ live, c.index < d.index →
        c.cost + d.cost ≤ histCost cb corr (addCounters c.counters d.counters) + m.gain ∧
        (c.cost + d.cost = histCost cb corr (addCounters c.counters d.counters) + m.gain →
          m.lo < c.index ∨ (m.lo = c.index ∧ m.hi ≤ d.index))) ∧
    (bestMerge (candidates cb corr live) = none → ∀ c ∈ live, ∀ d ∈ live, c.index < d.index →
      c.cost + d.cost ≤ histCost cb corr (addCounters c.counters d.counters))

/-- R268: HIST.EXPORT copies one array of histogram `k` to HCNT and its size to NSYM, and nothing else changes; its
errors are those of CACHE_BITS for the literal array, then of NHISTO. -/
def Obligations.HistExportCopiesOneArray : Prop :=
  ∀ (arr : BitVec 3) (k : BitVec 16) (s : State) (size base : Nat), s.memsWf = true → arr.toNat ≤ 4 →
    size = [280 + 2 ^ s.regs.cacheBits.toNat, 256, 256, 256, 40].getD arr.toNat 0 →
    base = [0, 1304, 1560, 1816, 2072].getD arr.toNat 0 →
    ((arr = 0 ∧ 10 < s.regs.cacheBits.toNat) → exec (.histExport arr k) s = .next (s.errored 0x03 0x8C)) ∧
    ((arr = 0 → s.regs.cacheBits.toNat ≤ 10) →
      (s.regs.nhisto.toNat = 0 ∨ s.caps.th.toNat < s.regs.nhisto.toNat ∨ s.regs.nhisto.toNat ≤ k.toNat) →
      exec (.histExport arr k) s = .next (s.errored 0x03 0xC8)) ∧
    ((arr = 0 → s.regs.cacheBits.toNat ≤ 10) → s.regs.nhisto.toNat ≤ s.caps.th.toNat →
      k.toNat < s.regs.nhisto.toNat →
      ∃ t, exec (.histExport arr k) s = .next t ∧
        t.regs = { s.regs.completed with nsym := BitVec.ofNat 32 size } ∧ SameBut s t [.hcnt] ∧
        SameOutside s t .hcnt 0 size ∧
        ∀ j < size, t.readWord .hcnt j = s.readWord .th (k.toNat * 2112 + base + j))

/-- R258, R270: HIST.ENTROPY: the three cases of the estimate, its two result words, and its two errors; no memory
changes. -/
def Obligations.HistEntropyEstimates : Prop :=
  ∀ (s : State) (c nz : List Nat), c = s.readNats .hcnt 0 s.regs.nsym.toNat →
    nz = c.filter (fun x => decide (0 < x)) →
    (s.regLegal .nsym = false → exec .histEntropy s = .next (s.errored 0x03 0x88)) ∧
    (s.regLegal .nsym = true → 2 ^ 32 ≤ c.sum → exec .histEntropy s = .next (s.errored 0x07 0)) ∧
    (s.regLegal .nsym = true → c.sum < 2 ^ 32 →
      ∃ e, exec .histEntropy s = .next { s with regs := { s.regs.completed with
          res0 := BitVec.ofNat 32 e, res1 := BitVec.ofNat 32 (e / 2 ^ 32) } } ∧
        (nz.length ≤ 1 → e = 0) ∧
        (2 ≤ nz.length → (∀ x ∈ nz, ∀ y ∈ nz, x = y) → e = (c.sum * flog2 nz.length + 65535) / 65536) ∧
        (2 ≤ nz.length → ¬ (∀ x ∈ nz, ∀ y ∈ nz, x = y) →
          e = ((nz.map (fun x => x * (flog2 c.sum - flog2 x))).sum + 65535) / 65536 + s.regs.entCorr.toNat))

/-! ### The PRED unit -/

/-- R291 to R300: PRED.RESID completes; each pixel becomes its residual against the effective predictor of the original
image, channel by channel modulo 256: opaque black in the first row, the pixel before in the first column, elsewhere the
entry of R296 for the mode of the pixel's tile at the neighbours p - 1, p - WIDTH, p - WIDTH + 1 and p - WIDTH - 1. Each
tile's TDATA word holds its mode, and nothing else changes. -/
def Obligations.PredResidWritesResidualsAndModes : Prop :=
  ∀ s : State, s.memsWf = true → ParamsLegal .predResid s → ResourcesFit .predResid s →
    ∃ t, ∃ modes : List Nat, exec .predResid s = .next t ∧ t.regs = s.regs.completed ∧ SameBut s t [.pix, .tdata] ∧
      SameOutside s t .pix 0 s.pixelCount ∧ SameOutside s t .tdata 0 s.predTiles ∧ modes.length = s.predTiles ∧
      (∀ k < s.predTiles, modes.getD k 0 ≤ 13 ∧
        (t.readWord .tdata k).toNat = 0xFF000000 + 256 * modes.getD k 0) ∧
      ∀ p < s.pixelCount, ∀ pred,
        pred = effectivePred s.pixels s.regs.width.toNat s.regs.predBits.toNat s.predTilesX modes p →
        t.readWord .pix p = subPixels (s.readWord .pix p) pred ∧
        (∀ c < 4, channel (t.readWord .pix p) c =
          (channel (s.readWord .pix p) c + 256 - channel pred c) % 256) ∧
        (p / s.regs.width.toNat = 0 → pred = 0xFF000000) ∧
        (p / s.regs.width.toNat ≠ 0 → p % s.regs.width.toNat = 0 → pred = s.readWord .pix (p - 1)) ∧
        (p / s.regs.width.toNat ≠ 0 → p % s.regs.width.toNat ≠ 0 → ∀ c < 4, channel pred c =
          modeChannel (modes.getD (p / s.regs.width.toNat / 2 ^ s.regs.predBits.toNat * s.predTilesX +
              p % s.regs.width.toNat / 2 ^ s.regs.predBits.toNat) 0)
            (s.readWord .pix (p - 1)) (s.readWord .pix (p - s.regs.width.toNat))
            (s.readWord .pix (p - s.regs.width.toNat + 1)) (s.readWord .pix (p - s.regs.width.toNat - 1)) c)

/-- R297: the mode in a tile's TDATA word has the smallest error over the tile's interior pixels, and the lowest number
among those of equal error. -/
def Obligations.PredResidPicksTheBestMode : Prop :=
  ∀ s t : State, s.memsWf = true → ParamsLegal .predResid s → ResourcesFit .predResid s →
    exec .predResid s = .next t → ∀ k < s.predTiles, ∀ m < 14, ∀ best,
      best = (t.readWord .tdata k).toNat / 256 % 256 →
      modeError s.pixels s.regs.width.toNat s.regs.predBits.toNat s.predTilesX k best ≤
        modeError s.pixels s.regs.width.toNat s.regs.predBits.toNat s.predTilesX k m ∧
      (m < best → modeError s.pixels s.regs.width.toNat s.regs.predBits.toNat s.predTilesX k best <
        modeError s.pixels s.regs.width.toNat s.regs.predBits.toNat s.predTilesX k m)

/-- R300: the original image is recoverable from the residuals and TDATA in ascending position. -/
def Obligations.ResidualsRecoverTheImage : Prop :=
  ∀ s t : State, s.memsWf = true → ParamsLegal .predResid s → ResourcesFit .predResid s →
    exec .predResid s = .next t →
    recoverPixels s.regs.width.toNat s.regs.predBits.toNat s.predTilesX
      ((t.readNats .tdata 0 s.predTiles).map (fun w => w / 256 % 256)) t.pixels [] = s.pixels

/-! ### The PMAP unit -/

/-- R322, R327, R328: PMAP.BUILD completes; every cell is taken; a palette entry's own cell holds its lowest occupier,
every other cell the nearest entry that floods, the lowest among the nearest; SAME marks the first occupier of each
shared cell; nothing else changes. -/
def Obligations.PmapBuildMatchesTheNearestEntry : Prop :=
  ∀ s : State, s.memsWf = true → s.regLegal .palSize = true →
    ∃ t, exec .pmapBuild s = .next t ∧ t.regs = s.regs.completed ∧ SameBut s t [.pmatch, .taken, .same] ∧
      SameOutside s t .pmatch 0 65536 ∧ SameOutside s t .taken 0 65536 ∧ SameOutside s t .same 0 256 ∧
      (∀ k < 65536, t.readWord .taken k = 1 ∧
        (∀ i < s.regs.palSize.toNat, s.entryCell i = k → (∀ j < i, s.entryCell j ≠ k) →
          (t.readWord .pmatch k).toNat = i) ∧
        ((∀ i < s.regs.palSize.toNat, s.entryCell i ≠ k) →
          ∃ i < s.regs.palSize.toNat, t.readWord .same i = 0 ∧ (t.readWord .pmatch k).toNat = i ∧
            ∀ j < s.regs.palSize.toNat, t.readWord .same j = 0 →
              cellGap (s.entryCell i) k < cellGap (s.entryCell j) k ∨
              (cellGap (s.entryCell i) k = cellGap (s.entryCell j) k ∧ i ≤ j))) ∧
      (∀ i < 256,
        ((i < s.regs.palSize.toNat ∧ (∀ j < i, s.entryCell j ≠ s.entryCell i) ∧
          ∃ j, i < j ∧ j < s.regs.palSize.toNat ∧ s.entryCell j = s.entryCell i) →
          t.readWord .same i = 1) ∧
        (¬ (i < s.regs.palSize.toNat ∧ (∀ j < i, s.entryCell j ≠ s.entryCell i) ∧
          ∃ j, i < j ∧ j < s.regs.palSize.toNat ∧ s.entryCell j = s.entryCell i) →
          t.readWord .same i = 0))

/-- R330, R331: PMAP.QUERY completes in every state: QIDX is PMATCH at the cell of QPIX, QPAL is PAL there as it is now,
and nothing else changes. -/
def Obligations.PmapQueryLooksUpTheCell : Prop :=
  ∀ (s : State) (i : Word),
    i = s.readWord .pmatch ((s.regs.qpix.toNat % 256 / 8) * 2048 + (s.regs.qpix.toNat / 256 % 256 / 4) * 32 +
      s.regs.qpix.toNat / 65536 % 256 / 8) →
    exec .pmapQuery s = .next { s with regs := { s.regs.completed with
      qidx := i, qpal := s.readWord .pal i.toNat } } ∧
    (s.memsWf = true → i.toNat ≤ 255)

/-! ### The helper functions -/

/-- R150, R151, R155, R156: the channels of a difference and the sum that undoes it; `sub_sample_size` rounds the
quotient up; the hash is the top bits of the wrapped product; `rev` reverses the low bits. -/
def Obligations.HelperFunctionLaws : Prop :=
  (∀ a b : Word,
    blueOf (subPixels a b) = (blueOf a + 256 - blueOf b) % 256 ∧
    greenOf (subPixels a b) = (greenOf a + 256 - greenOf b) % 256 ∧
    redOf (subPixels a b) = (redOf a + 256 - redOf b) % 256 ∧
    alphaOf (subPixels a b) = (alphaOf a + 256 - alphaOf b) % 256 ∧ addPixels (subPixels a b) b = a) ∧
  (∀ size bits : Nat, size ≤ subSampleSize size bits * 2 ^ bits ∧
    subSampleSize size bits * 2 ^ bits < size + 2 ^ bits) ∧
  (∀ (v : Word) (bits : Nat), 1 ≤ bits → bits ≤ 32 →
    hashOf v bits = v.toNat * 0x1E35A7BD % 2 ^ 32 / 2 ^ (32 - bits) ∧ hashOf v bits < 2 ^ bits) ∧
  ∀ v n : Nat, n ≤ 15 → v < 2 ^ n → rev v n < 2 ^ n ∧ ∀ i < n, (rev v n).testBit i = v.testBit (n - 1 - i)

/-- R152, R153: the whole part of `flog2` is the position of the most significant bit, fraction bit `15 - k` is 1 exactly
when the square of the mantissa of its turn, shifted, reaches 2^32, and each mantissa stays in its 32 bits; a power of two
is exact, and the result stays within 21 bits. -/
def Obligations.FixedPointLogarithm : Prop :=
  (∀ x, 1 ≤ x → x < 2 ^ 32 → flog2 x / 65536 = bitsLog2Floor x ∧ 2 ^ bitsLog2Floor x ≤ x ∧
    x < 2 ^ (bitsLog2Floor x + 1) ∧ flog2 x ≤ 0x1FFFFF ∧
    ∀ k < 16, 2 ^ 31 ≤ mantissa x k ∧ mantissa x k < 2 ^ 32 ∧
      (flog2 x / 2 ^ (15 - k) % 2 = 1 ↔ 2 ^ 32 ≤ mantissa x k * mantissa x k / 2 ^ 31)) ∧
  ∀ e, e ≤ 31 → flog2 (2 ^ e) = e * 65536

/-- R154: a value is the lowest one of its prefix code plus its extra bits, the extra bits fit their number, and the
codes of lengths up to 4096 and distances up to 1048576 stay below 24 and 40. -/
def Obligations.PrefixCodesCoverTheirRanges : Prop :=
  ∀ v, 1 ≤ v → ∀ p, p = prefixEncode v →
    p.extra < 2 ^ p.nbits ∧ p.nbits = p.code / 2 - 1 ∧
    v = (if p.code < 2 then p.code + 1 else (2 + p.code % 2) * 2 ^ p.nbits + 1) + p.extra ∧
    (v ≤ 4096 → p.code < 24) ∧ (v ≤ 1048576 → p.code < 40)
end

