-- ==== Sys2Proof/Laws/Memory.lean ====
section
/-!
SUPPORT. What the memory operations do, said once: a write and the reads after it, the canonical form every operation
keeps, and reading a range word by word.
-/

namespace Sys2Proof.Machine

/-! ### Lookup in the pieces of a written memory -/

theorem rangeCells_lookup (id : MemId) (vs : List Word) (start i : Nat) :
    (Memory.rangeCells id start vs).lookup i =
      if start ≤ i then (vs[i - start]?).map (id.keep i) else none := by
  induction vs generalizing start with
  | nil => simp [Memory.rangeCells]
  | cons v vs ih =>
    simp only [Memory.rangeCells, List.lookup_cons, ih]
    by_cases h : i = start
    · subst h; simp
    · have hb : (i == start) = false := by simpa using h
      rw [hb]
      by_cases hlt : start ≤ i
      · have e : i - start = (i - (start + 1)) + 1 := by omega
        simp [hlt, show start + 1 ≤ i by omega, e]
      · simp [hlt, show ¬ start + 1 ≤ i by omega]

theorem filter_lookup (p : Nat → Bool) (cells : List (Nat × Word)) (i : Nat) :
    (cells.filter (fun c => p c.1)).lookup i = if p i then cells.lookup i else none := by
  induction cells with
  | nil => simp
  | cons c cells ih =>
    obtain ⟨k, v⟩ := c
    by_cases hk : i = k
    · subst hk
      by_cases hp : p i <;> simp [hp, ih]
    · have hb : (i == k) = false := by simpa using hk
      by_cases hp : p k <;> simp [List.lookup_cons, hb, hp, ih]

theorem Memory.get?_writeRange (m : Memory) (id : MemId) (start : Nat) (vs : List Word) (i : Nat) :
    (m.writeRange id start vs).get? i =
      if start ≤ i ∧ i < start + vs.length then (vs[i - start]?).map (id.keep i) else m.get? i := by
  simp only [Memory.get?, Memory.writeRange, List.lookup_append, rangeCells_lookup]
  rw [filter_lookup (fun k => decide (k < start)), filter_lookup (fun k => decide (start + vs.length ≤ k))]
  by_cases h1 : i < start
  · simp [h1, show ¬ start ≤ i by omega, show ¬ start + vs.length ≤ i by omega]
  · by_cases h2 : i < start + vs.length
    · have : i - start < vs.length := by omega
      simp [h1, show start ≤ i by omega, h2, this]
    · have : vs.length ≤ i - start := by omega
      simp [h1, show start ≤ i by omega, h2, this, show start + vs.length ≤ i by omega]

@[simp] theorem Memory.epoch_writeRange (m : Memory) (id : MemId) (start : Nat) (vs : List Word) :
    (m.writeRange id start vs).epoch = m.epoch := rfl

/-- A word written reads back, cut to its element's width. -/
theorem Memory.read_writeRange_inside (m : Memory) (id : MemId) (start : Nat) (vs : List Word) (i : Nat)
    (h : i < vs.length) : (m.writeRange id start vs).read id (start + i) = id.keep (start + i) (vs[i]) := by
  simp [Memory.read, Memory.get?_writeRange, h]

/-- A word outside the written range reads as before. -/
theorem Memory.read_writeRange_outside (m : Memory) (id : MemId) (start : Nat) (vs : List Word) (i : Nat)
    (h : i < start ∨ start + vs.length ≤ i) : (m.writeRange id start vs).read id i = m.read id i := by
  have : ¬ (start ≤ i ∧ i < start + vs.length) := by omega
  simp [Memory.read, Memory.get?_writeRange, this, Memory.background]

/-! ### The canonical form -/

theorem rising_iff (cells : List (Nat × Word)) :
    Memory.rising cells = true ↔ cells.Pairwise (fun a b => a.1 < b.1) := by
  induction cells with
  | nil => simp [Memory.rising]
  | cons a rest ih =>
    cases rest with
    | nil => simp [Memory.rising]
    | cons b rest =>
      simp only [Memory.rising, Bool.and_eq_true, decide_eq_true_eq, ih]
      constructor
      · rintro ⟨hab, hp⟩
        refine List.pairwise_cons.2 ⟨?_, hp⟩
        intro c hc
        rcases List.mem_cons.1 hc with rfl | hc
        · exact hab
        · exact lt_trans hab ((List.pairwise_cons.1 hp).1 c hc)
      · intro hp
        exact ⟨(List.pairwise_cons.1 hp).1 b (by simp), (List.pairwise_cons.1 hp).2⟩

theorem rangeCells_bounds (id : MemId) (vs : List Word) (start : Nat) :
    ∀ c ∈ Memory.rangeCells id start vs, start ≤ c.1 ∧ c.1 < start + vs.length := by
  induction vs generalizing start with
  | nil => simp [Memory.rangeCells]
  | cons v vs ih =>
    intro c hc
    simp only [Memory.rangeCells, List.mem_cons] at hc
    rcases hc with rfl | hc
    · simp
    · have := ih (start + 1) c hc
      simp only [List.length_cons]; omega

theorem rangeCells_pairwise (id : MemId) (vs : List Word) (start : Nat) :
    (Memory.rangeCells id start vs).Pairwise (fun a b => a.1 < b.1) := by
  induction vs generalizing start with
  | nil => simp [Memory.rangeCells]
  | cons v vs ih =>
    refine List.pairwise_cons.2 ⟨fun c hc => ?_, ih (start + 1)⟩
    have := rangeCells_bounds id vs (start + 1) c hc
    simp only; omega

@[simp] theorem MemId.keep_keep (id : MemId) (i : Nat) (v : Word) : id.keep i (id.keep i v) = id.keep i v := by
  simp [MemId.keep, BitVec.and_assoc]

theorem rangeCells_keep (id : MemId) (vs : List Word) (start : Nat) :
    ∀ c ∈ Memory.rangeCells id start vs, id.keep c.1 c.2 = c.2 := by
  induction vs generalizing start with
  | nil => simp [Memory.rangeCells]
  | cons v vs ih =>
    intro c hc
    simp only [Memory.rangeCells, List.mem_cons] at hc
    rcases hc with rfl | hc
    · simp
    · exact ih (start + 1) c hc

theorem Memory.wf_iff (id : MemId) (m : Memory) :
    Memory.wf id m = true ↔
      m.cells.Pairwise (fun a b => a.1 < b.1) ∧ ∀ c ∈ m.cells, id.keep c.1 c.2 = c.2 := by
  simp [Memory.wf, rising_iff, List.all_eq_true]

/-- A write keeps the canonical form. -/
theorem Memory.wf_writeRange (m : Memory) (id : MemId) (start : Nat) (vs : List Word) (h : Memory.wf id m = true) :
    Memory.wf id (m.writeRange id start vs) = true := by
  rw [Memory.wf_iff] at h ⊢
  obtain ⟨hp, hk⟩ := h
  refine ⟨?_, ?_⟩
  · simp only [Memory.writeRange]
    refine List.pairwise_append.2 ⟨List.pairwise_append.2 ⟨hp.filter _, rangeCells_pairwise _ _ _, ?_⟩,
      hp.filter _, ?_⟩
    · intro a ha b hb
      have h1 := (List.mem_filter.1 ha).2
      have h2 := rangeCells_bounds _ _ _ b hb
      simp only [decide_eq_true_eq] at h1; omega
    · intro a ha b hb
      have h2 := (List.mem_filter.1 hb).2
      simp only [decide_eq_true_eq] at h2
      rcases List.mem_append.1 ha with ha | ha
      · have h1 := (List.mem_filter.1 ha).2
        simp only [decide_eq_true_eq] at h1; omega
      · have h1 := rangeCells_bounds _ _ _ a ha; omega
  · intro c hc
    simp only [Memory.writeRange, List.mem_append] at hc
    rcases hc with (hc | hc) | hc
    · exact hk c (List.mem_filter.1 hc).1
    · exact rangeCells_keep _ _ _ c hc
    · exact hk c (List.mem_filter.1 hc).1

/-- An unspecified memory is canonical. -/
@[simp] theorem Memory.wf_unspecified (id : MemId) (epoch : Nat) :
    Memory.wf id (Memory.unspecified epoch) = true := by
  simp [Memory.wf, Memory.unspecified, Memory.rising]

/-- A write inside the window leaves every listed word inside it. -/
theorem Memory.inside_writeRange (c : Caps) (m : Memory) (id : MemId) (start : Nat) (vs : List Word)
    (h : Memory.inside c id m = true) (hb : start + vs.length ≤ id.windowSize c) :
    Memory.inside c id (m.writeRange id start vs) = true := by
  simp only [Memory.inside, List.all_eq_true, decide_eq_true_eq] at h ⊢
  intro e he
  simp only [Memory.writeRange, List.mem_append] at he
  rcases he with (he | he) | he
  · exact h e (List.mem_filter.1 he).1
  · have := rangeCells_bounds _ _ _ e he; omega
  · exact h e (List.mem_filter.1 he).1

@[simp] theorem Memory.inside_unspecified (c : Caps) (id : MemId) (epoch : Nat) :
    Memory.inside c id (Memory.unspecified epoch) = true := by
  simp [Memory.inside, Memory.unspecified]

/-! ### Reading a range -/

theorem slice_length (bg : Nat → Word) (cells : List (Nat × Word)) (start count : Nat) :
    (Memory.slice bg cells start count).length = count := by
  induction count generalizing cells start with
  | zero => simp [Memory.slice]
  | succ n ih =>
    cases cells with
    | nil => simp [Memory.slice, ih]
    | cons c cells =>
      obtain ⟨k, v⟩ := c
      by_cases h : k = start <;> simp [Memory.slice, h, ih]

@[simp] theorem Memory.readRange_length (m : Memory) (id : MemId) (start count : Nat) :
    (m.readRange id start count).length = count := slice_length _ _ _ _

theorem slice_getElem? (bg : Nat → Word) (cells : List (Nat × Word)) (start count i : Nat)
    (hp : cells.Pairwise (fun a b => a.1 < b.1)) (hs : ∀ c ∈ cells, start ≤ c.1) (hi : i < count) :
    (Memory.slice bg cells start count)[i]? = some ((cells.lookup (start + i)).getD (bg (start + i))) := by
  induction count generalizing cells start i with
  | zero => omega
  | succ n ih =>
    cases cells with
    | nil =>
      cases i with
      | zero => simp [Memory.slice]
      | succ i =>
        have := ih [] (start + 1) i (by simp) (by simp) (by omega)
        simpa [Memory.slice, Nat.add_assoc, Nat.add_comm 1 i] using this
    | cons c cells =>
      obtain ⟨k, v⟩ := c
      have hks : start ≤ k := hs (k, v) (by simp)
      have htail : ∀ c ∈ cells, k < c.1 := (List.pairwise_cons.1 hp).1
      by_cases h : k = start
      · subst h
        cases i with
        | zero => simp [Memory.slice]
        | succ i =>
          have := ih cells (k + 1) i (List.pairwise_cons.1 hp).2 (fun c hc => htail c hc) (by omega)
          have hne : (k + (i + 1) == k) = false := by simp
          simp only [Memory.slice, if_true, List.getElem?_cons_succ, List.lookup_cons, hne]
          rw [this, show k + 1 + i = k + (i + 1) by omega]
      · have hgt : start < k := by omega
        cases i with
        | zero =>
          have hne : (start == k) = false := by simpa using Ne.symm h
          have hnone : cells.lookup start = none := by
            rw [List.lookup_eq_none_iff]
            intro c hc
            have := htail c hc
            simp; omega
          simp [Memory.slice, h, List.lookup_cons, hne, hnone]
        | succ i =>
          have := ih ((k, v) :: cells) (start + 1) i hp (by
            intro c hc
            rcases List.mem_cons.1 hc with rfl | hc
            · exact hgt
            · have := htail c hc; omega) (by omega)
          simp only [Memory.slice, if_neg h, List.getElem?_cons_succ]
          rw [this, show start + 1 + i = start + (i + 1) by omega]

/-- On a canonical memory a range is read word by word. -/
theorem Memory.readRange_getElem? (m : Memory) (id : MemId) (start count i : Nat) (h : Memory.wf id m = true)
    (hi : i < count) : (m.readRange id start count)[i]? = some (m.read id (start + i)) := by
  obtain ⟨hp, -⟩ := (Memory.wf_iff id m).1 h
  have := slice_getElem? (m.background id) (m.cells.filter (fun c => decide (start ≤ c.1))) start count i
    (hp.filter _) (fun c hc => by simpa using (List.mem_filter.1 hc).2) hi
  rw [Memory.readRange, this, filter_lookup (fun k => decide (start ≤ k))]
  simp [Memory.read, Memory.get?]

/-! ### The sixteen memories -/

theorem Mems.get_set (ms : Mems) (i j : MemId) (m : Memory) :
    (ms.set i m).get j = if j = i then m else ms.get j := by
  cases i <;> cases j <;> rfl

@[simp] theorem Mems.get_set_same (ms : Mems) (i : MemId) (m : Memory) : (ms.set i m).get i = m := by
  simp [Mems.get_set]

theorem Mems.get_set_ne (ms : Mems) (i j : MemId) (m : Memory) (h : j ≠ i) : (ms.set i m).get j = ms.get j := by
  simp [Mems.get_set, h]

@[simp] theorem Mems.get_unspecified (epoch : Nat) (id : MemId) :
    (Mems.unspecified epoch).get id = Memory.unspecified epoch := by
  cases id <;> rfl

/-- R382: a forgotten memory is unspecified, any other is as it was. -/
theorem Mems.get_forget (epoch : Nat) (ids : List MemId) (ms : Mems) (j : MemId) :
    (Mems.forget epoch ids ms).get j = if j ∈ ids then Memory.unspecified epoch else ms.get j := by
  induction ids generalizing ms with
  | nil => simp [Mems.forget]
  | cons i ids ih =>
    rw [Mems.forget, ih, Mems.get_set]
    by_cases h1 : j ∈ ids <;> by_cases h2 : j = i <;> simp [h1, h2]

end Sys2Proof.Machine
end

