-- ==== Sys2Proof/Laws/State.lean ====
section
/-!
SUPPORT. The state's fields after each shared update, one lemma per field, so that no later proof unfolds a record
update; and the memories after a write, a completion and a reset.
-/

namespace Sys2Proof.Machine

/-! ### The life of a command -/

@[simp] theorem State.issue_regs (s : State) (w : Word) :
    (s.issue w).regs = { s.regs with lastCmd := w, busy := true, done := false } := rfl
@[simp] theorem State.issue_caps (s : State) (w : Word) : (s.issue w).caps = s.caps := rfl
@[simp] theorem State.issue_mems (s : State) (w : Word) : (s.issue w).mems = s.mems := rfl
@[simp] theorem State.issue_rdata (s : State) (w : Word) : (s.issue w).rdata = s.rdata := rfl
@[simp] theorem State.issue_agenda (s : State) (w : Word) : (s.issue w).agenda = s.agenda := rfl
@[simp] theorem State.issue_fresh (s : State) (w : Word) : (s.issue w).fresh = s.fresh + 1 := rfl

@[simp] theorem State.complete_regs (s : State) :
    (s.complete).regs = { s.regs with done := true, busy := false, cmdCnt := s.regs.cmdCnt + 1 } := rfl
@[simp] theorem State.complete_caps (s : State) : (s.complete).caps = s.caps := rfl
@[simp] theorem State.complete_mems (s : State) : (s.complete).mems = s.mems := rfl
@[simp] theorem State.complete_rdata (s : State) : (s.complete).rdata = s.rdata := rfl
@[simp] theorem State.complete_agenda (s : State) : (s.complete).agenda = s.agenda := rfl
@[simp] theorem State.complete_fresh (s : State) : (s.complete).fresh = s.fresh := rfl

@[simp] theorem State.errorComplete_regs (s : State) (e : CmdError) :
    (s.errorComplete e).regs = { s.regs with errCode := e.code.num, errInfo := e.info, err := true, busy := false } := rfl
@[simp] theorem State.errorComplete_caps (s : State) (e : CmdError) : (s.errorComplete e).caps = s.caps := rfl
@[simp] theorem State.errorComplete_mems (s : State) (e : CmdError) : (s.errorComplete e).mems = s.mems := rfl
@[simp] theorem State.errorComplete_rdata (s : State) (e : CmdError) : (s.errorComplete e).rdata = s.rdata := rfl
@[simp] theorem State.errorComplete_agenda (s : State) (e : CmdError) : (s.errorComplete e).agenda = s.agenda := rfl
@[simp] theorem State.errorComplete_fresh (s : State) (e : CmdError) : (s.errorComplete e).fresh = s.fresh := rfl

@[simp] theorem State.acknowledgeError_regs (s : State) :
    (s.acknowledgeError).regs = { s.regs with err := false, errCode := 0, errInfo := 0 } := rfl
@[simp] theorem State.acknowledgeError_caps (s : State) : (s.acknowledgeError).caps = s.caps := rfl
@[simp] theorem State.acknowledgeError_mems (s : State) : (s.acknowledgeError).mems = s.mems := rfl
@[simp] theorem State.acknowledgeError_rdata (s : State) : (s.acknowledgeError).rdata = s.rdata := rfl
@[simp] theorem State.acknowledgeError_agenda (s : State) : (s.acknowledgeError).agenda = s.agenda := rfl
@[simp] theorem State.acknowledgeError_fresh (s : State) : (s.acknowledgeError).fresh = s.fresh := rfl

@[simp] theorem State.setAccv_regs (s : State) : (s.setAccv).regs = { s.regs with accv := true } := rfl
@[simp] theorem State.setAccv_caps (s : State) : (s.setAccv).caps = s.caps := rfl
@[simp] theorem State.setAccv_mems (s : State) : (s.setAccv).mems = s.mems := rfl
@[simp] theorem State.setAccv_rdata (s : State) : (s.setAccv).rdata = s.rdata := rfl
@[simp] theorem State.setAccv_agenda (s : State) : (s.setAccv).agenda = s.agenda := rfl
@[simp] theorem State.setAccv_fresh (s : State) : (s.setAccv).fresh = s.fresh := rfl

/-! ### Memory writes -/

@[simp] theorem State.writeWords_caps (s : State) (id : MemId) (start : Nat) (vs : List Word) :
    (s.writeWords id start vs).caps = s.caps := rfl
@[simp] theorem State.writeWords_regs (s : State) (id : MemId) (start : Nat) (vs : List Word) :
    (s.writeWords id start vs).regs = s.regs := rfl
@[simp] theorem State.writeWords_rdata (s : State) (id : MemId) (start : Nat) (vs : List Word) :
    (s.writeWords id start vs).rdata = s.rdata := rfl
@[simp] theorem State.writeWords_agenda (s : State) (id : MemId) (start : Nat) (vs : List Word) :
    (s.writeWords id start vs).agenda = s.agenda := rfl
@[simp] theorem State.writeWords_fresh (s : State) (id : MemId) (start : Nat) (vs : List Word) :
    (s.writeWords id start vs).fresh = s.fresh := rfl

@[simp] theorem State.writeNats_caps (s : State) (id : MemId) (start : Nat) (vs : List Nat) :
    (s.writeNats id start vs).caps = s.caps := rfl
@[simp] theorem State.writeNats_regs (s : State) (id : MemId) (start : Nat) (vs : List Nat) :
    (s.writeNats id start vs).regs = s.regs := rfl
@[simp] theorem State.writeNats_rdata (s : State) (id : MemId) (start : Nat) (vs : List Nat) :
    (s.writeNats id start vs).rdata = s.rdata := rfl
@[simp] theorem State.writeNats_agenda (s : State) (id : MemId) (start : Nat) (vs : List Nat) :
    (s.writeNats id start vs).agenda = s.agenda := rfl
@[simp] theorem State.writeNats_fresh (s : State) (id : MemId) (start : Nat) (vs : List Nat) :
    (s.writeNats id start vs).fresh = s.fresh := rfl

/-! ### Resets -/

@[simp] theorem State.hardReset_caps (s : State) (o : Option HostAccess) : (s.hardReset o).caps = s.caps := rfl
@[simp] theorem State.hardReset_regs (s : State) (o : Option HostAccess) : (s.hardReset o).regs = Regs.reset := rfl
@[simp] theorem State.hardReset_mems (s : State) (o : Option HostAccess) :
    (s.hardReset o).mems = Mems.unspecified s.fresh := rfl
@[simp] theorem State.hardReset_rdata (s : State) (o : Option HostAccess) :
    (s.hardReset o).rdata = s.overlapData o := rfl
@[simp] theorem State.hardReset_agenda (s : State) (o : Option HostAccess) : (s.hardReset o).agenda = s.agenda := rfl
@[simp] theorem State.hardReset_fresh (s : State) (o : Option HostAccess) : (s.hardReset o).fresh = s.fresh + 1 := rfl

theorem State.softReset_busy (s : State) (h : s.regs.busy = true) :
    s.softReset = { s with regs := Regs.reset, mems := Mems.forget s.fresh (inFlightWrites s.regs.lastCmd) s.mems,
                           fresh := s.fresh + 1 } := by
  simp [State.softReset, h]

theorem State.softReset_idle (s : State) (h : s.regs.busy = false) : s.softReset = { s with regs := Regs.reset } := by
  simp [State.softReset, h]

@[simp] theorem State.softReset_regs (s : State) : s.softReset.regs = Regs.reset := by
  unfold State.softReset; split <;> rfl

@[simp] theorem State.softReset_caps (s : State) : s.softReset.caps = s.caps := by
  unfold State.softReset; split <;> rfl

@[simp] theorem State.softReset_agenda (s : State) : s.softReset.agenda = s.agenda := by
  unfold State.softReset; split <;> rfl

@[simp] theorem State.softReset_rdata (s : State) : s.softReset.rdata = s.rdata := by
  unfold State.softReset; split <;> rfl

/-! ### Memories of a written state -/

theorem State.writeWords_get (s : State) (id j : MemId) (start : Nat) (vs : List Word) :
    (s.writeWords id start vs).mems.get j =
      if j = id then (s.mems.get id).writeRange id start vs else s.mems.get j := by
  simp [State.writeWords, Mems.get_set]

/-- A memory other than the written one is as before. -/
theorem State.writeWords_get_ne (s : State) (id j : MemId) (start : Nat) (vs : List Word) (h : j ≠ id) :
    (s.writeWords id start vs).mems.get j = s.mems.get j := by
  simp [State.writeWords_get, h]

/-- A written host word reads as what was written, cut to its element's width (R99). -/
theorem State.readWord_writeWords_inside (s : State) (id : MemId) (start : Nat) (vs : List Word) (i : Nat)
    (h : i < vs.length) : (s.writeWords id start vs).readWord id (start + i) = id.keep (start + i) vs[i] := by
  simp [State.readWord, State.writeWords_get, Memory.read_writeRange_inside _ _ _ _ _ h]

/-- Every other host word of the written memory reads as before. -/
theorem State.readWord_writeWords_outside (s : State) (id : MemId) (start : Nat) (vs : List Word) (i : Nat)
    (h : i < start ∨ start + vs.length ≤ i) :
    (s.writeWords id start vs).readWord id i = s.readWord id i := by
  simp [State.readWord, State.writeWords_get, Memory.read_writeRange_outside _ _ _ _ _ h]

/-- A host word of another memory reads as before. -/
theorem State.readWord_writeWords_ne (s : State) (id j : MemId) (start : Nat) (vs : List Word) (i : Nat) (h : j ≠ id) :
    (s.writeWords id start vs).readWord j i = s.readWord j i := by
  simp [State.readWord, State.writeWords_get, h]

@[simp] theorem State.readWords_length (s : State) (id : MemId) (start count : Nat) :
    (s.readWords id start count).length = count := by
  simp [State.readWords]

@[simp] theorem State.readNats_length (s : State) (id : MemId) (start count : Nat) :
    (s.readNats id start count).length = count := by
  simp [State.readNats]

end Sys2Proof.Machine
end

