-- ==== Sys2Proof/Laws/Commands.lean ====
section
/-!
SUPPORT. The frame of a command said once: what `runCommand` can answer, and when each pre-check passes.
-/

namespace Sys2Proof.Machine

/-! ### Pre-checks, then effect -/

@[simp] theorem need_eq_none (ok : Bool) (e : CmdError) : need ok e = none ↔ ok = true := by
  cases ok <;> simp [need]

theorem need_eq_some (ok : Bool) (e e' : CmdError) : need ok e = some e' ↔ ok = false ∧ e = e' := by
  cases ok <;> simp [need]

/-- Everything a command can answer: an error completion of its first failing pre-check, or its effect, completed. -/
theorem runCommand_next (s : State) (err : Option CmdError) (effect t : State) (h : runCommand s err effect = .next t) :
    (∃ e, err = some e ∧ t = s.errorComplete e) ∨ (err = none ∧ t = effect.complete) := by
  cases err with
  | none => right; simpa [runCommand, eq_comm] using h
  | some e => left; exact ⟨e, rfl, by simpa [runCommand, eq_comm] using h⟩

@[simp] theorem runCommand_none (s effect : State) : runCommand s none effect = .next effect.complete := rfl

@[simp] theorem runCommand_some (s effect : State) (e : CmdError) :
    runCommand s (some e) effect = .next (s.errorComplete e) := rfl

/-- A command always answers a next state. -/
theorem runCommand_isNext (s : State) (err : Option CmdError) (effect : State) :
    ∃ t, runCommand s err effect = .next t := by
  cases err <;> simp

/-! ### When a pre-check passes -/

@[simp] theorem needLegal_eq_none (i : Instr) : needLegal i = none ↔ i.wf = true := by simp [needLegal]

@[simp] theorem checkDim_eq_none (s : State) : checkDim s = none ↔ s.regs.width.toNat ∈ Set.Ico 1 maxDimension ∧
    s.regs.height.toNat ∈ Set.Ico 1 maxDimension := by
  simp [checkDim, Option.or_eq_none_iff, legalDim]

@[simp] theorem checkNsym_eq_none (s : State) :
    checkNsym s = none ↔ 1 ≤ s.regs.nsym.toNat ∧ s.regs.nsym.toNat ≤ nsymMax := by simp [checkNsym]

@[simp] theorem checkCacheBits_eq_none (s : State) :
    checkCacheBits s = none ↔ s.regs.cacheBits.toNat ≤ maxCacheBits := by simp [checkCacheBits]

@[simp] theorem checkHistoBits_eq_none (s : State) :
    checkHistoBits s = none ↔ 2 ≤ s.regs.histoBits.toNat ∧ s.regs.histoBits.toNat ≤ 9 := by simp [checkHistoBits]

@[simp] theorem checkPredBits_eq_none (s : State) :
    checkPredBits s = none ↔ 2 ≤ s.regs.predBits.toNat ∧ s.regs.predBits.toNat ≤ 9 := by simp [checkPredBits]

@[simp] theorem checkHashBits_eq_none (s : State) :
    checkHashBits s = none ↔ 1 ≤ s.regs.hashBits.toNat ∧ s.regs.hashBits.toNat ≤ s.caps.hash.toNat := by
  simp [checkHashBits]

@[simp] theorem checkWindow_eq_none (s : State) :
    checkWindow s = none ↔ 1 ≤ s.regs.window.toNat ∧ s.regs.window.toNat ≤ maxDistance := by simp [checkWindow]

@[simp] theorem checkMaxLen_eq_none (s : State) :
    checkMaxLen s = none ↔ 1 ≤ s.regs.maxLen.toNat ∧ s.regs.maxLen.toNat ≤ maxLength := by simp [checkMaxLen]

@[simp] theorem checkPalSize_eq_none (s : State) :
    checkPalSize s = none ↔ 1 ≤ s.regs.palSize.toNat ∧ s.regs.palSize.toNat ≤ 256 := by simp [checkPalSize]

@[simp] theorem checkNrefs_eq_none (s : State) : checkNrefs s = none ↔ s.regs.nrefs.toNat ≤ s.caps.refs.toNat := by
  simp [checkNrefs]

@[simp] theorem checkNhisto_eq_none (s : State) :
    checkNhisto s = none ↔ 1 ≤ s.regs.nhisto.toNat ∧ s.regs.nhisto.toNat ≤ s.caps.th.toNat := by simp [checkNhisto]

@[simp] theorem checkNbitq_eq_none (s : State) : checkNbitq s = none ↔ s.regs.nbitq.toNat ≤ s.caps.bitq.toNat := by
  simp [checkNbitq]

@[simp] theorem checkFits_eq_none (s : State) (id : MemId) (elements : Nat) :
    checkFits s id elements = none ↔ elements ≤ id.depth s.caps := by simp [checkFits]

/-! ### Lengths of what the commands write -/

@[simp] theorem codeLengths_length (hist : List Nat) (L : Nat) : (codeLengths hist L).length = hist.length := by
  unfold codeLengths; split <;> simp

@[simp] theorem assignCodes_length (lens next : List Nat) : (assignCodes lens next).length = lens.length := by
  induction lens generalizing next with
  | nil => simp [assignCodes]
  | cons len lens ih => simp only [assignCodes]; split <;> simp [ih]

@[simp] theorem canonical_length (lens : List Nat) : (canonical lens).length = lens.length := by
  simp [canonical]

@[simp] theorem fillChain_length (n bits : Nat) (vs : List Word) (p : Nat) (heads : List (Nat × Nat)) :
    (fillChain n bits vs p heads).length = vs.length := by
  induction vs generalizing p heads with
  | nil => simp [fillChain]
  | cons v vs ih => simp only [fillChain]; split <;> simp [ih]

@[simp] theorem refWords_length (recs : List RefRec) : (refWords recs).length = 2 * recs.length := by
  induction recs with
  | nil => rfl
  | cons r recs ih => simp only [refWords, List.flatMap_cons, List.length_append] at *; simp; omega

@[simp] theorem bitFieldWords_length (fields : List BitField) : (bitFieldWords fields).length = 2 * fields.length := by
  induction fields with
  | nil => rfl
  | cons f fields ih => simp only [bitFieldWords, List.flatMap_cons, List.length_append] at *; simp; omega

@[simp] theorem residuals_length (orig : List Word) (width bits tilesX : Nat) (modes : List Nat) :
    (residuals orig width bits tilesX modes).length = orig.length := by
  simp [residuals]

end Sys2Proof.Machine
end

