-- ==== Sys2Proof/Laws/PerInstr.lean ====
section
/-!
SUPPORT. Statements made per command: the encoder writes the fixed bits of the command's own row (R123).
-/

namespace Sys2Proof.Laws.EncodeRow

/-- The word `encode` writes has the fixed bits of the command's row of the opcode map. -/
def Statement (i : Instr) : Prop := encode i &&& i.row.mask = i.row.pattern

theorem nop : Statement .nop := by unfold Statement; decide

theorem hufBuild (L : BitVec 4) : Statement (.hufBuild L) := by
  revert L; unfold Statement; decide

theorem hufRle : Statement .hufRle := by unfold Statement; decide

theorem hufStore : Statement .hufStore := by unfold Statement; decide

theorem lzFill : Statement .lzFill := by unfold Statement; decide

theorem lzRefs (f : BitVec 2) : Statement (.lzRefs f) := by
  revert f; unfold Statement; decide

theorem histBuild : Statement .histBuild := by unfold Statement; decide

theorem histCluster : Statement .histCluster := by unfold Statement; decide

theorem histExport (arr : BitVec 3) (k : BitVec 16) : Statement (.histExport arr k) := by
  have low : k &&& 0#16 = 0#16 := BitVec.and_zero
  have high : ∀ a : BitVec 3, (0x32#8 ++ a.setWidth 8) &&& 0xFFF8#16 = 0x3200#16 := by decide
  show (0x32#8 ++ arr.setWidth 8 ++ k) &&& (0xFFF8#16 ++ 0#16) = 0x3200#16 ++ 0#16
  rw [BitVec.and_append, low, high]

theorem histEntropy : Statement .histEntropy := by unfold Statement; decide

theorem predResid : Statement .predResid := by unfold Statement; decide

theorem pmapBuild : Statement .pmapBuild := by unfold Statement; decide

theorem pmapQuery : Statement .pmapQuery := by unfold Statement; decide

end Sys2Proof.Laws.EncodeRow
end

