-- ==== Sys2Proof/Laws/Port.lean ====
section
/-!
SUPPORT. The register port: the map of offsets, and what a host read and a host write do at an accepted offset.
-/

namespace Sys2Proof.Machine

/-- R32: each register stands at its offset. -/
@[simp] theorem Reg.ofOffset_offset (r : Reg) : Reg.ofOffset r.offset = some r := by cases r <;> rfl

/-- R32: register offsets are multiples of 4. -/
@[simp] theorem Reg.offset_aligned (r : Reg) : aligned .word r.offset = true := by cases r <;> rfl

/-- R32: two registers never share an offset. -/
theorem Reg.offset_injective (r r' : Reg) (h : r.offset = r'.offset) : r = r' := by
  have := Reg.ofOffset_offset r
  rw [h, Reg.ofOffset_offset] at this
  exact (Option.some.inj this).symm

theorem State.hostRead_reg (s : State) (r : Reg) (h : r ≠ .memData) :
    s.hostRead .word r.offset = { s with rdata := s.readReg r } := by
  simp [State.hostRead, h]

theorem State.hostWrite_idle (s : State) (r : Reg) (v : Word) (h : s.regs.busy = false) :
    s.hostWrite .word r.offset v = s.writeReg r v := by
  simp [State.hostWrite, h]

theorem State.hostWrite_busy (s : State) (r : Reg) (v : Word) (h : s.regs.busy = true)
    (h1 : r ≠ .ctrl) (h2 : r ≠ .status) : s.hostWrite .word r.offset v = s.setAccv := by
  simp [State.hostWrite, h, Reg.writableBusy, h1, h2]

end Sys2Proof.Machine
end

