-- ==== Sys2Proof/Tests/Slice0.lean ====
section
/-!
SUPPORT. The model's own tests: the smoke test of the well-formedness checks, words written out from the encoding
tables, single steps whose expected results are those of the spec's examples and vectors, and one witness for the
hypotheses of every statement that has some.
-/

namespace Sys2Proof.Tests

open Sys2Proof Sys2Proof.Machine

/-! ### Well-formedness: an ill-formed term for each check -/

/-- R125 (c). -/
theorem test_wf_refuses_L_zero : Instr.wf (.hufBuild 0) = false := by decide
/-- R125 (d). -/
theorem test_wf_refuses_flavor_three : Instr.wf (.lzRefs 3) = false := by decide
/-- R125 (e). -/
theorem test_wf_refuses_array_five : Instr.wf (.histExport 5 0) = false := by decide

/-! ### Decoding: words written out from R123 and R128 -/

theorem test_decode_nop : decode 0x00000000 = .ok .nop := by decide
theorem test_decode_hufBuild : decode 0x10070000 = .ok (.hufBuild 7) := by decide
theorem test_decode_hufRle : decode 0x11000000 = .ok .hufRle := by decide
theorem test_decode_hufStore : decode 0x12000000 = .ok .hufStore := by decide
theorem test_decode_lzFill : decode 0x20000000 = .ok .lzFill := by decide
theorem test_decode_lzRefs : decode 0x21020000 = .ok (.lzRefs 2) := by decide
theorem test_decode_histBuild : decode 0x30000000 = .ok .histBuild := by decide
theorem test_decode_histCluster : decode 0x31000000 = .ok .histCluster := by decide
theorem test_decode_histExport : decode 0x3204FEDC = .ok (.histExport 4 0xFEDC) := by decide
theorem test_decode_histEntropy : decode 0x33000000 = .ok .histEntropy := by decide
theorem test_decode_predResid : decode 0x40000000 = .ok .predResid := by decide
theorem test_decode_pmapBuild : decode 0x50000000 = .ok .pmapBuild := by decide
theorem test_decode_pmapQuery : decode 0x51000000 = .ok .pmapQuery := by decide

/-- R125 (a), (b) and (c) to (e), each rejected by its own name. -/
theorem test_decode_rejects_by_name :
    decode 0x01000000 = .error .unallocatedOp ∧ decode 0xFFFFFFFF = .error .unallocatedOp ∧
    decode 0x100F0001 = .error .mustBeZero ∧ decode 0x10100000 = .error .mustBeZero ∧
    decode 0x10000000 = .error .argumentExcluded ∧ decode 0x21030000 = .error .argumentExcluded ∧
    decode 0x32050000 = .error .argumentExcluded := by decide

theorem test_decodeTableWord : decodeTableWord 32 0x32040003 = some (.histExport 4 3) ∧
    decodeTableWord 32 0x21030000 = none := by decide

/-! ### Small states -/

/-- A memory whose first words are `ws`. -/
def memOf (id : MemId) (ws : List Word) : Memory := ⟨0, Memory.rangeCells id 0 ws⟩

/-- A state after reset but for its registers and one memory. -/
def stateOf (r : Regs) (id : MemId) (ws : List Word) : State :=
  { State.reset with regs := r, mems := State.reset.mems.set id (memOf id ws) }

/-- A state with a second memory loaded. -/
def loaded (s : State) (id : MemId) (ws : List Word) : State := { s with mems := s.mems.set id (memOf id ws) }

/-- The next state of an outcome. -/
def nextOf (o : Host.Outcome State Fault Refusal) : State :=
  match o with
  | .next s => s
  | .fault _ => State.reset
  | .refused _ => State.reset

def r0 : Regs := Regs.reset
def busyState : State := State.reset.issue 0x100F0000
def illegalState : State := State.reset.issue 0x10100000
/-- R171. -/
def hufState : State := stateOf { r0 with nsym := 4 } .hcnt [1, 1, 2, 4]
/-- R180, R195. -/
def lenState : State := stateOf { r0 with nsym := 4 } .clen [3, 3, 2, 1]
/-- R224 (g): two equal pixels. -/
def pairState : State :=
  stateOf { r0 with width := 2, height := 1, hashBits := 18, maxChain := 64, window := 1048576, maxLen := 4096,
                    histoBits := 2 } .pix [0xFF0000FF, 0xFF0000FF]
/-- R212: the ten pixels A B C A B C A B C D. -/
def tenPixels : State :=
  stateOf { r0 with width := 10, height := 1, hashBits := 4, maxChain := 64, window := 1048576, maxLen := 4096 } .pix
    [0xFF0000FF, 0xFF00FF00, 0xFFFF0000, 0xFF0000FF, 0xFF00FF00, 0xFFFF0000, 0xFF0000FF, 0xFF00FF00, 0xFFFF0000,
     0xFF123456]
/-- R55: a stream of one Literal for an image of one pixel. -/
def oneRecord : State :=
  stateOf { r0 with width := 1, height := 1, histoBits := 2, nrefs := 1 } .refs [0x00010000, 0xFF0000FF]
/-- One histogram of zeros but for its first two counters. -/
def oneHistogram (a b : Word) : State :=
  loaded (stateOf { r0 with width := 1, height := 1, histoBits := 2, nhisto := 1 } .th
    ([a, b] ++ List.replicate 2110 0)) .syms [0]
/-- A 2 x 2 image. -/
def square : State :=
  stateOf { r0 with width := 2, height := 2, predBits := 2 } .pix [0xFF336699, 0xFF336699, 0xFF336699, 0xFF336699]
/-- R332 (c). -/
def palState : State := stateOf { r0 with palSize := 3 } .pal [0xFF101010, 0xFF111111, 0xFFF0F0F0]

/-! ### One step of each command -/

/-- R340. -/
theorem test_nop : (nextOf (exec .nop busyState)).regs.cmdCnt = 1 ∧ (nextOf (exec .nop busyState)).regs.done = true := by
  decide

/-- R171, the example. -/
theorem test_hufBuild : (nextOf (exec (.hufBuild 15) hufState)).readNats .clen 0 4 = [3, 3, 2, 1] ∧
    (nextOf (exec (.hufBuild 15) hufState)).readNats .code 0 4 = [6, 7, 2, 0] := by decide +kernel
/-- R175: a leaf before a package of equal weight, so the balanced code. -/
theorem test_hufBuild_leaf_first : codeLengths [1, 1, 2, 2] 15 = [2, 2, 2, 2] ∧
    (List.range 4).map (selectedCount [1, 1, 2, 2] 15) = [2, 2, 2, 2] := by decide +kernel
/-- R171, the same histogram with `L = 2`. -/
theorem test_hufBuild_limited : (nextOf (exec (.hufBuild 2) hufState)).readNats .clen 0 4 = [2, 2, 2, 2] := by
  decide +kernel

/-- R180, the example. -/
theorem test_hufRle : (nextOf (exec .hufRle lenState)).readWords .tok 0 4 = [3, 3, 2, 1] ∧
    (nextOf (exec .hufRle lenState)).regs.ntok = 4 := by decide +kernel
/-- R183, the last example. -/
theorem test_rle_mixed :
    rle (List.replicate 7 5 ++ List.replicate 11 0 ++ List.replicate 3 5 ++ List.replicate 3 0 ++ List.replicate 13 6) =
      [⟨5, 0⟩, ⟨16, 3⟩, ⟨18, 0⟩, ⟨16, 0⟩, ⟨17, 0⟩, ⟨6, 0⟩, ⟨16, 3⟩, ⟨16, 3⟩] := by decide +kernel

/-- R195, the worked full path. -/
theorem test_hufStore_full : (storeFields [3, 3, 2, 1]) =
    [⟨0, 1⟩, ⟨2, 4⟩, ⟨0, 3⟩, ⟨0, 3⟩, ⟨0, 3⟩, ⟨2, 3⟩, ⟨2, 3⟩, ⟨1, 3⟩, ⟨0, 1⟩, ⟨0, 1⟩, ⟨0, 1⟩, ⟨3, 2⟩, ⟨1, 2⟩] := by
  decide +kernel
/-- R186, the example. -/
theorem test_hufStore_small :
    (nextOf (exec .hufStore (stateOf { r0 with nsym := 4 } .clen [0, 1, 0, 0]))).readWords .bitq 0 8 =
      [1, 1, 0, 1, 0, 1, 1, 1] := by decide +kernel

/-- R212, the example with `HASH_BITS = 4`. -/
theorem test_lzFill : (nextOf (exec .lzFill tenPixels)).readWords .chain 0 10 =
    [noneMark, noneMark, 0, 2, 1, 3, 5, 4, noneMark, noneMark] := by decide +kernel

/-- R217, the example. -/
theorem test_lzRefs_standard :
    (nextOf (exec (.lzRefs 0) (loaded tenPixels .chain
      [noneMark, noneMark, 0, 2, 1, 3, 5, 4, noneMark, noneMark]))).readWords .refs 0 10 =
      [0x00010000, 0xFF0000FF, 0x00010000, 0xFF00FF00, 0x00010000, 0xFFFF0000, 0x00060002, 3, 0x00010000,
       0xFF123456] := by decide +kernel
/-- R224 (g), flavor RLE. -/
theorem test_lzRefs_rle : (nextOf (exec (.lzRefs 1) pairState)).readWords .refs 0 4 =
    [0x00010000, 0xFF0000FF, 0x00010002, 1] := by decide +kernel

/-- R254: the Literal's four counters. -/
theorem test_histBuild :
    let t := nextOf (exec .histBuild oneRecord)
    t.regs.nhisto = 1 ∧ t.readWord .th 0 = 1 ∧ t.readWord .th 1304 = 1 ∧ t.readWord .th (1560 + 255) = 1 ∧
      t.readWord .th (1816 + 255) = 1 ∧ t.readWord .th 255 = 0 := by decide +kernel
/-- R253: a Copy at position 0 is invalid. -/
theorem test_histBuild_stream :
    (nextOf (exec .histBuild (loaded oneRecord .refs [0x00010002, 1]))).regs.errCode = 0x05 := by decide +kernel

/-- R259, R264: two arrays [4, 12] merge with correction 8 (34 against 42), and not without (26 against 26). -/
theorem test_histCluster :
    clusterHistograms 0 8 [[4, 12], [4, 12]] [0, 1] = ⟨[[8, 24]], [0, 0]⟩ ∧
    clusterHistograms 0 0 [[4, 12], [4, 12]] [0, 1] = ⟨[[4, 12], [4, 12]], [0, 1]⟩ := by decide +kernel

/-- R268: array 4 of histogram 0. -/
theorem test_histExport :
    let s := stateOf { r0 with nhisto := 1 } .th []
    let t := nextOf (exec (.histExport 4 0) (s.writeWords .th 2072 ([1, 0, 0, 0, 0, 7] ++ List.replicate 34 0)))
    t.regs.nsym = 40 ∧ t.readNats .hcnt 0 6 = [1, 0, 0, 0, 0, 7] := by decide +kernel

/-- R270, the example. -/
theorem test_histEntropy : (nextOf (exec .histEntropy hufState)).regs.res0 = 14 ∧
    (nextOf (exec .histEntropy hufState)).regs.res1 = 0 := by decide +kernel

/-- R302 (a), a 2 x 2 part: mode 1 wins, row 0 is residual to black. -/
theorem test_predResid :
    let t := nextOf (exec .predResid square)
    t.readWords .pix 0 4 = [0x00336699, 0x00336699, 0, 0] ∧ t.readWord .tdata 0 = 0xFF000100 := by decide +kernel
/-- R302 (c): modes 11, 12 and 13, here and in the statements' own words. -/
theorem test_predictors :
    predictor 11 0xFF102030 0x80405060 0x10FF0001 0xC0203040 = 0x80405060 ∧
    predictor 12 0xFF102030 0x80405060 0x10FF0001 0xC0203040 = 0xBF304050 ∧
    predictor 13 0xFF102030 0x80405060 0x10FF0001 0xC0203040 = 0xBF2C3C4C ∧
    [11, 12, 13].map (fun m => pixelOf (modeChannel m 0xFF102030 0x80405060 0x10FF0001 0xC0203040)) =
      [0x80405060, 0xBF304050, 0xBF2C3C4C] := by decide +kernel

/-- R332 (c): the shared cell, a cell near the first two entries and the tie at the middle. -/
theorem test_pmapBuild :
    (seed palState.palette).marked = [0] ∧
    claimOf (seed palState.palette).claims (flooders palState.palette) 4226 = some 0 ∧
    claimOf (seed palState.palette).claims (flooders palState.palette) 0 = some 1 ∧
    claimOf (seed palState.palette).claims (flooders palState.palette) 33808 = some 1 := by decide +kernel

/-- R330: cell index of 0xFF808080 is 33808. -/
theorem test_pmapQuery :
    let s := (loaded (stateOf { r0 with qpix := 0xFF808080 } .pal [5, 6, 7]) .pmatch []).writeWords .pmatch 33808 [2]
    (nextOf (exec .pmapQuery s)).regs.qidx = 2 ∧ (nextOf (exec .pmapQuery s)).regs.qpal = 7 := by decide +kernel

/-! ### The port, the errors and the resets -/

/-- R99: CLEN keeps four bits. -/
theorem test_window_write :
    let s : State := { State.reset with regs := { r0 with memSel := 8 } }
    (s.hostWrite .word 0x28 0xFFFFFFF7).readWord .clen 0 = 7 ∧
      (s.hostWrite .word 0x28 0xFFFFFFF7).regs.memIdx = 1 := by decide +kernel
/-- R352, R356: an illegal word reads STATUS 0x104, and the acknowledge clears it. -/
theorem test_error_and_acknowledge :
    let t := nextOf illegalState.blockTurn
    t.readReg .status = 0x00000104 ∧ t.regs.errInfo = 0x10100000 ∧
      (t.hostWrite .word 0x0C 0x0E).readReg .status = 0 := by decide
/-- R382: the abort makes CLEN and CODE of HUF.BUILD unspecified and leaves HCNT. -/
theorem test_soft_reset_aborts :
    let s := hufState.issue 0x100F0000
    (s.hostWrite .word 0x08 7).regs = Regs.reset ∧ (s.hostWrite .word 0x08 7).readNats .hcnt 0 4 = [1, 1, 2, 4] := by
  decide +kernel
/-- The fetch of the interface: the word is accepted and the next step runs it. -/
theorem test_withFetchWord : (nextOf (step (State.reset.withFetchWord 32 0))).regs.done = true := by decide

/-! ### Witnesses: a concrete state for the hypotheses of each statement -/

theorem next_of_exec (i : Instr) (s : State) : ∃ t, exec i s = .next t := by
  cases i <;> first
    | exact runCommand_isNext _ _ _
    | (simp only [exec, execNop, execPmapQuery]; exact runCommand_isNext _ _ _)

theorem test_meets_DecodeUndoesEncode : Instr.wf (.histExport 4 0xFFFF) = true := by decide

theorem test_meets_EncodeUndoesDecode : decode 0x3204FFFF = .ok (.histExport 4 0xFFFF) := by decide

/-- Both clauses, at the largest legal `L` and the smallest illegal one. -/
theorem test_meets_LegalityDecidesTheCompletion :
    (busyState.regs.busy = true ∧ busyState.regs.lastCmd = 0x100F0000 ∧ LegalWord 0x100F0000) ∧
    (illegalState.regs.busy = true ∧ illegalState.regs.lastCmd = 0x10100000 ∧ ¬ LegalWord 0x10100000) := by decide

theorem test_meets_WorkedEncodings :
    illegalState.regs.busy = true ∧ illegalState.regs.lastCmd = (0x10100000 : Word) := by decide

/-- A CMD write of NOP waits, then the block. -/
def queued : State := { State.reset with agenda := [.host (.write .word 0x10 (encode .nop)), .block] }

theorem test_meets_StepRunsDecodedCommand :
    (busyState.regs.busy = true ∧ decode busyState.regs.lastCmd = .ok (.hufBuild 15) ∧ busyState.agenda = []) ∧
    (State.withFetchWord State.reset 32 0x100F0000).agenda = .block :: [] ∧
    queued.agenda = .host (.write .word 0x10 0) :: [.block] := by decide

theorem test_meets_IssuedCommandRunsNext : Instr.wf .nop = true ∧ queued.regs.busy = false ∧
    queued.regs.err = false ∧ queued.agenda = .host (.write .word 0x10 (encode .nop)) :: .block :: [] := by decide

theorem test_meets_EveryAcceptedWordCompletes : busyState.regs.busy = true ∧ illegalState.regs.busy = true := by decide

theorem test_meets_OnlyExportWritesAParameter : ∃ t, exec .nop State.reset = .next t := next_of_exec _ _

/-- Two states that differ in a memory HUF.RLE does not read. -/
theorem test_meets_CommandsReadOnlyWhatTheirRuleLists :
    Instr.hufRle ≠ .lzRefs 2 ∧ lenState.caps = (loaded lenState .pal [1]).caps ∧
      lenState.regs = (loaded lenState .pal [1]).regs ∧
      (∀ id ∈ memoriesRead .hufRle, lenState.mems.get id = (loaded lenState .pal [1]).mems.get id) ∧
      (∃ t, exec .hufRle lenState = .next t) ∧ ∃ t, exec .hufRle (loaded lenState .pal [1]) = .next t :=
  ⟨by decide, rfl, rfl, by decide, next_of_exec _ _, next_of_exec _ _⟩

theorem test_meets_StepKeepsStatusFlags : busyState.regs.flagsOk = true ∧ ∃ t, step busyState = .next t :=
  ⟨by decide, next_of_exec (.hufBuild 15) busyState⟩

theorem test_meets_StepKeepsMemoriesCanonical : hufState.memsWf = true ∧ ∃ t, step hufState = .next t :=
  ⟨by decide, hufState, rfl⟩

theorem test_meets_StepKeepsMemoriesInside : hufState.memsInside = true ∧ ∃ t, step hufState = .next t :=
  ⟨by decide, hufState, rfl⟩

/-- One agenda for each of the four clauses. -/
theorem test_meets_CmdcntCountsCompletions :
    (busyState.regs.flagsOk = true ∧ busyState.agenda = [] ∧ ∃ t, step busyState = .next t) ∧
    (∃ t, step { busyState with agenda := [.host (.write .word 0x08 1)] } = .next t) ∧
    (∃ t, step { busyState with agenda := [.host (.read .word 0x1C)] } = .next t) ∧
    ∃ t, step { busyState with agenda := [.hardReset none] } = .next t :=
  ⟨⟨by decide, rfl, next_of_exec (.hufBuild 15) busyState⟩, ⟨_, rfl⟩, ⟨_, rfl⟩, ⟨_, rfl⟩⟩

theorem test_meets_CapabilitiesNeverChange : ∃ t, step State.reset = .next t := ⟨_, rfl⟩

theorem test_meets_ResetRegisterValues :
    (State.reset = State.resetWith State.reset.caps ∧ ∃ t, t = busyState.softReset) ∧
      Instr.wf .pmapBuild = true ∧ Instr.pmapBuild ≠ .nop ∧ Instr.pmapBuild ≠ .pmapQuery :=
  ⟨⟨rfl, _, rfl⟩, by decide⟩

theorem test_meets_HardResetForgetsEveryMemory :
    ∃ t, step { hufState with agenda := [.hardReset none] } = .next t := ⟨_, rfl⟩

/-- Idle and busy, with SRST and both IE bits written. -/
theorem test_meets_SoftResetAtAnyTime :
    (0x00000007 : Word).getLsbD 0 = true ∧ hufState.regs.busy = false ∧ busyState.regs.busy = true ∧
      decode busyState.regs.lastCmd = .ok (.hufBuild 15) ∧
      (∃ t, step { hufState with agenda := [.host (.write .word 0x08 7)] } = .next t) ∧
      ∃ t, step { busyState with agenda := [.host (.write .word 0x08 7)] } = .next t :=
  ⟨by decide, rfl, rfl, by decide, ⟨_, rfl⟩, ⟨_, rfl⟩⟩

/-- The first unmapped offset and the first after the map; a half word and an offset of 2. -/
theorem test_meets_UnmappedAndNarrowAccesses :
    (0x04 % 4 = 0 ∧ ∀ r : Reg, 0x04 ≠ r.offset) ∧ (0xE0 % 4 = 0 ∧ ∀ r : Reg, 0xE0 ≠ r.offset) ∧
      AccessWidth.half ≠ .word ∧ 2 % 4 ≠ 0 := by
  refine ⟨⟨rfl, fun r => ?_⟩, ⟨rfl, fun r => ?_⟩, by decide, by decide⟩ <;> cases r <;> decide

/-- The first and the last plain register, CTRL without SRST idle and busy, a read-only register. -/
theorem test_meets_RegisterReadsAndWrites :
    State.reset.regs.busy = false ∧ Reg.memIdx ≠ .memData ∧ (0x00000006 : Word).getLsbD 0 = false ∧
      (State.reset.hostWrite .word 0x20 0xFFFFFFFF).readReg .memSel = 15 ∧
      (State.reset.hostWrite .word 0xCC 0xFFFFFFFF).readReg .nbitq = 0xFFFFFFFF ∧
      State.reset.hostWrite .word 0xDC 1 = State.reset ∧
      (busyState.regs.busy = true ∧ (busyState.hostWrite .word 0x08 0xFFFFFFFE).readReg .ctrl = 6) := by decide

theorem test_meets_BusyLock : busyState.regs.busy = true ∧ Reg.width ≠ .ctrl ∧ Reg.width ≠ .status ∧
    Reg.width ≠ .memData := by decide

/-- Issue; dropped while BUSY; dropped while ERR. -/
theorem test_meets_CmdWriteIssuesOrIsDropped :
    (State.reset.regs.busy = false ∧ State.reset.regs.err = false) ∧ busyState.regs.busy = true ∧
      (nextOf illegalState.blockTurn).regs.err = true := by decide

theorem test_meets_StatusWriteClearsFlags :
    (0x0000000E : Word).getLsbD 2 = true ∧ (nextOf illegalState.blockTurn).regs.busy = false := by decide

/-- An idle state whose window is at `idx` of memory `sel`. -/
def windowAt (sel : BitVec 4) (idx : Word) : State :=
  { State.reset with regs := { r0 with memSel := sel, memIdx := idx } }

/-- PAL has 256 words: index 255 is the last inside, 256 the first outside; TH has 2112 words a histogram. -/
theorem test_meets_WindowReadAdvances :
    (windowAt 12 255).regs.busy = false ∧
      (memoryTable (windowAt 12 255).caps)[(windowAt 12 255).regs.memSel.toNat]? = some (.pal, 256, 1) ∧
      (windowAt 12 255).regs.memIdx.toNat < 256 * 1 ∧ 256 * 1 ≤ (windowAt 12 256).regs.memIdx.toNat ∧
      (memoryTable (windowAt 5 0).caps)[(windowAt 5 0).regs.memSel.toNat]? = some (.th, 4, 2112) := by decide

theorem test_meets_WindowWriteStoresTheElement :
    (windowAt 10 1303).regs.busy = false ∧
      (memoryTable (windowAt 10 1303).caps)[(windowAt 10 1303).regs.memSel.toNat]? = some (.tok, 1304, 1) ∧
      (windowAt 10 1303).regs.memIdx.toNat < 1304 * 1 ∧ 1304 * 1 ≤ (windowAt 10 1304).regs.memIdx.toNat := by decide

/-- A state with WIDTH and HEIGHT set. -/
def sized (w h : Word) : State := { State.reset with regs := { r0 with width := w, height := h } }

theorem test_meets_DimensionErrors :
    Instr.wf .lzFill = true ∧ readsDims .lzFill = true ∧ (sized 0 0).regs.width.toNat = 0 ∧
      16384 ≤ (sized 16384 1).regs.width.toNat ∧
      ((sized 16383 0).regs.width.toNat ≤ 16383 ∧ (sized 16383 0).regs.height.toNat = 0) ∧
      ((sized 1 16384).regs.width.toNat = 1 ∧ 16384 ≤ (sized 1 16384).regs.height.toNat) ∧
      (sized 16383 16383).DimsLegal := by decide

/-- WINDOW one above its range after a legal CACHE_BITS; `k` equal to NHISTO; everything legal. -/
theorem test_meets_ParameterErrors :
    let s : State := { sized 1 1 with regs := { (sized 1 1).regs with cacheBits := 10, window := 1048577 } }
    let e : State := { sized 1 1 with regs := { (sized 1 1).regs with nhisto := 4 } }
    (Instr.wf (.lzRefs 0) = true ∧ s.DimsLegal ∧ checkedRegs (.lzRefs 0) = [.cacheBits] ++ .window :: [.maxLen] ∧
      (∀ q ∈ [Reg.cacheBits], s.regLegal q = true) ∧ s.regLegal .window = false) ∧
    ((∀ r ∈ checkedRegs (.histExport 4 4), e.regLegal r = true) ∧ indexLegal e (.histExport 4 4) = false ∧
      indexLegal e (.histExport 4 3) = true) := by decide

/-- N one above PIX_DEPTH, and equal to it. -/
theorem test_meets_ResourceErrors :
    let s : State := { sized 4097 1 with regs := { (sized 4097 1).regs with hashBits := 1 } }
    let t : State := { sized 4096 1 with regs := { (sized 4096 1).regs with hashBits := 1 } }
    ParamsLegal .lzFill s ∧ resourceNeeds s .lzFill = [] ++ (.pix, 4097) :: [] ∧ MemId.pix.depth s.caps < 4097 ∧
      ParamsLegal .lzFill t ∧ ResourcesFit .lzFill t := by decide

/-- A Copy at position 0. -/
def badRecord : State := loaded oneRecord .refs [0x00010002, 1]
/-- A stream of one pixel for an image of two. -/
def shortStream : State := { oneRecord with regs := { oneRecord.regs with width := 2 } }
/-- A symbol equal to NHISTO. -/
def badSymbol : State := stateOf { r0 with width := 1, height := 1, histoBits := 2, nhisto := 4 } .syms [4]

theorem test_meets_StreamErrors :
    (badRecord.memsWf = true ∧ ParamsLegal .histBuild badRecord ∧ ResourcesFit .histBuild badRecord ∧
      0 < badRecord.refStream.length ∧ ¬ ValidRecord badRecord.pixelCount badRecord.regs.cacheBits.toNat
        (streamLength (badRecord.refStream.take 0)) (badRecord.refStream.getD 0 ⟨0, 0⟩)) ∧
    (shortStream.memsWf = true ∧ ParamsLegal .histBuild shortStream ∧ ResourcesFit .histBuild shortStream ∧
      (∀ j < shortStream.refStream.length, ValidRecord shortStream.pixelCount shortStream.regs.cacheBits.toNat
        (streamLength (shortStream.refStream.take j)) (shortStream.refStream.getD j ⟨0, 0⟩)) ∧
      streamLength shortStream.refStream ≠ shortStream.pixelCount) ∧
    (badSymbol.memsWf = true ∧ ParamsLegal .histCluster badSymbol ∧ ResourcesFit .histCluster badSymbol ∧
      0 < badSymbol.histTiles ∧ badSymbol.regs.nhisto.toNat ≤ (badSymbol.readWord .syms 0).toNat) :=
  ⟨by decide +kernel, by decide +kernel, by decide +kernel⟩

/-- Three counts, and exactly two, with `L = 1`; the illegal `L` and NSYM; `L = 15`. -/
theorem test_meets_KraftErrors :
    let s (ws : List Word) : State := stateOf { r0 with nsym := 3 } .hcnt ws
    let used (s : State) : Nat := ((s.readNats .hcnt 0 s.regs.nsym.toNat).filter (fun c => decide (0 < c))).length
    ((1 : BitVec 4) ≠ 0 ∧ (s [1, 1, 1]).regLegal .nsym = true ∧ 2 ^ (1 : BitVec 4).toNat < used (s [1, 1, 1])) ∧
    used (s [1, 0, 1]) = 2 ^ (1 : BitVec 4).toNat ∧ State.reset.regLegal .nsym = false ∧
    (Instr.hufBuild 15 = .hufBuild 15 ∧ ∀ L, Instr.nop ≠ .hufBuild L) := by decide +kernel

/-- A total of exactly 2^32 in HCNT; one in the literal array of TH. -/
theorem test_meets_RangeErrors :
    (let s := stateOf { r0 with nsym := 2 } .hcnt [0xFFFFFFFF, 1]
     s.regLegal .nsym = true ∧ 2 ^ 32 ≤ (s.readNats .hcnt 0 s.regs.nsym.toNat).sum) ∧
    (let s := oneHistogram 0xFFFFFFFF 1
     ParamsLegal .histCluster s ∧ ResourcesFit .histCluster s ∧ (∀ v ∈ s.tileSymbols, v < s.regs.nhisto.toNat) ∧
       2 ^ 32 ≤ arrayTotal s.histograms 0) := by decide +kernel

theorem test_meets_NopCompletes : ∃ t, ((State.resetWith Config.instanceT).issue 0).blockTurn = .next t :=
  next_of_exec .nop _

theorem test_meets_HufBuildCompletes :
    (2 : BitVec 4) ≠ 0 ∧ hufState.regLegal .nsym = true ∧
      ((hufState.readNats .hcnt 0 hufState.regs.nsym.toNat).filter (fun c => decide (0 < c))).length ≤
        2 ^ (2 : BitVec 4).toNat := by decide +kernel

/-- No count, one count, and `2^L` counts. -/
theorem test_meets_DegenerateHistograms :
    (∀ c ∈ [0, 0], c = 0) ∧ ([0, 5].filter (fun c => decide (0 < c))).length = 1 ∧
      ([1, 0, 1].filter (fun c => decide (0 < c))).length ≤ 2 ^ 1 := by decide

/-- Exactly `2^L` used symbols; a larger count beside two equal ones. -/
theorem test_meets_CodeLengthsMeetKraftEquality :
    ([2, 1, 1].getD 1 0 < [2, 1, 1].getD 0 0 ∧ [2, 1, 1].getD 1 0 = [2, 1, 1].getD 2 0 ∧
      2 ≤ ([2, 1, 1].filter (fun c => decide (0 < c))).length ∧
      ([2, 1, 1].filter (fun c => decide (0 < c))).length ≤ 2 ^ 2) ∧
    2 ≤ ([1, 0, 1].filter (fun c => decide (0 < c))).length ∧
      ([1, 0, 1].filter (fun c => decide (0 < c))).length ≤ 2 ^ 1 := by decide

/-- Equal lengths, a shorter and a longer one, and a length of 0. -/
theorem test_meets_CanonicalCodesArePrefixFree :
    (kraftSum 15 [0, 1, 2, 2] ≤ 2 ^ 15 ∧ [0, 1, 2, 2].getD 0 0 = 0 ∧ [0, 1, 2, 2].getD 1 0 < [0, 1, 2, 2].getD 2 0 ∧
      canonical [0, 1, 2, 2] = [0, 0, 2, 3]) ∧
    (∀ l ∈ [15, 3, 2, 1, 15], l ≤ 15) ∧ kraftSum 15 [15, 3, 2, 1, 15] ≤ 2 ^ 15 ∧
      [15, 3, 2, 1, 15].getD 0 0 = [15, 3, 2, 1, 15].getD 4 0 := by decide +kernel

theorem test_meets_HufRleTokensExpandToTheLengths : lenState.memsWf = true ∧ lenState.regLegal .nsym = true := by
  decide

/-- A first run of zeros; a first run of 8s, coded against the 8 of the start; a second run of 5s over zeros. -/
theorem test_meets_RunsAreCodedLongestTokenFirst :
    (1 ≤ 139 ∧ ([] : List Nat).getLast? ≠ some 0) ∧ (1 ≤ 8 ∧ 8 ≤ 15 ∧ ([] : List Nat).getLast? ≠ some 8) ∧
      ([5, 5, 0, 0, 0].getLast? ≠ some 5 ∧ lastNonzero [5, 5, 0, 0, 0] = 5 ∧
        rle ([5, 5, 0, 0, 0] ++ List.replicate 3 5) = [⟨5, 0⟩, ⟨5, 0⟩, ⟨17, 0⟩, ⟨16, 0⟩]) := by decide +kernel

theorem test_meets_HufStoreAppendsItsBitFields :
    lenState.memsWf = true ∧ ParamsLegal .hufStore lenState ∧ ResourcesFit .hufStore lenState ∧
      fullPath lenState.lengths = true := by decide +kernel

theorem test_meets_StoredBitFieldsFit : ([3, 3, 2, 15] : List Nat).length ≤ 1304 ∧ ∀ l ∈ [3, 3, 2, 15], l ≤ 15 := by
  decide

/-- No symbol; symbol 1; symbols 1 and 2. -/
theorem test_meets_SmallTreesAreStoredShort :
    (∀ l ∈ [0, 0, 0], l = 0) ∧ (∀ j < 3, [0, 1, 0].getD j 0 ≠ 0 ↔ j = 1) ∧
      ∀ j < 3, [0, 1, 1].getD j 0 ≠ 0 ↔ j = 1 ∨ j = 2 := by decide

theorem test_meets_LzFillChainsMostRecentPosition :
    tenPixels.memsWf = true ∧ ParamsLegal .lzFill tenPixels ∧ ResourcesFit .lzFill tenPixels ∧
      hashOf (tenPixels.readWord .pix 0) 4 = hashOf (tenPixels.readWord .pix 2) 4 ∧
      hashOf (tenPixels.readWord .pix 1) 4 ≠ hashOf (tenPixels.readWord .pix 2) 4 := by decide +kernel

theorem test_meets_LzRefsStreamReplaysToThePixels :
    pairState.memsWf = true ∧ RefsReady 0 pairState ∧ RefsReady 1 pairState ∧ RefsReady 2 pairState := by decide

theorem test_meets_LzRefsRecordsKeepTheInvariants :
    pairState.memsWf = true ∧ (RefsReady 0 pairState ∧ ∃ t, exec (.lzRefs 0) pairState = .next t) ∧
      (RefsReady 1 pairState ∧ ∃ t, exec (.lzRefs 1) pairState = .next t) ∧
      (RefsReady 2 pairState ∧ ∃ t, exec (.lzRefs 2) pairState = .next t) :=
  ⟨by decide, ⟨by decide, next_of_exec _ _⟩, ⟨by decide, next_of_exec _ _⟩, ⟨by decide, next_of_exec _ _⟩⟩

theorem test_meets_StandardTakesTheFirstLongestMatch :
    standardMatch [7, 7, 7, 7] [noneMark, 0, noneMark, noneMark] 64 1048576 4096 1 = some ⟨3, 1⟩ ∧
      standardMatch [7, 7, 7, 7] [noneMark, 0, noneMark, noneMark] 64 1048576 2 1 = none ∧
      (0 < 1 ∧ 1 + 3 ≤ [7, 7, 7, 8].length ∧ matchLen [7, 7, 7, 8] 0 1 3 = 2) := by decide +kernel

theorem test_meets_LzRefsStreamSuitsHistBuild :
    pairState.memsWf = true ∧ RefsReady 1 pairState ∧ pairState.regLegal .histoBits = true ∧
      pairState.histTiles ≤ pairState.caps.th.toNat := by decide

theorem test_meets_HistBuildTalliesEachTile : oneRecord.memsWf = true ∧ BuildReady oneRecord := by decide +kernel

theorem test_meets_HistClusterMergesIntoClasses :
    (oneHistogram 3 1).memsWf = true ∧ ClusterReady (oneHistogram 3 1) := by decide +kernel

/-- Two equal arrays with a gain, and without the correction none. -/
theorem test_meets_ClusterPicksTheLargestGain :
    let live (cost : Nat) : List Cluster := [⟨0, [4, 12], cost⟩, ⟨1, [4, 12], cost⟩]
    ((live 21).map Cluster.index).Pairwise (· < ·) ∧
      bestMerge (candidates 0 8 (live 21)) = some ⟨0, 1, [8, 24], 34, 8⟩ ∧
      bestMerge (candidates 0 0 (live 13)) = none := by decide +kernel

/-- CACHE_BITS one above its range; NHISTO 0, above TH_DEPTH, and equal to `k`; all legal with CACHE_BITS 10. -/
theorem test_meets_HistExportCopiesOneArray :
    let s (cb n : Word) : State := { State.reset with regs := { r0 with cacheBits := cb, nhisto := n } }
    (s 10 4).memsWf = true ∧ 10 < (s 11 4).regs.cacheBits.toNat ∧ (s 10 0).regs.nhisto.toNat = 0 ∧
      (s 10 5).caps.th.toNat < (s 10 5).regs.nhisto.toNat ∧ (s 10 4).regs.nhisto.toNat ≤ (4 : BitVec 16).toNat ∧
      (s 10 4).regs.cacheBits.toNat ≤ 10 ∧ (s 10 4).regs.nhisto.toNat ≤ (s 10 4).caps.th.toNat ∧
      (3 : BitVec 16).toNat < (s 10 4).regs.nhisto.toNat ∧ (4 : BitVec 3).toNat ≤ 4 := by decide

/-- NSYM 0; a total of 2^32; a total of 2^32 - 1; the sparse, the flat and the general case. -/
theorem test_meets_HistEntropyEstimates :
    let s (n : Word) (ws : List Word) : State := stateOf { r0 with nsym := n } .hcnt ws
    (s 0 []).regLegal .nsym = false ∧ (s 2 [0xFFFFFFFF, 1]).regLegal .nsym = true ∧
      2 ^ 32 ≤ ((s 2 [0xFFFFFFFF, 1]).readNats .hcnt 0 2).sum ∧
      ((s 2 [0xFFFFFFFE, 1]).readNats .hcnt 0 2).sum < 2 ^ 32 ∧
      ((s 2 [0, 5]).readNats .hcnt 0 2).filter (fun x => decide (0 < x)) = [5] ∧
      ((s 2 [5, 5]).readNats .hcnt 0 2).filter (fun x => decide (0 < x)) = [5, 5] ∧
      ((s 2 [5, 6]).readNats .hcnt 0 2).filter (fun x => decide (0 < x)) = [5, 6] := by decide +kernel

/-- Positions 0, 2 and 3 are of the first row, the first column and the interior. -/
theorem test_meets_PredResidWritesResidualsAndModes :
    (square.memsWf = true ∧ ParamsLegal .predResid square ∧ ResourcesFit .predResid square) ∧ square.pixelCount = 4 ∧
      0 / 2 = 0 ∧ (2 / 2 ≠ 0 ∧ 2 % 2 = 0) ∧ (3 / 2 ≠ 0 ∧ 3 % 2 ≠ 0) := by decide

theorem test_meets_PredResidPicksTheBestMode :
    (square.memsWf = true ∧ ParamsLegal .predResid square ∧ ResourcesFit .predResid square) ∧ 0 < square.predTiles ∧
      ∃ t, exec .predResid square = .next t :=
  ⟨by decide, by decide, next_of_exec _ _⟩

theorem test_meets_ResidualsRecoverTheImage :
    (square.memsWf = true ∧ ParamsLegal .predResid square ∧ ResourcesFit .predResid square) ∧
      ∃ t, exec .predResid square = .next t :=
  ⟨by decide, next_of_exec _ _⟩

/-- Entries 0 and 1 share cell 4226; cell 0 is no entry's. -/
theorem test_meets_PmapBuildMatchesTheNearestEntry :
    palState.memsWf = true ∧ palState.regLegal .palSize = true ∧ palState.entryCell 0 = 4226 ∧
      palState.entryCell 1 = 4226 ∧ ∀ i < 3, palState.entryCell i ≠ 0 := by decide +kernel

theorem test_meets_PmapQueryLooksUpTheCell : palState.memsWf = true := by decide

/-- The ends of the ranges: shift 0 of the hash, 15 bits reversed. -/
theorem test_meets_HelperFunctionLaws :
    (1 ≤ 32 ∧ hashOf 1 32 = 0x1E35A7BD) ∧ hashOf 0xFF00FF00 1 = 1 ∧ 32767 < 2 ^ 15 := by decide +kernel

/-- R153, sample values at both ends. -/
theorem test_meets_FixedPointLogarithm : flog2 1 = 0 ∧ flog2 0xFFFFFFFF = 0x1FFFFF ∧ flog2 3 = 0x195C0 ∧
    mantissa 3 0 = 0xC0000000 ∧ mantissa 3 1 = 0x90000000 := by
  decide +kernel

/-- R154, values at both bounds. -/
theorem test_meets_PrefixCodesCoverTheirRanges :
    prefixEncode 1 = ⟨0, 0, 0⟩ ∧ prefixEncode 4096 = ⟨23, 1023, 10⟩ ∧ prefixEncode 1048576 = ⟨39, 262143, 18⟩ := by
  decide +kernel

end Sys2Proof.Tests
end

/-!
PROOFS, family 00_scope: what a turn does, what a command can answer (R13, R351, R352), what it can change (R42, R43)
and what its result depends on (R15, R50).
-/

/-! ### The encoder's fields read back (R120, R123) -/

section
namespace Sys2Proof

/-- R120: bit `j` of a command word, field by field. -/
theorem getLsbD_commandWord (op a : BitVec 8) (b : BitVec 16) (j : Nat) :
    (commandWord op a b).getLsbD j =
      if j < 16 then b.getLsbD j else if j - 16 < 8 then a.getLsbD (j - 16) else op.getLsbD (j - 16 - 8) := by
  rw [← BitVec.getLsbD_append (x := op) (y := a)]
  exact BitVec.getLsbD_append

theorem opField_commandWord (op a : BitVec 8) (b : BitVec 16) : opField (commandWord op a b) = op := by
  ext j hj
  simp [opField, getLsbD_commandWord, show ¬ 24 + j < 16 by omega, show ¬ 24 + j - 16 < 8 by omega,
    show 24 + j - 16 - 8 = j by omega, hj]

theorem aField_commandWord (op a : BitVec 8) (b : BitVec 16) : aField (commandWord op a b) = a := by
  ext j hj
  simp [aField, getLsbD_commandWord, hj]

theorem bField_commandWord (op a : BitVec 8) (b : BitVec 16) : bField (commandWord op a b) = b := by
  ext j hj
  simp [bField, getLsbD_commandWord, hj]

/-- R123: `op` selects the command's own row, and the arguments come back from their fields. -/
theorem rowOf_encode (i : Instr) : rowOf (encode i) = some i := by
  cases i with
  | hufBuild L => revert L; decide
  | lzRefs f => revert f; decide
  | histExport arr k =>
    have harr : (arr.setWidth 8).extractLsb' 0 3 = arr := by revert arr; decide
    simp [rowOf, encode, opField_commandWord, aField_commandWord, bField_commandWord, harr]
  | nop | hufRle | hufStore | lzFill | histBuild | histCluster | histEntropy | predResid | pmapBuild | pmapQuery => rfl

/-- R121, R123: the must-be-zero bits of an encoded command are zero. -/
theorem encode_row (i : Instr) : encode i &&& i.row.mask = i.row.pattern := by
  cases i with
  | nop => exact Laws.EncodeRow.nop
  | hufBuild L => exact Laws.EncodeRow.hufBuild L
  | hufRle => exact Laws.EncodeRow.hufRle
  | hufStore => exact Laws.EncodeRow.hufStore
  | lzFill => exact Laws.EncodeRow.lzFill
  | lzRefs f => exact Laws.EncodeRow.lzRefs f
  | histBuild => exact Laws.EncodeRow.histBuild
  | histCluster => exact Laws.EncodeRow.histCluster
  | histExport arr k => exact Laws.EncodeRow.histExport arr k
  | histEntropy => exact Laws.EncodeRow.histEntropy
  | predResid => exact Laws.EncodeRow.predResid
  | pmapBuild => exact Laws.EncodeRow.pmapBuild
  | pmapQuery => exact Laws.EncodeRow.pmapQuery

/-- R120 to R123: a legal command comes back from its word. -/
theorem decode_encode (i : Instr) (h : i.wf = true) : decode (encode i) = .ok i := by
  simp [decode, rowOf_encode, encode_row, h]

end Sys2Proof
end

/-! ### One equation per turn of the agenda (R11, R13) -/

section
namespace Sys2Proof.Machine

theorem step_nil (s : State) (h : s.agenda = []) : step s = s.blockTurn := by simp [step, h]

theorem step_block (s : State) (rest : List Turn) (h : s.agenda = .block :: rest) :
    step s = State.blockTurn { s with agenda := rest } := by simp [step, h]

theorem step_host (s : State) (a : HostAccess) (rest : List Turn) (h : s.agenda = .host a :: rest) :
    step s = .next (State.hostAccess { s with agenda := rest } a) := by simp [step, h]

theorem State.blockTurn_legal (s : State) (i : Instr) (hbusy : s.regs.busy = true)
    (hdec : decode s.regs.lastCmd = .ok i) : s.blockTurn = exec i s := by
  simp [State.blockTurn, State.completionStep, hbusy, hdec]

/-- R353: a word that does not decode ends in `E_ILLEGAL`. -/
theorem State.blockTurn_illegal (s : State) (e : DecodeError) (hbusy : s.regs.busy = true)
    (hdec : decode s.regs.lastCmd = .error e) :
    s.blockTurn = .next (s.errorComplete ⟨.illegal, s.regs.lastCmd⟩) := by
  simp [State.blockTurn, State.completionStep, hbusy, hdec]

/-- R36: CMD, written while the block is idle and without error, issues the word. -/
theorem State.hostWrite_cmd (s : State) (v : Word) (hbusy : s.regs.busy = false) (herr : s.regs.err = false) :
    s.hostWrite .word 0x10 v = s.issue v := by
  calc s.hostWrite .word 0x10 v = s.writeReg .cmd v := State.hostWrite_idle s .cmd v hbusy
    _ = s.issue v := by simp [State.writeReg, State.writeCmd, herr]

/-- R13 (1), R36: the host's turn that issues a command word. -/
theorem step_cmdWrite (s : State) (v : Word) (rest : List Turn) (hbusy : s.regs.busy = false)
    (herr : s.regs.err = false) (h : s.agenda = .host (.write .word 0x10 v) :: rest) :
    step s = .next (State.issue { s with agenda := rest } v) := by
  rw [step_host s _ rest h]
  exact congrArg _ (State.hostWrite_cmd _ v hbusy herr)

/-- Settles O5: each clause is the equation of its turn. -/
theorem stepRunsDecodedCommand : Obligations.StepRunsDecodedCommand := by
  intro s
  refine ⟨fun i hbusy hdec => ⟨fun h => ?_, fun rest h => ?_⟩, fun w off rest h => step_host s _ rest h,
    fun w off v rest h => step_host s _ rest h⟩
  · rw [step_nil s h, State.blockTurn_legal s i hbusy hdec]
  · rw [step_block s rest h]
    exact State.blockTurn_legal _ i hbusy hdec

/-- Settles O6: the host's turn leaves the issued state, whose LASTCMD decodes to the command that was encoded. -/
theorem issuedCommandRunsNext : Obligations.IssuedCommandRunsNext := by
  intro s i rest hwf hbusy herr hagenda
  refine ⟨_, step_cmdWrite s _ _ hbusy herr hagenda, rfl, rfl, rfl, rfl, ?_⟩
  rw [step_block _ rest rfl]
  exact State.blockTurn_legal _ i rfl (decode_encode i hwf)

end Sys2Proof.Machine
end

/-! ### A command is its pre-checks and its effect (R351) -/

section
namespace Sys2Proof.Machine

/-- R351: the first failing pre-check of each command. -/
def commandError : Instr → State → Option CmdError
  | .nop, _ => needLegal .nop
  | .hufBuild L, s => hufBuildError L s
  | .hufRle, s => (needLegal .hufRle).or (checkNsym s)
  | .hufStore, s => hufStoreError s
  | .lzFill, s => lzFillError s
  | .lzRefs f, s => lzRefsError f s
  | .histBuild, s => histBuildError s
  | .histCluster, s => histClusterError s
  | .histExport arr k, s => histExportError arr k s
  | .histEntropy, s => histEntropyError s
  | .predResid, s => predResidError s
  | .pmapBuild, s => pmapBuildError s
  | .pmapQuery, _ => needLegal .pmapQuery

/-- R270: the two halves of an estimate in RES0 and RES1. -/
def State.writeEstimate (s : State) (e : Nat) : State :=
  { s with regs := { s.regs with res0 := BitVec.ofNat 32 e, res1 := BitVec.ofNat 32 (e / 2 ^ 32) } }

/-- R268: the exported counters in HCNT and their number in NSYM. -/
def State.writeExport (s : State) (size : Nat) (counters : List Word) : State :=
  let t := s.writeWords .hcnt 0 counters
  { t with regs := { t.regs with nsym := BitVec.ofNat 32 size } }

/-- R330: the answer of a query in QIDX and QPAL. -/
def State.writeQuery (s : State) (idx px : Word) : State := { s with regs := { s.regs with qidx := idx, qpal := px } }

/-- What each command writes when no pre-check fails, before its completion. -/
def commandEffect : Instr → State → State
  | .nop, s => s
  | .hufBuild L, s =>
    (s.writeNats .clen 0 (codeLengths s.histogram L.toNat)).writeNats .code 0
      (canonical (codeLengths s.histogram L.toNat))
  | .hufRle, s => s.writeTokens (rle s.lengths)
  | .hufStore, s =>
    if fullPath s.lengths then (s.appendFields (storeFields s.lengths)).writeTokens (rle s.lengths)
    else s.appendFields (storeFields s.lengths)
  | .lzFill, s => s.writeWords .chain 0 (fillChain s.pixelCount s.regs.hashBits.toNat s.pixels 0 [])
  | .lzRefs f, s => s.writeRefs (s.refsResult f)
  | .histBuild, s => s.writeHistograms s.builtHistograms (List.range s.histTiles)
  | .histCluster, s =>
    let r := clusterHistograms s.regs.cacheBits.toNat s.regs.entCorr.toNat s.histograms s.tileSymbols
    s.writeHistograms r.hists r.syms
  | .histExport arr k, s =>
    s.writeExport (s.exportSize arr.toNat)
      (s.readWords .th (k.toNat * histWords + arrayOffset arr.toNat) (s.exportSize arr.toNat))
  | .histEntropy, s => s.writeEstimate (ent s.counts s.regs.entCorr.toNat)
  | .predResid, s =>
    (s.writeWords .pix 0
        (residuals s.pixels s.regs.width.toNat s.regs.predBits.toNat s.predTilesX s.predModes)).writeWords
      .tdata 0 (s.predModes.map modeWord)
  | .pmapBuild, s =>
    ((s.writeNats .pmatch 0 ((cellClaims s.palette).map (fun c => c.getD 0))).writeNats
        .taken 0 ((cellClaims s.palette).map (fun c => if c.isSome then 1 else 0))).writeNats
      .same 0 ((List.range 256).map (fun i => if (seed s.palette).marked.contains i then 1 else 0))
  | .pmapQuery, s => s.writeQuery s.queryIndex (s.readWord .pal s.queryIndex.toNat)

/-- Every command's meaning has the form of R351 and R352. -/
theorem exec_eq_runCommand (i : Instr) (s : State) :
    exec i s = runCommand s (commandError i s) (commandEffect i s) := by
  cases i <;> rfl

/-- R353: the first pre-check of every command is its own legality (log 16). -/
theorem commandError_illegal (i : Instr) (s : State) (h : i.wf = false) :
    commandError i s = some ⟨.illegal, encode i⟩ := by
  have hlegal : needLegal i = some ⟨.illegal, encode i⟩ := by simp [needLegal, need, h]
  cases i with
  | hufBuild L => simp [commandError, hufBuildError, hlegal]
  | lzRefs f => simp [commandError, lzRefsError, hlegal]
  | histExport arr k => simp [commandError, histExportError, hlegal]
  | nop | hufRle | hufStore | lzFill | histBuild | histCluster | histEntropy | predResid | pmapBuild | pmapQuery =>
    simp [Instr.wf] at h

/-! ### What an effect can change -/

/-- The registers `r` with the registers a command may write, NSYM and those of R43, taken from `q`. -/
def Regs.withResults (r q : Regs) : Regs :=
  { r with nsym := q.nsym, nrefs := q.nrefs, ntok := q.ntok, nhisto := q.nhisto, nbitq := q.nbitq, res0 := q.res0,
           res1 := q.res1, qidx := q.qidx, qpal := q.qpal }

/-- R42, R43: a command's effect stands in memories and result registers (with NSYM); all else is as before. -/
theorem commandEffect_eq (i : Instr) (s : State) :
    commandEffect i s =
      { s with regs := s.regs.withResults (commandEffect i s).regs, mems := (commandEffect i s).mems } := by
  cases i with
  | hufStore => simp only [commandEffect]; split <;> rfl
  | nop | hufBuild | hufRle | lzFill | lzRefs | histBuild | histCluster | histExport | histEntropy | predResid
  | pmapBuild | pmapQuery => rfl

/-- R350: the error codes are 1 to 7. -/
theorem ErrorCode.num_bounds (c : ErrorCode) : 1 ≤ c.num.toNat ∧ c.num.toNat ≤ 7 := by
  cases c <;> decide

/-- R350, R352: an error completion writes a code from 1 to 7. -/
theorem State.errorComplete_errored (s : State) (e : CmdError) :
    ∃ code info, 1 ≤ code.toNat ∧ code.toNat ≤ 7 ∧ s.errorComplete e = s.errored code info :=
  ⟨e.code.num, e.info, e.code.num_bounds.1, e.code.num_bounds.2, rfl⟩

/-- Settles O7: a word that does not decode is an error completion; a command is one too, or its confined effect,
completed. -/
theorem everyAcceptedWordCompletes : Obligations.EveryAcceptedWordCompletes := by
  intro s hbusy
  cases hdec : decode s.regs.lastCmd with
  | error e => exact ⟨_, s.blockTurn_illegal e hbusy hdec, .inl (s.errorComplete_errored _)⟩
  | ok i =>
    rw [s.blockTurn_legal i hbusy hdec, exec_eq_runCommand]
    cases commandError i s with
    | some e => exact ⟨_, runCommand_some _ _ e, .inl (s.errorComplete_errored e)⟩
    | none =>
      refine ⟨_, runCommand_none _ _, .inr ?_⟩
      rw [commandEffect_eq i s]
      simp [Regs.withResults]

end Sys2Proof.Machine
end

/-! ### Two runs side by side (R15, R50) -/

section
namespace Sys2Proof.Machine

/-- Of the runs that began in `s` and `s'`, the states `t` and `t'` reached have equal registers, and each host word is
equal in both or unchanged in both. -/
structure RunsAgree (s s' t t' : State) : Prop where
  regs : t.regs = t'.regs
  words : ∀ id a, t.readWord id a = t'.readWord id a ∨
    (t.readWord id a = s.readWord id a ∧ t'.readWord id a = s'.readWord id a)

variable {s s' t t' : State}

theorem RunsAgree.start (h : s.regs = s'.regs) : RunsAgree s s' s s' := ⟨h, fun _ _ => .inr ⟨rfl, rfl⟩⟩

/-- The same write in both runs: a written word is equal, any other keeps its clause. -/
theorem RunsAgree.writeWords (h : RunsAgree s s' t t') (id : MemId) (start : Nat) (vs : List Word) :
    RunsAgree s s' (t.writeWords id start vs) (t'.writeWords id start vs) := by
  refine ⟨h.regs, fun j a => ?_⟩
  by_cases hj : j = id
  · subst hj
    by_cases ha : a < start ∨ start + vs.length ≤ a
    · simpa only [State.readWord_writeWords_outside _ _ _ _ _ ha] using h.words j a
    · obtain ⟨k, rfl⟩ : ∃ k, a = start + k := ⟨a - start, by omega⟩
      have hk : k < vs.length := by omega
      exact .inl (by simp only [State.readWord_writeWords_inside _ _ _ _ _ hk])
  · simpa only [State.readWord_writeWords_ne _ _ _ _ _ _ hj] using h.words j a

theorem RunsAgree.writeNats (h : RunsAgree s s' t t') (id : MemId) (start : Nat) (vs : List Nat) :
    RunsAgree s s' (t.writeNats id start vs) (t'.writeNats id start vs) :=
  h.writeWords id start _

/-- The same change of the registers in both runs. -/
theorem RunsAgree.updateRegs (h : RunsAgree s s' t t') (f : Regs → Regs) :
    RunsAgree s s' { t with regs := f t.regs } { t' with regs := f t'.regs } :=
  ⟨congrArg f h.regs, h.words⟩

theorem RunsAgree.complete (h : RunsAgree s s' t t') : RunsAgree s s' t.complete t'.complete :=
  h.updateRegs (fun r => { r with done := true, busy := false, cmdCnt := r.cmdCnt + 1 })

theorem RunsAgree.errorComplete (h : RunsAgree s s' t t') (e : CmdError) :
    RunsAgree s s' (t.errorComplete e) (t'.errorComplete e) :=
  h.updateRegs (fun r => { r with errCode := e.code.num, errInfo := e.info, err := true, busy := false })

theorem RunsAgree.writeTokens (h : RunsAgree s s' t t') (tokens : List Token) :
    RunsAgree s s' (t.writeTokens tokens) (t'.writeTokens tokens) :=
  (h.writeWords .tok 0 _).updateRegs (fun r => { r with ntok := BitVec.ofNat 32 tokens.length })

/-- NBITQ, where the fields are appended, is equal in both runs. -/
theorem RunsAgree.appendFields (h : RunsAgree s s' t t') (fields : List BitField) :
    RunsAgree s s' (t.appendFields fields) (t'.appendFields fields) := by
  have hwrite := h.writeWords .bitq (2 * t.regs.nbitq.toNat) (bitFieldWords fields)
  simp only [State.appendFields, ← h.regs]
  exact ⟨by simp [h.regs], hwrite.words⟩

theorem RunsAgree.writeRefs (h : RunsAgree s s' t t') (r : RefsResult) :
    RunsAgree s s' (t.writeRefs r) (t'.writeRefs r) :=
  ((h.writeWords .refs 0 _).writeWords .ccache 0 _).updateRegs
    (fun q => { q with nrefs := BitVec.ofNat 32 r.recs.length })

theorem RunsAgree.writeHistograms (h : RunsAgree s s' t t') (hists : List (List Nat)) (syms : List Nat) :
    RunsAgree s s' (t.writeHistograms hists syms) (t'.writeHistograms hists syms) :=
  ((h.writeNats .th 0 _).writeNats .syms 0 _).updateRegs
    (fun r => { r with nhisto := BitVec.ofNat 32 hists.length })

theorem RunsAgree.writeExport (h : RunsAgree s s' t t') (size : Nat) (counters : List Word) :
    RunsAgree s s' (t.writeExport size counters) (t'.writeExport size counters) :=
  (h.writeWords .hcnt 0 counters).updateRegs (fun r => { r with nsym := BitVec.ofNat 32 size })

theorem RunsAgree.writeEstimate (h : RunsAgree s s' t t') (e : Nat) :
    RunsAgree s s' (t.writeEstimate e) (t'.writeEstimate e) :=
  h.updateRegs (fun r => { r with res0 := BitVec.ofNat 32 e, res1 := BitVec.ofNat 32 (e / 2 ^ 32) })

theorem RunsAgree.writeQuery (h : RunsAgree s s' t t') (idx px : Word) :
    RunsAgree s s' (t.writeQuery idx px) (t'.writeQuery idx px) :=
  h.updateRegs (fun r => { r with qidx := idx, qpal := px })

end Sys2Proof.Machine
end

/-! ### What a command reads of the state -/

section
namespace Sys2Proof.Machine

theorem State.readWord_congr {s s' : State} {id : MemId} (h : s.mems.get id = s'.mems.get id) (a : Nat) :
    s.readWord id a = s'.readWord id a := by
  simp [State.readWord, h]

theorem State.readWords_congr {s s' : State} {id : MemId} (h : s.mems.get id = s'.mems.get id) (start count : Nat) :
    s.readWords id start count = s'.readWords id start count := by
  simp [State.readWords, h]

theorem State.readNats_congr {s s' : State} {id : MemId} (h : s.mems.get id = s'.mems.get id) (start count : Nat) :
    s.readNats id start count = s'.readNats id start count := by
  simp [State.readNats, State.readWords_congr h]

/-- The two states hold what command `i` may look at: the capability constants, the registers, and the memories its
rule lists under "Reads". -/
structure SameInputs (i : Instr) (s s' : State) : Prop where
  caps : s.caps = s'.caps
  regs : s.regs = s'.regs
  mems : ∀ id ∈ memoriesRead i, s.mems.get id = s'.mems.get id

section views
variable {s s' : State} (hregs : s.regs = s'.regs)
include hregs

theorem State.pixelCount_congr : s.pixelCount = s'.pixelCount := by simp [State.pixelCount, hregs]

theorem State.histTilesX_congr : s.histTilesX = s'.histTilesX := by simp [State.histTilesX, hregs]

theorem State.histTiles_congr : s.histTiles = s'.histTiles := by
  simp [State.histTiles, State.histTilesX_congr hregs, hregs]

theorem State.predTilesX_congr : s.predTilesX = s'.predTilesX := by simp [State.predTilesX, hregs]

theorem State.predTiles_congr : s.predTiles = s'.predTiles := by
  simp [State.predTiles, State.predTilesX_congr hregs, hregs]

theorem State.exportSize_congr (arr : Nat) : s.exportSize arr = s'.exportSize arr := by
  simp [State.exportSize, hregs]

theorem State.pixels_congr (h : s.mems.get .pix = s'.mems.get .pix) : s.pixels = s'.pixels := by
  simp [State.pixels, State.pixelCount_congr hregs, State.readWords_congr h]

theorem State.predModes_congr (h : s.mems.get .pix = s'.mems.get .pix) : s.predModes = s'.predModes := by
  simp [State.predModes, State.pixels_congr hregs h, State.predTilesX_congr hregs, State.predTiles_congr hregs, hregs]

theorem State.histogram_congr (h : s.mems.get .hcnt = s'.mems.get .hcnt) : s.histogram = s'.histogram := by
  simp [State.histogram, hregs, State.readNats_congr h]

theorem State.counts_congr (h : s.mems.get .hcnt = s'.mems.get .hcnt) : s.counts = s'.counts :=
  State.histogram_congr hregs h

theorem State.lengths_congr (h : s.mems.get .clen = s'.mems.get .clen) : s.lengths = s'.lengths := by
  simp [State.lengths, hregs, State.readNats_congr h]

theorem State.refStream_congr (h : s.mems.get .refs = s'.mems.get .refs) : s.refStream = s'.refStream := by
  simp [State.refStream, hregs, State.readWords_congr h]

theorem State.builtHistograms_congr (h : s.mems.get .refs = s'.mems.get .refs) :
    s.builtHistograms = s'.builtHistograms := by
  simp [State.builtHistograms, State.refStream_congr hregs h, State.histTilesX_congr hregs,
    State.histTiles_congr hregs, hregs]

theorem State.histograms_congr (h : s.mems.get .th = s'.mems.get .th) : s.histograms = s'.histograms := by
  simp [State.histograms, hregs, State.readNats_congr h]

theorem State.tileSymbols_congr (h : s.mems.get .syms = s'.mems.get .syms) : s.tileSymbols = s'.tileSymbols := by
  simp [State.tileSymbols, State.histTiles_congr hregs, State.readNats_congr h]

theorem State.palette_congr (h : s.mems.get .pal = s'.mems.get .pal) : s.palette = s'.palette := by
  simp [State.palette, hregs, State.readWords_congr h]

theorem State.queryIndex_congr (h : s.mems.get .pmatch = s'.mems.get .pmatch) : s.queryIndex = s'.queryIndex := by
  simp [State.queryIndex, hregs, State.readWord_congr h]

end views

/-- The flavors Standard and RLE are functions of the registers, PIX and (Standard only) CHAIN. -/
theorem State.refsResult_congr {s s' : State} {f : BitVec 2} (h : SameInputs (.lzRefs f) s s')
    (hf : f = 0 ∨ f = 1) : s.refsResult f = s'.refsResult f := by
  obtain rfl | rfl := hf
  · have hpix := State.pixels_congr h.regs (h.mems .pix (by decide))
    have hchain := State.readWords_congr (h.mems .chain (by decide))
    simp [State.refsResult, hpix, hchain, State.pixelCount_congr h.regs, h.regs]
  · have hpix := State.pixels_congr h.regs (h.mems .pix (by decide))
    simp [State.refsResult, hpix, h.regs]

/-- R217: the legal flavors but Box. -/
theorem flavor_standard_or_rle {f : BitVec 2} (hwf : (Instr.lzRefs f).wf = true) (hbox : Instr.lzRefs f ≠ .lzRefs 2) :
    f = 0 ∨ f = 1 := by
  revert f; decide

/-! ### The checks, then the effects, of two runs with the same inputs -/

/-- R351: the first failing pre-check depends on a command's inputs only. -/
theorem commandError_congr {i : Instr} {s s' : State} (hbox : i ≠ .lzRefs 2) (h : SameInputs i s s') :
    commandError i s = commandError i s' := by
  cases hwf : i.wf with
  | false => rw [commandError_illegal i s hwf, commandError_illegal i s' hwf]
  | true =>
  have hcaps := h.caps
  have hregs := h.regs
  cases i with
  | nop => rfl
  | hufBuild L =>
    have hhist := State.histogram_congr hregs (h.mems .hcnt (by simp [memoriesRead]))
    simp only [commandError, hufBuildError, checkNsym, hregs, hhist]
  | hufRle => simp only [commandError, checkNsym, hregs]
  | hufStore =>
    have hlens := State.lengths_congr hregs (h.mems .clen (by simp [memoriesRead]))
    simp only [commandError, hufStoreError, checkNsym, checkNbitq, checkFits, hcaps, hregs, hlens]
  | lzFill =>
    simp only [commandError, lzFillError, checkDim, checkHashBits, checkFits, State.pixelCount_congr hregs, hcaps,
      hregs]
  | lzRefs f =>
    have hresult := State.refsResult_congr h (flavor_standard_or_rle hwf hbox)
    simp only [commandError, lzRefsError, checkDim, checkCacheBits, checkWindow, checkMaxLen, checkFits,
      State.pixelCount_congr hregs, hresult, hcaps, hregs]
  | histBuild =>
    have hstream := State.refStream_congr hregs (h.mems .refs (by simp [memoriesRead]))
    simp only [commandError, histBuildError, checkDim, checkCacheBits, checkHistoBits, checkNrefs, checkFits,
      checkStream, State.pixelCount_congr hregs, State.histTiles_congr hregs, hstream, hcaps, hregs]
  | histCluster =>
    have hhists := State.histograms_congr hregs (h.mems .th (by simp [memoriesRead]))
    have hsyms := State.tileSymbols_congr hregs (h.mems .syms (by simp [memoriesRead]))
    simp only [commandError, histClusterError, checkDim, checkCacheBits, checkHistoBits, checkNhisto, checkFits,
      checkSymbols, checkTotals, State.histTiles_congr hregs, hhists, hsyms, hcaps, hregs]
  | histExport arr k => simp only [commandError, histExportError, checkCacheBits, checkNhisto, hcaps, hregs]
  | histEntropy =>
    have hcounts := State.counts_congr hregs (h.mems .hcnt (by simp [memoriesRead]))
    simp only [commandError, histEntropyError, checkNsym, hregs, hcounts]
  | predResid =>
    simp only [commandError, predResidError, checkDim, checkPredBits, checkFits, State.pixelCount_congr hregs,
      State.predTiles_congr hregs, hcaps, hregs]
  | pmapBuild => simp only [commandError, pmapBuildError, checkPalSize, hregs]
  | pmapQuery => rfl

/-- R50, R103: with the same inputs a legal command makes the same writes. -/
theorem commandEffect_agree {i : Instr} {s s' : State} (hwf : i.wf = true) (hbox : i ≠ .lzRefs 2)
    (h : SameInputs i s s') : RunsAgree s s' (commandEffect i s) (commandEffect i s') := by
  have hregs := h.regs
  have start : RunsAgree s s' s s' := .start hregs
  cases i with
  | nop => exact start
  | hufBuild L =>
    have hhist := State.histogram_congr hregs (h.mems .hcnt (by simp [memoriesRead]))
    simp only [commandEffect, hhist]
    exact (start.writeNats ..).writeNats ..
  | hufRle =>
    have hlens := State.lengths_congr hregs (h.mems .clen (by simp [memoriesRead]))
    simp only [commandEffect, hlens]
    exact start.writeTokens _
  | hufStore =>
    have hlens := State.lengths_congr hregs (h.mems .clen (by simp [memoriesRead]))
    simp only [commandEffect, hlens]
    split
    · exact (start.appendFields _).writeTokens _
    · exact start.appendFields _
  | lzFill =>
    have hpix := State.pixels_congr hregs (h.mems .pix (by simp [memoriesRead]))
    simp only [commandEffect, State.pixelCount_congr hregs, hregs, hpix]
    exact start.writeWords ..
  | lzRefs f =>
    have hresult := State.refsResult_congr h (flavor_standard_or_rle hwf hbox)
    simp only [commandEffect, hresult]
    exact start.writeRefs _
  | histBuild =>
    have hbuilt := State.builtHistograms_congr hregs (h.mems .refs (by simp [memoriesRead]))
    simp only [commandEffect, State.histTiles_congr hregs, hbuilt]
    exact start.writeHistograms ..
  | histCluster =>
    have hhists := State.histograms_congr hregs (h.mems .th (by simp [memoriesRead]))
    have hsyms := State.tileSymbols_congr hregs (h.mems .syms (by simp [memoriesRead]))
    simp only [commandEffect, hregs, hhists, hsyms]
    exact start.writeHistograms ..
  | histExport arr k =>
    have hread := State.readWords_congr (h.mems .th (by simp [memoriesRead]))
    simp only [commandEffect, State.exportSize_congr hregs, hread]
    exact start.writeExport ..
  | histEntropy =>
    have hcounts := State.counts_congr hregs (h.mems .hcnt (by simp [memoriesRead]))
    simp only [commandEffect, hregs, hcounts]
    exact start.writeEstimate _
  | predResid =>
    have hpixMem := h.mems .pix (by simp [memoriesRead])
    simp only [commandEffect, State.pixels_congr hregs hpixMem, State.predModes_congr hregs hpixMem,
      State.predTilesX_congr hregs, hregs]
    exact (start.writeWords ..).writeWords ..
  | pmapBuild =>
    have hpal := State.palette_congr hregs (h.mems .pal (by simp [memoriesRead]))
    simp only [commandEffect, hpal]
    exact ((start.writeNats ..).writeNats ..).writeNats ..
  | pmapQuery =>
    have hindex := State.queryIndex_congr hregs (h.mems .pmatch (by simp [memoriesRead]))
    have hread := State.readWord_congr (h.mems .pal (by simp [memoriesRead]))
    simp only [commandEffect, hindex, hread]
    exact start.writeQuery ..

/-- Settles O9: both runs fail the same pre-check, or make the same writes and complete. -/
theorem commandsReadOnlyWhatTheirRuleLists : Obligations.CommandsReadOnlyWhatTheirRuleLists := by
  intro i s s' t t' hbox hcaps hregs hmems hrun hrun'
  have inputs : SameInputs i s s' := ⟨hcaps, hregs, hmems⟩
  rw [exec_eq_runCommand] at hrun hrun'
  rw [← commandError_congr hbox inputs] at hrun'
  suffices agree : RunsAgree s s' t t' from ⟨agree.regs, agree.words⟩
  cases herr : commandError i s with
  | some e =>
    rw [herr, runCommand_some] at hrun hrun'
    cases hrun; cases hrun'
    exact (RunsAgree.start hregs).errorComplete e
  | none =>
    have hwf : i.wf = true := by
      by_contra hill
      simp [commandError_illegal i s (by simpa using hill)] at herr
    rw [herr, runCommand_none] at hrun hrun'
    cases hrun; cases hrun'
    exact (commandEffect_agree hwf hbox inputs).complete

end Sys2Proof.Machine
end

/-!
PROOFS, family 10_state: the register port access by access (R32 to R45, R92 to R102), the bits of STATUS and CTRL,
the two resets (R380 to R382), and what every step keeps.
-/

/-! ### The map of offsets (R32, R44) -/

section
namespace Sys2Proof.Machine

/-- R32: the offset a register is found at is its own. -/
theorem Reg.eq_offset_of_ofOffset {off : Nat} {r : Reg} (h : Reg.ofOffset off = some r) : off = r.offset := by
  unfold Reg.ofOffset at h
  split at h <;> cases h <;> rfl

/-- R44: the offsets of no register are unmapped. -/
theorem Reg.ofOffset_eq_none {off : Nat} (h : ∀ r : Reg, off ≠ r.offset) : Reg.ofOffset off = none := by
  cases hreg : Reg.ofOffset off with
  | none => rfl
  | some r => exact absurd (Reg.eq_offset_of_ofOffset hreg) (h r)

/-- R92, R94. -/
theorem aligned_iff (w : AccessWidth) (off : Nat) : aligned w off = true ↔ w = .word ∧ off % 4 = 0 := by
  simp [aligned]

/-- R94: a narrow or misaligned access is not accepted. -/
theorem aligned_eq_false {w : AccessWidth} {off : Nat} (h : w ≠ .word ∨ off % 4 ≠ 0) : aligned w off = false := by
  rw [Bool.eq_false_iff, ne_eq, aligned_iff, not_and_or]
  exact h

/-- Settles O20: no register stands at an unmapped offset, and a narrow or misaligned access is refused before the map
is looked at. -/
theorem unmappedAndNarrowAccesses : Obligations.UnmappedAndNarrowAccesses := by
  intro s w off v
  refine ⟨fun halign hunmapped => ?_, fun hbad => ?_⟩
  · have hnone := Reg.ofOffset_eq_none hunmapped
    have haligned := (aligned_iff .word off).2 ⟨rfl, halign⟩
    simp [State.hostRead, State.hostWrite, haligned, hnone]
  · have hrefused := aligned_eq_false hbad
    simp [State.hostRead, State.hostWrite, hrefused, State.setAccv]

/-! ### CTRL, STATUS and CMD written (R34 to R36, R101) -/

/-- R34, R100: CTRL is written busy or idle. -/
theorem State.hostWrite_ctrl (s : State) (v : Word) : s.hostWrite .word 0x08 v = s.writeCtrl v := by
  have h : s.hostWrite .word Reg.ctrl.offset v = s.writeCtrl v := by
    simp [State.hostWrite, Reg.writableBusy, State.writeReg]
  exact h

/-- R35, R100: STATUS is written busy or idle. -/
theorem State.hostWrite_status (s : State) (v : Word) : s.hostWrite .word 0x0C v = s.writeStatus v := by
  have h : s.hostWrite .word Reg.status.offset v = s.writeStatus v := by
    simp [State.hostWrite, Reg.writableBusy, State.writeReg]
  exact h

/-- R101: a CMD write is dropped while BUSY or ERR is 1. -/
theorem State.hostWrite_cmd_dropped (s : State) (v : Word) (h : s.regs.busy = true ∨ s.regs.err = true) :
    s.hostWrite .word 0x10 v = s.setAccv := by
  cases hbusy : s.regs.busy with
  | true => exact s.hostWrite_busy .cmd v hbusy (by decide) (by decide)
  | false =>
    have herr : s.regs.err = true := by simpa [hbusy] using h
    calc s.hostWrite .word 0x10 v = s.writeReg .cmd v := s.hostWrite_idle .cmd v hbusy
      _ = s.setAccv := by simp [State.writeReg, State.writeCmd, herr]

/-- Settles O23: the word is issued, or refused by the busy lock or by ERR. -/
theorem cmdWriteIssuesOrIsDropped : Obligations.CmdWriteIssuesOrIsDropped := by
  intro s v
  refine ⟨fun hbusy herr => ⟨_, s.hostWrite_cmd v hbusy herr, rfl, rfl, rfl, rfl, rfl⟩,
    fun h => s.hostWrite_cmd_dropped v h, ?_⟩
  exact s.hostRead_reg .cmd (by decide)

/-- R35: the registers with the flags of STATUS that `v` names cleared. -/
def Regs.clearFlags (r : Regs) (v : Word) : Regs :=
  { r with
    done := r.done && !v.getLsbD 1
    err := r.err && !v.getLsbD 2
    accv := r.accv && !v.getLsbD 3
    errCode := if v.getLsbD 2 then 0 else r.errCode
    errInfo := if v.getLsbD 2 then 0 else r.errInfo }

/-- R35, R356: a STATUS write clears the flags it names and nothing else. -/
theorem State.writeStatus_eq (s : State) (v : Word) : s.writeStatus v = { s with regs := s.regs.clearFlags v } := by
  unfold State.writeStatus Regs.clearFlags State.acknowledgeError
  cases v.getLsbD 1 <;> cases v.getLsbD 2 <;> cases v.getLsbD 3 <;> simp

/-- Settles O24: with ERR cleared, an idle block issues the next CMD write. -/
theorem statusWriteClearsFlags : Obligations.StatusWriteClearsFlags := by
  intro s v w
  have hwrite : s.hostWrite .word 0x0C v = { s with regs := s.regs.clearFlags v } :=
    (s.hostWrite_status v).trans (s.writeStatus_eq v)
  refine ⟨_, hwrite, rfl, fun hclear hbusy => ?_⟩
  have herr : (s.regs.clearFlags v).err = false := by simp only [Regs.clearFlags, hclear]; simp
  have hissue := State.hostWrite_cmd { s with regs := s.regs.clearFlags v } w hbusy herr
  exact ⟨congrArg (fun t => t.regs.busy) hissue, congrArg (fun t => t.regs.lastCmd) hissue⟩

end Sys2Proof.Machine
end

/-! ### The bits of STATUS and CTRL (R34, R35, R45) -/

section
namespace Sys2Proof.Machine

/-- R35: the four flags of STATUS, bits 3:0. -/
theorem testBit_statusFlags : ∀ busy done err accv : Bool, ∀ b < 8,
    (flag busy + 2 * flag done + 4 * flag err + 8 * flag accv).testBit b =
      if b = 0 then busy else if b = 1 then done else if b = 2 then err else if b = 3 then accv else false := by
  decide

theorem flag_le_one (b : Bool) : flag b ≤ 1 := by cases b <;> decide

/-- R35: each bit of STATUS. -/
theorem Regs.getLsbD_statusWord (r : Regs) (b : Nat) (hb : b < 32) :
    r.statusWord.getLsbD b =
      if b = 0 then r.busy else if b = 1 then r.done else if b = 2 then r.err else if b = 3 then r.accv
      else if 8 ≤ b then r.errCode.getLsbD (b - 8) else false := by
  have hflags : flag r.busy + 2 * flag r.done + 4 * flag r.err + 8 * flag r.accv < 2 ^ 8 := by
    have := flag_le_one r.busy; have := flag_le_one r.done; have := flag_le_one r.err; have := flag_le_one r.accv
    omega
  have hbit := Nat.testBit_two_pow_mul_add r.errCode.toNat hflags b
  rw [Regs.statusWord, BitVec.getLsbD_ofNat, Nat.add_comm, hbit, decide_eq_true hb, Bool.true_and]
  by_cases h8 : b < 8
  · rw [if_pos h8, testBit_statusFlags _ _ _ _ b h8, if_neg (show ¬ 8 ≤ b by omega)]
  · have h0 : b ≠ 0 ∧ b ≠ 1 ∧ b ≠ 2 ∧ b ≠ 3 := by omega
    simp [h8, h0, show 8 ≤ b by omega, BitVec.getLsbD]

/-- R34: each bit of CTRL. -/
theorem Regs.getLsbD_ctrlWord (r : Regs) (b : Nat) (hb : b < 32) :
    r.ctrlWord.getLsbD b = if b = 1 then r.ieDone else if b = 2 then r.ieErr else false := by
  have bits : ∀ ieDone ieErr : Bool, ∀ b < 32, (BitVec.ofNat 32 (2 * flag ieDone + 4 * flag ieErr)).getLsbD b =
      if b = 1 then ieDone else if b = 2 then ieErr else false := by decide
  exact bits r.ieDone r.ieErr b hb

/-- Settles O19. -/
theorem irqIsALevelOfStatusAndControlBits : Obligations.IrqIsALevelOfStatusAndControlBits := by
  intro s
  refine ⟨fun b hb => ⟨s.regs.getLsbD_statusWord b hb, s.regs.getLsbD_ctrlWord b hb⟩, ?_⟩
  have hstatus := s.regs.getLsbD_statusWord
  have hctrl := s.regs.getLsbD_ctrlWord
  simp only [State.readReg, State.irq, hstatus 1 (by decide), hstatus 2 (by decide), hctrl 1 (by decide),
    hctrl 2 (by decide)]
  rfl

/-- R34: CTRL reads back the two enables of the word written. -/
theorem Regs.ctrlWord_of_enables (r : Regs) (v : Word) (hdone : r.ieDone = v.getLsbD 1) (herr : r.ieErr = v.getLsbD 2) :
    r.ctrlWord = v &&& 6 := by
  have mask : ∀ b < 32, (6 : Word).getLsbD b = (decide (b = 1) || decide (b = 2)) := by decide
  refine BitVec.eq_of_getLsbD_eq fun b hb => ?_
  rw [r.getLsbD_ctrlWord b hb, BitVec.getLsbD_and, mask b hb, hdone, herr]
  by_cases h1 : b = 1
  · simp [h1]
  · by_cases h2 : b = 2 <;> simp [h1, h2]

/-! ### Registers read and written (R32, R41 to R43) -/

/-- R41, R95: MEM_SEL keeps bits 3:0. -/
theorem setWidth_four_eq_and (v : Word) : (v.setWidth 4).setWidth 32 = v &&& 15 := by
  have mask : ∀ b < 32, (15 : Word).getLsbD b = decide (b < 4) := by decide
  refine BitVec.eq_of_getLsbD_eq fun b hb => ?_
  rw [BitVec.getLsbD_and, mask b hb]
  simp [hb, Bool.and_comm]

/-- R41 to R43: the registers that store all 32 bits of a write and do nothing else. -/
def plainRegs : List Reg :=
  [.memIdx, .width, .height, .nsym, .cacheBits, .histoBits, .predBits, .hashBits, .maxChain, .window, .maxLen,
   .palSize, .entCorr, .qpix, .nrefs, .nhisto, .nbitq]

/-- R32: the registers a host write does not change. -/
def readOnlyRegs : List Reg :=
  [.id, .lastcmd, .errinfo, .cmdcnt, .capPix, .capTd, .capRefs, .capTh, .capBitq, .capHash, .ntok, .res0, .res1, .qidx,
   .qpal]

/-- `t` is `s` with register `r` reading `v`; every other register, the memories, the capability constants and the
model's own fields are as before. -/
structure StoredReg (s t : State) (r : Reg) (v : Word) : Prop where
  reads : t.readReg r = v
  others : ∀ q : Reg, q ≠ r → t.readReg q = s.readReg q
  mems : t.mems = s.mems
  caps : t.caps = s.caps
  rdata : t.rdata = s.rdata
  agenda : t.agenda = s.agenda
  fresh : t.fresh = s.fresh

/-- R41 to R43: a plain register reads back the word written, every other register reads as before. -/
theorem State.readReg_writeReg_plain (s : State) (r q : Reg) (v : Word) (h : r ∈ plainRegs) :
    (s.writeReg r v).readReg q = if q = r then v else s.readReg q := by
  cases r with
  | memIdx | width | height | nsym | cacheBits | histoBits | predBits | hashBits | maxChain | window | maxLen | palSize
  | entCorr | qpix | nrefs | nhisto | nbitq => cases q <;> rfl
  | _ => exact absurd h (by decide)

/-- R41 to R43: a write to a plain register touches the registers only. -/
theorem State.writeReg_plain_eq (s : State) (r : Reg) (v : Word) (h : r ∈ plainRegs) :
    s.writeReg r v = { s with regs := (s.writeReg r v).regs } := by
  cases r with
  | memIdx | width | height | nsym | cacheBits | histoBits | predBits | hashBits | maxChain | window | maxLen | palSize
  | entCorr | qpix | nrefs | nhisto | nbitq => rfl
  | _ => exact absurd h (by decide)

/-- R41 to R43. -/
theorem State.writeReg_plain (s : State) (r : Reg) (v : Word) (h : r ∈ plainRegs) :
    StoredReg s (s.writeReg r v) r v := by
  have heq := s.writeReg_plain_eq r v h
  refine ⟨?_, fun q hq => ?_, ?_, ?_, ?_, ?_, ?_⟩
  · simp [s.readReg_writeReg_plain r r v h]
  · simp [s.readReg_writeReg_plain r q v h, hq]
  all_goals rw [heq]

/-- R41, R95: MEM_SEL stores bits 3:0. -/
theorem State.writeReg_memSel (s : State) (v : Word) : StoredReg s (s.writeReg .memSel v) .memSel (v &&& 15) where
  reads := setWidth_four_eq_and v
  others q hq := by
    cases q with
    | memSel => exact absurd rfl hq
    | _ => rfl
  mems := rfl
  caps := rfl
  rdata := rfl
  agenda := rfl
  fresh := rfl

/-- R34: CTRL, written with SRST = 0, stores bits 2:1. -/
theorem State.writeCtrl_enables (s : State) (v : Word) (h : v.getLsbD 0 = false) :
    s.writeCtrl v = { s with regs := { s.regs with ieDone := v.getLsbD 1, ieErr := v.getLsbD 2 } } := by
  simp only [State.writeCtrl, h, Bool.false_eq_true, if_false]

theorem State.writeCtrl_srst (s : State) (v : Word) (h : v.getLsbD 0 = true) : s.writeCtrl v = s.softReset := by
  simp only [State.writeCtrl, h, if_true]

/-- R34. -/
theorem State.writeCtrl_stored (s : State) (v : Word) (h : v.getLsbD 0 = false) :
    StoredReg s (s.writeCtrl v) .ctrl (v &&& 6) := by
  rw [s.writeCtrl_enables v h]
  exact
    { reads := Regs.ctrlWord_of_enables _ v rfl rfl
      others := fun q hq => by
        cases q with
        | ctrl => exact absurd rfl hq
        | _ => rfl
      mems := rfl, caps := rfl, rdata := rfl, agenda := rfl, fresh := rfl }

/-- R32: a write to a read-only register does nothing. -/
theorem State.writeReg_readOnly (s : State) (r : Reg) (v : Word) (h : r ∈ readOnlyRegs) : s.writeReg r v = s := by
  cases r with
  | id | lastcmd | errinfo | cmdcnt | capPix | capTd | capRefs | capTh | capBitq | capHash | ntok | res0 | res1 | qidx
  | qpal => rfl
  | _ => exact absurd h (by decide)

/-- R34, R41 to R43: what a host write to a writable register stores. -/
theorem State.hostWrite_stored (s : State) (r : Reg) (v : Word) (hidle : s.regs.busy = false ∨ r = .ctrl)
    (h : r ∈ plainRegs ∨ r = .memSel ∨ (r = .ctrl ∧ v.getLsbD 0 = false)) :
    StoredReg s (s.hostWrite .word r.offset v) r
      (if r = .memSel then v &&& 15 else if r = .ctrl then v &&& 6 else v) := by
  rcases h with hplain | rfl | ⟨rfl, hsrst⟩
  · have hsel : r ≠ .memSel := by rintro rfl; exact absurd hplain (by decide)
    have hctrl : r ≠ .ctrl := by rintro rfl; exact absurd hplain (by decide)
    rw [s.hostWrite_idle r v (hidle.resolve_right hctrl), if_neg hsel, if_neg hctrl]
    exact s.writeReg_plain r v hplain
  · rw [s.hostWrite_idle .memSel v (hidle.resolve_right (by decide))]
    exact s.writeReg_memSel v
  · have hwrite : s.hostWrite .word Reg.ctrl.offset v = s.writeCtrl v := s.hostWrite_ctrl v
    rw [hwrite]
    exact s.writeCtrl_stored v hsrst

/-- Settles O21: a read by `State.hostRead_reg`, a write by `State.hostWrite_stored` or ignored. -/
theorem registerReadsAndWrites : Obligations.RegisterReadsAndWrites := by
  intro s r v
  refine ⟨s.hostRead_reg r, fun hidle => ⟨_, rfl, fun hwritable => ?_, fun hro => ?_⟩⟩
  · obtain ⟨reads, others, mems, caps, rdata, agenda, fresh⟩ := s.hostWrite_stored r v hidle hwritable
    exact ⟨reads, others, mems, caps, rdata, agenda, fresh⟩
  · have hctrl : r ≠ .ctrl := by rintro rfl; exact absurd hro (by decide)
    rw [s.hostWrite_idle r v (hidle.resolve_right hctrl)]
    exact s.writeReg_readOnly r v hro

end Sys2Proof.Machine
end

/-! ### The memory window (R50, R95 to R98) -/

section
namespace Sys2Proof.Machine

/-- R50: the table lists each memory with the model's own depth and element size. -/
theorem memoryTable_eq_map (c : Caps) : memoryTable c = allMems.map (fun id => (id, id.depth c, id.wordsPer)) := rfl

/-- R95: MEM_SEL is the place of the selected memory in the table. -/
theorem allMems_getElem?_sel (sel : BitVec 4) : allMems[sel.toNat]? = some (MemId.ofSel sel) := by
  revert sel; decide

/-- R95: MEM_SEL is the id of the selected memory. -/
theorem MemId.num_ofSel (sel : BitVec 4) : (MemId.ofSel sel).num = sel.toNat := by
  revert sel; decide

/-- R50, R95: the row of the table that MEM_SEL names. -/
theorem memoryTable_getElem?_sel (c : Caps) (sel : BitVec 4) :
    (memoryTable c)[sel.toNat]? =
      some (MemId.ofSel sel, (MemId.ofSel sel).depth c, (MemId.ofSel sel).wordsPer) := by
  rw [memoryTable_eq_map, List.getElem?_map, allMems_getElem?_sel]
  rfl

theorem State.hostRead_memData (s : State) : s.hostRead .word 0x28 = s.windowRead := by
  have h : s.hostRead .word Reg.memData.offset = s.windowRead := by simp [State.hostRead]
  exact h

/-- R97: a MEM_DATA read inside the window returns the host word and moves MEM_IDX on. -/
theorem State.windowRead_inside (s : State) (hbusy : s.regs.busy = false)
    (h : s.regs.memIdx.toNat < (MemId.ofSel s.regs.memSel).windowSize s.caps) :
    s.windowRead =
      { s with rdata := s.readWord (MemId.ofSel s.regs.memSel) s.regs.memIdx.toNat
               regs := { s.regs with memIdx := s.regs.memIdx + 1 } } := by
  simp [State.windowRead, State.windowInRange, hbusy, h]

/-- R98: a MEM_DATA read outside the window is refused. -/
theorem State.windowRead_outside (s : State) (hbusy : s.regs.busy = false)
    (h : (MemId.ofSel s.regs.memSel).windowSize s.caps ≤ s.regs.memIdx.toNat) :
    s.windowRead = { s.setAccv with rdata := 0 } := by
  simp [State.windowRead, State.windowInRange, hbusy, h]

/-- Settles O25: MEM_SEL's row of the table is that of the selected memory. -/
theorem windowReadAdvances : Obligations.WindowReadAdvances := by
  intro s id depth words hrow
  rw [memoryTable_getElem?_sel] at hrow
  cases hrow
  rw [State.hostRead_memData]
  exact ⟨⟨MemId.num_ofSel _, rfl, rfl⟩,
    fun hbusy => ⟨s.windowRead_inside hbusy, s.windowRead_outside hbusy⟩⟩

end Sys2Proof.Machine
end

/-! ### Soft reset (R34, R382) and what an unspecified word reads as (R99, R381) -/

section
namespace Sys2Proof.Machine

/-- R61: bits 4:0 and 14:8 of a word. -/
theorem land_tokenMask (x : Nat) : x &&& 0x7F1F = x % 32 + 256 * (x / 256 % 128) := by
  have hlow : (x &&& 0x7F1F) % 256 = x % 256 % 32 := by
    calc (x &&& 0x7F1F) % 2 ^ 8 = (x % 2 ^ 8) &&& (2 ^ 5 - 1) := Nat.and_mod_two_pow
      _ = x % 256 % 32 := Nat.and_two_pow_sub_one_eq_mod _ 5
  have hhigh : (x &&& 0x7F1F) / 256 = x / 256 % 128 := by
    calc (x &&& 0x7F1F) / 2 ^ 8 = (x / 2 ^ 8) &&& (2 ^ 7 - 1) := Nat.and_div_two_pow
      _ = x / 256 % 128 := Nat.and_two_pow_sub_one_eq_mod _ 7
  omega

/-- R99: an element of `n` bits keeps the value modulo `2^n`. -/
theorem toNat_and_mask (v mask : Word) (n : Nat) (h : mask.toNat = 2 ^ n - 1) :
    (v &&& mask).toNat = v.toNat % 2 ^ n := by
  rw [BitVec.toNat_and, h, Nat.and_two_pow_sub_one_eq_mod]

theorem toNat_and_fullMask (v : Word) : (v &&& 0xFFFFFFFF).toNat = v.toNat :=
  (toNat_and_mask v _ 32 rfl).trans (Nat.mod_eq_of_lt v.isLt)

/-- R59 to R66, R99: what a memory keeps of a word is what the statements say its element stores. -/
theorem MemId.toNat_keep (id : MemId) (idx : Nat) (v : Word) : (id.keep idx v).toNat = storedBits id idx v := by
  cases id with
  | clen => exact toNat_and_mask v _ 4 rfl
  | code => exact toNat_and_mask v _ 16 rfl
  | tok => exact (BitVec.toNat_and v _).trans (land_tokenMask v.toNat)
  | bitq =>
    by_cases hodd : idx % 2 = 1
    · simp only [MemId.keep, MemId.widthMask, storedBits, if_pos hodd]
      exact toNat_and_mask v _ 6 rfl
    · simp only [MemId.keep, MemId.widthMask, storedBits, if_neg hodd]
      exact toNat_and_fullMask v
  | pmatch => exact toNat_and_mask v _ 8 rfl
  | taken => exact toNat_and_mask v _ 1 rfl
  | same => exact toNat_and_mask v _ 1 rfl
  | pix | tdata | chain | ccache | refs | th | syms | hcnt | pal => exact toNat_and_fullMask v

@[simp] theorem Memory.get?_unspecified (epoch a : Nat) : (Memory.unspecified epoch).get? a = none := rfl

/-- R381: a word of an unspecified memory reads as a value inside its element's width. -/
theorem Memory.toNat_read_unspecified (epoch : Nat) (id : MemId) (a : Nat) :
    ((Memory.unspecified epoch).read id a).toNat = storedBits id a ((Memory.unspecified epoch).read id a) := by
  have hread : (Memory.unspecified epoch).read id a = id.keep a (Config.unspecElem epoch id.num a) := by
    simp [Memory.read, Memory.background, Memory.unspecified, Memory.get?]
  rw [← MemId.toNat_keep, hread, MemId.keep_keep]

/-- R382: after a soft reset that abandons a legal command, each memory it would have written is unspecified and every
other one is as before. -/
theorem State.softReset_get (s : State) (i : Instr) (hbusy : s.regs.busy = true) (hdec : decode s.regs.lastCmd = .ok i)
    (id : MemId) :
    s.softReset.mems.get id = if id ∈ memoriesWritten i then Memory.unspecified s.fresh else s.mems.get id := by
  simp only [State.softReset_busy s hbusy, Mems.get_forget, inFlightWrites, hdec]

theorem State.softReset_mems_idle (s : State) (hidle : s.regs.busy = false) : s.softReset.mems = s.mems := by
  rw [s.softReset_idle hidle]

/-- R34, R382: the host's turn that writes SRST. -/
theorem step_softReset (s : State) (v : Word) (rest : List Turn) (hsrst : v.getLsbD 0 = true)
    (h : s.agenda = .host (.write .word 0x08 v) :: rest) :
    step s = .next (State.softReset { s with agenda := rest }) := by
  rw [step_host s _ rest h]
  exact congrArg _ ((State.hostWrite_ctrl _ v).trans (State.writeCtrl_srst _ v hsrst))

/-- Settles O18: the host's turn is the soft reset, which forgets the memories the abandoned command writes. -/
theorem softResetAtAnyTime : Obligations.SoftResetAtAnyTime := by
  intro s t v rest hagenda hsrst hstep
  rw [step_softReset s v rest hsrst hagenda] at hstep
  cases hstep
  refine ⟨State.softReset_regs _, State.softReset_caps _, State.softReset_agenda _, fun hidle => ?_,
    fun hbusy i hdec id => ?_⟩
  · exact State.softReset_mems_idle _ hidle
  · have hget := State.softReset_get { s with agenda := rest } i hbusy hdec id
    refine ⟨fun hwritten a => ?_, fun hother => ?_⟩
    · rw [if_pos hwritten] at hget
      simp only [State.readWord, hget]
      exact ⟨Memory.get?_unspecified _ _, Memory.toNat_read_unspecified _ _ _⟩
    · rw [hget, if_neg hother]

end Sys2Proof.Machine
end

/-! ### All a host access can do -/

section
namespace Sys2Proof.Machine

/-- `t` has the memories, the capability constants, CMDCNT and, of STATUS and ERRINFO, all but ACCV as `s` has them. -/
structure Quiet (s t : State) : Prop where
  busy : t.regs.busy = s.regs.busy
  done : t.regs.done = s.regs.done
  err : t.regs.err = s.regs.err
  errCode : t.regs.errCode = s.regs.errCode
  errInfo : t.regs.errInfo = s.regs.errInfo
  cmdCnt : t.regs.cmdCnt = s.regs.cmdCnt
  mems : t.mems = s.mems
  caps : t.caps = s.caps

/-- R98, R99: the state after an accepted write of the window. -/
def State.windowStored (s : State) (v : Word) : State :=
  { s.writeWords (MemId.ofSel s.regs.memSel) s.regs.memIdx.toNat [v] with
    regs := { s.regs with memIdx := s.regs.memIdx + 1 } }

/-- R92 to R102: what an access can leave: only writes to CTRL, STATUS and CMD and accepted window writes are more than
quiet. -/
inductive PortEffect (s : State) : HostAccess → State → Prop where
  | quiet {a : HostAccess} {t : State} (h : Quiet s t) : PortEffect s a t
  | window (v : Word) (h : s.windowInRange = true) : PortEffect s (.write .word 0x28 v) (s.windowStored v)
  | ctrl (v : Word) : PortEffect s (.write .word 0x08 v) (s.writeCtrl v)
  | status (v : Word) : PortEffect s (.write .word 0x0C v) (s.writeStatus v)
  | issue (v : Word) (hbusy : s.regs.busy = false) (herr : s.regs.err = false) :
    PortEffect s (.write .word 0x10 v) (s.issue v)

theorem Quiet.refl (s : State) : Quiet s s := ⟨rfl, rfl, rfl, rfl, rfl, rfl, rfl, rfl⟩

theorem Quiet.setAccv (s : State) : Quiet s s.setAccv := ⟨rfl, rfl, rfl, rfl, rfl, rfl, rfl, rfl⟩

theorem Quiet.setRdata {s t : State} (h : Quiet s t) (v : Word) : Quiet s { t with rdata := v } :=
  ⟨h.busy, h.done, h.err, h.errCode, h.errInfo, h.cmdCnt, h.mems, h.caps⟩

theorem Quiet.windowRead (s : State) : Quiet s s.windowRead := by
  unfold State.windowRead
  split
  · exact (Quiet.setAccv s).setRdata 0
  · split
    · exact ⟨rfl, rfl, rfl, rfl, rfl, rfl, rfl, rfl⟩
    · exact (Quiet.setAccv s).setRdata 0

/-- R92 to R98: every read is quiet. -/
theorem Quiet.hostRead (s : State) (w : AccessWidth) (off : Nat) : Quiet s (s.hostRead w off) := by
  unfold State.hostRead
  split
  · split
    · exact (Quiet.refl s).setRdata 0
    · split
      · exact Quiet.windowRead s
      · exact (Quiet.refl s).setRdata _
  · exact (Quiet.setAccv s).setRdata 0

/-- R98. -/
theorem State.windowWrite_effect (s : State) (v : Word) : PortEffect s (.write .word 0x28 v) (s.windowWrite v) := by
  unfold State.windowWrite
  split
  case isTrue hrange => exact .window v hrange
  case isFalse => exact .quiet (Quiet.setAccv s)

/-- R101. -/
theorem State.writeCmd_effect (s : State) (v : Word) (hbusy : s.regs.busy = false) :
    PortEffect s (.write .word 0x10 v) (s.writeCmd v) := by
  cases herr : s.regs.err with
  | true => simpa [State.writeCmd, herr] using PortEffect.quiet (Quiet.setAccv s)
  | false => simpa [State.writeCmd, herr] using PortEffect.issue v hbusy herr

/-- R100: the register writes the busy lock lets through. -/
theorem State.writeReg_effect (s : State) (r : Reg) (v : Word) (h : s.regs.busy = false ∨ r.writableBusy = true) :
    PortEffect s (.write .word r.offset v) (s.writeReg r v) := by
  cases r with
  | ctrl => exact .ctrl v
  | status => exact .status v
  | cmd => exact s.writeCmd_effect v (h.resolve_right (by decide))
  | memData => exact s.windowWrite_effect v
  | _ => exact .quiet ⟨rfl, rfl, rfl, rfl, rfl, rfl, rfl, rfl⟩

/-- R92, R94, R100: an unmapped offset, a refused access and the busy lock are quiet. -/
theorem State.hostWrite_effect (s : State) (w : AccessWidth) (off : Nat) (v : Word) :
    PortEffect s (.write w off v) (s.hostWrite w off v) := by
  unfold State.hostWrite
  split
  case isFalse => exact .quiet (Quiet.setAccv s)
  case isTrue halign =>
    obtain ⟨rfl, -⟩ := (aligned_iff w off).1 halign
    cases hreg : Reg.ofOffset off with
    | none => exact .quiet (Quiet.refl s)
    | some r =>
      obtain rfl := Reg.eq_offset_of_ofOffset hreg
      by_cases hopen : s.regs.busy = false ∨ r.writableBusy = true
      · have hlock : (s.regs.busy && !r.writableBusy) = false := by
          rcases hopen with hidle | hwritable
          · simp [hidle]
          · simp [hwritable]
        simpa only [hlock, Bool.false_eq_true, if_false] using s.writeReg_effect r v hopen
      · have hlock : (s.regs.busy && !r.writableBusy) = true := by simpa using hopen
        simpa only [hlock, if_true] using PortEffect.quiet (Quiet.setAccv s)

theorem State.hostAccess_effect (s : State) (a : HostAccess) : PortEffect s a (s.hostAccess a) := by
  cases a with
  | read w off => exact .quiet (Quiet.hostRead s w off)
  | write w off v => exact s.hostWrite_effect w off v

end Sys2Proof.Machine
end

/-! ### All a step can do (R11, R13, R93) -/

section
namespace Sys2Proof.Machine

theorem step_hardReset (s : State) (o : Option HostAccess) (rest : List Turn) (h : s.agenda = .hardReset o :: rest) :
    step s = .next (State.hardReset { s with agenda := rest } o) := by simp [step, h]

/-- R351, R352: a command answers with an error completion, or with its effect, completed. -/
theorem exec_next {i : Instr} {s t : State} (h : exec i s = .next t) :
    (∃ e, t = s.errorComplete e) ∨ t = (commandEffect i s).complete := by
  rw [exec_eq_runCommand] at h
  obtain ⟨e, -, ht⟩ | ⟨-, ht⟩ := runCommand_next _ _ _ _ h
  · exact .inl ⟨e, ht⟩
  · exact .inr ht

/-- R13 (3), R346: an idle block's turn does nothing; a busy one's ends the command in flight. -/
theorem State.blockTurn_next {s t : State} (h : s.blockTurn = .next t) :
    (s.regs.busy = false ∧ t = s) ∨
    (s.regs.busy = true ∧ ((∃ e, t = s.errorComplete e) ∨ ∃ i, t = (commandEffect i s).complete)) := by
  cases hbusy : s.regs.busy with
  | false =>
    have hidle : s.blockTurn = .next s := by simp [State.blockTurn, hbusy]
    rw [hidle] at h
    cases h
    exact .inl ⟨rfl, rfl⟩
  | true =>
    refine .inr ⟨rfl, ?_⟩
    cases hdec : decode s.regs.lastCmd with
    | error e =>
      rw [s.blockTurn_illegal e hbusy hdec] at h
      cases h
      exact .inl ⟨_, rfl⟩
    | ok i =>
      rw [s.blockTurn_legal i hbusy hdec] at h
      exact (exec_next h).imp_right fun ht => ⟨i, ht⟩

/-- What every kind of move keeps, every step keeps: taking a turn off the agenda, the two ends of a command in flight,
a host access and a hard reset. -/
theorem step_keeps {P : State → Prop} (takeTurn : ∀ s rest, P s → P { s with agenda := rest })
    (error : ∀ s e, s.regs.busy = true → P s → P (s.errorComplete e))
    (completion : ∀ s i, s.regs.busy = true → P s → P (commandEffect i s).complete)
    (host : ∀ s a t, PortEffect s a t → P s → P t) (reset : ∀ s o, P s → P (s.hardReset o)) {s t : State}
    (hs : P s) (h : step s = .next t) : P t := by
  have block : ∀ u, P u → u.blockTurn = .next t → P t := by
    intro u hu hturn
    obtain ⟨-, rfl⟩ | ⟨hbusy, ⟨e, rfl⟩ | ⟨i, rfl⟩⟩ := State.blockTurn_next hturn
    · exact hu
    · exact error u e hbusy hu
    · exact completion u i hbusy hu
  cases hagenda : s.agenda with
  | nil => exact block s hs ((step_nil s hagenda).symm.trans h)
  | cons turn rest =>
    have htaken := takeTurn s rest hs
    cases turn with
    | block => exact block _ htaken ((step_block s rest hagenda).symm.trans h)
    | host a =>
      rw [step_host s a rest hagenda] at h
      cases h
      exact host _ a _ (State.hostAccess_effect _ a) htaken
    | hardReset o =>
      rw [step_hardReset s o rest hagenda] at h
      cases h
      exact reset _ o htaken

end Sys2Proof.Machine
end

/-! ### The status flags (R35, R38, R350) -/

section
namespace Sys2Proof.Machine

/-- The invariant looks at BUSY, DONE, ERR, ERRCODE and ERRINFO only. -/
theorem Quiet.flagsOk {s t : State} (h : Quiet s t) : t.regs.flagsOk = s.regs.flagsOk := by
  simp only [Regs.flagsOk, h.busy, h.done, h.err, h.errCode, h.errInfo]

/-- The invariant by cases: a command in flight, an error, no error. -/
theorem Regs.flagsOk_iff (r : Regs) :
    r.flagsOk = true ↔
      (r.busy = true → r.done = false ∧ r.err = false) ∧
      (r.err = true → r.done = false ∧ 1 ≤ r.errCode.toNat ∧ r.errCode.toNat ≤ 7) ∧
      (r.err = false → r.errCode = 0 ∧ r.errInfo = 0) := by
  cases hbusy : r.busy <;> cases hdone : r.done <;> cases herr : r.err <;> simp [Regs.flagsOk, hbusy, hdone, herr]

/-- R352. -/
theorem State.flagsOk_errorComplete (s : State) (e : CmdError) (hbusy : s.regs.busy = true)
    (h : s.regs.flagsOk = true) : (s.errorComplete e).regs.flagsOk = true := by
  obtain ⟨inFlight, -, -⟩ := (Regs.flagsOk_iff _).1 h
  exact (Regs.flagsOk_iff _).2 ⟨nofun, fun _ => ⟨(inFlight hbusy).1, e.code.num_bounds⟩, nofun⟩

/-- R13 (3): a command in flight has ERR = 0, and its effect leaves the error registers alone. -/
theorem State.flagsOk_complete (s : State) (i : Instr) (hbusy : s.regs.busy = true) (h : s.regs.flagsOk = true) :
    (commandEffect i s).complete.regs.flagsOk = true := by
  obtain ⟨inFlight, -, noError⟩ := (Regs.flagsOk_iff _).1 h
  have herr : s.regs.err = false := (inFlight hbusy).2
  rw [commandEffect_eq i s]
  exact (Regs.flagsOk_iff _).2 ⟨nofun, fun he => absurd (herr.symm.trans he) nofun, noError⟩

/-- R13 (1): only an idle block without error accepts a word. -/
theorem State.flagsOk_issue (s : State) (w : Word) (herr : s.regs.err = false) (h : s.regs.flagsOk = true) :
    (s.issue w).regs.flagsOk = true := by
  obtain ⟨-, inError, noError⟩ := (Regs.flagsOk_iff _).1 h
  exact (Regs.flagsOk_iff _).2 ⟨fun _ => ⟨rfl, herr⟩, fun he => ⟨rfl, (inError he).2⟩, noError⟩

/-- R35, R356: ERR is cleared together with the error registers. -/
theorem Regs.flagsOk_clearFlags (r : Regs) (v : Word) (h : r.flagsOk = true) : (r.clearFlags v).flagsOk = true := by
  obtain ⟨inFlight, inError, noError⟩ := (Regs.flagsOk_iff r).1 h
  rw [Regs.flagsOk_iff]
  unfold Regs.clearFlags
  cases v.getLsbD 2 with
  | true => exact ⟨fun hb => by simp [inFlight hb], fun he => by simp at he, fun _ => ⟨rfl, rfl⟩⟩
  | false =>
    simp only [Bool.not_false, Bool.and_true, Bool.false_eq_true, if_false]
    exact ⟨fun hb => by simp [inFlight hb], fun he => by simp [inError he], noError⟩

theorem State.flagsOk_writeCtrl (s : State) (v : Word) (h : s.regs.flagsOk = true) :
    (s.writeCtrl v).regs.flagsOk = true := by
  cases hsrst : v.getLsbD 0 with
  | true => rw [s.writeCtrl_srst v hsrst, State.softReset_regs]; rfl
  | false => rw [s.writeCtrl_enables v hsrst]; exact h

theorem PortEffect.flagsOk {s t : State} {a : HostAccess} (ht : PortEffect s a t) (h : s.regs.flagsOk = true) :
    t.regs.flagsOk = true := by
  cases ht with
  | quiet hq => exact hq.flagsOk.trans h
  | window v hrange => exact h
  | ctrl v => exact s.flagsOk_writeCtrl v h
  | status v => rw [s.writeStatus_eq v]; exact s.regs.flagsOk_clearFlags v h
  | issue v hbusy herr => exact s.flagsOk_issue v herr h

/-- Settles O10. -/
theorem stepKeepsStatusFlags : Obligations.StepKeepsStatusFlags := fun _ _ hs hstep =>
  step_keeps (P := fun s => s.regs.flagsOk = true) (fun _ _ h => h) State.flagsOk_errorComplete
    State.flagsOk_complete (fun _ _ _ ht => ht.flagsOk) (fun _ _ _ => rfl) hs hstep

end Sys2Proof.Machine
end

/-! ### The canonical form of the memories (R50, R59 to R66, R381) -/

section
namespace Sys2Proof.Machine

/-- Each memory is in its canonical form. -/
def Mems.Canonical (ms : Mems) : Prop := ∀ id, Memory.wf id (ms.get id) = true

theorem State.memsWf_iff (s : State) : s.memsWf = true ↔ s.mems.Canonical := by
  have hall : ∀ id, id ∈ allMems := by intro id; cases id <;> decide
  simp only [State.memsWf, List.all_eq_true, Mems.Canonical]
  exact ⟨fun h id => h id (hall id), fun h id _ => h id⟩

theorem Mems.Canonical.unspecified (epoch : Nat) : (Mems.unspecified epoch).Canonical := fun id => by simp

theorem Mems.Canonical.forget {ms : Mems} (h : ms.Canonical) (epoch : Nat) (ids : List MemId) :
    (Mems.forget epoch ids ms).Canonical := fun id => by
  rw [Mems.get_forget]
  split
  · exact Memory.wf_unspecified id epoch
  · exact h id

section effects
variable {s : State} (h : s.mems.Canonical)
include h

theorem canonical_writeWords (id : MemId) (start : Nat) (vs : List Word) :
    (s.writeWords id start vs).mems.Canonical := fun j => by
  rw [State.writeWords_get]
  split
  case isTrue hj => subst hj; exact Memory.wf_writeRange _ _ _ _ (h j)
  case isFalse => exact h j

theorem canonical_writeNats (id : MemId) (start : Nat) (vs : List Nat) :
    (s.writeNats id start vs).mems.Canonical :=
  canonical_writeWords h id start _

theorem canonical_writeTokens (tokens : List Token) : (s.writeTokens tokens).mems.Canonical :=
  canonical_writeWords h .tok 0 _

theorem canonical_appendFields (fields : List BitField) : (s.appendFields fields).mems.Canonical :=
  canonical_writeWords h .bitq _ _

theorem canonical_writeRefs (r : RefsResult) : (s.writeRefs r).mems.Canonical :=
  canonical_writeWords (canonical_writeWords h .refs 0 _) .ccache 0 _

theorem canonical_writeHistograms (hists : List (List Nat)) (syms : List Nat) :
    (s.writeHistograms hists syms).mems.Canonical :=
  canonical_writeNats (canonical_writeNats h .th 0 _) .syms 0 _

/-- R10, R99: a command changes memories by writing ranges of host words only. -/
theorem canonical_commandEffect (i : Instr) : (commandEffect i s).mems.Canonical := by
  cases i with
  | nop | histEntropy | pmapQuery => exact h
  | hufBuild L => exact canonical_writeNats (canonical_writeNats h _ _ _) _ _ _
  | hufRle => exact canonical_writeTokens h _
  | hufStore =>
    have happend := canonical_appendFields h (storeFields s.lengths)
    simp only [commandEffect]
    split
    · exact canonical_writeTokens happend _
    · exact happend
  | lzFill => exact canonical_writeWords h _ _ _
  | lzRefs f => exact canonical_writeRefs h _
  | histBuild => exact canonical_writeHistograms h _ _
  | histCluster => exact canonical_writeHistograms h _ _
  | histExport arr k => exact canonical_writeWords h .hcnt 0 _
  | predResid => exact canonical_writeWords (canonical_writeWords h _ _ _) _ _ _
  | pmapBuild => exact canonical_writeNats (canonical_writeNats (canonical_writeNats h _ _ _) _ _ _) _ _ _

theorem canonical_softReset : s.softReset.mems.Canonical := by
  unfold State.softReset
  split
  · exact h.forget _ _
  · exact h

theorem canonical_writeCtrl (v : Word) : (s.writeCtrl v).mems.Canonical := by
  cases hsrst : v.getLsbD 0 with
  | true => rw [s.writeCtrl_srst v hsrst]; exact canonical_softReset h
  | false => rw [s.writeCtrl_enables v hsrst]; exact h

end effects

theorem PortEffect.canonical {s t : State} {a : HostAccess} (ht : PortEffect s a t) (h : s.mems.Canonical) :
    t.mems.Canonical := by
  cases ht with
  | quiet hq => rw [hq.mems]; exact h
  | window v hrange => exact canonical_writeWords h _ _ [v]
  | ctrl v => exact canonical_writeCtrl h v
  | status v => rw [s.writeStatus_eq v]; exact h
  | issue v hbusy herr => exact h

/-- Settles O11. -/
theorem stepKeepsMemoriesCanonical : Obligations.StepKeepsMemoriesCanonical := by
  intro s t hs hstep
  rw [State.memsWf_iff] at hs ⊢
  exact step_keeps (P := fun s => s.mems.Canonical) (fun _ _ h => h) (fun _ _ _ h => h)
    (fun _ i _ h => canonical_commandEffect h i) (fun _ _ _ ht h => ht.canonical h)
    (fun _ _ _ => Mems.Canonical.unspecified _) hs hstep

end Sys2Proof.Machine
end

/-! ### Capability constants, CMDCNT and the parameter registers (R39, R40, R42) -/

section
namespace Sys2Proof.Machine

theorem State.writeCtrl_caps (s : State) (v : Word) : (s.writeCtrl v).caps = s.caps := by
  cases hsrst : v.getLsbD 0 with
  | true => rw [s.writeCtrl_srst v hsrst, State.softReset_caps]
  | false => rw [s.writeCtrl_enables v hsrst]

theorem PortEffect.caps {s t : State} {a : HostAccess} (ht : PortEffect s a t) : t.caps = s.caps := by
  cases ht with
  | quiet hq => exact hq.caps
  | window v hrange => rfl
  | ctrl v => exact s.writeCtrl_caps v
  | status v => rw [s.writeStatus_eq v]
  | issue v hbusy herr => rfl

theorem commandEffect_caps (i : Instr) (s : State) : (commandEffect i s).caps = s.caps := by
  rw [commandEffect_eq i s]

/-- R40: no step writes a capability constant. -/
theorem step_caps {s t : State} (h : step s = .next t) : t.caps = s.caps :=
  step_keeps (P := fun u => u.caps = s.caps) (fun _ _ hu => hu) (fun _ _ _ hu => hu)
    (fun u i _ hu => (commandEffect_caps i u).trans hu) (fun _ _ _ ht hu => ht.caps.trans hu) (fun _ _ hu => hu) rfl h

/-- Settles O15. -/
theorem capabilitiesNeverChange : Obligations.CapabilitiesNeverChange := by
  intro s t hstep
  have hcaps := step_caps hstep
  simp [State.readReg, hcaps]

/-- R39: CTRL leaves CMDCNT but for the soft reset. -/
theorem State.writeCtrl_cmdCnt (s : State) (v : Word) :
    (s.writeCtrl v).regs.cmdCnt = if v.getLsbD 0 then 0 else s.regs.cmdCnt := by
  cases hsrst : v.getLsbD 0 with
  | true => rw [s.writeCtrl_srst v hsrst, State.softReset_regs]; rfl
  | false => rw [s.writeCtrl_enables v hsrst]; rfl

/-- R39: every host access but a CTRL write leaves CMDCNT. -/
theorem PortEffect.cmdCnt {s t : State} {a : HostAccess} (ht : PortEffect s a t) (ha : ∀ v, a ≠ .write .word 0x08 v) :
    t.regs.cmdCnt = s.regs.cmdCnt := by
  cases ht with
  | quiet hq => exact hq.cmdCnt
  | window v hrange => rfl
  | ctrl v => exact absurd rfl (ha v)
  | status v => rw [s.writeStatus_eq v]; rfl
  | issue v hbusy herr => rfl

/-- R39: the block's turn counts exactly when it ends a command with DONE; BUSY shuts out an earlier DONE. -/
theorem State.blockTurn_cmdCnt {s t : State} (hflags : s.regs.flagsOk = true) (h : s.blockTurn = .next t) :
    t.regs.cmdCnt = if s.regs.busy && t.regs.done then s.regs.cmdCnt + 1 else s.regs.cmdCnt := by
  obtain ⟨hidle, rfl⟩ | ⟨hbusy, ⟨e, rfl⟩ | ⟨i, rfl⟩⟩ := State.blockTurn_next h
  · simp [hidle]
  · obtain ⟨inFlight, -, -⟩ := (Regs.flagsOk_iff _).1 hflags
    simp [(inFlight hbusy).1]
  · rw [commandEffect_eq i s]
    simp [hbusy, Regs.withResults]

/-- Settles O14: each clause is a turn. -/
theorem cmdcntCountsCompletions : Obligations.CmdcntCountsCompletions := by
  intro s t hflags hstep
  refine ⟨fun hturn => ?_, fun v rest hagenda => ?_, fun a rest hagenda ha => ?_, fun o rest hagenda => ?_⟩
  · obtain hnil | ⟨rest, hagenda⟩ := hturn
    · exact State.blockTurn_cmdCnt hflags ((step_nil s hnil).symm.trans hstep)
    · rw [step_block s rest hagenda] at hstep
      exact State.blockTurn_cmdCnt (s := { s with agenda := rest }) hflags hstep
  · rw [step_host s _ rest hagenda] at hstep
    cases hstep
    have hwrite := State.hostWrite_ctrl { s with agenda := rest } v
    exact (congrArg (fun u => u.regs.cmdCnt) hwrite).trans (State.writeCtrl_cmdCnt _ v)
  · rw [step_host s a rest hagenda] at hstep
    cases hstep
    exact (State.hostAccess_effect { s with agenda := rest } a).cmdCnt ha
  · rw [step_hardReset s o rest hagenda] at hstep
    cases hstep
    rfl

/-- R42, R268: HIST.EXPORT alone writes NSYM. -/
theorem commandEffect_nsym (i : Instr) (s : State) (h : ∀ arr k, i ≠ .histExport arr k) :
    (commandEffect i s).regs.nsym = s.regs.nsym := by
  cases i with
  | histExport arr k => exact absurd rfl (h arr k)
  | hufStore => simp only [commandEffect]; split <;> rfl
  | nop | hufBuild | hufRle | lzFill | lzRefs | histBuild | histCluster | histEntropy | predResid | pmapBuild
  | pmapQuery => rfl

/-- Settles O8: an error completion writes no parameter register, and an effect result registers and NSYM only. -/
theorem onlyExportWritesAParameter : Obligations.OnlyExportWritesAParameter := by
  intro i s t hexec
  obtain ⟨e, rfl⟩ | rfl := exec_next hexec
  · simp
  · have hregs : (commandEffect i s).regs = s.regs.withResults (commandEffect i s).regs := by
      conv_lhs => rw [commandEffect_eq i s]
    refine ⟨?_, ?_, ?_, ?_, ?_, ?_, ?_, ?_, ?_, ?_, ?_, ?_, commandEffect_nsym i s⟩
    all_goals rw [State.complete_regs, hregs]; rfl

end Sys2Proof.Machine
end

/-!
PROOFS, family 20_memory: what every command writes fits its memory (R98, R103), what a write of the window stores (R99)
and the busy lock (R100).
-/

/-! ### How many elements a command takes from a memory -/

section
namespace Sys2Proof.Machine

theorem State.histogram_length (s : State) : s.histogram.length = s.regs.nsym.toNat := State.readNats_length ..

theorem State.lengths_length (s : State) : s.lengths.length = s.regs.nsym.toNat := State.readNats_length ..

theorem State.pixels_length (s : State) : s.pixels.length = s.pixelCount := State.readWords_length ..

theorem State.tileSymbols_length (s : State) : s.tileSymbols.length = s.histTiles := State.readNats_length ..

theorem State.predModes_length (s : State) : s.predModes.length = s.predTiles := by
  simp [State.predModes, tileModes]

end Sys2Proof.Machine
end

/-! ### How many tokens and bit fields the HUF unit makes (R181 to R183) -/

section
namespace Sys2Proof.Machine

/-- R181: every run has at least one element. -/
theorem runs_pos (lens : List Nat) : ∀ run ∈ runs lens, 1 ≤ run.2 := by
  induction lens with
  | nil => simp [runs]
  | cons x xs ih =>
    simp only [runs]
    split
    case h_1 => simp
    case h_2 v r rest hruns =>
      rw [hruns, List.forall_mem_cons] at ih
      obtain ⟨hr, hrest⟩ := ih
      split
      · exact List.forall_mem_cons.2 ⟨Nat.le_add_left 1 r, hrest⟩
      · exact List.forall_mem_cons.2 ⟨Nat.le_refl 1, List.forall_mem_cons.2 ⟨hr, hrest⟩⟩

/-- R181: the runs of a sequence are as long as it, together. -/
theorem runs_sizes_sum (lens : List Nat) : ((runs lens).map Prod.snd).sum = lens.length := by
  induction lens with
  | nil => rfl
  | cons x xs ih =>
    simp only [runs]
    split
    case h_1 hruns => simp [hruns] at ih; simp [← ih]
    case h_2 v r rest hruns =>
      simp only [hruns, List.map_cons, List.sum_cons] at ih
      split <;> simp <;> omega

/-- R182: a run of zeros has no more tokens than elements. -/
theorem zeroRun_length_le (fuel r : Nat) : (zeroRun fuel r).length ≤ r := by
  induction fuel generalizing r with
  | zero => simp [zeroRun]
  | succ fuel ih =>
    have hrest := ih (r - 138)
    simp only [zeroRun]
    split_ifs <;> simp <;> omega

/-- R183: copies of a value in force have no more tokens than elements. -/
theorem repeatRun_length_le (v fuel r : Nat) : (repeatRun v fuel r).length ≤ r := by
  induction fuel generalizing r with
  | zero => simp [repeatRun]
  | succ fuel ih =>
    have hrest := ih (r - 6)
    simp only [repeatRun]
    split_ifs <;> simp <;> omega

/-- R183: a run coded against the value in force before it: its first token stands for its first element. -/
theorem valueRun_length_le (prev v r : Nat) (hr : 1 ≤ r) : (valueRun prev v r).length ≤ r := by
  have hrest := repeatRun_length_le v r (r - 1)
  unfold valueRun
  split
  · simp only [List.length_cons]; omega
  · exact repeatRun_length_le v (r + 1) r

theorem runTokens_length_le (rs : List (Nat × Nat)) (prev : Nat) (hpos : ∀ run ∈ rs, 1 ≤ run.2) :
    (runTokens prev rs).length ≤ (rs.map Prod.snd).sum := by
  induction rs generalizing prev with
  | nil => simp [runTokens]
  | cons run rest ih =>
    obtain ⟨v, r⟩ := run
    obtain ⟨hr, hrest⟩ := List.forall_mem_cons.1 hpos
    simp only [runTokens, List.map_cons, List.sum_cons]
    split
    · rw [List.length_append]
      exact Nat.add_le_add (zeroRun_length_le _ r) (ih prev hrest)
    · rw [List.length_append]
      exact Nat.add_le_add (valueRun_length_le prev v r hr) (ih v hrest)

/-- R180: a compressed sequence has no more tokens than lengths. -/
theorem rle_length_le (lens : List Nat) : (rle lens).length ≤ lens.length :=
  (runTokens_length_le _ 8 (runs_pos lens)).trans_eq (runs_sizes_sum lens)

end Sys2Proof.Machine
end

/-! ### The colour cache keeps its size (R221) -/

section
namespace Sys2Proof.Machine

theorem clearedCache_length_le (cacheBits : Nat) : (clearedCache cacheBits).length ≤ 2 ^ cacheBits := by
  unfold clearedCache; split <;> simp

@[simp] theorem cacheInsert_length (cacheBits : Nat) (cache : List Word) (px : Word) :
    (cacheInsert cacheBits cache px).length = cache.length := by
  unfold cacheInsert; split <;> simp

@[simp] theorem foldl_cacheInsert_length (cacheBits : Nat) (pixels cache : List Word) :
    (pixels.foldl (cacheInsert cacheBits) cache).length = cache.length := by
  induction pixels generalizing cache with
  | nil => rfl
  | cons px pixels ih => rw [List.foldl_cons, ih, cacheInsert_length]

@[simp] theorem emitLoop_cache_length (px : List Word) (cacheBits : Nat) (choose : Nat → Option Match) (fuel p : Nat)
    (cache : List Word) : (emitLoop px cacheBits choose fuel p cache).cache.length = cache.length := by
  induction fuel generalizing p cache with
  | zero => rfl
  | succ fuel ih =>
    simp only [emitLoop]
    split
    · split <;> simp [ih]
    · rfl

theorem replayRefs_cache_length {px : List Word} {cacheBits maxLen : Nat} {recs : List RefRec} {pos : Nat}
    {cache final : List Word} (h : replayRefs px cacheBits maxLen recs pos cache = some final) :
    final.length = cache.length := by
  induction recs generalizing pos cache with
  | nil =>
    simp only [replayRefs, Option.ite_none_right_eq_some, Option.some.injEq] at h
    rw [h.2]
  | cons r recs ih =>
    simp only [replayRefs, Option.ite_none_right_eq_some] at h
    rw [ih h.2, foldl_cacheInsert_length]

/-- R217, R221: every flavor leaves a cache of the size it began with. -/
theorem State.refsResult_cache_length (s : State) (f : BitVec 2) :
    (s.refsResult f).cache.length = (clearedCache s.regs.cacheBits.toNat).length := by
  have hrle : (refsRle s.pixels s.regs.cacheBits.toNat s.regs.maxLen.toNat).cache.length =
      (clearedCache s.regs.cacheBits.toNat).length := emitLoop_cache_length ..
  simp only [State.refsResult]
  split_ifs
  · exact emitLoop_cache_length ..
  · exact hrle
  · unfold refsBox
    split
    case h_1 cache hreplay => exact replayRefs_cache_length hreplay
    case h_2 => exact hrle

/-- R50, R54, R221: a legal CACHE_BITS makes a cache that CCACHE holds. -/
theorem State.refsResult_cache_length_le (s : State) (f : BitVec 2) (h : s.regs.cacheBits.toNat ≤ maxCacheBits) :
    (s.refsResult f).cache.length ≤ 1024 :=
  calc (s.refsResult f).cache.length = (clearedCache s.regs.cacheBits.toNat).length := s.refsResult_cache_length f
    _ ≤ 2 ^ s.regs.cacheBits.toNat := clearedCache_length_le _
    _ ≤ 2 ^ maxCacheBits := Nat.pow_le_pow_right (by decide) h

end Sys2Proof.Machine
end

/-! ### How many histograms there are and how long each is (R56, R252, R263 to R266) -/

section
namespace Sys2Proof.Machine

/-- R56: at most `n` histograms, none longer than a record of TH. -/
structure HistogramsFit (n : Nat) (hists : List (List Nat)) : Prop where
  count : hists.length ≤ n
  each : ∀ h ∈ hists, h.length ≤ histWords

/-- R50, R56: the host words of such histograms. -/
theorem HistogramsFit.flatten_length_le {n : Nat} {hists : List (List Nat)} (h : HistogramsFit n hists) :
    hists.flatten.length ≤ n * histWords := by
  have hsum : (hists.map List.length).sum ≤ (hists.map List.length).length • histWords :=
    List.sum_le_card_nsmul _ _ (by simpa using h.each)
  calc hists.flatten.length = (hists.map List.length).sum := List.length_flatten
    _ ≤ hists.length * histWords := by simpa using hsum
    _ ≤ n * histWords := Nat.mul_le_mul_right _ h.count

@[simp] theorem addRecord_length (h : List Nat) (r : RefRec) : (addRecord h r).length = h.length := by
  unfold addRecord
  induction recordCounters r generalizing h with
  | nil => rfl
  | cons j js ih => rw [List.foldl_cons, ih, List.length_modify]

/-- R252: counting records changes counters, not sizes. -/
theorem HistogramsFit.accumulate {n : Nat} {hists : List (List Nat)} (h : HistogramsFit n hists)
    (width histoBits tilesX pos : Nat) (recs : List RefRec) :
    HistogramsFit n (accumulate width histoBits tilesX recs pos hists) := by
  induction recs generalizing pos hists with
  | nil => exact h
  | cons r recs ih =>
    refine ih ⟨(List.length_modify ..).trans_le h.count, fun hist hmem => ?_⟩ _
    obtain ⟨j, hj⟩ := List.mem_iff_getElem?.1 hmem
    rw [List.getElem?_modify] at hj
    obtain ⟨old, hold, rfl⟩ := Option.map_eq_some_iff.1 hj
    have := h.each old (List.mem_of_getElem? hold)
    split_ifs <;> simpa using this

/-- R252: HIST.BUILD makes a histogram for each tile. -/
theorem State.builtHistograms_fit (s : State) : HistogramsFit s.histTiles s.builtHistograms :=
  HistogramsFit.accumulate ⟨by simp, fun h hmem => by simp [List.eq_of_mem_replicate hmem]⟩ ..

theorem histogramsOf_fit (k : Nat) (ws : List Nat) : HistogramsFit k (histogramsOf k ws) := by
  induction k generalizing ws with
  | zero => exact ⟨by simp [histogramsOf], by simp [histogramsOf]⟩
  | succ k ih =>
    obtain ⟨count, each⟩ := ih (ws.drop histWords)
    exact ⟨by simpa [histogramsOf] using count, List.forall_mem_cons.2 ⟨List.length_take_le .., each⟩⟩

/-- R264: the merge chosen is a candidate. -/
theorem mem_of_bestMerge {merges : List Merge} {m : Merge} (h : bestMerge merges = some m) : m ∈ merges := by
  refine List.foldlRecOn (motive := fun best => ∀ m, best = some m → m ∈ merges) merges _ (by simp)
    (fun best hbest a ha m hm => ?_) m h
  split at hm
  · cases hm; exact ha
  · split at hm
    · cases hm; exact ha
    · exact hbest m hm

/-- R263: a candidate's counters are the sum of two live histograms, so no longer than they are. -/
theorem candidates_counters_length_le {n cacheBits corr : Nat} {live : List Cluster}
    (hlive : ∀ c ∈ live, c.counters.length ≤ n) : ∀ m ∈ candidates cacheBits corr live, m.counters.length ≤ n := by
  induction live with
  | nil => simp [candidates]
  | cons a rest ih =>
    obtain ⟨ha, hrest⟩ := List.forall_mem_cons.1 hlive
    intro m hm
    simp only [candidates, List.mem_append, List.mem_filterMap] at hm
    rcases hm with ⟨b, -, hb⟩ | hm
    · simp only [candidate, Option.ite_none_right_eq_some, Option.some.injEq] at hb
      obtain ⟨-, rfl⟩ := hb
      exact (by simp [addCounters] : (addCounters a.counters b.counters).length ≤ _).trans ha
    · exact ih hrest m hm

/-- R264: a merge leaves no more live histograms, and none longer. -/
theorem HistogramsFit.applyMerge {n : Nat} {live : List Cluster} {m : Merge}
    (h : HistogramsFit n (live.map Cluster.counters)) (hm : m.counters.length ≤ histWords) :
    HistogramsFit n ((applyMerge m live).map Cluster.counters) := by
  obtain ⟨count, each⟩ := h
  rw [List.length_map] at count
  rw [List.forall_mem_map] at each
  refine ⟨(List.length_map ..).trans_le ((List.length_filterMap_le ..).trans count), List.forall_mem_map.2 ?_⟩
  intro c hc
  obtain ⟨old, hold, hmerged⟩ := List.mem_filterMap.1 hc
  split_ifs at hmerged
  · cases hmerged; exact hm
  · cases hmerged; exact each c hold

/-- R264: the merge loop leaves no more histograms than it began with, and none longer. -/
theorem HistogramsFit.mergeLoop {n : Nat} {live : List Cluster} (h : HistogramsFit n (live.map Cluster.counters))
    (cacheBits corr fuel : Nat) (parent : List Nat) :
    HistogramsFit n ((mergeLoop cacheBits corr fuel live parent).1.map Cluster.counters) := by
  induction fuel generalizing live parent with
  | zero => exact h
  | succ fuel ih =>
    unfold Machine.mergeLoop
    split
    case h_1 => exact h
    case h_2 m hbest =>
      have hm := candidates_counters_length_le (List.forall_mem_map.1 h.each) m (mem_of_bestMerge hbest)
      exact ih (h.applyMerge hm) _

/-- R263 to R266: clustering keeps no more histograms than there were. -/
theorem HistogramsFit.cluster {n : Nat} {hists : List (List Nat)} (h : HistogramsFit n hists)
    (cacheBits corr : Nat) (syms : List Nat) :
    HistogramsFit n (clusterHistograms cacheBits corr hists syms).hists := by
  have hstart : (startClusters cacheBits corr hists).map Cluster.counters = hists := by
    simp [startClusters, Function.comp_def]
  exact HistogramsFit.mergeLoop (hstart.symm ▸ h) ..

@[simp] theorem clusterHistograms_syms_length (cacheBits corr : Nat) (hists : List (List Nat)) (syms : List Nat) :
    (clusterHistograms cacheBits corr hists syms).syms.length = syms.length := by
  simp [clusterHistograms]

/-- R50, R58, R268: with a legal CACHE_BITS the counters of an array fit HCNT. -/
theorem State.exportSize_le (s : State) (arr : Nat) (h : arr = 0 → s.regs.cacheBits.toNat ≤ maxCacheBits) :
    s.exportSize arr ≤ nsymMax := by
  unfold State.exportSize
  split
  case isTrue harr =>
    have hpow : 2 ^ s.regs.cacheBits.toNat ≤ 2 ^ maxCacheBits := Nat.pow_le_pow_right (by decide) (h harr)
    exact Nat.add_le_add_left hpow _
  case isFalse harr =>
    unfold arraySize
    split_ifs <;> decide

end Sys2Proof.Machine
end

/-! ### Every memory inside its window (R98, R103) -/

section
namespace Sys2Proof.Machine

/-- R103: no memory holds a word at or above its window size, for the depths of `c`. -/
def Mems.Inside (c : Caps) (ms : Mems) : Prop := ∀ id, Memory.inside c id (ms.get id) = true

theorem mem_allMems (id : MemId) : id ∈ allMems := by cases id <;> decide

theorem State.memsInside_iff (s : State) : s.memsInside = true ↔ s.mems.Inside s.caps := by
  simp only [State.memsInside, List.all_eq_true, Mems.Inside]
  exact ⟨fun h id => h id (mem_allMems id), fun h id _ => h id⟩

theorem Mems.Inside.unspecified (c : Caps) (epoch : Nat) : (Mems.unspecified epoch).Inside c := fun id => by simp

theorem Mems.Inside.forget {c : Caps} {ms : Mems} (h : ms.Inside c) (epoch : Nat) (ids : List MemId) :
    (Mems.forget epoch ids ms).Inside c := fun id => by
  rw [Mems.get_forget]
  split
  · exact Memory.inside_unspecified c id epoch
  · exact h id

section writes
variable {c : Caps} {s : State} (h : s.mems.Inside c)
include h

theorem inside_writeWords {id : MemId} {start : Nat} {vs : List Word} (hfit : start + vs.length ≤ id.windowSize c) :
    (s.writeWords id start vs).mems.Inside c := fun j => by
  rw [State.writeWords_get]
  split
  case isTrue hj => subst hj; exact Memory.inside_writeRange c _ _ _ _ (h j) hfit
  case isFalse => exact h j

/-- R50: words from the start of a memory of one host word an element. -/
theorem inside_writeElements {id : MemId} {vs : List Word} (hone : id.wordsPer = 1) (hfit : vs.length ≤ id.depth c) :
    (s.writeWords id 0 vs).mems.Inside c :=
  inside_writeWords h (by simpa [MemId.windowSize, hone] using hfit)

theorem inside_writeNats {id : MemId} {vs : List Nat} (hone : id.wordsPer = 1) (hfit : vs.length ≤ id.depth c) :
    (s.writeNats id 0 vs).mems.Inside c :=
  inside_writeElements h hone ((List.length_map _).trans_le hfit)

theorem inside_writeTokens {tokens : List Token} (hfit : tokens.length ≤ nsymMax) :
    (s.writeTokens tokens).mems.Inside c :=
  inside_writeElements (id := .tok) h rfl ((List.length_map _).trans_le hfit)

theorem inside_appendFields {fields : List BitField}
    (hfit : s.regs.nbitq.toNat + fields.length ≤ c.bitq.toNat) : (s.appendFields fields).mems.Inside c := by
  refine inside_writeWords (id := .bitq) h ?_
  rw [bitFieldWords_length]
  simp only [MemId.windowSize, MemId.depth, MemId.wordsPer]
  omega

theorem inside_writeRefs {r : RefsResult} (hrecs : r.recs.length ≤ c.refs.toNat) (hcache : r.cache.length ≤ 1024) :
    (s.writeRefs r).mems.Inside c := by
  have hrefs : (s.writeWords .refs 0 (refWords r.recs)).mems.Inside c := by
    refine inside_writeWords h ?_
    rw [refWords_length]
    simp only [MemId.windowSize, MemId.depth, MemId.wordsPer]
    omega
  exact inside_writeElements (id := .ccache) hrefs rfl hcache

theorem inside_writeHistograms {hists : List (List Nat)} {syms : List Nat}
    (hfit : HistogramsFit c.th.toNat hists) (hsyms : syms.length ≤ c.th.toNat) :
    (s.writeHistograms hists syms).mems.Inside c := by
  have hth : (s.writeNats .th 0 hists.flatten).mems.Inside c := by
    refine inside_writeWords h ?_
    rw [Nat.zero_add, List.length_map]
    exact hfit.flatten_length_le
  exact inside_writeNats (id := .syms) hth rfl hsyms

end writes

/-- R103, R351: a command that passes its pre-checks writes inside the memories it writes. -/
theorem inside_commandEffect {s : State} (h : s.mems.Inside s.caps) (i : Instr) (hok : commandError i s = none) :
    (commandEffect i s).mems.Inside s.caps := by
  cases i with
  | nop | histEntropy | pmapQuery => exact h
  | hufBuild L =>
    simp only [commandError, hufBuildError, Option.or_eq_none_iff, checkNsym_eq_none] at hok
    obtain ⟨-, ⟨-, hnsym⟩, -⟩ := hok
    have hlens : (codeLengths s.histogram L.toNat).length ≤ nsymMax := (codeLengths_length ..).trans_le (s.histogram_length.trans_le hnsym)
    exact inside_writeNats (inside_writeNats (id := .clen) h rfl hlens) (id := .code) rfl
      ((canonical_length _).trans_le hlens)
  | hufRle =>
    simp only [commandError, Option.or_eq_none_iff, checkNsym_eq_none] at hok
    obtain ⟨-, -, hnsym⟩ := hok
    exact inside_writeTokens h ((rle_length_le _).trans (s.lengths_length.trans_le hnsym))
  | hufStore =>
    simp only [commandError, hufStoreError, Option.or_eq_none_iff, checkNsym_eq_none, checkFits_eq_none] at hok
    obtain ⟨-, ⟨-, hnsym⟩, -, hfields⟩ := hok
    have happend := inside_appendFields h hfields
    simp only [commandEffect]
    split
    · exact inside_writeTokens happend ((rle_length_le _).trans (s.lengths_length.trans_le hnsym))
    · exact happend
  | lzFill =>
    simp only [commandError, lzFillError, Option.or_eq_none_iff, checkFits_eq_none] at hok
    obtain ⟨-, -, -, hpix⟩ := hok
    exact inside_writeElements (id := .chain) h rfl
      ((fillChain_length ..).trans_le (s.pixels_length.trans_le hpix))
  | lzRefs f =>
    simp only [commandError, lzRefsError, Option.or_eq_none_iff, checkCacheBits_eq_none, checkFits_eq_none] at hok
    obtain ⟨-, -, hcache, -, -, -, hrecs⟩ := hok
    exact inside_writeRefs h hrecs (s.refsResult_cache_length_le f hcache)
  | histBuild =>
    simp only [commandError, histBuildError, Option.or_eq_none_iff, checkFits_eq_none] at hok
    obtain ⟨-, -, -, -, -, htiles, -⟩ := hok
    obtain ⟨count, each⟩ := s.builtHistograms_fit
    exact inside_writeHistograms h ⟨count.trans htiles, each⟩ (List.length_range.trans_le htiles)
  | histCluster =>
    simp only [commandError, histClusterError, Option.or_eq_none_iff, checkNhisto_eq_none, checkFits_eq_none] at hok
    obtain ⟨-, -, -, -, ⟨-, hnhisto⟩, htiles, -, -⟩ := hok
    obtain ⟨count, each⟩ := (histogramsOf_fit s.regs.nhisto.toNat _).cluster _ _ s.tileSymbols
    exact inside_writeHistograms h ⟨count.trans hnhisto, each⟩ 
      ((clusterHistograms_syms_length ..).trans_le (s.tileSymbols_length.trans_le htiles))
  | histExport arr k =>
    simp only [commandError, histExportError, Option.or_eq_none_iff] at hok
    obtain ⟨-, hcache, -, -⟩ := hok
    have hsize := s.exportSize_le arr.toNat fun harr => by
      rw [if_pos (BitVec.eq_of_toNat_eq harr)] at hcache
      exact (checkCacheBits_eq_none s).1 hcache
    exact inside_writeElements (id := .hcnt) h rfl ((State.readWords_length ..).trans_le hsize)
  | predResid =>
    simp only [commandError, predResidError, Option.or_eq_none_iff, checkFits_eq_none] at hok
    obtain ⟨-, -, -, hpix, htdata⟩ := hok
    have hresid := inside_writeElements (id := .pix) h rfl
      ((residuals_length s.pixels s.regs.width.toNat s.regs.predBits.toNat s.predTilesX s.predModes).trans_le
        (s.pixels_length.trans_le hpix))
    exact inside_writeElements (id := .tdata) hresid rfl
      ((List.length_map _).trans_le (s.predModes_length.trans_le htdata))
  | pmapBuild =>
    have hpmatch := inside_writeNats (id := .pmatch) (vs := (cellClaims s.palette).map (fun c => c.getD 0)) h rfl
      (by simp [cellClaims, palCells, MemId.depth])
    have htaken := inside_writeNats (id := .taken)
      (vs := (cellClaims s.palette).map (fun c => if c.isSome then 1 else 0)) hpmatch rfl
      (by simp [cellClaims, palCells, MemId.depth])
    exact inside_writeNats (id := .same) htaken rfl (by simp [MemId.depth])

/-- R98: a host access writes inside the window; one outside it is refused. -/
theorem PortEffect.inside {s t : State} {a : HostAccess} (ht : PortEffect s a t) (h : s.mems.Inside s.caps) :
    t.mems.Inside s.caps := by
  cases ht with
  | quiet hq => rw [hq.mems]; exact h
  | window v hrange => exact inside_writeWords h (of_decide_eq_true hrange)
  | ctrl v =>
    cases hsrst : v.getLsbD 0 with
    | false => rw [s.writeCtrl_enables v hsrst]; exact h
    | true =>
      rw [s.writeCtrl_srst v hsrst]
      unfold State.softReset
      split
      · exact h.forget _ _
      · exact h
  | status v => rw [s.writeStatus_eq v]; exact h
  | issue v hbusy herr => exact h

/-- R13 (3), R351: the block's turn leaves the memories, or is the effect of a command that passed its pre-checks. -/
theorem State.blockTurn_checked {s t : State} (h : s.blockTurn = .next t) :
    t.mems = s.mems ∨ ∃ i, commandError i s = none ∧ t = (commandEffect i s).complete := by
  obtain ⟨-, rfl⟩ | ⟨hbusy, -⟩ := State.blockTurn_next h
  · exact .inl rfl
  · cases hdec : decode s.regs.lastCmd with
    | error e =>
      rw [s.blockTurn_illegal e hbusy hdec] at h
      cases h
      exact .inl rfl
    | ok i =>
      rw [s.blockTurn_legal i hbusy hdec, exec_eq_runCommand] at h
      obtain ⟨e, -, rfl⟩ | ⟨hok, rfl⟩ := runCommand_next _ _ _ _ h
      · exact .inl rfl
      · exact .inr ⟨i, hok, rfl⟩

/-- R11, R13: a step takes the next turn off the agenda, which is the block's, the host's or the reset input's. -/
theorem step_turn {s t : State} (h : step s = .next t) :
    ∃ rest, let u := { s with agenda := rest }
      u.blockTurn = .next t ∨ (∃ a, PortEffect u a t) ∨ ∃ o, t = u.hardReset o := by
  cases hagenda : s.agenda with
  | nil => exact ⟨s.agenda, .inl ((step_nil s hagenda).symm.trans h)⟩
  | cons turn rest =>
    refine ⟨rest, ?_⟩
    cases turn with
    | block => exact .inl ((step_block s rest hagenda).symm.trans h)
    | host a =>
      rw [step_host s a rest hagenda] at h
      cases h
      exact .inr (.inl ⟨a, State.hostAccess_effect _ a⟩)
    | hardReset o =>
      rw [step_hardReset s o rest hagenda] at h
      cases h
      exact .inr (.inr ⟨o, rfl⟩)

/-- Settles O12: the pre-checks bound what a command writes, MEM_IDX what the host writes. -/
theorem stepKeepsMemoriesInside : Obligations.StepKeepsMemoriesInside := by
  intro s t hs hstep
  rw [State.memsInside_iff] at hs ⊢
  rw [step_caps hstep]
  obtain ⟨rest, hturn | ⟨a, ha⟩ | ⟨o, rfl⟩⟩ := step_turn hstep
  · obtain hmems | ⟨i, hok, rfl⟩ := State.blockTurn_checked hturn
    · rw [hmems]; exact hs
    · exact inside_commandEffect (s := { s with agenda := rest }) hs i hok
  · exact ha.inside hs
  · exact Mems.Inside.unspecified _ _

end Sys2Proof.Machine
end

/-! ### A write of the window (R98, R99) and the busy lock (R100) -/

section
namespace Sys2Proof.Machine

theorem State.hostWrite_memData (s : State) (v : Word) (hidle : s.regs.busy = false) :
    s.hostWrite .word 0x28 v = s.windowWrite v :=
  s.hostWrite_idle .memData v hidle

/-- R99: a MEM_DATA write inside the window is stored and moves MEM_IDX on. -/
theorem State.windowWrite_inside (s : State) (v : Word)
    (h : s.regs.memIdx.toNat < (MemId.ofSel s.regs.memSel).windowSize s.caps) :
    s.windowWrite v = s.windowStored v := by
  have hrange : s.windowInRange = true := decide_eq_true h
  simp [State.windowWrite, hrange, State.windowStored]

/-- R98: a MEM_DATA write outside the window is refused. -/
theorem State.windowWrite_outside (s : State) (v : Word)
    (h : (MemId.ofSel s.regs.memSel).windowSize s.caps ≤ s.regs.memIdx.toNat) : s.windowWrite v = s.setAccv := by
  have hrange : s.windowInRange = false := decide_eq_false (Nat.not_lt.2 h)
  simp [State.windowWrite, hrange]

/-- R99: the host word at MEM_IDX becomes what its element keeps of the word written. -/
theorem State.readWord_windowStored (s : State) (v : Word) :
    (s.windowStored v).readWord (MemId.ofSel s.regs.memSel) s.regs.memIdx.toNat =
      (MemId.ofSel s.regs.memSel).keep s.regs.memIdx.toNat v :=
  s.readWord_writeWords_inside _ s.regs.memIdx.toNat [v] 0 Nat.zero_lt_one

theorem State.windowStored_sameOutside (s : State) (v : Word) :
    SameOutside s (s.windowStored v) (MemId.ofSel s.regs.memSel) s.regs.memIdx.toNat 1 := fun a ha =>
  s.readWord_writeWords_outside _ _ [v] a ha

theorem State.windowStored_sameBut (s : State) (v : Word) :
    SameBut s (s.windowStored v) [MemId.ofSel s.regs.memSel] :=
  ⟨rfl, rfl, rfl, rfl, fun j hj => s.writeWords_get_ne _ j _ _ (by simpa using hj)⟩

/-- Settles O26: MEM_SEL's row of the table is that of the selected memory, whose word at MEM_IDX alone is written. -/
theorem windowWriteStoresTheElement : Obligations.WindowWriteStoresTheElement := by
  intro s v id depth words hidle hrow
  rw [memoryTable_getElem?_sel] at hrow
  cases hrow
  rw [s.hostWrite_memData v hidle]
  refine ⟨fun hinside => ⟨_, s.windowWrite_inside v hinside, rfl, s.windowStored_sameBut v, ?_,
    s.windowStored_sameOutside v⟩, s.windowWrite_outside v⟩
  rw [s.readWord_windowStored v, MemId.toNat_keep]

/-- R100: a MEM_DATA read of a busy block is refused. -/
theorem State.windowRead_busy (s : State) (hbusy : s.regs.busy = true) :
    s.windowRead = { s.setAccv with rdata := 0 } := by
  simp [State.windowRead, hbusy]

/-- Settles O22. -/
theorem busyLock : Obligations.BusyLock := fun s hbusy =>
  ⟨fun r v hctrl hstatus => s.hostWrite_busy r v hbusy hctrl hstatus,
    s.hostRead_memData.trans (s.windowRead_busy hbusy), s.hostRead_reg⟩

end Sys2Proof.Machine
end

/-!
PROOFS, family 30_encoding: a command word is the fixed bits of its row and the arguments the row leaves free (R120 to
R123), and the legal words are the encodings of the legal commands (R124, R125, R130, R353).
-/

/-! ### A word is its three fields (R120) -/

section
namespace Sys2Proof

/-- R120. -/
theorem commandWord_fields (w : Word) : commandWord (opField w) (aField w) (bField w) = w := by
  apply BitVec.eq_of_getLsbD_eq
  intro j hj
  rw [getLsbD_commandWord]
  split
  next hb => simp [bField, hb]
  next hb =>
    split
    next ha => simp [aField, ha, show 16 + (j - 16) = j by omega]
    next ha => simp [opField, show j - 16 - 8 < 8 by omega, show 24 + (j - 16 - 8) = j by omega]

/-- R120: a mask acts on each field by itself. -/
theorem commandWord_and (op a op' a' : BitVec 8) (b b' : BitVec 16) :
    commandWord op a b &&& commandWord op' a' b' = commandWord (op &&& op') (a &&& a') (b &&& b') := by
  have halves : (op ++ a) &&& (op' ++ a') = (op &&& op') ++ (a &&& a') := BitVec.and_append
  calc (op ++ a ++ b) &&& (op' ++ a' ++ b')
    _ = ((op ++ a) &&& (op' ++ a')) ++ (b &&& b') := BitVec.and_append
    _ = (op &&& op') ++ (a &&& a') ++ (b &&& b') := by rw [halves]

theorem toNat_opField (w : Word) : (opField w).toNat = w.toNat / 2 ^ 24 := by
  simp only [opField, BitVec.extractLsb'_toNat, Nat.shiftRight_eq_div_pow]
  omega

theorem toNat_aField (w : Word) : (aField w).toNat = w.toNat / 2 ^ 16 % 2 ^ 8 := by
  simp only [aField, BitVec.extractLsb'_toNat, Nat.shiftRight_eq_div_pow]

theorem toNat_bField (w : Word) : (bField w).toNat = w.toNat % 2 ^ 16 := by
  simp only [bField, BitVec.extractLsb'_toNat, Nat.shiftRight_zero]

/-! ### Encoding what was decoded (R121, R123) -/

/-- R120: under a mask of argument bits, a word is known by its masked arguments. -/
theorem commandWord_and_free {w mask : Word} (op a maskA : BitVec 8) (b maskB : BitVec 16)
    (hmask : mask = commandWord 0 maskA maskB) (ha : a &&& maskA = aField w &&& maskA)
    (hb : b &&& maskB = bField w &&& maskB) : commandWord op a b &&& mask = w &&& mask := by
  conv_rhs => rw [← commandWord_fields w]
  rw [hmask, commandWord_and, commandWord_and, ha, hb]
  exact congrArg (commandWord · _ _) (BitVec.and_zero.trans BitVec.and_zero.symm)

/-- R123: the bits a row leaves free hold the same arguments in the word and in the encoding of what it is read as. -/
theorem encode_freeBits {w : Word} {i : Instr} (h : rowOf w = some i) :
    encode i &&& ~~~i.row.mask = w &&& ~~~i.row.mask := by
  have low4 : ∀ a : BitVec 8, (a.extractLsb' 0 4).setWidth 8 &&& 0x0F = a &&& 0x0F := by decide
  have low2 : ∀ a : BitVec 8, (a.extractLsb' 0 2).setWidth 8 &&& 0x03 = a &&& 0x03 := by decide
  have low3 : ∀ a : BitVec 8, (a.extractLsb' 0 3).setWidth 8 &&& 0x07 = a &&& 0x07 := by decide
  unfold rowOf at h
  split at h <;> cases h
  -- The rows with an argument: HUF.BUILD, LZ.REFS and HIST.EXPORT; every other row fixes all 32 bits.
  case h_2 => exact commandWord_and_free _ _ 0x0F _ 0 (show ~~~(0xFFF0FFFF : Word) = _ by decide) (low4 _) (by simp)
  case h_6 => exact commandWord_and_free _ _ 0x03 _ 0 (show ~~~(0xFFFCFFFF : Word) = _ by decide) (low2 _) (by simp)
  case h_9 => exact commandWord_and_free _ _ 0x07 _ 0xFFFF (show ~~~(0xFFF80000 : Word) = _ by decide) (low3 _) rfl
  all_goals exact BitVec.and_zero.trans BitVec.and_zero.symm

theorem decode_eq_ok_iff (w : Word) (i : Instr) :
    decode w = .ok i ↔ rowOf w = some i ∧ w &&& i.row.mask = i.row.pattern ∧ i.wf = true := by
  unfold decode
  cases rowOf w with
  | none => simp
  | some j =>
    simp only [Option.some.injEq]
    split <;> grind

/-- Two words agree when they agree on the bits of a mask and on the others. -/
theorem eq_of_and_eq {v w mask : Word} (hin : v &&& mask = w &&& mask) (hout : v &&& ~~~mask = w &&& ~~~mask) :
    v = w := by
  have parts : ∀ x : Word, x = (x &&& mask) ||| (x &&& ~~~mask) := fun x => by
    rw [← BitVec.and_or_distrib_left, BitVec.or_not_self, BitVec.and_allOnes]
  rw [parts v, hin, hout, ← parts w]

/-- Settles O1. -/
theorem decodeUndoesEncode : Obligations.DecodeUndoesEncode := decode_encode

/-- Settles O2: word and encoding agree on the bits the row fixes and on those it leaves free. -/
theorem encodeUndoesDecode : Obligations.EncodeUndoesDecode := by
  intro w i hdec
  obtain ⟨hrow, hfixed, hwf⟩ := (decode_eq_ok_iff w i).1 hdec
  exact ⟨hwf, eq_of_and_eq ((encode_row i).trans hfixed.symm) (encode_freeBits hrow)⟩

theorem decode_of_encode {w : Word} {i : Instr} (hwf : i.wf = true) (henc : encode i = w) : decode w = .ok i := by
  rw [← henc, decode_encode i hwf]

/-- R120 to R123: the words that decode are the encodings of the legal commands. -/
theorem exists_decode_iff (w : Word) : (∃ i, decode w = .ok i) ↔ ∃ i : Instr, i.wf = true ∧ encode i = w := by
  constructor
  · rintro ⟨i, hdec⟩
    exact ⟨i, encodeUndoesDecode w i hdec⟩
  · rintro ⟨i, hwf, rfl⟩
    exact ⟨i, decode_encode i hwf⟩

end Sys2Proof
end

/-! ### The legal words (R123 to R125, R130, R353) -/

section
namespace Sys2Proof.Machine

/-- R123, R124: `LegalWord`, read on the three fields. -/
theorem legalWord_commandWord (op a : BitVec 8) (b : BitVec 16) :
    LegalWord (commandWord op a b) ↔
      (op.toNat ∈ [0x00, 0x11, 0x12, 0x20, 0x30, 0x31, 0x33, 0x40, 0x50, 0x51] ∧ a.toNat = 0 ∧ b.toNat = 0) ∨
      (op.toNat = 0x10 ∧ 1 ≤ a.toNat ∧ a.toNat ≤ 15 ∧ b.toNat = 0) ∨
      (op.toNat = 0x21 ∧ a.toNat ≤ 2 ∧ b.toNat = 0) ∨ (op.toNat = 0x32 ∧ a.toNat ≤ 4) := by
  simp only [LegalWord, ← toNat_opField, ← toNat_aField, ← toNat_bField, opField_commandWord, aField_commandWord,
    bField_commandWord]

/-- R123: the commands without an argument. -/
def bareCommands : List Instr :=
  [.nop, .hufRle, .hufStore, .lzFill, .histBuild, .histCluster, .histEntropy, .predResid, .pmapBuild, .pmapQuery]

/-- R121, R123: a command without an argument is its `op` alone. -/
theorem bareCommands_encode : ∀ i ∈ bareCommands, i.wf = true ∧ encode i = commandWord (opField (encode i)) 0 0 := by
  decide

/-- R123: a field of `n` bits keeps a value of field `a` below `2^n`. -/
theorem toNat_setWidth_of_lt {n : Nat} {a : BitVec 8} (h : a.toNat < 2 ^ n) : (a.setWidth n).toNat = a.toNat := by
  rw [BitVec.toNat_setWidth, Nat.mod_eq_of_lt h]

theorem setWidth_setWidth_of_lt {n : Nat} {a : BitVec 8} (h : a.toNat < 2 ^ n) : (a.setWidth n).setWidth 8 = a := by
  apply BitVec.eq_of_toNat_eq
  rw [BitVec.toNat_setWidth, toNat_setWidth_of_lt h, Nat.mod_eq_of_lt a.isLt]

/-- R125 (c). -/
theorem wf_hufBuild_iff (L : BitVec 4) : (Instr.hufBuild L).wf = true ↔ 1 ≤ L.toNat := by revert L; decide

/-- R125 (d). -/
theorem wf_lzRefs_iff (f : BitVec 2) : (Instr.lzRefs f).wf = true ↔ f.toNat ≤ 2 := by revert f; decide

/-- R125 (e). -/
theorem wf_histExport_iff (arr : BitVec 3) (k : BitVec 16) : (Instr.histExport arr k).wf = true ↔ arr.toNat ≤ 4 :=
  decide_eq_true_iff

/-- R123, R125: the fields of a legal command make a legal word. -/
theorem legalWord_encode (i : Instr) (hwf : i.wf = true) : LegalWord (encode i) := by
  cases i with
  | hufBuild L => revert L; decide
  | lzRefs f => revert f; decide
  | histExport arr k =>
    have harr : (arr.setWidth 8).toNat ≤ 4 := by
      rw [BitVec.toNat_setWidth_of_le (by decide)]
      exact (wf_histExport_iff arr k).1 hwf
    exact (legalWord_commandWord _ _ _).2 (.inr (.inr (.inr ⟨rfl, harr⟩)))
  | nop | hufRle | hufStore | lzFill | histBuild | histCluster | histEntropy | predResid | pmapBuild | pmapQuery =>
    decide

/-- R123: each legal word is written by the encoder. -/
theorem exists_encode_of_legalWord {op a : BitVec 8} {b : BitVec 16} (h : LegalWord (commandWord op a b)) :
    ∃ i : Instr, i.wf = true ∧ encode i = commandWord op a b := by
  obtain ⟨hop, ha, hb⟩ | ⟨hop, hlow, hhigh, hb⟩ | ⟨hop, ha, hb⟩ | ⟨hop, ha⟩ := (legalWord_commandWord op a b).1 h
  · have hmem : op.toNat ∈ bareCommands.map fun i => (opField (encode i)).toNat := hop
    obtain ⟨i, hi, hnum⟩ := List.mem_map.1 hmem
    obtain ⟨hwf, henc⟩ := bareCommands_encode i hi
    obtain rfl : a = 0 := BitVec.eq_of_toNat_eq ha
    obtain rfl : b = 0 := BitVec.eq_of_toNat_eq hb
    exact ⟨i, hwf, by rw [henc, BitVec.eq_of_toNat_eq hnum]⟩
  · have hfit : a.toNat < 2 ^ 4 := by omega
    obtain rfl : op = 0x10 := BitVec.eq_of_toNat_eq hop
    obtain rfl : b = 0 := BitVec.eq_of_toNat_eq hb
    refine ⟨.hufBuild (a.setWidth 4), ?_, ?_⟩
    · rwa [wf_hufBuild_iff, toNat_setWidth_of_lt hfit]
    · rw [encode, setWidth_setWidth_of_lt hfit]
  · have hfit : a.toNat < 2 ^ 2 := by omega
    obtain rfl : op = 0x21 := BitVec.eq_of_toNat_eq hop
    obtain rfl : b = 0 := BitVec.eq_of_toNat_eq hb
    refine ⟨.lzRefs (a.setWidth 2), ?_, ?_⟩
    · rwa [wf_lzRefs_iff, toNat_setWidth_of_lt hfit]
    · rw [encode, setWidth_setWidth_of_lt hfit]
  · have hfit : a.toNat < 2 ^ 3 := by omega
    obtain rfl : op = 0x32 := BitVec.eq_of_toNat_eq hop
    refine ⟨.histExport (a.setWidth 3) b, ?_, ?_⟩
    · rwa [wf_histExport_iff, toNat_setWidth_of_lt hfit]
    · rw [encode, setWidth_setWidth_of_lt hfit]

/-- R123 to R125: the legal words are those that decode. -/
theorem legalWord_iff_decode (w : Word) : LegalWord w ↔ ∃ i, decode w = .ok i := by
  rw [exists_decode_iff]
  constructor
  · intro h
    rw [← commandWord_fields w] at h ⊢
    exact exists_encode_of_legalWord h
  · rintro ⟨i, hwf, rfl⟩
    exact legalWord_encode i hwf

/-- R125, R353: a busy block ends a word that is not legal in `E_ILLEGAL`. -/
theorem State.blockTurn_not_legalWord (s : State) (hbusy : s.regs.busy = true) (h : ¬ LegalWord s.regs.lastCmd) :
    s.blockTurn = .next (s.errored 0x01 s.regs.lastCmd) := by
  cases hdec : decode s.regs.lastCmd with
  | error e => exact s.blockTurn_illegal e hbusy hdec
  | ok i => exact absurd ((legalWord_iff_decode _).2 ⟨i, hdec⟩) h

/-- Settles O3: the legal words are those that decode. -/
theorem legalityDecidesTheCompletion : Obligations.LegalityDecidesTheCompletion := by
  rintro s _ hbusy rfl
  refine ⟨fun hlegal => ?_, s.blockTurn_not_legalWord hbusy⟩
  obtain ⟨i, hdec⟩ := (legalWord_iff_decode _).1 hlegal
  exact ⟨i, hdec, s.blockTurn_legal i hbusy hdec⟩

/-- Settles O4: each worked encoding is that of a legal command, and none of the listed words is legal. -/
theorem workedEncodings : Obligations.WorkedEncodings := by
  refine ⟨decode_of_encode rfl (by decide), decode_of_encode rfl (by decide), decode_of_encode rfl (by decide),
    decode_of_encode rfl (by decide), decode_of_encode rfl (by decide), decode_of_encode rfl (by decide),
    decode_of_encode rfl (by decide), ?_⟩
  intro w hw s hbusy hlast
  have hillegal : ¬ LegalWord w := by fin_cases hw <;> decide
  subst hlast
  exact s.blockTurn_not_legalWord hbusy hillegal

end Sys2Proof.Machine
end

/-!
PROOFS, family 40_helpers: the channels of a Pixel (R7, R150, R300), the rounded-up quotient (R151), the hash (R155),
bit reversal (R156), the fixed-point logarithm bit by bit (R152, R153) and the codes of lengths and distances (R154).
-/

/-! ### The channels of a Pixel (R7, R150, R300) -/

section
namespace Sys2Proof.Machine

theorem blueOf_eq (p : Word) : blueOf p = p.toNat % 256 := by simp [blueOf]

theorem greenOf_eq (p : Word) : greenOf p = p.toNat / 256 % 256 := by
  simp [greenOf, Nat.shiftRight_eq_div_pow]

theorem redOf_eq (p : Word) : redOf p = p.toNat / 65536 % 256 := by
  simp [redOf, Nat.shiftRight_eq_div_pow]

theorem alphaOf_eq (p : Word) : alphaOf p = p.toNat / 16777216 % 256 := by
  simp [alphaOf, Nat.shiftRight_eq_div_pow]

/-- R7: `PACK` lays the channels out from the lowest byte up. -/
theorem toNat_pack (b g r a : Nat) :
    (pack b g r a).toNat = a % 256 * 16777216 + r % 256 * 65536 + g % 256 * 256 + b % 256 := by
  have append_byte {n : Nat} (hi : BitVec n) (lo : Nat) :
      (hi ++ BitVec.ofNat 8 lo).toNat = hi.toNat * 256 + lo % 256 := by
    rw [BitVec.toNat_append, ← Nat.shiftLeft_add_eq_or_of_lt (BitVec.isLt _), Nat.shiftLeft_eq, BitVec.toNat_ofNat]
  simp only [pack, append_byte, BitVec.toNat_ofNat]
  omega

@[simp] theorem blueOf_pack (b g r a : Nat) : blueOf (pack b g r a) = b % 256 := by
  rw [blueOf_eq, toNat_pack]; omega

@[simp] theorem greenOf_pack (b g r a : Nat) : greenOf (pack b g r a) = g % 256 := by
  rw [greenOf_eq, toNat_pack]; omega

@[simp] theorem redOf_pack (b g r a : Nat) : redOf (pack b g r a) = r % 256 := by
  rw [redOf_eq, toNat_pack]; omega

@[simp] theorem alphaOf_pack (b g r a : Nat) : alphaOf (pack b g r a) = a % 256 := by
  rw [alphaOf_eq, toNat_pack]; omega

/-- R7: a Pixel is its four channels. -/
theorem pack_channels (p : Word) : pack (blueOf p) (greenOf p) (redOf p) (alphaOf p) = p := by
  apply BitVec.eq_of_toNat_eq
  rw [toNat_pack, blueOf_eq, greenOf_eq, redOf_eq, alphaOf_eq]
  omega

@[simp] theorem blueOf_subPixels (a b : Word) : blueOf (subPixels a b) = (blueOf a + 256 - blueOf b) % 256 := by
  simp [subPixels, lanes2]

@[simp] theorem greenOf_subPixels (a b : Word) : greenOf (subPixels a b) = (greenOf a + 256 - greenOf b) % 256 := by
  simp [subPixels, lanes2]

@[simp] theorem redOf_subPixels (a b : Word) : redOf (subPixels a b) = (redOf a + 256 - redOf b) % 256 := by
  simp [subPixels, lanes2]

@[simp] theorem alphaOf_subPixels (a b : Word) : alphaOf (subPixels a b) = (alphaOf a + 256 - alphaOf b) % 256 := by
  simp [subPixels, lanes2]

/-- R150, R300: modulo 256, adding undoes subtracting. -/
theorem channel_sub_add {x y : Nat} (hx : x < 256) (hy : y < 256) : ((x + 256 - y) % 256 + y) % 256 = x := by
  omega

/-- R300: the sum undoes the difference, channel by channel. -/
theorem addPixels_subPixels (a b : Word) : addPixels (subPixels a b) b = a := by
  calc addPixels (subPixels a b) b = pack (blueOf a) (greenOf a) (redOf a) (alphaOf a) := by
        simp only [addPixels, lanes2, blueOf_subPixels, greenOf_subPixels, redOf_subPixels, alphaOf_subPixels]
        rw [channel_sub_add (BitVec.isLt _) (BitVec.isLt _), channel_sub_add (BitVec.isLt _) (BitVec.isLt _),
          channel_sub_add (BitVec.isLt _) (BitVec.isLt _), channel_sub_add (BitVec.isLt _) (BitVec.isLt _)]
    _ = a := pack_channels a

end Sys2Proof.Machine
end

/-! ### Rounding up, the hash and bit reversal (R151, R155, R156) -/

section
namespace Sys2Proof.Machine

theorem subSampleSize_eq (size bits : Nat) : subSampleSize size bits = (size + 2 ^ bits - 1) / 2 ^ bits := by
  rw [subSampleSize, Nat.one_shiftLeft, Nat.shiftRight_eq_div_pow]

/-- R151: the quotient is rounded up: its blocks cover `size`, and one block fewer would not. -/
theorem subSampleSize_bounds (size bits : Nat) :
    size ≤ subSampleSize size bits * 2 ^ bits ∧ subSampleSize size bits * 2 ^ bits < size + 2 ^ bits := by
  have hpos : 0 < 2 ^ bits := Nat.two_pow_pos bits
  have hle : subSampleSize size bits * 2 ^ bits ≤ size + 2 ^ bits - 1 := by
    rw [subSampleSize_eq]; exact Nat.div_mul_le_self ..
  have hlt : size + 2 ^ bits - 1 < subSampleSize size bits * 2 ^ bits + 2 ^ bits := by
    rw [subSampleSize_eq]; exact Nat.lt_div_mul_add hpos
  omega

/-- R155: the top bits of the product modulo `2^32`. -/
theorem hashOf_eq (v : Word) (bits : Nat) :
    hashOf v bits = v.toNat * 0x1E35A7BD % 2 ^ 32 / 2 ^ (32 - bits) := by
  rw [hashOf, BitVec.toNat_ushiftRight, BitVec.toNat_mul, Nat.shiftRight_eq_div_pow]
  rfl

/-- R155: a hash of `bits` bits indexes a table of `2^bits` entries. -/
theorem hashOf_lt (v : Word) {bits : Nat} (h : bits ≤ 32) : hashOf v bits < 2 ^ bits := by
  rw [hashOf_eq]
  apply Nat.div_lt_of_lt_mul
  calc v.toNat * 0x1E35A7BD % 2 ^ 32 < 2 ^ 32 := Nat.mod_lt _ (by decide)
    _ = 2 ^ (32 - bits) * 2 ^ bits := by rw [← pow_add, Nat.sub_add_cancel h]

theorem rev_succ (v n : Nat) : rev v (n + 1) = 2 ^ n * (v % 2) + rev (v / 2) n := by rw [rev, Nat.mul_comm]

theorem rev_lt (v n : Nat) : rev v n < 2 ^ n := by
  induction n generalizing v with
  | zero => simp [rev]
  | succ n ih =>
    calc rev v (n + 1) = 2 ^ n * (v % 2) + rev (v / 2) n := rev_succ v n
      _ < 2 ^ n * (v % 2) + 2 ^ n := Nat.add_lt_add_left (ih _) _
      _ = 2 ^ n * (v % 2 + 1) := rfl
      _ ≤ 2 ^ n * 2 := Nat.mul_le_mul_left _ (Nat.mod_lt v (by decide))
      _ = 2 ^ (n + 1) := rfl

/-- R156: the lowest bit of `v` becomes the highest, the others are reversed below it. -/
theorem testBit_rev (v n i : Nat) (hi : i < n) : (rev v n).testBit i = v.testBit (n - 1 - i) := by
  induction n generalizing v with
  | zero => omega
  | succ n ih =>
    rw [rev_succ, Nat.testBit_two_pow_mul_add _ (rev_lt _ n)]
    by_cases hlow : i < n
    · rw [if_pos hlow, ih _ hlow, Nat.testBit_div_two]
      congr 1
      omega
    · obtain rfl : i = n := by omega
      simp [Nat.testBit_zero]

/-- Settles O58: the product keeps 32 bits, and `rev` is bounded and reversed at every width. -/
theorem helperFunctionLaws : Obligations.HelperFunctionLaws :=
  ⟨fun a b => ⟨blueOf_subPixels a b, greenOf_subPixels a b, redOf_subPixels a b, alphaOf_subPixels a b,
      addPixels_subPixels a b⟩,
    subSampleSize_bounds, fun v bits _ hbits => ⟨hashOf_eq v bits, hashOf_lt v hbits⟩,
    fun v n _ _ => ⟨rev_lt v n, testBit_rev v n⟩⟩

end Sys2Proof.Machine
end

/-! ### The fixed-point logarithm (R152, R153) -/

section
namespace Sys2Proof.Machine

/-- R152: the position of the most significant bit. -/
theorem bitsLog2Floor_bounds {x : Nat} (hx : x ≠ 0) :
    2 ^ bitsLog2Floor x ≤ x ∧ x < 2 ^ (bitsLog2Floor x + 1) := ⟨Nat.log2_self_le hx, Nat.lt_log2_self⟩

theorem bitsLog2Floor_lt {x n : Nat} (hx : x ≠ 0) (h : x < 2 ^ n) : bitsLog2Floor x < n := (Nat.log2_lt hx).2 h

@[simp] theorem bitsLog2Floor_two_pow (e : Nat) : bitsLog2Floor (2 ^ e) = e := Nat.log2_two_pow

/-- R153: a turn of the loop, with the `q` bits found so far standing above those still to come: it appends a bit to
`q` and squares the mantissa. -/
theorem flog2Loop_succ (n m q : Nat) :
    flog2Loop (n + 1) m (q * 2 ^ (n + 1)) =
      if 2 ^ 32 ≤ m * m / 2 ^ 31 then flog2Loop n (m * m / 2 ^ 31 / 2) ((2 * q + 1) * 2 ^ n)
      else flog2Loop n (m * m / 2 ^ 31) (2 * q * 2 ^ n) := by
  have hset : q * 2 ^ (n + 1) ||| 1 <<< n = (2 * q + 1) * 2 ^ n := by
    rw [Nat.one_shiftLeft, Nat.mul_comm q, ← Nat.two_pow_add_eq_or_of_lt (Nat.pow_lt_pow_succ (by decide))]
    ring
  have hkeep : q * 2 ^ (n + 1) = 2 * q * 2 ^ n := by ring
  rw [flog2Loop, hset, ← hkeep, Nat.shiftRight_eq_div_pow]
  rfl

/-- R153: the turns still to come fill in the low bits and leave the bits found so far. -/
theorem flog2Loop_div (n m q : Nat) : flog2Loop n m (q * 2 ^ n) / 2 ^ n = q := by
  induction n generalizing m q with
  | zero => simp [flog2Loop]
  | succ n ih =>
    rw [flog2Loop_succ, pow_succ 2 n, ← Nat.div_div_eq_div_mul]
    split
    · rw [ih]; omega
    · rw [ih]; omega

/-- R153: the top bit of the mantissa starts and stays at position 31. -/
theorem mantissa_bounds {x : Nat} (hx : 1 ≤ x) (hx32 : x < 2 ^ 32) (k : Nat) :
    2 ^ 31 ≤ mantissa x k ∧ mantissa x k < 2 ^ 32 := by
  induction k with
  | zero =>
    obtain ⟨hle, hlt⟩ := bitsLog2Floor_bounds (x := x) (by omega)
    have he : bitsLog2Floor x < 32 := bitsLog2Floor_lt (by omega) hx32
    have hpos : 0 < 2 ^ (31 - bitsLog2Floor x) := Nat.two_pow_pos _
    constructor
    · calc 2 ^ 31 = 2 ^ bitsLog2Floor x * 2 ^ (31 - bitsLog2Floor x) := by rw [← pow_add]; congr 1; omega
        _ ≤ mantissa x 0 := Nat.mul_le_mul_right _ hle
    · calc mantissa x 0 < 2 ^ (bitsLog2Floor x + 1) * 2 ^ (31 - bitsLog2Floor x) :=
          Nat.mul_lt_mul_of_pos_right hlt hpos
        _ = 2 ^ 32 := by rw [← pow_add]; congr 1; omega
  | succ k ih =>
    obtain ⟨hle, hlt⟩ := ih
    have hsqle : 2 ^ 31 * 2 ^ 31 ≤ mantissa x k * mantissa x k := Nat.mul_le_mul hle hle
    have hsqlt : mantissa x k * mantissa x k < 2 ^ 32 * 2 ^ 32 := Nat.mul_lt_mul'' hlt hlt
    rw [mantissa]
    split
    · omega
    · omega

/-- R153: after `k` turns the loop holds the mantissa of turn `k`, and `k` fraction bits below the whole part. -/
theorem flog2_after_turns (x k n : Nat) (hk : k + n = 16) :
    ∃ q, flog2 x = flog2Loop n (mantissa x k) (q * 2 ^ n) := by
  induction k generalizing n with
  | zero =>
    obtain rfl : n = 16 := by omega
    exact ⟨bitsLog2Floor x, by rw [flog2, mantissa, Nat.shiftLeft_eq, Nat.shiftLeft_eq]⟩
  | succ k ih =>
    obtain ⟨q, hq⟩ := ih (n + 1) (by omega)
    rw [hq, flog2Loop_succ, mantissa]
    split
    · exact ⟨2 * q + 1, rfl⟩
    · exact ⟨2 * q, rfl⟩

/-- R153: the whole part of the logarithm. -/
theorem flog2_whole (x : Nat) : flog2 x / 65536 = bitsLog2Floor x := by
  rw [flog2, Nat.shiftLeft_eq (bitsLog2Floor x), ← show 2 ^ 16 = 65536 by rfl, flog2Loop_div]

/-- R153: the fraction bit of a turn is 1 when the squared mantissa reaches `2^32`. -/
theorem flog2_fraction_bit (x : Nat) {k : Nat} (hk : k < 16) :
    flog2 x / 2 ^ (15 - k) % 2 = 1 ↔ 2 ^ 32 ≤ mantissa x k * mantissa x k / 2 ^ 31 := by
  obtain ⟨q, hq⟩ := flog2_after_turns x k (15 - k + 1) (by omega)
  rw [hq, flog2Loop_succ]
  split
  case isTrue h => rw [flog2Loop_div, iff_true_right h]; omega
  case isFalse h => rw [flog2Loop_div, iff_false_right h]; omega

/-- R153: the mantissa of a power of two squares to itself, and no fraction bit is set. -/
theorem flog2Loop_two_pow_31 (n r : Nat) : flog2Loop n (2 ^ 31) r = r := by
  induction n with
  | zero => rfl
  | succ n ih =>
    have hsq : (2 ^ 31 * 2 ^ 31) >>> 31 = 2 ^ 31 := by decide
    rw [flog2Loop, hsq]
    exact ih

theorem flog2_two_pow {e : Nat} (he : e ≤ 31) : flog2 (2 ^ e) = e * 65536 := by
  have hm : 2 ^ e * 2 ^ (31 - e) = 2 ^ 31 := by rw [← pow_add, Nat.add_sub_cancel' he]
  rw [flog2, bitsLog2Floor_two_pow, Nat.shiftLeft_eq, Nat.shiftLeft_eq, hm, flog2Loop_two_pow_31]

/-- Settles O59: the whole part is at most 31, so the result stays below `32 * 65536`. -/
theorem fixedPointLogarithm : Obligations.FixedPointLogarithm := by
  refine ⟨fun x hx hx32 => ?_, fun e => flog2_two_pow⟩
  obtain ⟨hle, hlt⟩ := bitsLog2Floor_bounds (x := x) (by omega)
  have he : bitsLog2Floor x < 32 := bitsLog2Floor_lt (by omega) hx32
  have hwhole := flog2_whole x
  refine ⟨hwhole, hle, hlt, by omega, fun k hk => ?_⟩
  obtain ⟨hmle, hmlt⟩ := mantissa_bounds hx hx32 k
  exact ⟨hmle, hmlt, flog2_fraction_bit x hk⟩

end Sys2Proof.Machine
end

/-! ### The codes of lengths and distances (R154) -/

section
namespace Sys2Proof.Machine

/-- R154: the values 1 and 2 have codes 0 and 1, without extra bits. -/
theorem prefixEncode_small {d : Nat} (h : d < 2) : prefixEncode (d + 1) = ⟨d, 0, 0⟩ := by
  simp [prefixEncode, h]

/-- R154: above, the code holds the position `n + 1` of the most significant bit of `d = v - 1` and the bit below it,
which is the excess of `d / 2^n` over 2; the other `n` bits are extra. -/
theorem prefixEncode_large {d : Nat} (h : 2 ≤ d) :
    ∃ n, 2 ^ (n + 1) ≤ d ∧ (d / 2 ^ n = 2 ∨ d / 2 ^ n = 3) ∧
      prefixEncode (d + 1) = ⟨2 * n + d / 2 ^ n, d % 2 ^ n, n⟩ := by
  obtain ⟨hle, hlt⟩ := bitsLog2Floor_bounds (x := d) (by omega)
  obtain ⟨n, hn⟩ : ∃ n, bitsLog2Floor d = n + 1 := Nat.exists_eq_add_one.2 ((Nat.le_log2 (by omega)).2 h)
  rw [hn] at hle hlt
  have htop : 2 ≤ d / 2 ^ n ∧ d / 2 ^ n < 4 := by
    rw [Nat.le_div_iff_mul_le (Nat.two_pow_pos n), Nat.div_lt_iff_lt_mul (Nat.two_pow_pos n)]
    omega
  refine ⟨n, hle, by omega, ?_⟩
  simp only [prefixEncode, Nat.add_sub_cancel, if_neg (show ¬ d < 2 by omega), hn, Nat.shiftRight_eq_div_pow,
    PrefixCode.mk.injEq, and_self, and_true]
  omega

/-- R152: the most significant bit of a value below `2^b` stands below position `b`. -/
theorem msb_lt_of_lt_two_pow {n d b : Nat} (hle : 2 ^ (n + 1) ≤ d) (h : d < 2 ^ b) : n + 1 < b :=
  (Nat.pow_lt_pow_iff_right (by decide)).1 (hle.trans_lt h)

/-- Settles O60: the quotient `d / 2^n` is 2 or 3, its excess over 2 the parity of the code. -/
theorem prefixCodesCoverTheirRanges : Obligations.PrefixCodesCoverTheirRanges := by
  rintro v hv p rfl
  obtain ⟨d, rfl⟩ : ∃ d, v = d + 1 := Nat.exists_eq_add_one.2 hv
  by_cases hd : d < 2
  · rw [prefixEncode_small hd]
    simp only [if_pos hd]
    refine ⟨Nat.one_pos, ?_, trivial, ?_, ?_⟩ <;> omega
  · obtain ⟨n, hle, htop, hp⟩ := prefixEncode_large (Nat.le_of_not_lt hd)
    have hlen : d + 1 ≤ 4096 → n + 1 < 12 := fun h => msb_lt_of_lt_two_pow hle (by omega)
    have hdist : d + 1 ≤ 1048576 → n + 1 < 20 := fun h => msb_lt_of_lt_two_pow hle (by omega)
    have hdiv : d / 2 ^ n * 2 ^ n + d % 2 ^ n = d := Nat.div_add_mod' d (2 ^ n)
    have hparity : 2 + (2 * n + d / 2 ^ n) % 2 = d / 2 ^ n := by omega
    rw [hp]
    simp only [if_neg (show ¬ 2 * n + d / 2 ^ n < 2 by omega), hparity]
    refine ⟨Nat.mod_lt _ (Nat.two_pow_pos n), ?_, ?_, ?_, ?_⟩ <;> omega

end Sys2Proof.Machine
end

/-!
PROOFS, family 41_huf: run-length tokens (R181 to R184), code lengths by package-merge (R172 to R176), canonical codes
(R177), and the bit fields HUF.STORE makes of a code (R186 to R195).
-/

/-! ### The runs of a length sequence (R181) -/

section
namespace Sys2Proof.Machine

/-- R181: one more element in front starts a run or extends the first one. -/
theorem runs_cons_eq {x : Nat} {xs : List Nat} {run : Nat × Nat} {rest : List (Nat × Nat)} (h : runs xs = run :: rest) :
    runs (x :: xs) = if run.1 = x then (run.1, run.2 + 1) :: rest else (x, 1) :: run :: rest := by
  simp only [runs, h]

theorem runs_eq_nil_iff (lens : List Nat) : runs lens = [] ↔ lens = [] := by
  cases lens with
  | nil => simp [runs]
  | cons x xs => simp only [runs]; split <;> [skip; split] <;> simp

theorem runs_replicate (v r : Nat) : runs (List.replicate (r + 1) v) = [(v, r + 1)] := by
  induction r with
  | zero => rfl
  | succ r ih => rw [List.replicate_succ, runs_cons_eq ih, if_pos rfl]

/-- R181: copies of a value behind a sequence that does not end in it are a run of their own. -/
theorem runs_append_replicate {lens : List Nat} {r v : Nat} (hr : 1 ≤ r) (hlast : lens.getLast? ≠ some v) :
    runs (lens ++ List.replicate r v) = runs lens ++ [(v, r)] := by
  obtain ⟨r, rfl⟩ := Nat.exists_eq_add_one.2 hr
  induction lens with
  | nil => exact runs_replicate v r
  | cons x xs ih =>
    cases hruns : runs xs with
    | nil =>
      obtain rfl := (runs_eq_nil_iff xs).1 hruns
      have hne : v ≠ x := by simpa [eq_comm] using hlast
      rw [List.cons_append, List.nil_append, runs_cons_eq (runs_replicate v r), if_neg hne]
      rfl
    | cons run rest =>
      have hxs : xs ≠ [] := by rintro rfl; simp [runs] at hruns
      have htail : runs (xs ++ List.replicate (r + 1) v) = run :: (rest ++ [(v, r + 1)]) := by
        rw [ih (by rwa [List.getLast?_cons_of_ne_nil hxs] at hlast), hruns, List.cons_append]
      rw [List.cons_append, runs_cons_eq htail, runs_cons_eq hruns]
      split <;> rfl

/-- R181: the runs, written out, are the sequence. -/
theorem runs_flatMap (lens : List Nat) : (runs lens).flatMap (fun run => List.replicate run.2 run.1) = lens := by
  induction lens with
  | nil => rfl
  | cons x xs ih =>
    cases hruns : runs xs with
    | nil => obtain rfl := (runs_eq_nil_iff xs).1 hruns; rfl
    | cons run rest =>
      rw [hruns, List.flatMap_cons] at ih
      rw [runs_cons_eq hruns, ← ih]
      split
      case isTrue hx => subst hx; rfl
      case isFalse => rfl

/-- R181: the value of a run occurs in the sequence. -/
theorem runs_value_mem {lens : List Nat} {run : Nat × Nat} (h : run ∈ runs lens) : run.1 ∈ lens := by
  rw [← runs_flatMap lens, List.mem_flatMap]
  exact ⟨run, h, List.mem_replicate.2 ⟨by have := runs_pos lens run h; omega, rfl⟩⟩

end Sys2Proof.Machine
end

/-! ### Each run appends its tokens (R182, R183) -/

section
namespace Sys2Proof.Machine

/-- R182: the tokens of zeros in closed form. -/
theorem zeroRun_eq {fuel r : Nat} (hfuel : r < fuel) : zeroRun fuel r = zeroTokens r := by
  induction fuel generalizing r with
  | zero => omega
  | succ fuel ih =>
    by_cases hlong : 139 ≤ r
    · have hdiv : r / 138 = (r - 138) / 138 + 1 := by omega
      have hmod : r % 138 = (r - 138) % 138 := by omega
      have hrest : zeroRun fuel (r - 138) = zeroTokens (r - 138) := ih (by omega)
      simp only [zeroRun, if_neg (show ¬ r < 3 by omega), if_neg (show ¬ r < 11 by omega),
        if_neg (show ¬ r < 139 by omega), hrest, zeroTokens, hdiv, hmod, List.replicate_succ, List.cons_append]
    · obtain rfl | hlt := Nat.eq_or_lt_of_le (Nat.le_of_not_lt hlong)
      · rfl
      · have hdiv : r / 138 = 0 := by omega
        have hmod : r % 138 = r := by omega
        simp only [zeroRun, zeroTokens, hdiv, hmod, if_pos (show r < 139 by omega), List.replicate_zero,
          List.nil_append]

/-- R183: `k` copies of the value in force, in closed form. -/
theorem repeatRun_eq {v fuel k : Nat} (hfuel : k < fuel) :
    repeatRun v fuel k = List.replicate (k / 6) ⟨16, 3⟩ ++
      (if k % 6 < 3 then List.replicate (k % 6) ⟨v, 0⟩ else [⟨16, k % 6 - 3⟩]) := by
  induction fuel generalizing k with
  | zero => omega
  | succ fuel ih =>
    by_cases hlong : 7 ≤ k
    · have hdiv : k / 6 = (k - 6) / 6 + 1 := by omega
      have hmod : k % 6 = (k - 6) % 6 := by omega
      have hrest := ih (show k - 6 < fuel by omega)
      simp only [repeatRun, if_neg (show ¬ k < 3 by omega), if_neg (show ¬ k < 7 by omega), hrest, hdiv, hmod,
        List.replicate_succ, List.cons_append]
    · obtain rfl | hlt := Nat.eq_or_lt_of_le (Nat.le_of_not_lt hlong)
      · rfl
      · have hdiv : k / 6 = 0 := by omega
        have hmod : k % 6 = k := by omega
        simp only [repeatRun, hdiv, hmod, if_pos (show k < 7 by omega), List.replicate_zero, List.nil_append]

/-- R183: the tokens of copies of a value in closed form. -/
theorem valueRun_eq {prev v r : Nat} (hr : 1 ≤ r) : valueRun prev v r = copyTokens prev v r := by
  unfold valueRun
  split
  case isTrue hne => simp only [copyTokens, repeatRun_eq (show r - 1 < r by omega), if_neg hne]; rfl
  case isFalse heq =>
    simp only [copyTokens, repeatRun_eq (Nat.lt_succ_self r), if_pos (not_not.1 heq), List.nil_append]

/-- R183: the value in force after one more value `v`: zeros leave it as it is. -/
def valueAfter (prev v : Nat) : Nat := if v = 0 then prev else v

/-- R183: the value in force after a list of runs. -/
def valueAfterRuns (prev : Nat) (rs : List (Nat × Nat)) : Nat := (rs.map Prod.fst).foldl valueAfter prev

/-- R181 to R183: one run's tokens, then those of the others against the value then in force. -/
theorem runTokens_cons (prev v r : Nat) (rs : List (Nat × Nat)) :
    runTokens prev ((v, r) :: rs) =
      (if v = 0 then zeroRun (r + 1) r else valueRun prev v r) ++ runTokens (valueAfter prev v) rs := by
  simp only [runTokens, valueAfter]
  split <;> rfl

theorem runTokens_append (prev : Nat) (rs rs' : List (Nat × Nat)) :
    runTokens prev (rs ++ rs') = runTokens prev rs ++ runTokens (valueAfterRuns prev rs) rs' := by
  induction rs generalizing prev with
  | nil => rfl
  | cons run rs ih =>
    obtain ⟨v, r⟩ := run
    rw [List.cons_append, runTokens_cons, runTokens_cons, ih, List.append_assoc]
    rfl

/-- A run changes the value in force once, however long it is. -/
theorem valueAfterRuns_runs (prev : Nat) (lens : List Nat) :
    valueAfterRuns prev (runs lens) = lens.foldl valueAfter prev := by
  induction lens generalizing prev with
  | nil => rfl
  | cons x xs ih =>
    rw [List.foldl_cons, ← ih]
    cases hruns : runs xs with
    | nil => obtain rfl := (runs_eq_nil_iff xs).1 hruns; rfl
    | cons run rest =>
      rw [runs_cons_eq hruns]
      split
      case isTrue hx =>
        have htwice : valueAfter (valueAfter prev x) x = valueAfter prev x := by simp only [valueAfter]; split <;> rfl
        simp only [valueAfterRuns, List.map_cons, List.foldl_cons, hx, htwice]
      case isFalse => rfl

/-- R183: the value in force is the last non-zero one. -/
theorem foldl_valueAfter (prev : Nat) (lens : List Nat) :
    lens.foldl valueAfter prev = (lens.filter (fun l => decide (l ≠ 0))).getLast?.getD prev := by
  induction lens generalizing prev with
  | nil => rfl
  | cons x xs ih =>
    rw [List.foldl_cons, ih]
    by_cases hx : x = 0 <;> simp [valueAfter, hx, List.getLast?_cons]

/-- R181 to R183: a run behind a sequence that does not end in its value appends the run's tokens, coded against the
last non-zero value. -/
theorem rle_append_replicate {lens : List Nat} {r v : Nat} (hr : 1 ≤ r) (hlast : lens.getLast? ≠ some v) :
    rle (lens ++ List.replicate r v) =
      rle lens ++ if v = 0 then zeroRun (r + 1) r else valueRun (lastNonzero lens) v r := by
  have hforce : valueAfterRuns 8 (runs lens) = lastNonzero lens :=
    (valueAfterRuns_runs 8 lens).trans (foldl_valueAfter 8 lens)
  rw [rle, runs_append_replicate hr hlast, runTokens_append, runTokens_cons, hforce, runTokens, List.append_nil, rle]

/-- Settles O39. -/
theorem runsAreCodedLongestTokenFirst : Obligations.RunsAreCodedLongestTokenFirst := by
  intro lens r v hr
  refine ⟨fun hlast => ?_, fun hv _ hlast => ?_⟩
  · rw [rle_append_replicate hr hlast, if_pos rfl, zeroRun_eq (Nat.lt_succ_self r)]
  · rw [rle_append_replicate hr hlast, if_neg (by omega), valueRun_eq hr]

end Sys2Proof.Machine
end

/-! ### Tokens expand to the lengths (R181, R184) -/

section
namespace Sys2Proof.Machine

/-- R181: a token that stands for one length, the one it names. -/
theorem expandTokens_literal {prev v e : Nat} (hv : v ≤ 15) (ts : List Token) :
    expandTokens prev (⟨v, e⟩ :: ts) = v :: expandTokens (valueAfter prev v) ts := by
  simp only [expandTokens, valueAfter, if_neg (show ¬ v = 16 by omega), if_neg (show ¬ v = 17 by omega),
    if_neg (show ¬ v = 18 by omega)]

theorem expandTokens_literals {prev v : Nat} (hv : v ≤ 15) (hprev : valueAfter prev v = prev) (n : Nat)
    (ts : List Token) :
    expandTokens prev (List.replicate n ⟨v, 0⟩ ++ ts) = List.replicate n v ++ expandTokens prev ts := by
  induction n with
  | zero => rfl
  | succ n ih => simp only [List.replicate_succ, List.cons_append, expandTokens_literal hv, hprev, ih]

theorem expandTokens_zeroRun (prev : Nat) {fuel r : Nat} (hfuel : r < fuel) (ts : List Token) :
    expandTokens prev (zeroRun fuel r ++ ts) = List.replicate r 0 ++ expandTokens prev ts := by
  induction fuel generalizing r with
  | zero => omega
  | succ fuel ih =>
    simp only [zeroRun]
    split_ifs with h3 h11 h139
    · exact expandTokens_literals (Nat.zero_le 15) rfl r ts
    · rw [List.singleton_append, expandTokens]
      simp only [show 3 + (r - 3) = r by omega]
      rfl
    · rw [List.singleton_append, expandTokens]
      simp only [show 11 + (r - 11) = r by omega]
      rfl
    · rw [List.cons_append, expandTokens]
      simp only [ih (show r - 138 < fuel by omega), ← List.append_assoc, List.replicate_append_replicate,
        show 11 + 127 + (r - 138) = r by omega]
      rfl

theorem expandTokens_repeatRun {v fuel r : Nat} (hv : v ≤ 15) (hfuel : r < fuel) (ts : List Token) :
    expandTokens v (repeatRun v fuel r ++ ts) = List.replicate r v ++ expandTokens v ts := by
  induction fuel generalizing r with
  | zero => omega
  | succ fuel ih =>
    simp only [repeatRun]
    split_ifs with h3 h7
    · exact expandTokens_literals hv (ite_self v) r ts
    · rw [List.singleton_append, expandTokens, if_pos rfl]
      simp only [show 3 + (r - 3) = r by omega]
    · rw [List.cons_append, expandTokens, if_pos rfl]
      simp only [ih (show r - 6 < fuel by omega), ← List.append_assoc, List.replicate_append_replicate,
        show 3 + 3 + (r - 6) = r by omega]

theorem expandTokens_valueRun {prev v r : Nat} (hv0 : v ≠ 0) (hv : v ≤ 15) (hr : 1 ≤ r) (ts : List Token) :
    expandTokens prev (valueRun prev v r ++ ts) = List.replicate r v ++ expandTokens v ts := by
  unfold valueRun
  split
  case isTrue =>
    rw [List.cons_append, expandTokens_literal hv, valueAfter, if_neg hv0,
      expandTokens_repeatRun hv (show r - 1 < r by omega), ← List.cons_append, ← List.replicate_succ,
      Nat.sub_add_cancel hr]
  case isFalse heq =>
    obtain rfl : v = prev := not_not.1 heq
    exact expandTokens_repeatRun hv (Nat.lt_succ_self r) ts

/-- R184: the tokens of runs of lengths at most 15 stand for the runs. -/
theorem expandTokens_runTokens (prev : Nat) (rs : List (Nat × Nat)) (h : ∀ run ∈ rs, run.1 ≤ 15 ∧ 1 ≤ run.2) :
    expandTokens prev (runTokens prev rs) = rs.flatMap (fun run => List.replicate run.2 run.1) := by
  induction rs generalizing prev with
  | nil => rfl
  | cons run rs ih =>
    obtain ⟨v, r⟩ := run
    obtain ⟨⟨hv, hr⟩, hrs⟩ := List.forall_mem_cons.1 h
    rw [runTokens_cons, List.flatMap_cons, ← ih (valueAfter prev v) hrs]
    split
    case isTrue hv0 => subst hv0; exact expandTokens_zeroRun prev (Nat.lt_succ_self r) _
    case isFalse hv0 => rw [expandTokens_valueRun hv0 hv hr, valueAfter, if_neg hv0]

/-- R184: expanding the tokens of lengths at most 15 gives the lengths back. -/
theorem expandTokens_rle {lens : List Nat} (h : ∀ l ∈ lens, l ≤ 15) : expandTokens 8 (rle lens) = lens :=
  (expandTokens_runTokens 8 _ fun run hrun => ⟨h _ (runs_value_mem hrun), runs_pos lens run hrun⟩).trans
    (runs_flatMap lens)

end Sys2Proof.Machine
end

/-! ### A token fits its host word (R61, R181) -/

section
namespace Sys2Proof.Machine

/-- R181: a token of the alphabet, its extra value inside its extra bits. -/
def Token.Fits (t : Token) : Prop := t.code ≤ 18 ∧ t.extra < 2 ^ extraBits t.code

theorem Token.fits_literal {v : Nat} (hv : v ≤ 15) : Token.Fits ⟨v, 0⟩ :=
  ⟨by simp only; omega, Nat.two_pow_pos _⟩

theorem Token.fits_of_mem_literals {v n : Nat} (hv : v ≤ 15) {t : Token} (ht : t ∈ List.replicate n ⟨v, 0⟩) : t.Fits :=
  (List.mem_replicate.1 ht).2 ▸ Token.fits_literal hv

theorem fits_of_mem_zeroRun {fuel r : Nat} {t : Token} (ht : t ∈ zeroRun fuel r) : t.Fits := by
  induction fuel generalizing r with
  | zero => simp [zeroRun] at ht
  | succ fuel ih =>
    simp only [zeroRun] at ht
    split_ifs at ht with h3 h11 h139
    · exact Token.fits_of_mem_literals (Nat.zero_le 15) ht
    · rw [List.mem_singleton.1 ht]
      exact ⟨show 17 ≤ 18 by decide, show r - 3 < 8 by omega⟩
    · rw [List.mem_singleton.1 ht]
      exact ⟨show 18 ≤ 18 by decide, show r - 11 < 128 by omega⟩
    · obtain rfl | ht := List.mem_cons.1 ht
      · exact ⟨by decide, by decide⟩
      · exact ih ht

theorem fits_of_mem_repeatRun {v fuel r : Nat} (hv : v ≤ 15) {t : Token} (ht : t ∈ repeatRun v fuel r) : t.Fits := by
  induction fuel generalizing r with
  | zero => simp [repeatRun] at ht
  | succ fuel ih =>
    simp only [repeatRun] at ht
    split_ifs at ht with h3 h7
    · exact Token.fits_of_mem_literals hv ht
    · rw [List.mem_singleton.1 ht]
      exact ⟨show 16 ≤ 18 by decide, show r - 3 < 4 by omega⟩
    · obtain rfl | ht := List.mem_cons.1 ht
      · exact ⟨by decide, by decide⟩
      · exact ih ht

theorem fits_of_mem_valueRun {prev v r : Nat} (hv : v ≤ 15) {t : Token} (ht : t ∈ valueRun prev v r) : t.Fits := by
  unfold valueRun at ht
  split at ht
  · obtain rfl | ht := List.mem_cons.1 ht
    · exact Token.fits_literal hv
    · exact fits_of_mem_repeatRun hv ht
  · exact fits_of_mem_repeatRun hv ht

theorem fits_of_mem_runTokens {rs : List (Nat × Nat)} (h : ∀ run ∈ rs, run.1 ≤ 15) (prev : Nat) {t : Token}
    (ht : t ∈ runTokens prev rs) : t.Fits := by
  induction rs generalizing prev with
  | nil => simp [runTokens] at ht
  | cons run rs ih =>
    obtain ⟨v, r⟩ := run
    obtain ⟨hv, hrs⟩ := List.forall_mem_cons.1 h
    rw [runTokens_cons, List.mem_append] at ht
    obtain ht | ht := ht
    · split at ht
      · exact fits_of_mem_zeroRun ht
      · exact fits_of_mem_valueRun hv ht
    · exact ih hrs _ ht

/-- R181: the tokens of lengths at most 15 fit. -/
theorem fits_of_mem_rle {lens : List Nat} (h : ∀ l ∈ lens, l ≤ 15) {t : Token} (ht : t ∈ rle lens) : t.Fits :=
  fits_of_mem_runTokens (fun _ hrun => h _ (runs_value_mem hrun)) 8 ht

theorem extraBits_le (c : Nat) : extraBits c ≤ 7 := by unfold extraBits; split_ifs <;> omega

theorem Token.Fits.extra_lt {t : Token} (h : t.Fits) : t.extra < 128 :=
  h.2.trans_le (Nat.pow_le_pow_right (by decide) (extraBits_le _))

/-- R61: a token that fits is read back from the element that stores its host word. -/
theorem Token.Fits.tokenOf_stored {t : Token} (h : t.Fits) (i : Nat) :
    tokenOf (storedBits .tok i t.word) = t := by
  obtain ⟨hcode, hextra⟩ : t.code < 32 ∧ t.extra < 128 := ⟨Nat.lt_of_le_of_lt h.1 (by decide), h.extra_lt⟩
  have hword : t.word.toNat = t.code + 256 * t.extra := by
    rw [Token.word, BitVec.toNat_ofNat, Nat.mod_eq_of_lt (by omega)]
  obtain ⟨code, extra⟩ := t
  simp only at hcode hextra hword
  simp only [tokenOf, storedBits, hword, Token.mk.injEq]
  omega

end Sys2Proof.Machine
end

/-! ### The HUF unit's memories read as numbers (R59, R61, R103) -/

section
namespace Sys2Proof.Machine

/-- R59 to R66: a word of a canonical memory is inside its element's width. -/
theorem Memory.keep_read {m : Memory} {id : MemId} (h : Memory.wf id m = true) (i : Nat) :
    id.keep i (m.read id i) = m.read id i := by
  obtain ⟨-, hkeep⟩ := (Memory.wf_iff id m).1 h
  unfold Memory.read Memory.get?
  cases hget : m.cells.lookup i with
  | none => exact MemId.keep_keep ..
  | some v =>
    obtain ⟨before, after, hcells, -⟩ := List.lookup_eq_some_iff.1 hget
    exact hkeep (i, v) (by simp [hcells])

theorem State.toNat_readWord {s : State} (h : s.mems.Canonical) (id : MemId) (i : Nat) :
    (s.readWord id i).toNat = storedBits id i (s.readWord id i) := by
  rw [← MemId.toNat_keep, State.readWord, Memory.keep_read (h id)]

/-- R103: on canonical memories a range is read word by word. -/
theorem State.readNats_eq_map {s : State} (h : s.mems.Canonical) (id : MemId) (start count : Nat) :
    s.readNats id start count = (List.range count).map (fun i => (s.readWord id (start + i)).toNat) := by
  refine List.ext_getElem? fun i => ?_
  by_cases hi : i < count
  · rw [State.readNats, State.readWords, List.getElem?_map, Memory.readRange_getElem? _ _ _ _ _ (h id) hi,
      List.getElem?_map, List.getElem?_range hi]
    rfl
  · rw [List.getElem?_eq_none (by simpa using hi), List.getElem?_eq_none (by simpa using hi)]

/-- R59: the lengths a command reads are at most 15. -/
theorem State.lengths_le {s : State} (h : s.mems.Canonical) : ∀ l ∈ s.lengths, l ≤ 15 := by
  intro l hl
  rw [State.lengths, State.readNats_eq_map h, List.mem_map] at hl
  obtain ⟨i, -, rfl⟩ := hl
  rw [State.toNat_readWord h]
  exact Nat.le_of_lt_succ (Nat.mod_lt _ (by decide))

/-- R99, R103: words written from the start of a memory are read back as what its elements store of them. -/
theorem State.readNats_of_written {s : State} (h : s.mems.Canonical) (id : MemId) (vs : List Word)
    (hread : ∀ (i : Nat) (hi : i < vs.length), s.readWord id i = id.keep i vs[i]) :
    s.readNats id 0 vs.length = vs.mapIdx (storedBits id) := by
  rw [State.readNats_eq_map h]
  refine List.ext_getElem (by simp) fun i hi _ => ?_
  have hi : i < vs.length := by simpa using hi
  simp only [List.getElem_map, List.getElem_range, Nat.zero_add, List.getElem_mapIdx, hread i hi, MemId.toNat_keep]

theorem State.readWord_writeTokens (s : State) (tokens : List Token) (id : MemId) (i : Nat) :
    (s.writeTokens tokens).readWord id i = (s.writeWords .tok 0 (tokens.map Token.word)).readWord id i := rfl

/-- R61, R180: the tokens of a token memory that has just been written. -/
theorem State.tokens_writeTokens {s : State} (h : s.mems.Canonical) {tokens : List Token}
    (hfit : ∀ t ∈ tokens, t.Fits) :
    ((s.writeTokens tokens).readNats .tok 0 tokens.length).map tokenOf = tokens := by
  have hread : ∀ (i : Nat) (hi : i < (tokens.map Token.word).length),
      (s.writeTokens tokens).readWord .tok i = MemId.tok.keep i (tokens.map Token.word)[i] := fun i hi => by
    simpa [State.readWord_writeTokens] using s.readWord_writeWords_inside .tok 0 (tokens.map Token.word) i hi
  have hwritten := State.readNats_of_written (canonical_writeTokens h tokens) .tok _ hread
  rw [List.length_map] at hwritten
  rw [hwritten]
  refine List.ext_getElem (by simp) fun i hi _ => ?_
  have hi : i < tokens.length := by simpa using hi
  simpa using (hfit tokens[i] (List.getElem_mem hi)).tokenOf_stored i

theorem State.sameOutside_writeTokens (s : State) (tokens : List Token) :
    SameOutside s (s.writeTokens tokens) .tok 0 tokens.length := fun a ha =>
  s.readWord_writeWords_outside .tok 0 _ a (by simpa using ha)

theorem State.sameBut_writeTokens (s : State) (tokens : List Token) : SameBut s (s.writeTokens tokens) [.tok] :=
  ⟨rfl, rfl, rfl, rfl, fun id hid => s.writeWords_get_ne .tok id 0 _ (by simpa using hid)⟩

/-- R351: a command whose pre-checks pass completes with its effect. -/
theorem exec_of_commandError_none {i : Instr} {s : State} (h : commandError i s = none) :
    exec i s = .next (commandEffect i s).complete := by
  rw [exec_eq_runCommand, h, runCommand_none]

theorem State.nsym_legal {s : State} (h : s.regLegal .nsym = true) :
    1 ≤ s.regs.nsym.toNat ∧ s.regs.nsym.toNat ≤ nsymMax := of_decide_eq_true h

/-- Settles O38: the tokens are read back from TOK, and they expand to the lengths. -/
theorem hufRleTokensExpandToTheLengths : Obligations.HufRleTokensExpandToTheLengths := by
  intro s hwf hnsym
  have hcanon := s.memsWf_iff.1 hwf
  have hlens := State.lengths_le hcanon
  have hok : commandError .hufRle s = none :=
    Option.or_eq_none_iff.2 ⟨rfl, (checkNsym_eq_none s).2 (State.nsym_legal hnsym)⟩
  have htokens := State.tokens_writeTokens hcanon fun _ ht => fits_of_mem_rle hlens ht
  refine ⟨_, (rle s.lengths).length, exec_of_commandError_none hok, rfl,
    (rle_length_le _).trans_eq s.lengths_length, s.sameBut_writeTokens _, s.sameOutside_writeTokens _, htokens, ?_⟩
  exact (congrArg (expandTokens 8) htokens).trans (expandTokens_rle hlens)

end Sys2Proof.Machine
end

/-! ### Merging leaves and packages (R174, R175) -/

section
namespace Sys2Proof.Machine

/-- R175: the order in which items are merged; a leaf of equal weight goes first. -/
def HufItem.notHeavier (a b : HufItem) : Bool := decide (a.weight ≤ b.weight)

/-- R173: ascending weight. -/
def Ascending (items : List HufItem) : Prop := items.Pairwise (fun a b => a.notHeavier b = true)

theorem HufItem.notHeavier_trans (a b c : HufItem) (hab : a.notHeavier b = true) (hbc : b.notHeavier c = true) :
    a.notHeavier c = true := by
  simp only [HufItem.notHeavier, decide_eq_true_eq] at *
  exact hab.trans hbc

theorem HufItem.notHeavier_total (a b : HufItem) : (a.notHeavier b || b.notHeavier a) = true := by
  simp only [HufItem.notHeavier, Bool.or_eq_true, decide_eq_true_eq]
  exact Nat.le_total _ _

/-- R175: with room for all items the merge is the library's stable one. -/
theorem hufMerge_eq_merge {n : Nat} {leaves packages : List HufItem} (h : leaves.length + packages.length ≤ n) :
    hufMerge n leaves packages = leaves.merge packages HufItem.notHeavier := by
  induction n generalizing leaves packages with
  | zero =>
    obtain ⟨rfl, rfl⟩ : leaves = [] ∧ packages = [] := by
      constructor <;> apply List.length_eq_zero_iff.1 <;> omega
    simp [hufMerge]
  | succ n ih =>
    match leaves, packages with
    | [], packages => simp [hufMerge]
    | leaf :: leaves, [] => simp [hufMerge]
    | leaf :: leaves, package :: packages =>
      simp only [List.length_cons] at h
      simp only [hufMerge, List.cons_merge_cons, HufItem.notHeavier, decide_eq_true_eq]
      rw [ih (by simp only [List.length_cons]; omega), ih (by simp only [List.length_cons]; omega)]

theorem hufLevel_succ (leaves : List HufItem) (j : Nat) :
    hufLevel leaves (j + 1) = leaves.merge (hufPackages (hufLevel leaves j)) HufItem.notHeavier :=
  hufMerge_eq_merge (Nat.le_refl _)

/-- R175: the first items of a merge are the first `c` leaves and the first `p` packages, and these packages are lighter
than the leaf that comes next. -/
theorem merge_take_perm {leaves : List HufItem} (hasc : Ascending leaves) (packages : List HufItem) {n : Nat}
    (hn : n ≤ leaves.length + packages.length) :
    ∃ c p, c ≤ leaves.length ∧ p ≤ packages.length ∧ c + p = n ∧
      ((leaves.merge packages HufItem.notHeavier).take n).Perm (leaves.take c ++ packages.take p) ∧
      ∀ leaf ∈ leaves.drop c, ∀ package ∈ packages.take p, package.weight < leaf.weight := by
  induction n generalizing leaves packages with
  | zero => exact ⟨0, 0, Nat.zero_le _, Nat.zero_le _, rfl, by simp, by simp⟩
  | succ n ih =>
    match leaves, packages with
    | [], packages => exact ⟨0, n + 1, Nat.le_refl _, by simpa using hn, by omega, by simp, by simp⟩
    | leaf :: leaves, [] => exact ⟨n + 1, 0, by simpa using hn, Nat.le_refl _, rfl, by simp, by simp⟩
    | leaf :: leaves, package :: packages =>
      obtain ⟨hleaf, htail⟩ := List.pairwise_cons.1 hasc
      simp only [List.length_cons] at hn
      by_cases hle : leaf.weight ≤ package.weight
      · obtain ⟨c, p, hc, hp, hsum, hperm, hlight⟩ :=
          ih htail (package :: packages) (by simp only [List.length_cons]; omega)
        refine ⟨c + 1, p, Nat.succ_le_succ hc, hp, by omega, ?_, hlight⟩
        rw [List.cons_merge_cons_pos _ _ _ (decide_eq_true hle)]
        exact hperm.cons leaf
      · obtain ⟨c, p, hc, hp, hsum, hperm, hlight⟩ := ih hasc packages (by simp only [List.length_cons]; omega)
        refine ⟨c, p + 1, hc, Nat.succ_le_succ hp, by omega, ?_, fun leaf' hleaf' package' hpackage' => ?_⟩
        · rw [List.cons_merge_cons_neg _ _ _ (by simpa [HufItem.notHeavier] using hle)]
          exact (hperm.cons package).trans List.perm_middle.symm
        · obtain rfl | hpackage' := List.mem_cons.1 hpackage'
          · have hfirst : leaf.weight ≤ leaf'.weight := by
              obtain rfl | hmem := List.mem_cons.1 (List.mem_of_mem_drop hleaf')
              · exact Nat.le_refl _
              · exact of_decide_eq_true (hleaf leaf' hmem)
            omega
          · exact hlight leaf' hleaf' package' hpackage'

end Sys2Proof.Machine
end

/-! ### Packages and levels (R174) -/

section
namespace Sys2Proof.Machine

theorem hufPackages_length (items : List HufItem) : (hufPackages items).length = items.length / 2 := by
  induction items using hufPackages.induct with
  | case1 a b rest ih => simp only [hufPackages, List.length_cons, ih]; omega
  | case2 items h =>
    match items, h with
    | [], _ => rfl
    | [a], _ => simp [hufPackages]
    | a :: b :: rest, h => exact absurd rfl (h a b rest)

/-- R174: the first `p` packages hold the symbols of the first `2 p` items. -/
theorem hufPackages_take_symbols (items : List HufItem) (p : Nat) (hp : 2 * p ≤ items.length) :
    ((hufPackages items).take p).flatMap HufItem.symbols = (items.take (2 * p)).flatMap HufItem.symbols := by
  induction p generalizing items with
  | zero => simp
  | succ p ih =>
    match items with
    | a :: b :: rest =>
      simp only [List.length_cons] at hp
      simp only [hufPackages, Nat.mul_succ, List.take_succ_cons, List.flatMap_cons, ih rest (by omega),
        List.append_assoc]

/-- R174: an item is not heavier than the package it is in. -/
theorem exists_package_of_mem_take (items : List HufItem) (p : Nat) (hp : 2 * p ≤ items.length) {item : HufItem}
    (hitem : item ∈ items.take (2 * p)) : ∃ package ∈ (hufPackages items).take p, item.weight ≤ package.weight := by
  induction p generalizing items with
  | zero => simp at hitem
  | succ p ih =>
    match items with
    | a :: b :: rest =>
      simp only [List.length_cons] at hp
      simp only [Nat.mul_succ, List.take_succ_cons, List.mem_cons] at hitem
      simp only [hufPackages, List.take_succ_cons, List.exists_mem_cons_iff]
      obtain rfl | rfl | hrest := hitem
      · exact .inl (Nat.le_add_right _ _)
      · exact .inl (Nat.le_add_left _ _)
      · exact .inr (ih rest (by omega) hrest)

/-- R174: with `m` leaves, at most `k 2^j`, list `j` lacks at most `k` items of `2 m`. -/
theorem hufLevel_length_ge (leaves : List HufItem) (j k : Nat) (h : leaves.length ≤ k * 2 ^ j) :
    2 * leaves.length ≤ (hufLevel leaves j).length + k := by
  induction j generalizing k with
  | zero => simp only [hufLevel]; omega
  | succ j ih =>
    have hprev := ih (2 * k) (by rw [Nat.pow_succ] at h; linarith)
    rw [hufLevel_succ, List.length_merge, hufPackages_length]
    omega

theorem exists_pair_of_mem_hufPackages {items : List HufItem} {package : HufItem} (h : package ∈ hufPackages items) :
    ∃ x ∈ items, ∃ y ∈ items, package.weight = x.weight + y.weight := by
  induction items using hufPackages.induct with
  | case1 a b rest ih =>
    obtain rfl | h := List.mem_cons.1 h
    · exact ⟨a, by simp, b, by simp, rfl⟩
    · obtain ⟨x, hx, y, hy, hw⟩ := ih h
      exact ⟨x, by simp [hx], y, by simp [hy], hw⟩
  | case2 items hshort => rw [hufPackages.eq_2 items hshort] at h; exact absurd h List.not_mem_nil

theorem ascending_hufPackages {items : List HufItem} (h : Ascending items) : Ascending (hufPackages items) := by
  induction items using hufPackages.induct with
  | case1 a b rest ih =>
    obtain ⟨ha, hrest⟩ := List.pairwise_cons.1 h
    obtain ⟨hb, hrest⟩ := List.pairwise_cons.1 hrest
    refine List.pairwise_cons.2 ⟨fun package hpackage => ?_, ih hrest⟩
    obtain ⟨x, hx, y, hy, hw⟩ := exists_pair_of_mem_hufPackages hpackage
    have hax : a.weight ≤ x.weight := of_decide_eq_true (ha x (List.mem_cons_of_mem b hx))
    have hby : b.weight ≤ y.weight := of_decide_eq_true (hb y hy)
    exact decide_eq_true (hw ▸ Nat.add_le_add hax hby)
  | case2 items hshort => rw [hufPackages.eq_2 items hshort]; exact List.Pairwise.nil

theorem ascending_hufLevel {leaves : List HufItem} (hasc : Ascending leaves) (j : Nat) :
    Ascending (hufLevel leaves j) := by
  induction j with
  | zero => exact hasc
  | succ j ih =>
    rw [hufLevel_succ]
    exact List.pairwise_merge HufItem.notHeavier_trans HufItem.notHeavier_total _ _ hasc (ascending_hufPackages ih)

/-! ### What the first items of a list hold (R176) -/

/-- The value of a list of cuts, the first of which counts most. -/
def binarySum : List Nat → Nat
  | [] => 0
  | c :: cs => c * 2 ^ cs.length + binarySum cs

/-- R176: `items` hold, in themselves and in their packages, the symbols of the first `c` leaves of each of several
lists, one cut `c` for every list: the cuts of the earlier lists are not larger, and an item counts double against one
of the list before. -/
structure LeafCuts (leaves items : List HufItem) (c : Nat) (cs : List Nat) : Prop where
  bound : c ≤ leaves.length
  falling : (c :: cs).Pairwise (· ≥ ·)
  held : leaves.take c ⊆ items
  symbols : (items.flatMap HufItem.symbols).Perm
    ((c :: cs).flatMap (fun c => (leaves.take c).flatMap HufItem.symbols))
  total : binarySum (c :: cs) = items.length * 2 ^ cs.length

/-- R174 to R176: the first items of list `j` hold the first leaves of each of the lists up to `j`. A leaf of the list
before is not held unless the same leaf of list `j` is: its package would be heavier than that leaf. -/
theorem exists_leafCuts {leaves : List HufItem} (hasc : Ascending leaves) (j : Nat) {n : Nat}
    (hn : n ≤ (hufLevel leaves j).length) :
    ∃ c cs, cs.length = j ∧ LeafCuts leaves ((hufLevel leaves j).take n) c cs := by
  induction j generalizing n with
  | zero =>
    refine ⟨n, [], rfl, hn, by simp, fun _ h => h, by simp [hufLevel], ?_⟩
    rw [List.length_take, Nat.min_eq_left hn]
    simp [binarySum]
  | succ j ih =>
    rw [hufLevel_succ] at hn ⊢
    obtain ⟨c, p, hc, hp, hsum, hperm, hlight⟩ := merge_take_perm hasc (hufPackages (hufLevel leaves j))
      (hn.trans_eq (List.length_merge ..))
    have hpairs : 2 * p ≤ (hufLevel leaves j).length := by rw [hufPackages_length] at hp; omega
    obtain ⟨c', cs, hlen, hcuts⟩ := ih hpairs
    have hfall : c' ≤ c := by
      by_contra hlt
      have hnext : c < leaves.length := by have := hcuts.bound; omega
      have hheld : leaves[c] ∈ (hufLevel leaves j).take (2 * p) :=
        hcuts.held (List.mem_take_iff_getElem.2 ⟨c, by omega, rfl⟩)
      obtain ⟨package, hpackage, hheavy⟩ := exists_package_of_mem_take _ p hpairs hheld
      have := hlight leaves[c] (List.mem_drop_iff_getElem.2 ⟨0, by omega, rfl⟩) package hpackage
      omega
    refine ⟨c, c' :: cs, by simp [hlen], hc, ?_, ?_, ?_, ?_⟩
    · refine List.pairwise_cons.2 ⟨fun d hd => ?_, hcuts.falling⟩
      obtain rfl | hd := List.mem_cons.1 hd
      · exact hfall
      · exact (List.rel_of_pairwise_cons hcuts.falling hd).trans hfall
    · exact fun leaf hleaf => hperm.symm.subset (List.mem_append_left _ hleaf)
    · refine (hperm.flatMap_right HufItem.symbols).trans ?_
      rw [List.flatMap_append, hufPackages_take_symbols _ p hpairs, List.flatMap_cons]
      exact hcuts.symbols.append_left _
    · have htotal := hcuts.total
      rw [List.length_take, Nat.min_eq_left hpairs] at htotal
      rw [List.length_take, Nat.min_eq_left hn, binarySum, htotal, List.length_cons, ← hsum, Nat.pow_succ]
      ring

/-- Falling cuts of at most `b` are worth less than `b` cuts before them. -/
theorem binarySum_add_le {cs : List Nat} {b : Nat} (h : ∀ c ∈ cs, c ≤ b) : binarySum cs + b ≤ b * 2 ^ cs.length := by
  induction cs with
  | nil => simp [binarySum]
  | cons c cs ih =>
    obtain ⟨hc, hcs⟩ := List.forall_mem_cons.1 h
    have hmul : c * 2 ^ cs.length ≤ b * 2 ^ cs.length := Nat.mul_le_mul_right _ hc
    have hrest := ih hcs
    rw [binarySum, List.length_cons, Nat.pow_succ]
    linarith

/-- R176: among the first `2 m - 2` items of a list are all `m` leaves. -/
theorem LeafCuts.full {leaves items : List HufItem} {c : Nat} {cs : List Nat} (h : LeafCuts leaves items c cs)
    (hm : 2 ≤ leaves.length) (hitems : items.length = 2 * leaves.length - 2) : c = leaves.length := by
  by_contra hne
  have hbound : ∀ d ∈ c :: cs, d ≤ leaves.length - 1 := by
    have hc : c ≤ leaves.length - 1 := by have := h.bound; omega
    refine List.forall_mem_cons.2 ⟨hc, fun d hd => (List.rel_of_pairwise_cons h.falling hd).trans hc⟩
  have hsum := binarySum_add_le hbound
  rw [h.total, hitems, List.length_cons, Nat.pow_succ] at hsum
  have hdouble : (2 * leaves.length - 2) * 2 ^ cs.length = (leaves.length - 1) * (2 ^ cs.length * 2) := by
    rw [show 2 * leaves.length - 2 = (leaves.length - 1) * 2 by omega]; ring
  omega

end Sys2Proof.Machine
end

/-! ### The elements of a list by their positions -/

section
namespace Sys2Proof.Machine

theorem zipIdx_eq_map_getD (l : List Nat) : l.zipIdx = (List.range l.length).map (fun i => (l.getD i 0, i)) := by
  refine List.ext_getElem (by simp) fun i hi _ => ?_
  have hi : i < l.length := by simpa using hi
  simp [hi]

theorem map_getD_range {l : List Nat} {k : Nat} (hk : k ≤ l.length) :
    (List.range k).map (fun i => l.getD i 0) = l.take k := by
  refine List.ext_getElem (by simp [hk]) fun i hi _ => ?_
  rw [List.length_map, List.length_range] at hi
  simp [hi.trans_le hk]

theorem map_getD_range_length (l : List Nat) : (List.range l.length).map (fun i => l.getD i 0) = l := by
  rw [map_getD_range (Nat.le_refl _), List.take_length]

theorem getD_le {l : List Nat} {b : Nat} (h : ∀ x ∈ l, x ≤ b) (i : Nat) : l.getD i 0 ≤ b := by
  by_cases hi : i < l.length
  · rw [List.getD_eq_getElem _ 0 hi]; exact h _ (List.getElem_mem hi)
  · rw [List.getD_eq_default _ _ (Nat.le_of_not_lt hi)]; exact Nat.zero_le _

end Sys2Proof.Machine
end

/-! ### The used symbols in the order of their leaves (R172, R173) -/

section
namespace Sys2Proof.Machine

/-- R172: the used symbols in ascending order, each with its count. -/
theorem usedSymbols_eq (hist : List Nat) :
    usedSymbols hist =
      ((List.range hist.length).filter (fun s => decide (0 < hist.getD s 0))).map (fun s => (hist.getD s 0, s)) := by
  rw [usedSymbols, zipIdx_eq_map_getD, List.filter_map]
  rfl

/-- R172: `m`, counted in the histogram itself. -/
theorem usedCount_eq (hist : List Nat) : usedCount hist = (hist.filter (fun c => decide (0 < c))).length := by
  have hfst : (usedSymbols hist).map Prod.fst = hist.filter (fun c => decide (0 < c)) := by
    conv_rhs => rw [← List.zipIdx_map_fst 0 hist, List.filter_map]
    rfl
  rw [usedCount, ← hfst, List.length_map]

/-- R173: the used symbols in the order of their leaves. -/
def leafOrder (hist : List Nat) : List Nat := ((usedSymbols hist).insertionSort leafLe).map Prod.snd

theorem leafOrder_perm (hist : List Nat) :
    (leafOrder hist).Perm ((List.range hist.length).filter (fun s => decide (0 < hist.getD s 0))) := by
  refine ((List.perm_insertionSort leafLe (usedSymbols hist)).map Prod.snd).trans (List.Perm.of_eq ?_)
  rw [usedSymbols_eq, List.map_map]
  exact List.map_id _

theorem leafOrder_nodup (hist : List Nat) : (leafOrder hist).Nodup :=
  (leafOrder_perm hist).nodup_iff.2 (List.nodup_range.filter _)

theorem mem_leafOrder {hist : List Nat} {s : Nat} : s ∈ leafOrder hist ↔ 0 < hist.getD s 0 := by
  rw [(leafOrder_perm hist).mem_iff, List.mem_filter, List.mem_range, decide_eq_true_eq, and_iff_right_iff_imp]
  intro hpos
  by_contra hout
  rw [List.getD_eq_default _ _ (Nat.le_of_not_lt hout)] at hpos
  exact absurd hpos (Nat.lt_irrefl 0)

theorem leafOrder_length (hist : List Nat) : (leafOrder hist).length = usedCount hist := by
  simp [leafOrder, usedCount]

theorem leafLe_total : Std.Total leafLe := ⟨fun a b => by unfold leafLe; omega⟩

theorem leafLe_trans : IsTrans (Nat × Nat) leafLe := ⟨fun a b c => by unfold leafLe; omega⟩

/-- R173: the leaves' order is by count, then by symbol. -/
theorem leafOrder_pairwise (hist : List Nat) :
    (leafOrder hist).Pairwise (fun a b => leafLe (hist.getD a 0, a) (hist.getD b 0, b)) := by
  have := leafLe_total
  have := leafLe_trans
  refine List.pairwise_map.2 ((List.pairwise_insertionSort leafLe (usedSymbols hist)).imp_of_mem ?_)
  intro a b ha hb hab
  have hcount : ∀ x ∈ (usedSymbols hist).insertionSort leafLe, (hist.getD x.2 0, x.2) = x := fun x hx => by
    rw [List.mem_insertionSort, usedSymbols_eq, List.mem_map] at hx
    obtain ⟨s, -, rfl⟩ := hx
    rfl
  rwa [hcount a ha, hcount b hb]

theorem hufLeaves_eq (hist : List Nat) : hufLeaves hist = (leafOrder hist).map (fun s => ⟨hist.getD s 0, [s]⟩) := by
  rw [hufLeaves, leafOrder, List.map_map]
  refine List.map_congr_left fun x hx => ?_
  rw [List.mem_insertionSort, usedSymbols_eq, List.mem_map] at hx
  obtain ⟨s, -, rfl⟩ := hx
  rfl

theorem hufLeaves_length (hist : List Nat) : (hufLeaves hist).length = usedCount hist := by
  rw [hufLeaves_eq, List.length_map, leafOrder_length]

theorem ascending_hufLeaves (hist : List Nat) : Ascending (hufLeaves hist) := by
  rw [hufLeaves_eq]
  refine List.pairwise_map.2 ((leafOrder_pairwise hist).imp fun hle => decide_eq_true ?_)
  obtain hlt | ⟨heq, -⟩ := hle
  · exact Nat.le_of_lt hlt
  · exact Nat.le_of_eq heq

/-- R176: the symbols of the first `c` leaves. -/
theorem hufLeaves_take_symbols (hist : List Nat) (c : Nat) :
    ((hufLeaves hist).take c).flatMap HufItem.symbols = (leafOrder hist).take c := by
  rw [hufLeaves_eq, ← List.map_take, List.flatMap_map]
  simp

end Sys2Proof.Machine
end

/-! ### How often a symbol is held by cuts (R176) -/

section
namespace Sys2Proof.Machine

/-- R176: how often a symbol is among the first `c` ones, for the cuts `c` of a list. -/
def depth (order cs : List Nat) (s : Nat) : Nat := (cs.flatMap (fun c => order.take c)).count s

theorem depth_cons (order : List Nat) (c : Nat) (cs : List Nat) (s : Nat) :
    depth order (c :: cs) s = (order.take c).count s + depth order cs s := by
  rw [depth, List.flatMap_cons, List.count_append, depth]

theorem depth_eq_zero_of_not_mem {order : List Nat} {s : Nat} (cs : List Nat) (h : ∀ c ∈ cs, s ∉ order.take c) :
    depth order cs s = 0 :=
  List.count_eq_zero.2 fun hmem =>
    let ⟨c, hc, hs⟩ := List.mem_flatMap.1 hmem
    h c hc hs

theorem depth_le {order : List Nat} (hnodup : order.Nodup) (cs : List Nat) (s : Nat) :
    depth order cs s ≤ cs.length := by
  induction cs with
  | nil => simp [depth]
  | cons c cs ih =>
    have hone : (order.take c).count s ≤ 1 :=
      List.nodup_iff_count_le_one.1 (hnodup.sublist (List.take_sublist c order)) s
    rw [depth_cons, List.length_cons]
    omega

/-- An earlier symbol is held at least as often. -/
theorem depth_antitone {order : List Nat} (hnodup : order.Nodup) (cs : List Nat) {a b : Nat} (hab : a ≤ b)
    (hb : b < order.length) : depth order cs order[b] ≤ depth order cs order[a] := by
  induction cs with
  | nil => simp [depth]
  | cons c cs ih =>
    have hsub : (order.take c).Nodup := hnodup.sublist (List.take_sublist c order)
    have hhead : (order.take c).count order[b] ≤ (order.take c).count order[a] := by
      by_cases hbc : b < c
      · have ha : order[a] ∈ order.take c := List.mem_take_iff_getElem.2 ⟨a, by omega, rfl⟩
        rw [List.count_eq_one_of_mem hsub ha]
        exact List.nodup_iff_count_le_one.1 hsub _
      · have hnot : order[b] ∉ order.take c := fun hmem => by
          obtain ⟨i, hi, heq⟩ := List.mem_take_iff_getElem.1 hmem
          have := (hnodup.getElem_inj_iff).1 heq
          omega
        rw [List.count_eq_zero.2 hnot]
        exact Nat.zero_le _
    rw [depth_cons, depth_cons]
    exact Nat.add_le_add hhead ih

/-- R176: the Kraft sum of the depths and the value of falling cuts add up to the number of symbols. -/
theorem depth_kraft {order : List Nat} (hnodup : order.Nodup) {cs : List Nat} (hfall : cs.Pairwise (· ≥ ·))
    (hbound : ∀ c ∈ cs, c ≤ order.length) :
    (order.map (fun s => 2 ^ (cs.length - depth order cs s))).sum + binarySum cs =
      order.length * 2 ^ cs.length := by
  induction cs with
  | nil => simp [depth, binarySum]
  | cons c cs ih =>
    obtain ⟨hc, hbound⟩ := List.forall_mem_cons.1 hbound
    obtain ⟨hle, hfall⟩ := List.pairwise_cons.1 hfall
    have hheld : ∀ s ∈ order.take c,
        2 ^ ((c :: cs).length - depth order (c :: cs) s) = 2 ^ (cs.length - depth order cs s) := fun s hs => by
      rw [depth_cons, List.count_eq_one_of_mem (hnodup.sublist (List.take_sublist c order)) hs, List.length_cons]
      congr 1
      omega
    have hfree : ∀ s ∈ order.drop c,
        2 ^ ((c :: cs).length - depth order (c :: cs) s) = 2 ^ (cs.length - depth order cs s) + 2 ^ cs.length :=
      fun s hs => by
        have hnot : ∀ d ≤ c, s ∉ order.take d := fun d hd hmem => List.disjoint_take_drop hnodup hd hmem hs
        have hlater : ∀ d ∈ cs, s ∉ order.take d := fun d hd => hnot d (hle d hd)
        rw [depth_eq_zero_of_not_mem (c :: cs) (List.forall_mem_cons.2 ⟨hnot c (Nat.le_refl c), hlater⟩),
          depth_eq_zero_of_not_mem cs hlater, List.length_cons, Nat.sub_zero, Nat.sub_zero, Nat.pow_succ]
        omega
    have hsplit : ∀ f : Nat → Nat,
        (order.map f).sum = ((order.take c).map f).sum + ((order.drop c).map f).sum := fun f => by
      rw [← List.sum_append, ← List.map_append, List.take_append_drop]
    have hconst : ((order.drop c).map (fun _ => 2 ^ cs.length)).sum = (order.length - c) * 2 ^ cs.length := by simp
    have hrest := ih hfall hbound
    rw [hsplit, List.map_congr_left hheld, List.map_congr_left hfree, List.sum_map_add, hconst, binarySum,
      List.length_cons, Nat.pow_succ]
    rw [hsplit] at hrest
    have hcut : (order.length - c) * 2 ^ cs.length + c * 2 ^ cs.length = order.length * 2 ^ cs.length := by
      rw [← Nat.add_mul, Nat.sub_add_cancel hc]
    linarith

end Sys2Proof.Machine
end

/-! ### Code lengths (R172, R176) -/

section
namespace Sys2Proof.Machine

theorem codeLengths_getD_of_one {hist : List Nat} (L : Nat) (h : usedCount hist ≤ 1) {j : Nat} (hj : j < hist.length) :
    (codeLengths hist L).getD j 0 = if 0 < hist.getD j 0 then 1 else 0 := by
  simp [codeLengths, h, hj]

/-- R176: with two or more used symbols, at most `2^L`, the lengths are the depths of `L` falling cuts of the leaves'
order, the first of which has all leaves. -/
structure LengthCuts (hist : List Nat) (L : Nat) (cs : List Nat) : Prop where
  length : cs.length = L
  falling : cs.Pairwise (· ≥ ·)
  bound : ∀ c ∈ cs, c ≤ usedCount hist
  all : usedCount hist ∈ cs
  total : binarySum cs = (usedCount hist - 1) * 2 ^ L
  lengths : codeLengths hist L = (List.range hist.length).map (depth (leafOrder hist) cs)

theorem exists_lengthCuts {hist : List Nat} {L : Nat} (hL : 1 ≤ L) (hused : 2 ≤ usedCount hist)
    (hfit : usedCount hist ≤ 2 ^ L) : ∃ cs, LengthCuts hist L cs := by
  obtain ⟨j, rfl⟩ := Nat.exists_eq_add_one.2 hL
  have hleaves := hufLeaves_length hist
  have hlong : 2 * usedCount hist - 2 ≤ (hufLevel (hufLeaves hist) j).length := by
    have := hufLevel_length_ge (hufLeaves hist) j 2 (by rw [hleaves]; rw [Nat.pow_succ] at hfit; omega)
    omega
  obtain ⟨c, cs, hlen, hcuts⟩ := exists_leafCuts (ascending_hufLeaves hist) j hlong
  have htake : ((hufLevel (hufLeaves hist) j).take (2 * usedCount hist - 2)).length = 2 * usedCount hist - 2 := by
    rw [List.length_take, Nat.min_eq_left hlong]
  have hfull : c = usedCount hist := by rw [← hleaves]; exact hcuts.full (by omega) (by omega)
  refine ⟨c :: cs, by simp [hlen], hcuts.falling, ?_, by simp [hfull], ?_, ?_⟩
  · refine List.forall_mem_cons.2 ⟨hfull.le, fun d hd => ?_⟩
    exact (List.rel_of_pairwise_cons hcuts.falling hd).trans hfull.le
  · rw [hcuts.total, htake, hlen, Nat.pow_succ, show 2 * usedCount hist - 2 = (usedCount hist - 1) * 2 by omega]
    ring
  · rw [codeLengths, if_neg (by omega)]
    refine List.map_congr_left fun s _ => ?_
    simp only [hufSelected, hleaves, Nat.add_sub_cancel, hcuts.symbols.count_eq, hufLeaves_take_symbols, depth]

variable {hist cs : List Nat} {L : Nat}

theorem LengthCuts.getD (h : LengthCuts hist L cs) {j : Nat} (hj : j < hist.length) :
    (codeLengths hist L).getD j 0 = depth (leafOrder hist) cs j := by
  simp [h.lengths, hj]

/-- R172: exactly the used symbols have a length. -/
theorem LengthCuts.depth_eq_zero_iff (h : LengthCuts hist L cs) (s : Nat) :
    depth (leafOrder hist) cs s = 0 ↔ hist.getD s 0 = 0 := by
  have hmem : s ∈ cs.flatMap (fun c => (leafOrder hist).take c) ↔ s ∈ leafOrder hist := by
    refine ⟨fun hs => ?_, fun hs => List.mem_flatMap.2 ⟨_, h.all, ?_⟩⟩
    · obtain ⟨c, -, hs⟩ := List.mem_flatMap.1 hs
      exact List.mem_of_mem_take hs
    · rwa [← leafOrder_length, List.take_length]
  rw [depth, List.count_eq_zero, hmem, mem_leafOrder, Nat.not_lt, Nat.le_zero]

/-- R176: no length exceeds `L`. -/
theorem LengthCuts.le (h : LengthCuts hist L cs) : ∀ l ∈ codeLengths hist L, l ≤ L := by
  intro l hl
  rw [h.lengths, List.mem_map] at hl
  obtain ⟨s, -, rfl⟩ := hl
  exact (depth_le (leafOrder_nodup hist) cs s).trans_eq h.length

/-- R176: the Kraft sum is exactly 1. -/
theorem LengthCuts.kraft (h : LengthCuts hist L cs) (hused : 2 ≤ usedCount hist) :
    kraftSum L (codeLengths hist L) = 2 ^ L := by
  have hnonzero : (List.range hist.length).filter ((fun l => decide (l ≠ 0)) ∘ depth (leafOrder hist) cs) =
      (List.range hist.length).filter (fun s => decide (0 < hist.getD s 0)) :=
    List.filter_congr fun s _ => by
      simp only [Function.comp, ne_eq, h.depth_eq_zero_iff s, Nat.pos_iff_ne_zero]
  have hsum : kraftSum L (codeLengths hist L) =
      ((leafOrder hist).map (fun s => 2 ^ (L - depth (leafOrder hist) cs s))).sum := by
    rw [kraftSum, h.lengths, List.filter_map, hnonzero, List.map_map]
    exact ((leafOrder_perm hist).map _).sum_eq.symm
  have hkraft := depth_kraft (leafOrder_nodup hist) h.falling (by rw [leafOrder_length]; exact h.bound)
  rw [h.length, h.total, leafOrder_length, ← hsum] at hkraft
  have hsplit : usedCount hist * 2 ^ L = 2 ^ L + (usedCount hist - 1) * 2 ^ L := by
    conv_lhs => rw [show usedCount hist = 1 + (usedCount hist - 1) by omega, Nat.add_mul, Nat.one_mul]
  omega

/-- R173: a symbol that does not come before another in the leaves' order never has the longer length. -/
theorem LengthCuts.le_of_later (h : LengthCuts hist L cs) {i j : Nat} (hi : i < hist.length) (hj : j < hist.length)
    (hi0 : 0 < hist.getD i 0) (hj0 : 0 < hist.getD j 0) (hlater : ¬ leafLe (hist.getD i 0, i) (hist.getD j 0, j)) :
    (codeLengths hist L).getD i 0 ≤ (codeLengths hist L).getD j 0 := by
  obtain ⟨a, ha, rfl⟩ := List.getElem_of_mem (mem_leafOrder.2 hi0)
  obtain ⟨b, hb, rfl⟩ := List.getElem_of_mem (mem_leafOrder.2 hj0)
  have hba : b ≤ a := by
    by_contra hab
    exact hlater (List.pairwise_iff_getElem.1 (leafOrder_pairwise hist) a b ha hb (Nat.lt_of_not_le hab))
  rw [h.getD hi, h.getD hj]
  exact depth_antitone (leafOrder_nodup hist) cs hba ha

/-- R172, R176: every length is at most `L`. -/
theorem codeLengths_le (hL : 1 ≤ L) (hfit : usedCount hist ≤ 2 ^ L) : ∀ l ∈ codeLengths hist L, l ≤ L := by
  by_cases hone : usedCount hist ≤ 1
  · intro l hl
    simp only [codeLengths, if_pos hone, List.mem_map] at hl
    obtain ⟨c, -, rfl⟩ := hl
    split_ifs <;> omega
  · obtain ⟨cs, hcuts⟩ := exists_lengthCuts hL (Nat.lt_of_not_le hone) hfit
    exact hcuts.le

/-- R172: exactly the used symbols have a length. -/
theorem codeLengths_eq_zero_iff (hL : 1 ≤ L) (hfit : usedCount hist ≤ 2 ^ L) {j : Nat} (hj : j < hist.length) :
    (codeLengths hist L).getD j 0 = 0 ↔ hist.getD j 0 = 0 := by
  by_cases hone : usedCount hist ≤ 1
  · rw [codeLengths_getD_of_one L hone hj]
    by_cases hpos : 0 < hist.getD j 0
    · rw [if_pos hpos]; exact iff_of_false Nat.one_ne_zero hpos.ne'
    · rw [if_neg hpos]; exact iff_of_true rfl (Nat.eq_zero_of_not_pos hpos)
  · obtain ⟨cs, hcuts⟩ := exists_lengthCuts hL (Nat.lt_of_not_le hone) hfit
    rw [hcuts.getD hj, hcuts.depth_eq_zero_iff]

end Sys2Proof.Machine
end

/-! ### The lists by stable sorts (R173 to R175) -/

section
namespace Sys2Proof.Machine

/-- A sort looks only at how an element compares with the later ones. -/
theorem insertionSort_congr {α : Type} {r s : α → α → Prop} [DecidableRel r] [DecidableRel s] {l : List α}
    (h : l.Pairwise (fun a b => r a b ↔ s a b)) : l.insertionSort r = l.insertionSort s := by
  have hinsert : ∀ (a : α) (l : List α), (∀ b ∈ l, r a b ↔ s a b) → l.orderedInsert r a = l.orderedInsert s a := by
    intro a l hl
    induction l with
    | nil => rfl
    | cons b l ih =>
      obtain ⟨hb, hl⟩ := List.forall_mem_cons.1 hl
      simp only [List.orderedInsert_cons, hb, ih hl]
  induction l with
  | nil => rfl
  | cons a l ih =>
    obtain ⟨ha, hl⟩ := List.pairwise_cons.1 h
    rw [List.insertionSort_cons, List.insertionSort_cons, ih hl,
      hinsert a _ fun b hb => ha b ((List.mem_insertionSort s).1 hb)]

/-- R175: inserting the lightest leaf, before what it ties with, into the merge of the others. -/
theorem orderedInsert_merge {leaf : HufItem} {leaves : List HufItem} (packages : List HufItem)
    (hleaf : ∀ x ∈ leaves, leaf.weight ≤ x.weight) :
    (leaves.merge packages HufItem.notHeavier).orderedInsert (fun a b => a.weight ≤ b.weight) leaf =
      (leaf :: leaves).merge packages HufItem.notHeavier := by
  induction packages with
  | nil =>
    cases leaves with
    | nil => simp
    | cons x leaves => simp [hleaf x (by simp)]
  | cons package packages ih =>
    by_cases hle : leaf.weight ≤ package.weight
    · rw [List.cons_merge_cons_pos _ _ _ (decide_eq_true hle)]
      cases leaves with
      | nil => simp [hle]
      | cons x leaves =>
        rw [List.cons_merge_cons]
        split <;> simp [hle, hleaf x (by simp)]
    · have hfirst : ∀ y, leaf.weight ≤ y → ¬ y ≤ package.weight := fun y hy => by omega
      have hskip : leaves.merge (package :: packages) HufItem.notHeavier =
          package :: leaves.merge packages HufItem.notHeavier := by
        cases leaves with
        | nil => simp
        | cons x leaves =>
          exact List.cons_merge_cons_neg _ _ _ (decide_eq_true_iff.not.2 (hfirst _ (hleaf x (by simp))))
      rw [hskip, List.cons_merge_cons_neg _ _ _ (decide_eq_true_iff.not.2 hle), List.orderedInsert_cons,
        if_neg hle, ih]

/-- R175: sorting leaves and packages together is merging them, each in ascending weight. -/
theorem insertionSort_append_eq_merge {leaves packages : List HufItem} (hleaves : Ascending leaves)
    (hpackages : Ascending packages) :
    (leaves ++ packages).insertionSort (fun a b => a.weight ≤ b.weight) =
      leaves.merge packages HufItem.notHeavier := by
  induction leaves with
  | nil =>
    rw [List.nil_append, List.nil_merge]
    exact List.Pairwise.insertionSort_eq (hpackages.imp fun h => of_decide_eq_true h)
  | cons leaf leaves ih =>
    obtain ⟨hleaf, hleaves⟩ := List.pairwise_cons.1 hleaves
    rw [List.cons_append, List.insertionSort_cons, ih hleaves,
      orderedInsert_merge packages fun x hx => of_decide_eq_true (hleaf x hx)]

/-- An item as the statements write it. -/
def HufItem.pair (item : HufItem) : Nat × List Nat := (item.weight, item.symbols)

theorem byWeight_map_pair (items : List HufItem) :
    byWeight (items.map HufItem.pair) =
      (items.insertionSort (fun a b => a.weight ≤ b.weight)).map HufItem.pair :=
  (List.map_insertionSort (fun a b : HufItem => a.weight ≤ b.weight) (fun a b : Nat × List Nat => a.1 ≤ b.1)
    HufItem.pair items fun _ _ _ _ => Iff.rfl).symm

/-- R174: the packages, numbered. -/
theorem pairedItems_map_pair (items : List HufItem) :
    pairedItems (items.map HufItem.pair) = (hufPackages items).map HufItem.pair := by
  induction items using hufPackages.induct with
  | case1 a b rest ih =>
    have hhalf : ((a :: b :: rest).map HufItem.pair).length / 2 = (rest.map HufItem.pair).length / 2 + 1 := by
      simp only [List.length_map, List.length_cons]; omega
    rw [pairedItems, hhalf, List.range_succ_eq_map, hufPackages]
    exact congrArg (_ :: ·) (List.map_map.trans ih)
  | case2 items hshort =>
    match items, hshort with
    | [], _ => rfl
    | [a], _ => simp [pairedItems, hufPackages]
    | a :: b :: rest, hshort => exact (hshort a b rest rfl).elim

theorem sortedLeaves_eq (hist : List Nat) : sortedLeaves hist = (hufLeaves hist).map HufItem.pair := by
  have hsorted : (usedSymbols hist).insertionSort leafLe =
      (usedSymbols hist).insertionSort (fun a b => a.1 ≤ b.1) := by
    refine insertionSort_congr ?_
    rw [usedSymbols_eq]
    refine List.pairwise_map.2 ((List.pairwise_lt_range.filter _).imp fun {a b} hab => ?_)
    simp only [leafLe]
    omega
  have hleaves : ((List.range hist.length).filter (fun s => decide (0 < hist.getD s 0))).map
      (fun s => (hist.getD s 0, [s])) = (usedSymbols hist).map (fun c => (c.1, [c.2])) := by
    rw [usedSymbols_eq, List.map_map]
    rfl
  rw [sortedLeaves, hleaves, byWeight, hufLeaves, hsorted, List.map_map]
  exact (List.map_insertionSort (fun a b : Nat × Nat => a.1 ≤ b.1) (fun a b : Nat × List Nat => a.1 ≤ b.1)
    (fun c => (c.1, [c.2])) (usedSymbols hist) fun _ _ _ _ => Iff.rfl).symm

/-- R174, R175: the lists of the statements are the unit's. -/
theorem levelList_eq (hist : List Nat) (j : Nat) :
    levelList hist j = (hufLevel (hufLeaves hist) j).map HufItem.pair := by
  induction j with
  | zero => exact sortedLeaves_eq hist
  | succ j ih =>
    have hasc := ascending_hufLeaves hist
    rw [levelList, ih, sortedLeaves_eq, pairedItems_map_pair, ← List.map_append, byWeight_map_pair, hufLevel_succ,
      insertionSort_append_eq_merge hasc (ascending_hufPackages (ascending_hufLevel hasc j))]

theorem selectedCount_eq (hist : List Nat) (L sym : Nat) :
    selectedCount hist L sym = (hufSelected (hufLeaves hist) L).count sym := by
  rw [selectedCount, levelList_eq, sortedLeaves_eq, List.length_map, ← List.map_take, List.flatMap_map]
  rfl

/-- Settles O36: the lengths are the depths of the cuts of the leaves' order. -/
theorem codeLengthsMeetKraftEquality : Obligations.CodeLengthsMeetKraftEquality := by
  intro hist L hL hused hfit
  rw [← usedCount_eq] at hused hfit
  obtain ⟨cs, hcuts⟩ := exists_lengthCuts hL hused hfit
  refine ⟨hcuts.le, hcuts.kraft hused, fun i hi => ?_, fun i j hi hj hi0 hj0 => ⟨fun hlt => ?_, fun heq hij => ?_⟩⟩
  · rw [selectedCount_eq, codeLengths, if_neg (by omega)]
    simp [hi]
  · exact hcuts.le_of_later hi hj hi0 hj0 (by simp only [leafLe]; omega)
  · exact hcuts.le_of_later hj hi hj0 hi0 (by simp only [leafLe]; omega)

/-- Settles O35. -/
theorem degenerateHistograms : Obligations.DegenerateHistograms := by
  intro hist L hL
  simp only [← usedCount_eq]
  refine ⟨fun hzero l hl => ?_, fun hone j hj => codeLengths_getD_of_one L hone.le hj,
    fun hfit j hj => codeLengths_eq_zero_iff hL hfit hj⟩
  have hunused : usedCount hist = 0 := by
    rw [usedCount_eq, List.length_eq_zero_iff, List.filter_eq_nil_iff]
    exact fun c hc => by simp [hzero c hc]
  obtain ⟨j, hj, rfl⟩ := List.getElem_of_mem hl
  rw [codeLengths_length] at hj
  rw [← List.getD_eq_getElem _ 0, codeLengths_eq_zero_iff hL (hunused ▸ Nat.zero_le _) hj, List.getD_eq_getElem _ 0 hj]
  exact hzero _ (List.getElem_mem hj)

end Sys2Proof.Machine
end

/-! ### Canonical codes in closed form (R177) -/

section
namespace Sys2Proof.Machine

/-- R177: the lengths below `l`, each a `k` with weight `2^(l - k)`. -/
def shorterWeight (lens : List Nat) (l : Nat) : Nat :=
  ((lens.filter (fun k => decide (k ≠ 0 ∧ k < l))).map (fun k => 2 ^ (l - k))).sum

theorem shorterWeight_cons (k : Nat) (lens : List Nat) (l : Nat) :
    shorterWeight (k :: lens) l = (if k ≠ 0 ∧ k < l then 2 ^ (l - k) else 0) + shorterWeight lens l := by
  simp only [shorterWeight, List.filter_cons, decide_eq_true_eq]
  split
  · rw [List.map_cons, List.sum_cons]
  · rw [Nat.zero_add]

theorem lengthCount_cons (k : Nat) (lens : List Nat) (l : Nat) :
    lengthCount (k :: lens) l = (if k ≠ 0 ∧ k = l then 1 else 0) + lengthCount lens l := by
  unfold lengthCount
  by_cases hl : l = 0
  · rw [if_pos hl, if_pos hl, if_neg (by omega)]
  · by_cases hk : k = l
    · rw [if_neg hl, if_neg hl, if_pos ⟨by omega, hk⟩, hk, List.count_cons_self, Nat.add_comm]
    · rw [if_neg hl, if_neg hl, if_neg (by omega), List.count_cons_of_ne hk, Nat.zero_add]

theorem shorterWeight_succ (lens : List Nat) (l : Nat) :
    shorterWeight lens (l + 1) = (shorterWeight lens l + lengthCount lens l) * 2 := by
  induction lens with
  | nil => simp [shorterWeight, lengthCount]
  | cons k lens ih =>
    have hterm : (if k ≠ 0 ∧ k < l + 1 then 2 ^ (l + 1 - k) else 0) =
        ((if k ≠ 0 ∧ k < l then 2 ^ (l - k) else 0) + if k ≠ 0 ∧ k = l then 1 else 0) * 2 := by
      obtain hlt | rfl | hgt := Nat.lt_trichotomy k l
      · have hpow : 2 ^ (l + 1 - k) = 2 ^ (l - k) * 2 := by rw [← Nat.pow_succ]; congr 1; omega
        by_cases hk0 : k = 0 <;> simp [hk0, hlt, hlt.ne, hlt.le, hpow]
      · by_cases hk0 : k = 0 <;> simp [hk0]
      · rw [if_neg (by omega), if_neg (by omega), if_neg (by omega)]
    rw [shorterWeight_cons, shorterWeight_cons, lengthCount_cons, ih, hterm]
    ring

/-- R177: the first code of a length counts the shorter ones. -/
theorem firstCode_eq (lens : List Nat) (l : Nat) : firstCode lens l = shorterWeight lens l := by
  induction l with
  | zero => simp [firstCode, shorterWeight]
  | succ l ih => rw [shorterWeight_succ, ← ih, firstCode, Nat.shiftLeft_eq, Nat.pow_one]

/-- R177: a code is its length's next one, past the lower symbols of that length. -/
theorem assignCodes_getD (lens next : List Nat) (h : ∀ l ∈ lens, l < next.length) {i : Nat} (hi : i < lens.length) :
    (assignCodes lens next).getD i 0 =
      if lens.getD i 0 = 0 then 0 else next.getD (lens.getD i 0) 0 + (lens.take i).count (lens.getD i 0) := by
  induction lens generalizing next i with
  | nil => simp at hi
  | cons len lens ih =>
    obtain ⟨hlen, hlens⟩ := List.forall_mem_cons.1 h
    cases i with
    | zero => simp only [assignCodes]; split <;> simp_all
    | succ i =>
      have hi : i < lens.length := Nat.lt_of_succ_lt_succ hi
      have hmem : lens.getD i 0 ∈ lens := by rw [List.getD_eq_getElem _ 0 hi]; exact List.getElem_mem hi
      simp only [assignCodes, List.getD_cons_succ, List.take_succ_cons, List.count_cons, beq_iff_eq]
      split
      case isTrue hzero =>
        rw [List.getD_cons_succ, ih next hlens hi]
        by_cases hzero' : lens.getD i 0 = 0
        · rw [if_pos hzero', if_pos hzero']
        · rw [if_neg hzero', if_neg hzero', if_neg (show ¬ len = lens.getD i 0 by omega), Nat.add_zero]
      case isFalse hzero =>
        rw [List.getD_cons_succ, ih _ (by simpa using hlens) hi]
        have hnext : (next.modify len (· + 1)).getD (lens.getD i 0) 0 =
            next.getD (lens.getD i 0) 0 + if len = lens.getD i 0 then 1 else 0 := by
          generalize lens.getD i 0 = l at hmem
          rw [List.getD_eq_getElem?_getD, List.getElem?_modify, List.getD_eq_getElem?_getD,
            List.getElem?_eq_getElem (hlens l hmem)]
          simp only [Option.map_eq_map, Option.map_some, Option.getD_some]
          split <;> rfl
        rw [hnext]
        split <;> omega

theorem canonical_getD {lens : List Nat} (h : ∀ l ∈ lens, l ≤ 15) {i : Nat} (hi : i < lens.length) :
    (canonical lens).getD i 0 =
      if lens.getD i 0 = 0 then 0 else firstCode lens (lens.getD i 0) + (lens.take i).count (lens.getD i 0) := by
  have hlen : lens.getD i 0 < 16 := by
    rw [List.getD_eq_getElem _ 0 hi]
    exact Nat.lt_succ_of_le (h _ (List.getElem_mem hi))
  rw [canonical, assignCodes_getD _ _ (by simpa [Nat.lt_succ_iff] using h) hi]
  generalize lens.getD i 0 = l at hlen
  rw [List.getD_eq_getElem?_getD, List.getElem?_map, List.getElem?_range hlen]
  rfl

/-- R177: `j`'s code comes before `i`'s: it is shorter, or of the same length and of a lower symbol. -/
def CodeBefore (lens : List Nat) (j i : Nat) : Prop :=
  lens.getD j 0 ≠ 0 ∧ (lens.getD j 0 < lens.getD i 0 ∨ lens.getD j 0 = lens.getD i 0 ∧ j < i)

theorem mem_codesBefore {lens : List Nat} {j i : Nat} :
    j ∈ codesBefore lens i ↔ j < lens.length ∧ CodeBefore lens j i := by
  simp [codesBefore, CodeBefore]

theorem codesBefore_nodup (lens : List Nat) (i : Nat) : (codesBefore lens i).Nodup := List.nodup_range.filter _

/-- R177: the shorter codes before a code are those that its length's first code counts. -/
theorem sum_shorter_codes (lens : List Nat) (l : Nat) :
    (((List.range lens.length).filter (fun j => decide (lens.getD j 0 ≠ 0 ∧ lens.getD j 0 < l))).map
      (fun j => 2 ^ (l - lens.getD j 0))).sum = firstCode lens l := by
  conv_rhs => rw [firstCode_eq, shorterWeight, ← map_getD_range_length lens, List.filter_map, List.map_map]
  rfl

/-- R177: the codes of the same length before a code are those of the lower symbols. -/
theorem length_equal_codes {lens : List Nat} {i : Nat} (hi : i ≤ lens.length) (l : Nat) :
    ((List.range lens.length).filter (fun j => decide (j < i) && decide (lens.getD j 0 = l))).length =
      (lens.take i).count l := by
  obtain ⟨k, hk⟩ := Nat.exists_eq_add_of_le hi
  have hlow : (List.range i).filter (fun j => decide (j < i) && decide (lens.getD j 0 = l)) =
      (List.range i).filter (fun j => lens.getD j 0 == l) :=
    List.filter_congr fun j hj => by simp [List.mem_range.1 hj, Bool.beq_eq_decide_eq]
  have hhigh : ((List.range k).map (i + ·)).filter (fun j => decide (j < i) && decide (lens.getD j 0 = l)) = [] := by
    simp
  rw [hk, List.range_add, List.filter_append, hlow, hhigh, List.append_nil, ← map_getD_range hi, List.count,
    List.countP_map, List.countP_eq_length_filter]
  rfl

/-- R177: `j`'s code is shorter than `i`'s. -/
def isShorter (lens : List Nat) (i j : Nat) : Bool := decide (lens.getD j 0 < lens.getD i 0)

/-- R177: a code is the sum of its predecessors' weights. -/
theorem canonical_eq_sum {lens : List Nat} (h : ∀ l ∈ lens, l ≤ 15) {i : Nat} (hi : i < lens.length)
    (hlen : lens.getD i 0 ≠ 0) :
    (canonical lens).getD i 0 = ((codesBefore lens i).map (fun j => 2 ^ (lens.getD i 0 - lens.getD j 0))).sum := by
  have hshort : (codesBefore lens i).filter (isShorter lens i) =
      (List.range lens.length).filter (fun j => decide (lens.getD j 0 ≠ 0 ∧ lens.getD j 0 < lens.getD i 0)) := by
    rw [codesBefore, List.filter_filter]
    refine List.filter_congr fun j _ => Bool.eq_iff_iff.2 ?_
    simp only [isShorter, Bool.and_eq_true, Bool.or_eq_true, decide_eq_true_eq]
    omega
  have hequal : (codesBefore lens i).filter (fun j => !isShorter lens i j) =
      (List.range lens.length).filter (fun j => decide (j < i) && decide (lens.getD j 0 = lens.getD i 0)) := by
    rw [codesBefore, List.filter_filter]
    refine List.filter_congr fun j _ => Bool.eq_iff_iff.2 ?_
    simp only [isShorter, Bool.and_eq_true, Bool.or_eq_true, Bool.not_eq_true', decide_eq_true_eq,
      decide_eq_false_iff_not]
    omega
  have hone : ∀ j ∈ (codesBefore lens i).filter (fun j => !isShorter lens i j),
      2 ^ (lens.getD i 0 - lens.getD j 0) = 1 := fun j hj => by
      rw [hequal, List.mem_filter, Bool.and_eq_true, decide_eq_true_eq, decide_eq_true_eq] at hj
      rw [hj.2.2, Nat.sub_self, Nat.pow_zero]
  have hsplit := ((List.filter_append_perm (isShorter lens i) (codesBefore lens i)).map
    (fun j => 2 ^ (lens.getD i 0 - lens.getD j 0))).sum_eq
  rw [← hsplit, List.map_append, List.sum_append, List.map_congr_left hone, hshort, hequal, sum_shorter_codes,
    List.map_const', List.sum_replicate, length_equal_codes hi.le, canonical_getD h hi, if_neg hlen, smul_eq_mul,
    Nat.mul_one]

end Sys2Proof.Machine
end

/-! ### Canonical codes under the Kraft inequality (R177) -/

section
namespace Sys2Proof.Machine

/-- The part of all 15-bit codes that starts with symbol `j`'s code. -/
def codeShare (lens : List Nat) (j : Nat) : Nat := 2 ^ (15 - lens.getD j 0)

section shares
variable {lens : List Nat}

/-- R177: a code, filled up to 15 bits, is the sum of the shares before it. -/
theorem canonical_scaled (h : ∀ l ∈ lens, l ≤ 15) {i : Nat} (hi : i < lens.length) (hlen : lens.getD i 0 ≠ 0) :
    (canonical lens).getD i 0 * codeShare lens i = ((codesBefore lens i).map (codeShare lens)).sum := by
  rw [canonical_eq_sum h hi hlen, ← List.sum_map_mul_right]
  refine congrArg List.sum (List.map_congr_left fun j hj => ?_)
  obtain ⟨-, -, hle⟩ := mem_codesBefore.1 hj
  have := getD_le h i
  rw [codeShare, codeShare, ← Nat.pow_add]
  congr 1
  omega

/-- R177: the shares of a code and of those before it lie within any list of symbols that has them all. -/
theorem canonical_succ_scaled_le (h : ∀ l ∈ lens, l ≤ 15) {i : Nat} (hi : i < lens.length) (hlen : lens.getD i 0 ≠ 0)
    {symbols : List Nat} (hsub : i :: codesBefore lens i ⊆ symbols) :
    ((canonical lens).getD i 0 + 1) * codeShare lens i ≤ (symbols.map (codeShare lens)).sum := by
  have hself : i ∉ codesBefore lens i := fun hmem => by
    obtain ⟨-, -, hbefore⟩ := mem_codesBefore.1 hmem
    omega
  obtain ⟨part, hperm, hsublist⟩ := (List.nodup_cons.2 ⟨hself, codesBefore_nodup lens i⟩).subperm hsub
  calc ((canonical lens).getD i 0 + 1) * codeShare lens i
      = ((i :: codesBefore lens i).map (codeShare lens)).sum := by
        rw [Nat.add_mul, canonical_scaled h hi hlen, List.map_cons, List.sum_cons, Nat.one_mul, Nat.add_comm]
    _ = (part.map (codeShare lens)).sum := (hperm.map _).sum_eq.symm
    _ ≤ (symbols.map (codeShare lens)).sum :=
        (hsublist.map _).sum_le_sum fun _ _ => Nat.zero_le _

theorem kraftSum_eq_shares (lens : List Nat) :
    kraftSum 15 lens =
      (((List.range lens.length).filter (fun j => decide (lens.getD j 0 ≠ 0))).map (codeShare lens)).sum := by
  conv_lhs => rw [kraftSum, ← map_getD_range_length lens, List.filter_map, List.map_map]
  rfl

/-- R177: with a Kraft sum of at most 1 a code fits its length. -/
theorem canonical_lt (h : ∀ l ∈ lens, l ≤ 15) (hkraft : kraftSum 15 lens ≤ 2 ^ 15) {i : Nat} (hi : i < lens.length)
    (hlen : lens.getD i 0 ≠ 0) : (canonical lens).getD i 0 < 2 ^ lens.getD i 0 := by
  have hsub : i :: codesBefore lens i ⊆ (List.range lens.length).filter (fun j => decide (lens.getD j 0 ≠ 0)) := by
    refine List.cons_subset.2 ⟨by simpa [hi] using hlen, fun j hj => ?_⟩
    obtain ⟨hj, hj0, -⟩ := mem_codesBefore.1 hj
    simpa [hj] using hj0
  have hshares := canonical_succ_scaled_le h hi hlen hsub
  have hpow : (2 : Nat) ^ 15 = 2 ^ lens.getD i 0 * codeShare lens i := by
    rw [codeShare, ← Nat.pow_add, Nat.add_sub_cancel' (getD_le h i)]
  rw [← kraftSum_eq_shares] at hshares
  exact Nat.le_of_mul_le_mul_right ((hshares.trans hkraft).trans_eq hpow) (Nat.two_pow_pos _)

/-- R177: a code's share ends before the share of any later code. -/
theorem canonical_succ_le_of_before (h : ∀ l ∈ lens, l ≤ 15) {i j : Nat} (hi : i < lens.length) (hj : j < lens.length)
    (hbefore : CodeBefore lens i j) :
    ((canonical lens).getD i 0 + 1) * 2 ^ (lens.getD j 0 - lens.getD i 0) ≤ (canonical lens).getD j 0 := by
  obtain ⟨hi0, hij⟩ := hbefore
  have hsub : i :: codesBefore lens i ⊆ codesBefore lens j := by
    refine List.cons_subset.2 ⟨mem_codesBefore.2 ⟨hi, hi0, hij⟩, fun k hk => ?_⟩
    obtain ⟨hk, hk0, hki⟩ := mem_codesBefore.1 hk
    exact mem_codesBefore.2 ⟨hk, hk0, by omega⟩
  have hshares := canonical_succ_scaled_le h hi hi0 hsub
  have hpow : codeShare lens i = 2 ^ (lens.getD j 0 - lens.getD i 0) * codeShare lens j := by
    have := getD_le h j
    rw [codeShare, codeShare, ← Nat.pow_add]
    congr 1
    omega
  rw [← canonical_scaled h hj (by omega), hpow, ← Nat.mul_assoc] at hshares
  exact Nat.le_of_mul_le_mul_right hshares (Nat.two_pow_pos _)

end shares

/-- Settles O37: the codes are disjoint shares of all 15-bit codes, in the order of length and symbol. -/
theorem canonicalCodesArePrefixFree : Obligations.CanonicalCodesArePrefixFree := by
  intro lens h
  refine ⟨fun i hi => ⟨fun hzero => by rw [canonical_getD h hi, if_pos hzero], canonical_eq_sum h hi⟩,
    fun hkraft i j hi hj hi0 => ⟨canonical_lt h hkraft hi hi0, fun hne hj0 hle => ?_, fun hlt => ?_, fun hij heq => ?_⟩⟩
  · by_cases hbefore : CodeBefore lens i j
    · have hnext := (Nat.le_div_iff_mul_le (Nat.two_pow_pos _)).2 (canonical_succ_le_of_before h hi hj hbefore)
      omega
    · obtain ⟨heq, hji⟩ : lens.getD j 0 = lens.getD i 0 ∧ j < i := by
        simp only [CodeBefore] at hbefore
        omega
      have hnext := canonical_succ_le_of_before h hj hi ⟨hj0, .inr ⟨heq, hji⟩⟩
      simp only [heq, Nat.sub_self, Nat.pow_zero, Nat.mul_one, Nat.div_one] at hnext ⊢
      omega
  · exact canonical_succ_le_of_before h hi hj ⟨hi0, .inl hlt⟩
  · have hnext := canonical_succ_le_of_before h hi hj ⟨hi0, .inr ⟨heq, hij⟩⟩
    simp only [heq, Nat.sub_self, Nat.pow_zero, Nat.mul_one] at hnext
    omega

end Sys2Proof.Machine
end

/-! ### HUF.BUILD writes lengths and codes (R171) -/

section
namespace Sys2Proof.Machine

/-- R99: a number written from the start of a memory is read back as what its element stores of it. -/
theorem State.toNat_readWord_writeNats (s : State) (id : MemId) {vs : List Nat} {j : Nat} (hj : j < vs.length) :
    ((s.writeNats id 0 vs).readWord id j).toNat = storedBits id j (BitVec.ofNat 32 (vs.getD j 0)) := by
  have hread := s.readWord_writeWords_inside id 0 (vs.map (BitVec.ofNat 32)) j (by simpa using hj)
  rw [Nat.zero_add, List.getElem_map, ← List.getD_eq_getElem _ 0 hj] at hread
  rw [State.writeNats, hread, MemId.toNat_keep]

theorem State.sameOutside_writeNats (s : State) (id : MemId) (vs : List Nat) :
    SameOutside s (s.writeNats id 0 vs) id 0 vs.length := fun a ha =>
  s.readWord_writeWords_outside id 0 _ a (by simpa using ha)

/-- R171: a length vector and its canonical codes in CLEN and CODE. -/
def State.writeCode (s : State) (lens : List Nat) : State :=
  (s.writeNats .clen 0 lens).writeNats .code 0 (canonical lens)

theorem State.readWord_writeCode_clen (s : State) (lens : List Nat) (a : Nat) :
    (s.writeCode lens).readWord .clen a = (s.writeNats .clen 0 lens).readWord .clen a :=
  State.readWord_writeWords_ne _ .code .clen 0 _ a (by decide)

theorem State.toNat_readWord_writeCode_clen (s : State) {lens : List Nat} (h : ∀ l ∈ lens, l ≤ 15) {j : Nat}
    (hj : j < lens.length) : ((s.writeCode lens).readWord .clen j).toNat = lens.getD j 0 := by
  have hfit : lens.getD j 0 < 16 := Nat.lt_succ_of_le (getD_le h j)
  rw [s.readWord_writeCode_clen, s.toNat_readWord_writeNats .clen hj, storedBits, BitVec.toNat_ofNat,
    Nat.mod_mod_of_dvd _ (by decide), Nat.mod_eq_of_lt hfit]

theorem State.toNat_readWord_writeCode_code (s : State) {lens : List Nat} {j : Nat} (hj : j < lens.length) :
    ((s.writeCode lens).readWord .code j).toNat = (canonical lens).getD j 0 % 65536 := by
  rw [State.writeCode, State.toNat_readWord_writeNats _ .code (hj.trans_eq (canonical_length lens).symm), storedBits,
    BitVec.toNat_ofNat, Nat.mod_mod_of_dvd _ (by decide)]

theorem State.sameOutside_writeCode_clen (s : State) (lens : List Nat) :
    SameOutside s (s.writeCode lens) .clen 0 lens.length := fun a ha =>
  (s.readWord_writeCode_clen lens a).trans (s.sameOutside_writeNats .clen lens a ha)

theorem State.sameOutside_writeCode_code (s : State) (lens : List Nat) :
    SameOutside s (s.writeCode lens) .code 0 lens.length := fun a ha => by
  rw [State.writeCode, State.sameOutside_writeNats _ .code (canonical lens) a (by rwa [canonical_length])]
  exact s.readWord_writeWords_ne .clen .code 0 _ a (by decide)

theorem State.sameBut_writeCode (s : State) (lens : List Nat) : SameBut s (s.writeCode lens) [.clen, .code] :=
  ⟨rfl, rfl, rfl, rfl, fun id hid => by
    obtain ⟨hclen, hcode⟩ : id ≠ .clen ∧ id ≠ .code := by simpa using hid
    exact (State.writeWords_get_ne _ .code id 0 _ hcode).trans (s.writeWords_get_ne .clen id 0 _ hclen)⟩

/-- Settles O34. -/
theorem hufBuildCompletes : Obligations.HufBuildCompletes := by
  intro L s hL hnsym hfit
  rw [← usedCount_eq] at hfit
  have hL1 : 1 ≤ L.toNat := Nat.one_le_iff_ne_zero.2 fun h => hL (BitVec.eq_of_toNat_eq h)
  have hle : ∀ l ∈ codeLengths s.histogram L.toNat, l ≤ 15 := fun l hl =>
    (codeLengths_le hL1 hfit l hl).trans (Nat.le_of_lt_succ L.isLt)
  have hlen : (codeLengths s.histogram L.toNat).length = s.regs.nsym.toNat :=
    (codeLengths_length ..).trans s.histogram_length
  have hok : commandError (.hufBuild L) s = none :=
    Option.or_eq_none_iff.2 ⟨(needLegal_eq_none _).2 (bne_iff_ne.2 hL),
      Option.or_eq_none_iff.2 ⟨(checkNsym_eq_none s).2 (State.nsym_legal hnsym),
        (need_eq_none _ _).2 (decide_eq_true hfit)⟩⟩
  have hexec : exec (.hufBuild L) s = .next (s.writeCode (codeLengths s.histogram L.toNat)).complete :=
    exec_of_commandError_none hok
  have hclen := s.sameOutside_writeCode_clen (codeLengths s.histogram L.toNat)
  have hcode := s.sameOutside_writeCode_code (codeLengths s.histogram L.toNat)
  rw [hlen] at hclen hcode
  exact ⟨_, hexec, rfl, s.sameBut_writeCode _, hclen, hcode, fun j hj =>
    ⟨s.toNat_readWord_writeCode_clen hle (hj.trans_eq hlen.symm),
      s.toNat_readWord_writeCode_code (hj.trans_eq hlen.symm)⟩⟩

end Sys2Proof.Machine
end

/-! ### The path of HUF.STORE (R187 to R189) -/

section
namespace Sys2Proof.Machine

theorem nonzeroSymbols_eq (lens : List Nat) :
    nonzeroSymbols lens = (List.range lens.length).filter (fun s => decide (lens.getD s 0 ≠ 0)) := by
  rw [nonzeroSymbols, zipIdx_eq_map_getD, List.filter_map, List.map_map]
  exact List.map_id _

theorem mem_nonzeroSymbols {lens : List Nat} {s : Nat} :
    s ∈ nonzeroSymbols lens ↔ s < lens.length ∧ lens.getD s 0 ≠ 0 := by
  simp [nonzeroSymbols_eq]

theorem nonzeroSymbols_length (lens : List Nat) :
    (nonzeroSymbols lens).length = (lens.filter (fun l => decide (l ≠ 0))).length := by
  conv_rhs => rw [← map_getD_range_length lens, List.filter_map, List.length_map]
  rw [nonzeroSymbols_eq]
  rfl

/-- R187: the used symbols are listed in ascending order. -/
theorem nonzeroSymbols_eq_of_mem_iff {lens symbols : List Nat} (hasc : symbols.Pairwise (· < ·))
    (h : ∀ s, s ∈ symbols ↔ s < lens.length ∧ lens.getD s 0 ≠ 0) : nonzeroSymbols lens = symbols := by
  refine List.Pairwise.eq_of_mem_iff (r := (· < ·)) ?_ hasc fun s => mem_nonzeroSymbols.trans (h s).symm
  rw [nonzeroSymbols_eq]
  exact List.pairwise_lt_range.filter _

/-- R187: when the full path is taken. -/
theorem fullPath_iff (lens : List Nat) :
    fullPath lens = true ↔ 3 ≤ (lens.filter (fun l => decide (l ≠ 0))).length ∨
      ∃ j, 256 ≤ j ∧ j < lens.length ∧ lens.getD j 0 ≠ 0 := by
  have hhigh : (∃ j, 256 ≤ j ∧ j < lens.length ∧ lens.getD j 0 ≠ 0) ↔ ∃ s ∈ nonzeroSymbols lens, 256 ≤ s := by
    simp only [mem_nonzeroSymbols]
    exact exists_congr fun j => and_comm
  rw [hhigh, ← nonzeroSymbols_length]
  cases hnz : nonzeroSymbols lens with
  | nil => simp [fullPath, hnz]
  | cons first rest =>
    simp only [fullPath, hnz, List.isEmpty_cons, Bool.false_or, Bool.not_eq_true', Bool.and_eq_false_iff,
      decide_eq_false_iff_not, Nat.not_le, List.all_eq_false, decide_eq_true_eq, Nat.not_lt]
    rfl

/-- R189: the small-tree path, when the full path is not taken and a symbol is used. -/
theorem storeFields_small {lens : List Nat} (hnz : nonzeroSymbols lens ≠ []) (hsmall : fullPath lens = false) :
    storeFields lens = storeSmall (nonzeroSymbols lens) := by
  simp [storeFields, hnz, hsmall]

theorem storeSmall_one (a : Nat) :
    storeSmall [a] = [⟨1, 1⟩, ⟨0, 1⟩] ++ (if a ≤ 1 then [⟨0, 1⟩, ⟨a, 1⟩] else [⟨1, 1⟩, ⟨a, 8⟩]) := by
  by_cases h : a ≤ 1 <;> simp [storeSmall, put, h]

theorem storeSmall_two (a b : Nat) :
    storeSmall [a, b] =
      [⟨1, 1⟩, ⟨1, 1⟩] ++ (if a ≤ 1 then [⟨0, 1⟩, ⟨a, 1⟩] else [⟨1, 1⟩, ⟨a, 8⟩]) ++ [⟨b, 8⟩] := by
  by_cases h : a ≤ 1 <;> simp [storeSmall, put, h]

/-- Settles O42. -/
theorem smallTreesAreStoredShort : Obligations.SmallTreesAreStoredShort := by
  intro lens
  refine ⟨fun hzero => ?_, fun a ha ha256 hused => ?_, fun a b hab hb hb256 hused => ?_⟩
  · have hnz : nonzeroSymbols lens = [] :=
      nonzeroSymbols_eq_of_mem_iff List.Pairwise.nil fun s => by
        simp only [List.not_mem_nil, false_iff, not_and, not_not]
        exact fun hs => hzero _ (by rw [List.getD_eq_getElem _ 0 hs]; exact List.getElem_mem hs)
    simp [storeFields, hnz, put]
  · have hnz : nonzeroSymbols lens = [a] :=
      nonzeroSymbols_eq_of_mem_iff (List.pairwise_singleton _ _) fun s => by
        rw [List.mem_singleton]
        exact ⟨fun hs => hs ▸ ⟨ha, (hused a ha).2 rfl⟩, fun ⟨hs, hs0⟩ => (hused s hs).1 hs0⟩
    have hsmall : fullPath lens = false := by simp [fullPath, hnz, ha256]
    rw [storeFields_small (by simp [hnz]) hsmall, hnz, storeSmall_one]
  · have hnz : nonzeroSymbols lens = [a, b] :=
      nonzeroSymbols_eq_of_mem_iff (by simpa using hab) fun s => by
        rw [List.mem_cons, List.mem_singleton]
        refine ⟨?_, fun ⟨hs, hs0⟩ => (hused s hs).1 hs0⟩
        rintro (rfl | rfl)
        · exact ⟨hab.trans hb, (hused s (hab.trans hb)).2 (.inl rfl)⟩
        · exact ⟨hb, (hused s hb).2 (.inr rfl)⟩
    have hsmall : fullPath lens = false := by simp [fullPath, hnz, hb256, hab.trans hb256]
    rw [storeFields_small (by simp [hnz]) hsmall, hnz, storeSmall_two]

end Sys2Proof.Machine
end

/-! ### The layout of HUF.STORE's full path (R190 to R194) -/

section
namespace Sys2Proof.Machine

theorem tokenHistogram_eq (tokens : List Token) : tokenHistogram tokens = tokenCounts tokens := by
  refine List.map_congr_left fun c _ => ?_
  rw [List.count, List.countP_map, List.countP_eq_length_filter]
  exact congrArg List.length (List.filter_congr fun t _ => beq_eq_decide _ _)

/-- R190: the lengths of the code-length code. -/
def metaLengths (tokens : List Token) : List Nat := codeLengths (tokenCounts tokens) 7

/-- R190: at most 19 of the `2^7` codes are used, so the lengths of the code-length code are at most 7. -/
theorem metaLengths_le (tokens : List Token) : ∀ l ∈ metaLengths tokens, l ≤ 7 := by
  have hused : usedCount (tokenCounts tokens) ≤ 19 := by
    rw [usedCount_eq]
    exact (List.length_filter_le _ _).trans_eq (by simp [tokenCounts])
  exact codeLengths_le (by decide) (hused.trans (by decide))

/-- R191: the stored lengths end at the last one that is not 0, or at the fourth. -/
theorem storedLengths_spec (mlen : List Nat) (n : Nat) (hn : 4 ≤ n) :
    4 ≤ storedLengths mlen n ∧ storedLengths mlen n ≤ n ∧
      (∀ i, storedLengths mlen n ≤ i → i < n → mlen.getD (storageOrder.getD i 0) 0 = 0) ∧
      (storedLengths mlen n = 4 ∨ mlen.getD (storageOrder.getD (storedLengths mlen n - 1) 0) 0 ≠ 0) := by
  induction n with
  | zero => omega
  | succ n ih =>
    by_cases hdrop : 4 < n + 1 ∧ mlen.getD (storageOrder.getD n 0) 0 = 0
    · obtain ⟨hge, hle, hzero, hlast⟩ := ih (by omega)
      rw [storedLengths, if_pos hdrop]
      refine ⟨hge, by omega, fun i hi hin => ?_, hlast⟩
      obtain rfl | hlt := Nat.eq_or_lt_of_le (Nat.le_of_lt_succ hin)
      · exact hdrop.2
      · exact hzero i hi hlt
    · rw [storedLengths, if_neg hdrop]
      refine ⟨hn, Nat.le_refl _, fun i hi hin => by omega, ?_⟩
      rw [Nat.add_sub_cancel]
      by_cases hfour : n + 1 = 4
      · exact .inl hfour
      · exact .inr fun hzero => hdrop ⟨by omega, hzero⟩

theorem Token.isZero_iff (t : Token) : t.isZero = true ↔ ZeroCode t.code := by
  simp [Token.isZero, or_assoc]

/-- R192: the number of tokens up to the last one that is not all zeros. -/
def keptTokens (tokens : List Token) : Nat := tokens.length - (trailingZeros tokens).length

theorem take_append_trailingZeros (tokens : List Token) :
    tokens.rdropWhile Token.isZero ++ (trailingZeros tokens).reverse = tokens :=
  List.rdropWhile_append_rtakeWhile

theorem keptTokens_eq (tokens : List Token) : keptTokens tokens = (tokens.rdropWhile Token.isZero).length := by
  have hlen := congrArg List.length (take_append_trailingZeros tokens)
  rw [List.length_append, List.length_reverse] at hlen
  rw [keptTokens]
  omega

theorem drop_keptTokens (tokens : List Token) : tokens.drop (keptTokens tokens) = (trailingZeros tokens).reverse := by
  have hdrop : (tokens.rdropWhile Token.isZero ++ (trailingZeros tokens).reverse).drop
      (tokens.rdropWhile Token.isZero).length = (trailingZeros tokens).reverse := List.drop_left
  rwa [take_append_trailingZeros, ← keptTokens_eq] at hdrop

/-- R192: the tokens dropped are all-zero ones, and the last one kept is not. -/
theorem keptTokens_spec (tokens : List Token) :
    keptTokens tokens ≤ tokens.length ∧ (∀ t ∈ tokens.drop (keptTokens tokens), ZeroCode t.code) ∧
      (keptTokens tokens = 0 ∨ ¬ ZeroCode (tokens.getD (keptTokens tokens - 1) ⟨0, 0⟩).code) := by
  refine ⟨Nat.sub_le _ _, fun t ht => ?_, ?_⟩
  · rw [drop_keptTokens] at ht
    exact t.isZero_iff.1 (List.mem_rtakeWhile_imp ht)
  · by_cases hnil : tokens.rdropWhile Token.isZero = []
    · exact .inl (by rw [keptTokens_eq, hnil]; rfl)
    · refine .inr fun hzero => List.rdropWhile_last_not Token.isZero tokens hnil ?_
      have hpos := List.length_pos_iff.2 hnil
      have hlast : (tokens.rdropWhile Token.isZero ++ (trailingZeros tokens).reverse)[
          (tokens.rdropWhile Token.isZero).length - 1]? = some ((tokens.rdropWhile Token.isZero).getLast hnil) := by
        rw [List.getElem?_append_left (by omega), ← List.getLast?_eq_getElem?, List.getLast?_eq_getLast_of_ne_nil hnil]
      rw [take_append_trailingZeros, ← keptTokens_eq] at hlast
      rw [List.getD_eq_getElem?_getD, hlast] at hzero
      exact (Token.isZero_iff _).2 hzero

/-- R191: the lengths by which tokens are stored. -/
def tokenLengths (mlen : List Nat) : List Nat := if oneSymbolCode mlen then List.replicate codeLengthCodes 0 else mlen

/-- R191: the codes by which tokens are stored. -/
def tokenCodes (mlen : List Nat) : List Nat :=
  if oneSymbolCode mlen then List.replicate codeLengthCodes 0 else canonical mlen

theorem oneSymbolCode_iff (mlen : List Nat) :
    oneSymbolCode mlen = true ↔ (mlen.filter (fun l => decide (l ≠ 0))).length = 1 := by
  rw [oneSymbolCode, nonzeroSymbols_length, decide_eq_true_eq]

theorem tokenLengths_getD (mlen : List Nat) (c : Nat) : (tokenLengths mlen).getD c 0 = storedCodeLength mlen c := by
  unfold tokenLengths storedCodeLength
  simp only [oneSymbolCode_iff]
  split
  · exact Nat.le_zero.1 (getD_le (fun l hl => (List.mem_replicate.1 hl).2.le) c)
  · rfl

theorem extraWidth_eq (c : Nat) : extraWidth c = extraBits c := rfl

/-- R192: what the dropped tokens would cost. -/
theorem trailingBits_eq (mlen : List Nat) (tokens : List Token) :
    trailingBits (tokenLengths mlen) tokens =
      ((tokens.drop (keptTokens tokens)).map (fun t => storedCodeLength mlen t.code + extraWidth t.code)).sum := by
  rw [drop_keptTokens, List.map_reverse, List.sum_reverse, trailingBits]
  simp only [tokenLengths_getD, extraWidth_eq]

/-- R194: a token's bit fields. -/
theorem storeToken_eq (mlen : List Nat) {t : Token} (ht : t.code ≤ 18) :
    storeToken (tokenLengths mlen) (tokenCodes mlen) t = tokenFields mlen t := by
  have hcode : put (rev ((tokenCodes mlen).getD t.code 0) (storedCodeLength mlen t.code))
      (storedCodeLength mlen t.code) = if storedCodeLength mlen t.code = 0 then []
      else [⟨rev ((canonical mlen).getD t.code 0) (storedCodeLength mlen t.code), storedCodeLength mlen t.code⟩] := by
    unfold put
    split
    case isTrue => rfl
    case isFalse hw =>
      have hmany : ¬ oneSymbolCode mlen = true := fun hone => hw (by
        rw [storedCodeLength, if_pos ((oneSymbolCode_iff mlen).1 hone)])
      rw [tokenCodes, if_neg hmany]
  have hextra : put t.extra (extraBits t.code) = if 16 ≤ t.code then [⟨t.extra, extraWidth t.code⟩] else [] := by
    have hzero : extraBits t.code = 0 ↔ ¬ 16 ≤ t.code := by unfold extraBits; split_ifs <;> simp <;> omega
    unfold put
    rw [extraWidth_eq]
    simp only [hzero, ite_not]
  rw [storeToken, tokenLengths_getD, hcode, hextra, tokenFields]

/-- R192: the trimmed form is taken when it drops more than 12 bits and keeps two tokens or more. -/
def trims (tokens : List Token) : Bool :=
  decide (1 < keptTokens tokens) && decide (12 < trailingBits (tokenLengths (metaLengths tokens)) tokens)

theorem streamHeader_eq (trim : Bool) (kept : Nat) :
    (if trim then put 1 1 ++ storeTrimmedLength kept else put 0 1) = streamHeader trim kept := by
  cases trim with
  | false => rfl
  | true =>
    by_cases htwo : kept = 2
    · simp [storeTrimmedLength, streamHeader, htwo, put]
    · simp [storeTrimmedLength, streamHeader, htwo, put, Nat.shiftRight_eq_div_pow]

/-- R190 to R194: the full path by its parts. -/
theorem storeFull_eq (tokens : List Token) :
    storeFull tokens =
      put 0 1 ++ put (storedLengths (metaLengths tokens) 19 - 4) 4 ++
        (storageOrder.take (storedLengths (metaLengths tokens) 19)).flatMap
          (fun c => put ((metaLengths tokens).getD c 0) 3) ++
        (if trims tokens then put 1 1 ++ storeTrimmedLength (keptTokens tokens) else put 0 1) ++
        (tokens.take (if trims tokens then keptTokens tokens else tokens.length)).flatMap
          (storeToken (tokenLengths (metaLengths tokens)) (tokenCodes (metaLengths tokens))) := by
  rw [storeFull, tokenHistogram_eq]
  rfl

/-- R190 to R194: the full path lays its records out as the rules say. -/
theorem fullPathLayout_storeFull {tokens : List Token} (hcodes : ∀ t ∈ tokens, t.code ≤ 18) :
    FullPathLayout tokens (storeFull tokens) := by
  obtain ⟨hge, hle, hzero, hlast⟩ := storedLengths_spec (metaLengths tokens) 19 (by decide)
  refine ⟨metaLengths tokens, storageOrder, storedLengths (metaLengths tokens) 19, keptTokens tokens, trims tokens, rfl,
    rfl, ⟨hge, hle, hzero, hlast⟩, keptTokens_spec tokens, ?_, ?_⟩
  · rw [trims, Bool.and_eq_true, decide_eq_true_eq, decide_eq_true_eq, trailingBits_eq]
  · have htaken : tokens.take (if trims tokens then keptTokens tokens else tokens.length) =
        if trims tokens then tokens.take (keptTokens tokens) else tokens := by
      split
      · rfl
      · exact List.take_length
    have hsub : ∀ t ∈ if trims tokens then tokens.take (keptTokens tokens) else tokens, t ∈ tokens := fun t ht => by
      split at ht
      · exact List.mem_of_mem_take ht
      · exact ht
    rw [storeFull_eq, streamHeader_eq, htaken, List.map_eq_flatMap,
      List.flatMap_congr fun t ht => storeToken_eq (metaLengths tokens) (hcodes t (hsub t ht))]
    rfl

end Sys2Proof.Machine
end

/-! ### Every bit field fits (R193) -/

section
namespace Sys2Proof.Machine

/-- R193: 1 to 12 bits and a value that fits them. -/
def BitField.Fits (f : BitField) : Prop := 1 ≤ f.nbits ∧ f.nbits ≤ 12 ∧ f.value < 2 ^ f.nbits

theorem BitField.fits_mk {value nbits : Nat} (hpos : 1 ≤ nbits) (hle : nbits ≤ 12) (hvalue : value < 2 ^ nbits) :
    BitField.Fits ⟨value, nbits⟩ := ⟨hpos, hle, hvalue⟩

theorem fits_of_mem_put {value nbits : Nat} (hle : nbits ≤ 12) (hvalue : value < 2 ^ nbits) {f : BitField}
    (hf : f ∈ put value nbits) : f.Fits := by
  unfold put at hf
  split at hf
  case isTrue => exact absurd hf List.not_mem_nil
  case isFalse hpos =>
    obtain rfl := List.mem_singleton.1 hf
    exact BitField.fits_mk (Nat.pos_of_ne_zero hpos) hle hvalue

theorem fits_of_mem_streamHeader {trim : Bool} {kept : Nat} (hkept : kept ≤ 1304) (htrim : trim = true → 1 < kept)
    {f : BitField} (hf : f ∈ streamHeader trim kept) : f.Fits := by
  cases trim with
  | false => obtain rfl := List.mem_singleton.1 hf; exact BitField.fits_mk (by decide) (by decide) (by decide)
  | true =>
    have h1 := htrim rfl
    by_cases htwo : kept = 2
    · simp only [streamHeader, htwo, Bool.true_eq_false, if_false, if_true, List.mem_cons, List.not_mem_nil,
        or_false] at hf
      obtain rfl | rfl | rfl := hf <;> exact BitField.fits_mk (by decide) (by decide) (by decide)
    · have hlog := bitsLog2Floor_bounds (x := kept - 2) (by omega)
      have hten : bitsLog2Floor (kept - 2) < 11 := bitsLog2Floor_lt (by omega) (by omega)
      simp only [streamHeader, htwo, Bool.true_eq_false, if_false, List.mem_cons, List.not_mem_nil, or_false] at hf
      generalize bitsLog2Floor (kept - 2) = e at hlog hten hf
      obtain rfl | rfl | rfl := hf
      · exact BitField.fits_mk (by decide) (by decide) (by decide)
      · exact BitField.fits_mk (by decide) (by decide) (show e / 2 < 8 by omega)
      · exact BitField.fits_mk (by omega) (by omega)
          (hlog.2.trans_le (Nat.pow_le_pow_right (by decide) (by omega)))

theorem storedCodeLength_le {mlen : List Nat} (h : ∀ l ∈ mlen, l ≤ 7) (c : Nat) : storedCodeLength mlen c ≤ 7 := by
  unfold storedCodeLength
  split
  · exact Nat.zero_le _
  · exact getD_le h c

theorem fits_of_mem_tokenFields {mlen : List Nat} (h : ∀ l ∈ mlen, l ≤ 7) {t : Token} (ht : t.Fits) {f : BitField}
    (hf : f ∈ tokenFields mlen t) : f.Fits := by
  have hw := storedCodeLength_le h t.code
  rw [tokenFields, List.mem_append] at hf
  obtain hf | hf := hf
  · split at hf
    case isTrue => exact absurd hf List.not_mem_nil
    case isFalse hw0 =>
      obtain rfl := List.mem_singleton.1 hf
      exact ⟨Nat.pos_of_ne_zero hw0, hw.trans (by decide), rev_lt _ _⟩
  · split at hf
    case isFalse => exact absurd hf List.not_mem_nil
    case isTrue hrepeat =>
      obtain rfl := List.mem_singleton.1 hf
      have hpos : 1 ≤ extraWidth t.code := by
        have := ht.1
        unfold extraWidth
        split_ifs <;> omega
      exact ⟨hpos, (extraBits_le t.code).trans (by decide), ht.2⟩

/-- R193: the records of the full path fit. -/
theorem FullPathLayout.fits {tokens : List Token} {fields : List BitField} (h : FullPathLayout tokens fields)
    (htokens : ∀ t ∈ tokens, t.Fits) (hlen : tokens.length ≤ 1304) : ∀ f ∈ fields, f.Fits := by
  obtain ⟨mlen, order, cts, kept, trim, hmlen, -, ⟨hge, hle, -⟩, ⟨hkept, -⟩, htrim, rfl⟩ := h
  have hmeta : ∀ l ∈ mlen, l ≤ 7 := hmlen ▸ metaLengths_le tokens
  intro f hf
  simp only [List.mem_append, List.mem_cons, List.not_mem_nil, or_false] at hf
  obtain (((rfl | rfl) | hf) | hf) | hf := hf
  · exact BitField.fits_mk (by decide) (by decide) (by decide)
  · exact BitField.fits_mk (by decide) (by decide) (show cts - 4 < 16 by omega)
  · obtain ⟨c, -, rfl⟩ := List.mem_map.1 hf
    exact BitField.fits_mk (by decide) (by decide) (Nat.lt_succ_of_le (getD_le hmeta c))
  · exact fits_of_mem_streamHeader (hkept.trans hlen) (fun h => (htrim.1 h).1) hf
  · obtain ⟨t, ht, hf⟩ := List.mem_flatMap.1 hf
    refine fits_of_mem_tokenFields hmeta (htokens t ?_) hf
    split at ht
    · exact List.mem_of_mem_take ht
    · exact ht

theorem storeFields_full {lens : List Nat} (hfull : fullPath lens = true) :
    storeFields lens = storeFull (rle lens) := by
  have hused : ¬ (nonzeroSymbols lens).isEmpty = true := fun hempty => by simp [fullPath, hempty] at hfull
  rw [storeFields, if_neg hused, if_pos hfull]

/-- R189: the records of the small-tree path fit, for symbols below 256. -/
theorem fits_of_mem_storeSmall {nz : List Nat} (hlen : nz.length ≤ 2) (hlow : ∀ s ∈ nz, s ≤ 255) {f : BitField}
    (hf : f ∈ storeSmall nz) : f.Fits := by
  have hsymbol : ∀ i, nz.getD i 0 < 256 := fun i => Nat.lt_succ_of_le (getD_le hlow i)
  simp only [storeSmall, List.mem_append] at hf
  obtain ((hf | hf) | hf) | hf := hf
  · exact fits_of_mem_put (by decide) (by decide) hf
  · exact fits_of_mem_put (by decide) (show nz.length - 1 < 2 by omega) hf
  · split at hf
    case isTrue hfirst =>
      obtain hf | hf := List.mem_append.1 hf
      · exact fits_of_mem_put (by decide) (by decide) hf
      · exact fits_of_mem_put (by decide) (Nat.lt_succ_of_le hfirst) hf
    case isFalse =>
      obtain hf | hf := List.mem_append.1 hf
      · exact fits_of_mem_put (by decide) (by decide) hf
      · exact fits_of_mem_put (by decide) (hsymbol 0) hf
  · split at hf
    case isTrue => exact fits_of_mem_put (by decide) (hsymbol 1) hf
    case isFalse => exact absurd hf List.not_mem_nil

/-- Settles O41, path by path. -/
theorem storedBitFieldsFit : Obligations.StoredBitFieldsFit := by
  intro lens hlen hle f hf
  by_cases hnz : nonzeroSymbols lens = []
  · simp only [storeFields, hnz, List.isEmpty_nil, if_true] at hf
    exact fits_of_mem_put (by decide) (by decide) hf
  · cases hpath : fullPath lens with
    | true =>
      rw [storeFields_full hpath] at hf
      have htokens : ∀ t ∈ rle lens, t.Fits := fun _ => fits_of_mem_rle hle
      exact (fullPathLayout_storeFull fun t ht => (htokens t ht).1).fits htokens ((rle_length_le lens).trans hlen) f hf
    | false =>
      rw [storeFields_small hnz hpath] at hf
      obtain ⟨hfew, hlow⟩ := not_or.1 ((fullPath_iff lens).not.1 (Bool.eq_false_iff.1 hpath))
      rw [← nonzeroSymbols_length] at hfew
      refine fits_of_mem_storeSmall (by omega) (fun s hs => ?_) hf
      obtain ⟨hs, hs0⟩ := mem_nonzeroSymbols.1 hs
      by_contra hhigh
      exact hlow ⟨s, by omega, hs, hs0⟩

end Sys2Proof.Machine
end

/-! ### HUF.STORE appends its bit fields (R186, R195) -/

section
namespace Sys2Proof.Machine

/-- R62: the two host words of bit field `j`. -/
theorem bitFieldWords_getElem? (fields : List BitField) {j : Nat} (hj : j < fields.length) :
    (bitFieldWords fields)[2 * j]? = some (BitVec.ofNat 32 fields[j].value) ∧
      (bitFieldWords fields)[2 * j + 1]? = some (BitVec.ofNat 32 fields[j].nbits) := by
  induction fields generalizing j with
  | nil => exact absurd hj (Nat.not_lt_zero j)
  | cons f fields ih =>
    cases j with
    | zero => exact ⟨rfl, rfl⟩
    | succ j => exact ih (Nat.lt_of_succ_lt_succ hj)

/-- R99: a host word of the appended fields. -/
theorem State.readWord_appendFields_of_getElem? (s : State) {fields : List BitField} {i : Nat} {w : Word}
    (hw : (bitFieldWords fields)[i]? = some w) :
    (s.appendFields fields).readWord .bitq (2 * s.regs.nbitq.toNat + i) =
      MemId.bitq.keep (2 * s.regs.nbitq.toNat + i) w := by
  obtain ⟨hi, rfl⟩ := List.getElem?_eq_some_iff.1 hw
  exact s.readWord_writeWords_inside .bitq _ _ i hi

/-- R62: the value of bit field `j`, whole. -/
theorem State.readWord_appendFields_value (s : State) {fields : List BitField} {j : Nat} (hj : j < fields.length) :
    (s.appendFields fields).readWord .bitq (2 * (s.regs.nbitq.toNat + j)) = BitVec.ofNat 32 fields[j].value := by
  refine BitVec.eq_of_toNat_eq ?_
  rw [Nat.mul_add, s.readWord_appendFields_of_getElem? (bitFieldWords_getElem? fields hj).1, MemId.toNat_keep,
    storedBits, if_neg (by omega)]

/-- R62: the width of bit field `j`, cut to 6 bits. -/
theorem State.toNat_readWord_appendFields_nbits (s : State) {fields : List BitField} {j : Nat}
    (hj : j < fields.length) :
    ((s.appendFields fields).readWord .bitq (2 * (s.regs.nbitq.toNat + j) + 1)).toNat = fields[j].nbits % 64 := by
  rw [Nat.mul_add, Nat.add_assoc, s.readWord_appendFields_of_getElem? (bitFieldWords_getElem? fields hj).2,
    MemId.toNat_keep, storedBits, if_pos (by omega), BitVec.toNat_ofNat, Nat.mod_mod_of_dvd _ (by decide)]

theorem State.sameOutside_appendFields (s : State) (fields : List BitField) :
    SameOutside s (s.appendFields fields) .bitq (2 * s.regs.nbitq.toNat) (2 * fields.length) := fun a ha =>
  s.readWord_writeWords_outside .bitq _ _ a (by rwa [bitFieldWords_length])

theorem State.appendFields_get_ne (s : State) (fields : List BitField) {id : MemId} (h : id ≠ .bitq) :
    (s.appendFields fields).mems.get id = s.mems.get id := s.writeWords_get_ne .bitq id _ _ h

theorem State.writeTokens_get_ne (s : State) (tokens : List Token) {id : MemId} (h : id ≠ .tok) :
    (s.writeTokens tokens).mems.get id = s.mems.get id := s.writeWords_get_ne .tok id _ _ h

/-- R103: a memory is read alike in states that hold it alike. -/
theorem State.readWord_congr_get {s t : State} {id : MemId} (h : t.mems.get id = s.mems.get id) (a : Nat) :
    t.readWord id a = s.readWord id a := by rw [State.readWord, h, State.readWord]

/-- R186: HUF.STORE's effect on BITQ, on either path. -/
theorem commandEffect_hufStore_bitq (s : State) (a : Nat) :
    (commandEffect .hufStore s).readWord .bitq a = (s.appendFields (storeFields s.lengths)).readWord .bitq a := by
  refine State.readWord_congr_get ?_ a
  simp only [commandEffect]
  split
  · exact State.writeTokens_get_ne _ _ (by decide)
  · rfl

/-- R186: TOK and NTOK change on the full path only. -/
theorem commandEffect_hufStore_regs (s : State) :
    (commandEffect .hufStore s).regs =
      { s.regs with
        nbitq := BitVec.ofNat 32 (s.regs.nbitq.toNat + (storeFields s.lengths).length)
        ntok := if fullPath s.lengths then BitVec.ofNat 32 (rle s.lengths).length else s.regs.ntok } := by
  simp only [commandEffect]
  cases fullPath s.lengths <;> rfl

theorem sameBut_commandEffect_hufStore (s : State) :
    SameBut s (commandEffect .hufStore s) (if fullPath s.lengths then [.bitq, .tok] else [.bitq]) := by
  simp only [commandEffect]
  cases fullPath s.lengths with
  | false => exact ⟨rfl, rfl, rfl, rfl, fun id hid => s.appendFields_get_ne _ (by simpa using hid)⟩
  | true =>
    refine ⟨rfl, rfl, rfl, rfl, fun id hid => ?_⟩
    obtain ⟨hbitq, htok⟩ : id ≠ .bitq ∧ id ≠ .tok := by simpa using hid
    exact (State.writeTokens_get_ne _ _ htok).trans (s.appendFields_get_ne _ hbitq)

theorem sameOutside_commandEffect_hufStore_tok (s : State) :
    SameOutside s (commandEffect .hufStore s) .tok 0 (rle s.lengths).length := fun a ha => by
  have happend : (s.appendFields (storeFields s.lengths)).readWord .tok a = s.readWord .tok a :=
    State.readWord_congr_get (s.appendFields_get_ne _ (by decide)) a
  simp only [commandEffect]
  split
  · rw [State.sameOutside_writeTokens _ _ a ha, happend]
  · exact happend

/-- R186, R351: HUF.STORE's pre-checks pass when its operands are legal and its records fit. -/
theorem commandError_hufStore {s : State} (hparams : ParamsLegal .hufStore s) (hfits : ResourcesFit .hufStore s) :
    commandError .hufStore s = none := by
  obtain ⟨-, -, hregs, -⟩ := hparams
  simp only [commandError, hufStoreError, Option.or_eq_none_iff, needLegal_eq_none, checkNsym_eq_none,
    checkNbitq_eq_none, checkFits_eq_none]
  exact ⟨rfl, State.nsym_legal (hregs .nsym (by decide)), of_decide_eq_true (hregs .nbitq (by decide)),
    hfits (.bitq, _) (by simp [resourceNeeds])⟩

/-- Settles O40. -/
theorem hufStoreAppendsItsBitFields : Obligations.HufStoreAppendsItsBitFields := by
  intro s hwf hparams hfits
  have hcanon := s.memsWf_iff.1 hwf
  have hlens := State.lengths_le hcanon
  have htokens : ∀ t ∈ rle s.lengths, t.Fits := fun _ => fits_of_mem_rle hlens
  have hregs : (commandEffect .hufStore s).complete.regs = _ := congrArg Regs.completed (commandEffect_hufStore_regs s)
  refine ⟨_, exec_of_commandError_none (commandError_hufStore hparams hfits), hregs,
    sameBut_commandEffect_hufStore s, fun a ha => ?_, sameOutside_commandEffect_hufStore_tok s,
    fullPath_iff s.lengths, fun hfull => ⟨?_, expandTokens_rle hlens, ?_⟩, fun j hj => ⟨?_, ?_⟩⟩
  · exact (commandEffect_hufStore_bitq s a).trans (s.sameOutside_appendFields _ a ha)
  · have heffect : commandEffect .hufStore s = (s.appendFields (storeFields s.lengths)).writeTokens (rle s.lengths) :=
      if_pos hfull
    rw [heffect]
    exact State.tokens_writeTokens (canonical_appendFields hcanon _) htokens
  · rw [storeFields_full hfull]
    exact fullPathLayout_storeFull fun t ht => (htokens t ht).1
  · exact (commandEffect_hufStore_bitq s _).trans (s.readWord_appendFields_value hj)
  · exact (congrArg BitVec.toNat (commandEffect_hufStore_bitq s _)).trans (s.toNat_readWord_appendFields_nbits hj)

end Sys2Proof.Machine
end

/-!
PROOFS, family 42_lz: the hash chain (R212 to R214), the matches (R216, R219, R220), the stream LZ.REFS leaves and what
it replays to (R217, R221 to R223), and HIST.BUILD on that stream (R253).
-/

/-! ### Memories of whole host words (R53 to R55, R99) -/

section
namespace Sys2Proof.Machine

/-- R103: on canonical memories a range is read word by word. -/
theorem State.readWords_eq_map {s : State} (h : s.mems.Canonical) (id : MemId) (start count : Nat) :
    s.readWords id start count = (List.range count).map (fun i => s.readWord id (start + i)) := by
  refine List.ext_getElem? fun i => ?_
  by_cases hi : i < count
  · rw [State.readWords, Memory.readRange_getElem? _ _ _ _ _ (h id) hi, List.getElem?_map, List.getElem?_range hi]
    rfl
  · rw [List.getElem?_eq_none (by simpa using hi), List.getElem?_eq_none (by simpa using hi)]

/-- R210: pixel `p` of the stream. -/
theorem State.pixels_getD {s : State} (h : s.mems.Canonical) {p : Nat} (hp : p < s.pixelCount) :
    s.pixels.getD p 0 = s.readWord .pix p := by
  rw [State.pixels, State.readWords_eq_map h]
  simp [hp]

/-- R53 to R55: CHAIN, CCACHE and REFS store whole host words. -/
theorem MemId.keep_whole {id : MemId} (hid : id ∈ [MemId.chain, .ccache, .refs]) (i : Nat) (v : Word) :
    id.keep i v = v := by
  refine BitVec.eq_of_toNat_eq ((MemId.toNat_keep id i v).trans ?_)
  simp only [List.mem_cons, List.not_mem_nil, or_false] at hid
  obtain rfl | rfl | rfl := hid
  · rfl
  · rfl
  · rfl

/-- R99, R103: words written to a memory of whole host words are read back as they are. -/
theorem State.readWords_writeWords {s : State} (h : s.mems.Canonical) {id : MemId}
    (hid : id ∈ [MemId.chain, .ccache, .refs]) (vs : List Word) :
    (s.writeWords id 0 vs).readWords id 0 vs.length = vs := by
  rw [State.readWords_eq_map (canonical_writeWords h id 0 vs)]
  refine List.ext_getElem (by simp) fun i _ hi => ?_
  rw [List.getElem_map, List.getElem_range, s.readWord_writeWords_inside id 0 vs i hi, MemId.keep_whole hid]

end Sys2Proof.Machine
end

/-! ### LZ.FILL (R212 to R214) -/

section
namespace Sys2Proof.Machine

/-- R214: the most recent position below `p` whose hash is `k`. -/
def mostRecent (hash : Nat → Nat) (k : Nat) : Nat → Option Nat
  | 0 => none
  | p + 1 => if hash p = k then some p else mostRecent hash k p

theorem mostRecent_eq_none {hash : Nat → Nat} {k p : Nat} (h : ∀ q < p, hash q ≠ k) : mostRecent hash k p = none := by
  induction p with
  | zero => rfl
  | succ p ih =>
    rw [mostRecent, if_neg (h p (Nat.lt_succ_self p))]
    exact ih fun q hq => h q (Nat.lt_succ_of_lt hq)

theorem mostRecent_eq_some {hash : Nat → Nat} {k p q : Nat} (hq : q < p) (hk : hash q = k)
    (hlast : ∀ q', q < q' → q' < p → hash q' ≠ k) : mostRecent hash k p = some q := by
  induction p with
  | zero => exact absurd hq (Nat.not_lt_zero q)
  | succ p ih =>
    obtain hlt | rfl := Nat.lt_succ_iff_lt_or_eq.1 hq
    · rw [mostRecent, if_neg (hlast p hlt (Nat.lt_succ_self p))]
      exact ih hlt fun q' h1 h2 => hlast q' h1 (Nat.lt_succ_of_lt h2)
    · rw [mostRecent, if_pos hk]

/-- R214: while positions are entered, `heads` answers a lookup with the most recent one. -/
def HeadsUpTo (hash : Nat → Nat) (p : Nat) (heads : List (Nat × Nat)) : Prop :=
  ∀ k, heads.lookup k = mostRecent hash k p

theorem HeadsUpTo.enter {hash : Nat → Nat} {p : Nat} {heads : List (Nat × Nat)} (h : HeadsUpTo hash p heads) :
    HeadsUpTo hash (p + 1) ((hash p, p) :: heads) := by
  intro k
  rw [mostRecent, List.lookup_cons]
  by_cases hk : hash p = k
  · simp [hk]
  · have hne : (k == hash p) = false := by simpa using Ne.symm hk
    rw [hne, if_neg hk]
    exact h k

/-- R214: the back-pointer of position `p` in a stream of `n` pixels. -/
def backPointer (hash : Nat → Nat) (n p : Nat) : Word :=
  if p + 2 < n then (mostRecent hash (hash p) p).elim noneMark (BitVec.ofNat 32) else noneMark

/-- R214: from position `p` on, LZ.FILL makes the back-pointers. -/
theorem fillChain_eq_map (hash : Nat → Nat) (n bits : Nat) (vs : List Word) (p : Nat) (heads : List (Nat × Nat))
    (hvs : ∀ (i : Nat) (hi : i < vs.length), hashOf vs[i] bits = hash (p + i))
    (hheads : p + 2 < n → HeadsUpTo hash p heads) :
    fillChain n bits vs p heads = (List.range' p vs.length).map (backPointer hash n) := by
  induction vs generalizing p heads with
  | nil => rfl
  | cons v vs ih =>
    have hv : hashOf v bits = hash p := hvs 0 (Nat.zero_lt_succ _)
    have hrest : ∀ (i : Nat) (hi : i < vs.length), hashOf vs[i] bits = hash (p + 1 + i) := fun i hi => by
      rw [Nat.add_right_comm]; exact hvs (i + 1) (Nat.succ_lt_succ hi)
    rw [fillChain, List.length_cons, List.range'_succ, List.map_cons, backPointer]
    by_cases hp : p + 2 < n
    · simp only [if_pos hp, hv, hheads hp (hash p), ih (p + 1) _ hrest fun _ => (hheads hp).enter]
    · rw [if_neg hp, if_neg hp, ih (p + 1) _ hrest fun h => absurd h (by omega)]

/-- R354: legal dimensions pass their pre-check. -/
theorem checkDim_of_dimsLegal {s : State} (h : s.DimsLegal) : checkDim s = none := by
  obtain ⟨hwidth, hwidth', hheight, hheight'⟩ := h
  exact (checkDim_eq_none s).2 ⟨⟨hwidth, Nat.lt_succ_of_le hwidth'⟩, hheight, Nat.lt_succ_of_le hheight'⟩

/-- R212, R351: LZ.FILL's pre-checks pass when its operands are legal and the pixels fit. -/
theorem commandError_lzFill {s : State} (hparams : ParamsLegal .lzFill s) (hfits : ResourcesFit .lzFill s) :
    commandError .lzFill s = none := by
  obtain ⟨-, hdims, hregs, -⟩ := hparams
  simp only [commandError, lzFillError, Option.or_eq_none_iff, needLegal_eq_none, checkHashBits_eq_none,
    checkFits_eq_none]
  exact ⟨rfl, checkDim_of_dimsLegal (hdims rfl), of_decide_eq_true (hregs .hashBits (by decide)),
    hfits (.pix, _) (by simp [resourceNeeds])⟩

/-- R210, R214: what LZ.FILL writes to CHAIN. -/
theorem State.filledChain_eq {s : State} (h : s.mems.Canonical) :
    fillChain s.pixelCount s.regs.hashBits.toNat s.pixels 0 [] =
      (List.range s.pixelCount).map
        (backPointer (fun q => hashOf (s.readWord .pix q) s.regs.hashBits.toNat) s.pixelCount) := by
  have hhash : ∀ (i : Nat) (hi : i < s.pixels.length), hashOf s.pixels[i] s.regs.hashBits.toNat =
      hashOf (s.readWord .pix (0 + i)) s.regs.hashBits.toNat := fun i hi => by
    rw [Nat.zero_add, ← s.pixels_getD h (hi.trans_eq s.pixels_length), List.getD_eq_getElem _ 0 hi]
  have hfill := fillChain_eq_map (fun q => hashOf (s.readWord .pix q) s.regs.hashBits.toNat) s.pixelCount
    s.regs.hashBits.toNat s.pixels 0 [] hhash fun _ _ => rfl
  rwa [s.pixels_length, ← List.range_eq_range'] at hfill

/-- R212: CHAIN after LZ.FILL. -/
theorem State.readWord_filledChain {s : State} (h : s.mems.Canonical) {p : Nat} (hp : p < s.pixelCount) :
    (commandEffect .lzFill s).readWord .chain p =
      backPointer (fun q => hashOf (s.readWord .pix q) s.regs.hashBits.toNat) s.pixelCount p := by
  have hread := s.readWord_writeWords_inside .chain 0
    (fillChain s.pixelCount s.regs.hashBits.toNat s.pixels 0 []) p (by simpa [s.pixels_length] using hp)
  simp only [s.filledChain_eq h, Nat.zero_add, MemId.keep_whole (id := .chain) (by decide),
    List.getElem_map, List.getElem_range] at hread
  simpa only [commandEffect, s.filledChain_eq h] using hread

/-- Settles O43: the back-pointers, read back from CHAIN. -/
theorem lzFillChainsMostRecentPosition : Obligations.LzFillChainsMostRecentPosition := by
  intro s hwf hparams hfits
  have hcanon := s.memsWf_iff.1 hwf
  have hdepth : s.pixelCount < 2 ^ 32 := (hfits (.pix, _) (by simp [resourceNeeds])).trans_lt s.caps.pix.isLt
  refine ⟨_, exec_of_commandError_none (commandError_lzFill hparams hfits), rfl,
    ⟨rfl, rfl, rfl, rfl, fun id hid => s.writeWords_get_ne .chain id 0 _ (by simpa using hid)⟩,
    fun a ha => s.readWord_writeWords_outside .chain 0 _ a (by simpa [s.pixels_length] using ha), fun p hp => ?_⟩
  have hread : (commandEffect .lzFill s).complete.readWord .chain p = _ := s.readWord_filledChain hcanon hp
  rw [hread, backPointer]
  refine ⟨fun hnone => ?_, fun q hq hlast hhash hmost => ?_⟩
  · split
    case isTrue hin =>
      have hdiff := hnone.resolve_left (by omega)
      rw [mostRecent_eq_none hdiff]
      rfl
    case isFalse => rfl
  · rw [if_pos hlast, mostRecent_eq_some hq hhash hmost]
    exact Nat.mod_eq_of_lt (by omega)

end Sys2Proof.Machine
end

/-! ### The length of a match (R216) -/

section
namespace Sys2Proof.Machine

theorem commonPrefix_le (cap : Nat) (as bs : List Word) : commonPrefix cap as bs ≤ cap := by
  fun_induction commonPrefix cap as bs <;> omega

/-- The leading words the count covers agree. -/
theorem getD_of_lt_commonPrefix {cap d : Nat} {as bs : List Word} (h : d < commonPrefix cap as bs) :
    as.getD d 0 = bs.getD d 0 := by
  fun_induction commonPrefix cap as bs generalizing d with
  | case1 cap as b bs ih =>
    cases d with
    | zero => rfl
    | succ d => exact ih (Nat.lt_of_succ_lt_succ h)
  | case2 => exact absurd h (Nat.not_lt_zero d)
  | case3 => exact absurd h (Nat.not_lt_zero d)

/-- Below the cap, the words at which the count ends differ. -/
theorem getD_commonPrefix_ne {cap : Nat} {as bs : List Word} (has : cap ≤ as.length) (hbs : cap ≤ bs.length)
    (h : commonPrefix cap as bs < cap) :
    as.getD (commonPrefix cap as bs) 0 ≠ bs.getD (commonPrefix cap as bs) 0 := by
  fun_induction commonPrefix cap as bs with
  | case1 cap as b bs ih =>
    exact ih (Nat.le_of_succ_le_succ has) (Nat.le_of_succ_le_succ hbs) (Nat.lt_of_succ_lt_succ h)
  | case2 cap a as b bs hne => exact hne
  | case3 cap as bs hshort =>
    obtain ⟨cap, rfl⟩ := Nat.exists_eq_add_one_of_ne_zero (Nat.ne_of_gt h)
    obtain ⟨a, as, rfl⟩ := List.exists_cons_of_length_pos (Nat.lt_of_lt_of_le (Nat.succ_pos cap) has)
    obtain ⟨b, bs, rfl⟩ := List.exists_cons_of_length_pos (Nat.lt_of_lt_of_le (Nat.succ_pos cap) hbs)
    exact (hshort _ _ _ _ _ rfl rfl rfl).elim

/-- A cap at the count itself does not shorten it. -/
theorem commonPrefix_self (cap : Nat) (as bs : List Word) :
    commonPrefix (commonPrefix cap as bs) as bs = commonPrefix cap as bs := by
  fun_induction commonPrefix cap as bs with
  | case1 cap as b bs ih => rw [commonPrefix, if_pos rfl, ih]
  | case2 | case3 => simp [commonPrefix]

theorem matchLen_le (px : List Word) (q p cap : Nat) : matchLen px q p cap ≤ cap := commonPrefix_le ..

theorem getD_of_lt_matchLen {px : List Word} {q p cap d : Nat} (h : d < matchLen px q p cap) :
    px.getD (q + d) 0 = px.getD (p + d) 0 := by
  simpa [List.getD_eq_getElem?_getD, List.getElem?_drop] using getD_of_lt_commonPrefix h

theorem getD_matchLen_ne {px : List Word} {q p cap : Nat} (hq : q ≤ p) (hcap : p + cap ≤ px.length)
    (h : matchLen px q p cap < cap) :
    px.getD (q + matchLen px q p cap) 0 ≠ px.getD (p + matchLen px q p cap) 0 := by
  have hne := getD_commonPrefix_ne (as := px.drop q) (bs := px.drop p) (by rw [List.length_drop]; omega)
    (by rw [List.length_drop]; omega) h
  simpa [matchLen, List.getD_eq_getElem?_getD, List.getElem?_drop] using hne

theorem matchLen_self (px : List Word) (q p cap : Nat) :
    matchLen px q p (matchLen px q p cap) = matchLen px q p cap := commonPrefix_self ..

end Sys2Proof.Machine
end

/-! ### The walk along the chain (R219) -/

section
namespace Sys2Proof.Machine

/-- R219: the best match so far and a candidate: the longer, and of equal lengths the earlier. -/
def longerMatch (px : List Word) (p cap : Nat) (best : Match) (q : Nat) : Match :=
  if best.len < matchLen px q p cap then ⟨matchLen px q p cap, p - q⟩ else best

/-- R219: the walk compares the candidates it visits in their order. -/
theorem chainWalk_eq_foldl (px chain : List Word) (p cap window it : Nat) (q : Word) (best : Match) :
    chainWalk px chain p cap window it q best =
      (visited chain p window it q).foldl (longerMatch px p cap) best := by
  induction it generalizing q best with
  | zero => rfl
  | succ it ih =>
    rw [chainWalk, visited]
    split
    · rw [List.foldl_cons, ← ih, longerMatch]
    · rfl

/-- The candidates a walk visits lie before `p` and within the window. -/
theorem mem_visited {chain : List Word} {p window it x : Nat} {q : Word} (h : x ∈ visited chain p window it q) :
    x < p ∧ p - x ≤ window := by
  induction it generalizing q with
  | zero => simp [visited] at h
  | succ it ih =>
    rw [visited] at h
    split at h
    case isTrue hq =>
      obtain rfl | h := List.mem_cons.1 h
      · exact hq.2
      · exact ih h
    case isFalse => simp at h

/-- `m` is the match with the first longest of the candidates `qs`. -/
def FirstLongest (px : List Word) (p cap : Nat) (qs : List Nat) (m : Match) : Prop :=
  ∃ pre q post, qs = pre ++ q :: post ∧ m = ⟨matchLen px q p cap, p - q⟩ ∧
    (∀ x ∈ pre, matchLen px x p cap < m.len) ∧ ∀ x ∈ post, matchLen px x p cap ≤ m.len

theorem FirstLongest.head {px : List Word} {p cap q : Nat} {qs : List Nat}
    (h : ∀ x ∈ qs, matchLen px x p cap ≤ matchLen px q p cap) :
    FirstLongest px p cap (q :: qs) ⟨matchLen px q p cap, p - q⟩ :=
  ⟨[], q, qs, rfl, rfl, by simp, h⟩

theorem FirstLongest.cons {px : List Word} {p cap q : Nat} {qs : List Nat} {m : Match}
    (h : FirstLongest px p cap qs m) (hq : matchLen px q p cap < m.len) : FirstLongest px p cap (q :: qs) m := by
  obtain ⟨pre, q', post, rfl, hm, hpre, hpost⟩ := h
  exact ⟨q :: pre, q', post, rfl, hm, List.forall_mem_cons.2 ⟨hq, hpre⟩, hpost⟩

theorem le_longerMatch_len (px : List Word) (p cap : Nat) (best : Match) (q : Nat) :
    best.len ≤ (longerMatch px p cap best q).len ∧ matchLen px q p cap ≤ (longerMatch px p cap best q).len := by
  unfold longerMatch
  split
  case isTrue h => exact ⟨h.le, Nat.le_refl _⟩
  case isFalse h => exact ⟨Nat.le_refl _, Nat.le_of_not_lt h⟩

/-- R219: the comparison ends with the match it began with, or with the first longest candidate, which is longer. -/
theorem foldl_longerMatch (px : List Word) (p cap : Nat) (qs : List Nat) (best : Match) :
    (qs.foldl (longerMatch px p cap) best = best ∧ ∀ x ∈ qs, matchLen px x p cap ≤ best.len) ∨
    (best.len < (qs.foldl (longerMatch px p cap) best).len ∧
      FirstLongest px p cap qs (qs.foldl (longerMatch px p cap) best)) := by
  induction qs generalizing best with
  | nil => exact .inl ⟨rfl, by simp⟩
  | cons q qs ih =>
    obtain ⟨hbest, hq⟩ := le_longerMatch_len px p cap best q
    rw [List.foldl_cons]
    obtain ⟨heq, hrest⟩ | ⟨hlt, hfirst⟩ := ih (longerMatch px p cap best q)
    · rw [heq]
      by_cases hlonger : best.len < matchLen px q p cap
      · rw [longerMatch, if_pos hlonger] at hrest ⊢
        exact .inr ⟨hlonger, .head hrest⟩
      · rw [longerMatch, if_neg hlonger] at hrest ⊢
        exact .inl ⟨rfl, List.forall_mem_cons.2 ⟨Nat.le_of_not_lt hlonger, hrest⟩⟩
    · exact .inr ⟨hbest.trans_lt hlt, hfirst.cons (hq.trans_lt hlt)⟩

/-- R219: a match of flavor Standard is the first longest one visited. -/
theorem standardMatch_eq_some {px chain : List Word} {maxChain window maxLen p : Nat} {m : Match}
    (h : standardMatch px chain maxChain window maxLen p = some m) :
    3 ≤ m.len ∧ FirstLongest px p (min maxLen (px.length - p))
      (visited chain p window maxChain (chain.getD p noneMark)) m := by
  simp only [standardMatch, chainWalk_eq_foldl, Option.ite_none_right_eq_some, Option.some.injEq] at h
  obtain ⟨hlen, rfl⟩ := h
  obtain ⟨heq, -⟩ | ⟨-, hfirst⟩ := foldl_longerMatch px p (min maxLen (px.length - p))
    (visited chain p window maxChain (chain.getD p noneMark)) ⟨0, 0⟩
  · rw [heq] at hlen
    exact absurd hlen (by decide)
  · exact ⟨hlen, hfirst⟩

/-- R219: flavor Standard takes no match when none of length 3 is visited. -/
theorem standardMatch_eq_none {px chain : List Word} {maxChain window maxLen p : Nat}
    (h : standardMatch px chain maxChain window maxLen p = none) :
    ∀ x ∈ visited chain p window maxChain (chain.getD p noneMark),
      matchLen px x p (min maxLen (px.length - p)) < 3 := by
  simp only [standardMatch, chainWalk_eq_foldl, ite_eq_right_iff, reduceCtorEq, imp_false, Nat.not_le] at h
  intro x hx
  obtain ⟨-, hle⟩ | ⟨-, pre, q, post, hqs, hm, hpre, hpost⟩ := foldl_longerMatch px p (min maxLen (px.length - p))
    (visited chain p window maxChain (chain.getD p noneMark)) ⟨0, 0⟩
  · exact (hle x hx).trans_lt (by decide)
  · rw [hqs, List.mem_append, List.mem_cons] at hx
    obtain hx | rfl | hx := hx
    · exact (hpre x hx).trans h
    · rw [hm] at h; exact h
    · exact (hpost x hx).trans_lt h

/-- Settles O46. -/
theorem standardTakesTheFirstLongestMatch : Obligations.StandardTakesTheFirstLongestMatch := by
  intro px chain maxChain window maxLen p
  refine ⟨fun m hm => ?_, standardMatch_eq_none, fun q cap hq hcap =>
    ⟨matchLen_le px q p cap, fun _ => getD_of_lt_matchLen, getD_matchLen_ne hq.le hcap⟩⟩
  obtain ⟨hlen, pre, q, post, hqs, rfl, hpre, hpost⟩ := standardMatch_eq_some hm
  exact ⟨hlen, pre, q, post, hqs, rfl, rfl, hpre, hpost⟩

end Sys2Proof.Machine
end

/-! ### The fields of a record (R55, R218) -/

section
namespace Sys2Proof.Machine

/-- R55: the fields of a first host word made of a length and a mode. -/
theorem RefRec.fields_of_w0 {r : RefRec} {l m : Nat} (h : r.w0.toNat = l * 65536 + m) (hm : m < 4) :
    r.mode = m ∧ r.zero = 0 ∧ r.len = l := by
  have hl : l < 65536 := by have := r.w0.isLt; omega
  simp only [RefRec.mode, RefRec.zero, RefRec.len, BitVec.extractLsb'_toNat, Nat.shiftRight_eq_div_pow, h]
  omega

theorem literalRec_fields (px : Word) :
    (literalRec px).mode = 0 ∧ (literalRec px).zero = 0 ∧ (literalRec px).len = 1 :=
  RefRec.fields_of_w0 (l := 1) (m := 0) (by decide : (0x00010000 : Word).toNat = _) (by decide)

theorem cacheRec_fields (i : Nat) : (cacheRec i).mode = 1 ∧ (cacheRec i).zero = 0 ∧ (cacheRec i).len = 1 :=
  RefRec.fields_of_w0 (l := 1) (m := 1) (by decide : (0x00010001 : Word).toNat = _) (by decide)

theorem copyRec_fields {l : Nat} (d : Nat) (hl : l < 65536) :
    (copyRec l d).mode = 2 ∧ (copyRec l d).zero = 0 ∧ (copyRec l d).len = l := by
  have hw0 : (copyRec l d).w0.toNat = l * 65536 + 2 := by
    rw [copyRec, BitVec.toNat_ofNat]
    omega
  exact RefRec.fields_of_w0 hw0 (by decide)

theorem cacheRec_val {i : Nat} (hi : i < 2 ^ 32) : (cacheRec i).val = i := Nat.mod_eq_of_lt hi

/-- R155: a hash is a 32-bit index. -/
theorem cacheRec_hashOf_val (v : Word) (bits : Nat) : (cacheRec (hashOf v bits)).val = hashOf v bits := by
  refine cacheRec_val ?_
  rw [hashOf_eq]
  exact (Nat.div_le_self _ _).trans_lt (Nat.mod_lt _ (by decide))

theorem copyRec_val (l : Nat) {d : Nat} (hd : d < 2 ^ 32) : (copyRec l d).val = d := Nat.mod_eq_of_lt hd

/-- R55: records come back from their host words. -/
theorem recordsOf_refWords (recs : List RefRec) : recordsOf (refWords recs) = recs := by
  induction recs with
  | nil => rfl
  | cons r recs ih => exact congrArg (r :: ·) ih

end Sys2Proof.Machine
end

/-! ### Records and their positions (R217, R253) -/

section
namespace Sys2Proof.Machine

@[simp] theorem streamLength_nil : streamLength [] = 0 := rfl

@[simp] theorem streamLength_cons (r : RefRec) (recs : List RefRec) :
    streamLength (r :: recs) = r.len + streamLength recs := rfl

/-- Every record of a stream that begins at position `pos` satisfies `P` at the position of its first pixel. -/
def RecordsAt (P : Nat → RefRec → Prop) : Nat → List RefRec → Prop
  | _, [] => True
  | pos, r :: recs => P pos r ∧ RecordsAt P (pos + r.len) recs

variable {P Q : Nat → RefRec → Prop} {pos : Nat} {recs : List RefRec}

theorem RecordsAt.mono (h : RecordsAt P pos recs) (hPQ : ∀ pos r, P pos r → Q pos r) : RecordsAt Q pos recs := by
  induction recs generalizing pos with
  | nil => trivial
  | cons r recs ih => exact ⟨hPQ pos r h.1, ih h.2⟩

theorem RecordsAt.take (h : RecordsAt P pos recs) (j : Nat) : RecordsAt P pos (recs.take j) := by
  induction recs generalizing pos j with
  | nil => rwa [List.take_nil]
  | cons r recs ih =>
    cases j with
    | zero => trivial
    | succ j => exact ⟨h.1, ih h.2 j⟩

theorem RecordsAt.getElem (h : RecordsAt P pos recs) {j : Nat} (hj : j < recs.length) :
    P (pos + streamLength (recs.take j)) recs[j] := by
  induction recs generalizing pos j with
  | nil => exact absurd hj (Nat.not_lt_zero j)
  | cons r recs ih =>
    cases j with
    | zero => exact h.1
    | succ j =>
      have hrec := ih h.2 (Nat.lt_of_succ_lt_succ hj)
      rwa [Nat.add_assoc, ← streamLength_cons, ← List.take_succ_cons] at hrec

/-- Records of one pixel or more are no more than their pixels. -/
theorem RecordsAt.length_le (h : RecordsAt P pos recs) (hpos : ∀ pos r, P pos r → 1 ≤ r.len) :
    recs.length ≤ streamLength recs := by
  induction recs generalizing pos with
  | nil => exact Nat.le_refl 0
  | cons r recs ih =>
    rw [List.length_cons, streamLength_cons, Nat.add_comm r.len]
    exact Nat.add_le_add (ih h.2) (hpos pos r h.1)

/-- R253: a stream of valid records that ends with the image has no fault. -/
theorem streamFault_eq_none {n cacheBits : Nat} (j : Nat)
    (h : RecordsAt (fun pos r => recordValid n cacheBits pos r = true) pos recs)
    (hlen : pos + streamLength recs = n) : streamFault n cacheBits recs j pos = none := by
  induction recs generalizing pos j with
  | nil => exact if_pos hlen
  | cons r recs ih =>
    obtain ⟨hvalid, hrest⟩ := h
    rw [streamFault, if_pos hvalid]
    exact ih (j + 1) hrest (by rwa [Nat.add_assoc])

end Sys2Proof.Machine
end

/-! ### The colour cache along the pixels (R221) -/

section
namespace Sys2Proof.Machine

theorem clearedCache_eq (cacheBits : Nat) : clearedCache cacheBits = List.replicate (cacheSize cacheBits) 0 := by
  unfold clearedCache cacheSize
  split <;> rfl

/-- R221: the cache after the first `pos` pixels. -/
def cacheAfter (px : List Word) (cacheBits pos : Nat) : List Word :=
  (px.take pos).foldl (cacheInsert cacheBits) (clearedCache cacheBits)

variable (px : List Word) (cacheBits : Nat)

theorem cacheAfter_add (pos n : Nat) :
    cacheAfter px cacheBits (pos + n) =
      ((px.drop pos).take n).foldl (cacheInsert cacheBits) (cacheAfter px cacheBits pos) := by
  rw [cacheAfter, List.take_add, List.foldl_append, cacheAfter]

/-- The one pixel at position `pos`. -/
theorem take_one_drop {pos : Nat} (hpos : pos < px.length) : (px.drop pos).take 1 = [px.getD pos 0] := by
  rw [List.drop_eq_getElem_cons hpos, List.getD_eq_getElem _ 0 hpos]
  rfl

theorem cacheAfter_succ {pos : Nat} (hpos : pos < px.length) :
    cacheAfter px cacheBits (pos + 1) = cacheInsert cacheBits (cacheAfter px cacheBits pos) (px.getD pos 0) := by
  rw [cacheAfter_add, take_one_drop px hpos]
  rfl

theorem cacheAfter_length (pos : Nat) : (cacheAfter px cacheBits pos).length = cacheSize cacheBits := by
  rw [cacheAfter, foldl_cacheInsert_length, clearedCache_eq, List.length_replicate]

variable {px cacheBits}

/-- R221: a hit is a pixel found at its hash. -/
theorem cacheHit_iff {cache : List Word} {v : Word} :
    cacheHit cacheBits cache v = true ↔ 0 < cacheBits ∧ cache[hashOf v cacheBits]? = some v := by
  simp [cacheHit]

end Sys2Proof.Machine
end

/-! ### Admissible records (R223) -/

section
namespace Sys2Proof.Machine

/-- R223: a match that a Copy at position `pos` may take. -/
structure CopyFits (px : List Word) (maxLen pos : Nat) (m : Match) : Prop where
  len_pos : 1 ≤ m.len
  len_le : m.len ≤ maxLen
  ends : pos + m.len ≤ px.length
  dist_pos : 1 ≤ m.dist
  dist_le_pos : m.dist ≤ pos
  dist_le : m.dist ≤ maxDistance
  agrees : matchLen px (pos - m.dist) pos m.len = m.len

/-- R223: the pixels a Copy covers are those `dist` positions before them. -/
theorem CopyFits.getD_eq {px : List Word} {maxLen pos d : Nat} {m : Match} (h : CopyFits px maxLen pos m)
    (hd : d < m.len) : px.getD (pos + d) 0 = px.getD (pos + d - m.dist) 0 := by
  have hdist := h.dist_le_pos
  rw [← getD_of_lt_matchLen (hd.trans_eq h.agrees.symm)]
  congr 1
  omega

/-- R223, invariants 2 to 5: a record that may stand at position `pos`, the cache holding the pixels before it. -/
def Admissible (px : List Word) (cacheBits maxLen pos : Nat) (r : RefRec) : Prop :=
  admissibleAt px cacheBits maxLen pos (cacheAfter px cacheBits pos) r = true

variable {px : List Word} {cacheBits maxLen pos : Nat} {r : RefRec}

theorem admissible_iff :
    Admissible px cacheBits maxLen pos r ↔
      r.zero = 0 ∧ 1 ≤ r.len ∧ pos + r.len ≤ px.length ∧
        ((r.mode = 0 ∧ r.len = 1 ∧ r.w1 = px.getD pos 0) ∨
         (r.mode = 1 ∧ r.len = 1 ∧ cacheHit cacheBits (cacheAfter px cacheBits pos) (px.getD pos 0) = true ∧
           r.val = hashOf (px.getD pos 0) cacheBits) ∨
         (r.mode = 2 ∧ CopyFits px maxLen pos ⟨r.len, r.val⟩)) := by
  simp only [Admissible, admissibleAt, Bool.and_eq_true, Bool.or_eq_true, decide_eq_true_eq, and_assoc, or_assoc]
  refine and_congr_right fun _ => and_congr_right fun hlen => and_congr_right fun hend =>
    or_congr_right (or_congr_right (and_congr_right fun _ => ⟨?_, ?_⟩))
  · rintro ⟨hle, hdist, hpos, hmax, hagrees⟩
    exact ⟨hlen, hle, hend, hdist, hpos, hmax, hagrees⟩
  · rintro ⟨-, hle, -, hdist, hpos, hmax, hagrees⟩
    exact ⟨hle, hdist, hpos, hmax, hagrees⟩

theorem Admissible.len_pos (h : Admissible px cacheBits maxLen pos r) : 1 ≤ r.len := (admissible_iff.1 h).2.1

theorem Admissible.ends (h : Admissible px cacheBits maxLen pos r) : pos + r.len ≤ px.length :=
  (admissible_iff.1 h).2.2.1

theorem Admissible.pos_lt (h : Admissible px cacheBits maxLen pos r) : pos < px.length :=
  Nat.lt_of_lt_of_le (Nat.lt_add_of_pos_right h.len_pos) h.ends

/-- R253: HIST.BUILD accepts an admissible record. -/
theorem Admissible.recordValid (h : Admissible px cacheBits maxLen pos r) (hmax : maxLen ≤ maxLength)
    (hbits : cacheBits ≤ maxCacheBits) : recordValid px.length cacheBits pos r = true := by
  obtain ⟨hzero, hlen, hend, hform⟩ := admissible_iff.1 h
  simp only [Machine.recordValid, Bool.and_eq_true, Bool.or_eq_true, decide_eq_true_eq, and_assoc, or_assoc]
  refine ⟨hzero, hend, ?_⟩
  obtain ⟨hmode, hone, -⟩ | ⟨hmode, hone, hhit, hval⟩ | ⟨hmode, hcopy⟩ := hform
  · exact .inl ⟨hmode, hone⟩
  · obtain ⟨hcache, -⟩ := cacheHit_iff.1 hhit
    exact .inr (.inl ⟨hmode, hone, hcache, hval ▸ hashOf_lt _ (hbits.trans (by decide))⟩)
  · exact .inr (.inr ⟨hmode, hlen, hcopy.len_le.trans hmax, hcopy.dist_pos, hcopy.dist_le, hcopy.dist_le_pos⟩)

end Sys2Proof.Machine
end

/-! ### Replay of an admissible stream (R223) -/

section
namespace Sys2Proof.Machine

/-- R223: copying pixels that repeat at distance `dist` continues the stream. -/
theorem copyBack_take {px : List Word} {dist pos n : Nat} (hdist : 1 ≤ dist) (hpos : dist ≤ pos)
    (hend : pos + n ≤ px.length) (hagree : ∀ d < n, px.getD (pos + d) 0 = px.getD (pos + d - dist) 0) :
    copyBack dist n (px.take pos) = (px.drop pos).take n := by
  induction n generalizing pos with
  | zero => rfl
  | succ n ih =>
    have hlt : pos < px.length := by omega
    have hlen : (px.take pos).length = pos := by rw [List.length_take]; omega
    have hnext : (px.take pos).getD ((px.take pos).length - dist) 0 = px[pos] := by
      have hfirst : px.getD pos 0 = px.getD (pos - dist) 0 := hagree 0 (Nat.succ_pos n)
      rw [hlen, ← List.getD_eq_getElem _ 0 hlt, hfirst]
      simp only [List.getD_eq_getElem?_getD, List.getElem?_take_of_lt (show pos - dist < pos by omega)]
    rw [copyBack, hnext, List.drop_eq_getElem_cons hlt, List.take_succ_cons, List.take_append_getElem hlt]
    refine congrArg _ (ih (by omega) (by omega) fun d hd => ?_)
    rw [Nat.add_right_comm]
    exact hagree (d + 1) (Nat.succ_lt_succ hd)

variable {px : List Word} {cacheBits maxLen pos : Nat}

/-- R223: an admissible record stands for the pixels from its position on. -/
theorem Admissible.recordPixels {r : RefRec} (h : Admissible px cacheBits maxLen pos r) :
    recordPixels r (px.take pos) (cacheAfter px cacheBits pos) = (px.drop pos).take r.len := by
  obtain ⟨-, -, hend, hform⟩ := admissible_iff.1 h
  unfold Machine.recordPixels
  obtain ⟨hmode, hone, hw1⟩ | ⟨hmode, hone, hhit, hval⟩ | ⟨hmode, hcopy⟩ := hform
  · rw [if_pos hmode, hone, hw1, take_one_drop px h.pos_lt]
  · obtain ⟨-, hcache⟩ := cacheHit_iff.1 hhit
    rw [if_neg (by omega), if_pos hmode, hone, take_one_drop px h.pos_lt, hval, List.getD_eq_getElem?_getD, hcache]
    rfl
  · rw [if_neg (by omega), if_neg (by omega)]
    exact copyBack_take hcopy.dist_pos hcopy.dist_le_pos hend fun d hd => hcopy.getD_eq hd

/-- R223: admissible records replay to the pixels they cover and to the cache after those. -/
theorem replayStream_of_admissible {recs : List RefRec} (h : RecordsAt (Admissible px cacheBits maxLen) pos recs) :
    replayStream cacheBits recs (px.take pos) (cacheAfter px cacheBits pos) =
      (px.take (pos + streamLength recs), cacheAfter px cacheBits (pos + streamLength recs)) := by
  induction recs generalizing pos with
  | nil => rfl
  | cons r recs ih =>
    obtain ⟨hr, hrest⟩ := h
    simp only [replayStream, hr.recordPixels]
    rw [← cacheAfter_add, ← List.take_add, ih hrest, streamLength_cons, Nat.add_assoc]

/-- R223: the same from the first pixel and the cleared cache. -/
theorem replayStream_from_start {recs : List RefRec} (h : RecordsAt (Admissible px cacheBits maxLen) 0 recs) :
    replayStream cacheBits recs [] (List.replicate (cacheSize cacheBits) 0) =
      (px.take (streamLength recs), cacheAfter px cacheBits (streamLength recs)) := by
  rw [← clearedCache_eq]
  simpa [cacheAfter] using replayStream_of_admissible h

end Sys2Proof.Machine
end

/-! ### What the searches emit (R217 to R222) -/

section
namespace Sys2Proof.Machine

/-- A result of LZ.REFS from position `pos` on: each record satisfies `P`, together they cover the pixels left, and the
cache is the one after all pixels. -/
structure Encodes (px : List Word) (cacheBits : Nat) (P : Nat → RefRec → Prop) (pos : Nat) (res : RefsResult) :
    Prop where
  records : RecordsAt P pos res.recs
  covers : pos + streamLength res.recs = px.length
  cache : res.cache = cacheAfter px cacheBits px.length

variable {px : List Word} {cacheBits maxLen pos : Nat} {P Q : Nat → RefRec → Prop} {choose : Nat → Option Match}

theorem Encodes.done : Encodes px cacheBits P px.length ⟨[], cacheAfter px cacheBits px.length⟩ :=
  ⟨trivial, rfl, rfl⟩

theorem Encodes.cons {r : RefRec} {rest : RefsResult} (hr : P pos r)
    (h : Encodes px cacheBits P (pos + r.len) rest) : Encodes px cacheBits P pos ⟨r :: rest.recs, rest.cache⟩ :=
  ⟨⟨hr, h.records⟩, by rw [streamLength_cons, ← Nat.add_assoc]; exact h.covers, h.cache⟩

theorem Encodes.mono {res : RefsResult} (h : Encodes px cacheBits P pos res) (hPQ : ∀ pos r, P pos r → Q pos r) :
    Encodes px cacheBits Q pos res :=
  ⟨h.records.mono hPQ, h.covers, h.cache⟩

/-- R221: a pixel's own record is a CacheIdx on a hit and a Literal on a miss. -/
theorem pixelRec_eq (cacheBits : Nat) (cache : List Word) (v : Word) :
    (cacheHit cacheBits cache v = true ∧ pixelRec cacheBits cache v = cacheRec (hashOf v cacheBits)) ∨
      (cacheHit cacheBits cache v = false ∧ pixelRec cacheBits cache v = literalRec v) := by
  unfold pixelRec
  cases cacheHit cacheBits cache v <;> simp

/-- R221: a pixel's own record is of one pixel, no Copy, and a Literal on a miss only. -/
theorem pixelRec_fields (cacheBits : Nat) (cache : List Word) (v : Word) :
    (pixelRec cacheBits cache v).len = 1 ∧ (pixelRec cacheBits cache v).mode ≠ 2 ∧
      ((pixelRec cacheBits cache v).mode = 0 → cacheHit cacheBits cache v = false) := by
  obtain ⟨-, h⟩ | ⟨hmiss, h⟩ := pixelRec_eq cacheBits cache v
  · obtain ⟨hmode, -, hlen⟩ := cacheRec_fields (hashOf v cacheBits)
    rw [h, hmode]
    exact ⟨hlen, by decide, fun hzero => absurd hzero (by decide)⟩
  · obtain ⟨hmode, -, hlen⟩ := literalRec_fields v
    rw [h, hmode]
    exact ⟨hlen, by decide, fun _ => hmiss⟩

/-- The record of a chosen match that fits. -/
structure CopyOf (m : Match) (r : RefRec) : Prop where
  mode : r.mode = 2
  zero : r.zero = 0
  len : r.len = m.len
  val : r.val = m.dist

theorem CopyFits.copyOf {m : Match} (h : CopyFits px maxLen pos m) (hmax : maxLen ≤ maxLength) :
    CopyOf m (copyRec m.len m.dist) := by
  have hl : m.len < 65536 := (h.len_le.trans hmax).trans_lt (by decide)
  obtain ⟨hmode, hzero, hlen⟩ := copyRec_fields m.dist hl
  exact ⟨hmode, hzero, hlen, copyRec_val _ (h.dist_le.trans_lt (by decide))⟩

/-- R218, R223: a Copy of a match that fits is admissible. -/
theorem CopyFits.admissible {m : Match} (h : CopyFits px maxLen pos m) (hmax : maxLen ≤ maxLength) :
    Admissible px cacheBits maxLen pos (copyRec m.len m.dist) := by
  obtain ⟨hmode, hzero, hlen, hval⟩ := h.copyOf hmax
  rw [admissible_iff, hlen, hval]
  exact ⟨hzero, h.len_pos, h.ends, .inr (.inr ⟨hmode, h⟩)⟩

/-- R221, R223: a pixel's own record is admissible. -/
theorem pixelRec_admissible (hpos : pos < px.length) :
    Admissible px cacheBits maxLen pos (pixelRec cacheBits (cacheAfter px cacheBits pos) (px.getD pos 0)) := by
  rw [admissible_iff]
  obtain ⟨hhit, h⟩ | ⟨-, h⟩ := pixelRec_eq cacheBits (cacheAfter px cacheBits pos) (px.getD pos 0)
  · obtain ⟨hmode, hzero, hlen⟩ := cacheRec_fields (hashOf (px.getD pos 0) cacheBits)
    rw [h, hlen]
    exact ⟨hzero, Nat.le_refl 1, hpos, .inr (.inl ⟨hmode, rfl, hhit, cacheRec_hashOf_val ..⟩)⟩
  · obtain ⟨hmode, hzero, hlen⟩ := literalRec_fields (px.getD pos 0)
    rw [h, hlen]
    exact ⟨hzero, Nat.le_refl 1, hpos, .inl ⟨hmode, rfl, rfl⟩⟩

/-- A flavor whose matches all fit. -/
def ChoiceFits (px : List Word) (maxLen : Nat) (choose : Nat → Option Match) : Prop :=
  ∀ pos < px.length, ∀ m, choose pos = some m → CopyFits px maxLen pos m

/-- R219 to R221: an admissible record that is the Copy of the match taken; where none is, it is no Copy, and a
Literal on a cache miss only. -/
structure Emitted (px : List Word) (cacheBits maxLen : Nat) (choose : Nat → Option Match) (pos : Nat) (r : RefRec) :
    Prop where
  admissible : Admissible px cacheBits maxLen pos r
  choice : (∃ m, choose pos = some m ∧ CopyOf m r) ∨
    (choose pos = none ∧ r.mode ≠ 2 ∧
      (r.mode = 0 → cacheHit cacheBits (cacheAfter px cacheBits pos) (px.getD pos 0) = false))

section emitted
variable {r : RefRec} (h : Emitted px cacheBits maxLen choose pos r)
include h

theorem Emitted.match_of_copy (hmode : r.mode = 2) : ∃ m, choose pos = some m ∧ CopyOf m r :=
  h.choice.resolve_right fun hnone => hnone.2.1 hmode

/-- R219, R220: a Copy stands exactly where a match is taken. -/
theorem Emitted.mode_eq_two_iff : r.mode = 2 ↔ choose pos ≠ none := by
  obtain ⟨m, hm, hcopy⟩ | ⟨hnone, hmode, -⟩ := h.choice
  · simp [hm, hcopy.mode]
  · simp [hnone, hmode]

theorem Emitted.copyOf {m : Match} (hm : choose pos = some m) : CopyOf m r := by
  obtain ⟨m', hm', hcopy⟩ | ⟨hnone, -, -⟩ := h.choice
  · obtain rfl := Option.some.inj (hm'.symm.trans hm)
    exact hcopy
  · exact absurd (hnone.symm.trans hm) (by simp)

theorem Emitted.miss_of_literal (hmode : r.mode = 0) :
    cacheHit cacheBits (cacheAfter px cacheBits pos) (px.getD pos 0) = false := by
  obtain ⟨m, -, hcopy⟩ | ⟨-, -, hmiss⟩ := h.choice
  · exact absurd (hmode.symm.trans hcopy.mode) (by decide)
  · exact hmiss hmode

end emitted

/-- R219, R220: the loop both flavors share encodes the pixels left. -/
theorem emitLoop_encodes (hfits : ChoiceFits px maxLen choose) (hmax : maxLen ≤ maxLength) (fuel : Nat)
    (hpos : pos ≤ px.length) (hfuel : px.length ≤ pos + fuel) :
    Encodes px cacheBits (Emitted px cacheBits maxLen choose) pos
      (emitLoop px cacheBits choose fuel pos (cacheAfter px cacheBits pos)) := by
  induction fuel generalizing pos with
  | zero =>
    obtain rfl : pos = px.length := Nat.le_antisymm hpos hfuel
    exact .done
  | succ fuel ih =>
    rw [emitLoop]
    by_cases hlt : pos < px.length
    · rw [if_pos hlt]
      cases hm : choose pos with
      | some m =>
        have hfit := hfits pos hlt m hm
        have hcopy := hfit.copyOf hmax
        have hrest := ih hfit.ends (by have := hfit.len_pos; omega)
        rw [cacheAfter_add] at hrest
        exact .cons ⟨hfit.admissible hmax, .inl ⟨m, hm, hcopy⟩⟩ (by rwa [hcopy.len])
      | none =>
        obtain ⟨hlen, hform⟩ := pixelRec_fields cacheBits (cacheAfter px cacheBits pos) (px.getD pos 0)
        have hrest := ih (pos := pos + 1) hlt (by omega)
        rw [cacheAfter_succ px cacheBits hlt] at hrest
        exact .cons ⟨pixelRec_admissible hlt, .inr ⟨hm, hform⟩⟩ (by rwa [hlen])
    · obtain rfl : pos = px.length := Nat.le_antisymm hpos (Nat.le_of_not_lt hlt)
      rw [if_neg hlt]
      exact .done

/-- R219: a match of flavor Standard goes back to a position within the window. -/
theorem standardMatch_source {window : Nat} {px chain : List Word} {maxChain maxLen pos : Nat} {m : Match}
    (h : standardMatch px chain maxChain window maxLen pos = some m) :
    3 ≤ m.len ∧ m.dist ≤ window ∧
      ∃ q < pos, m = ⟨matchLen px q pos (min maxLen (px.length - pos)), pos - q⟩ := by
  obtain ⟨hlen, pre, q, post, hqs, rfl, -, -⟩ := standardMatch_eq_some h
  obtain ⟨hq, hdist⟩ := mem_visited (x := q) (hqs ▸ List.mem_append_right pre List.mem_cons_self)
  exact ⟨hlen, hdist, q, hq, rfl⟩

/-- R219: the matches of flavor Standard fit. -/
theorem standardMatch_fits {window : Nat} (px chain : List Word) (maxChain maxLen : Nat)
    (hwindow : window ≤ maxDistance) : ChoiceFits px maxLen (standardMatch px chain maxChain window maxLen) := by
  intro pos hpos m hm
  obtain ⟨hlen, hdist, q, hq, rfl⟩ := standardMatch_source hm
  have hcap := matchLen_le px q pos (min maxLen (px.length - pos))
  have hback : pos - (pos - q) = q := by omega
  exact { len_pos := Nat.le_trans (by decide) hlen
          len_le := hcap.trans (Nat.min_le_left ..)
          ends := by dsimp only; omega
          dist_pos := Nat.sub_pos_of_lt hq
          dist_le_pos := Nat.sub_le ..
          dist_le := hdist.trans hwindow
          agrees := by dsimp only; rw [hback, matchLen_self] }

theorem rleMatch_eq_some {px : List Word} {maxLen pos : Nat} {m : Match} :
    rleMatch px maxLen pos = some m ↔
      (1 ≤ pos ∧ px.getD pos 0 = px.getD (pos - 1) 0) ∧
        m = ⟨matchLen px (pos - 1) pos (min maxLen (px.length - pos)), 1⟩ := by
  rw [rleMatch, Option.ite_none_right_eq_some, Option.some.injEq, eq_comm (a := m)]

/-- R220: flavor RLE takes a match wherever a pixel equals the one before it. -/
theorem rleMatch_ne_none_iff {px : List Word} {maxLen pos : Nat} :
    rleMatch px maxLen pos ≠ none ↔ 1 ≤ pos ∧ px.getD pos 0 = px.getD (pos - 1) 0 := by
  simp [rleMatch]

/-- R220: the matches of flavor RLE fit. -/
theorem rleMatch_fits (px : List Word) {maxLen : Nat} (hmaxLen : 1 ≤ maxLen) :
    ChoiceFits px maxLen (rleMatch px maxLen) := by
  intro pos hpos m hm
  obtain ⟨⟨hone, hsame⟩, rfl⟩ := rleMatch_eq_some.1 hm
  have hcap := matchLen_le px (pos - 1) pos (min maxLen (px.length - pos))
  have hlen : 1 ≤ matchLen px (pos - 1) pos (min maxLen (px.length - pos)) := by
    by_contra hzero
    have hends := getD_matchLen_ne (px := px) (q := pos - 1) (p := pos) (cap := min maxLen (px.length - pos))
      (Nat.sub_le ..) (by omega) (by omega)
    rw [Nat.lt_one_iff.1 (Nat.lt_of_not_le hzero)] at hends
    exact hends hsame.symm
  exact { len_pos := hlen
          len_le := hcap.trans (Nat.min_le_left ..)
          ends := by dsimp only; omega
          dist_pos := Nat.le_refl 1
          dist_le_pos := hone
          dist_le := (by decide : 1 ≤ maxDistance)
          agrees := matchLen_self .. }

/-- R220: the pixels of a run are all the pixel before it. -/
theorem getD_of_run {px : List Word} {pos cap d : Nat} (hpos : 1 ≤ pos) (hd : d ≤ matchLen px (pos - 1) pos cap) :
    px.getD (pos - 1 + d) 0 = px.getD (pos - 1) 0 := by
  induction d with
  | zero => rfl
  | succ d ih =>
    rw [← ih (Nat.le_of_succ_le hd), getD_of_lt_matchLen hd]
    congr 1
    omega

/-- R220: a run ends at MAX_LEN, at the last pixel, or before another colour. -/
theorem rleMatch_ends {px : List Word} {maxLen pos : Nat} {m : Match} (h : rleMatch px maxLen pos = some m)
    (hpos : pos < px.length) :
    m.len = maxLen ∨ pos + m.len = px.length ∨
      (pos + m.len < px.length ∧ px.getD (pos + m.len) 0 ≠ px.getD (pos - 1) 0) := by
  obtain ⟨⟨hone, -⟩, rfl⟩ := rleMatch_eq_some.1 h
  dsimp only
  have hcap := matchLen_le px (pos - 1) pos (min maxLen (px.length - pos))
  by_cases hlt : matchLen px (pos - 1) pos (min maxLen (px.length - pos)) < min maxLen (px.length - pos)
  · have hne := getD_matchLen_ne (Nat.sub_le pos 1) (by omega) hlt
    rw [getD_of_run hone (Nat.le_refl _)] at hne
    exact .inr (.inr ⟨by omega, hne.symm⟩)
  · omega

section copies
variable {window maxChain : Nat} {chain : List Word} {r : RefRec}

/-- R219: a Copy of flavor Standard. -/
theorem Emitted.standard_copy (h : Emitted px cacheBits maxLen (standardMatch px chain maxChain window maxLen) pos r)
    (hmode : r.mode = 2) : r.val ≤ window ∧ 3 ≤ r.len := by
  obtain ⟨m, hm, hcopy⟩ := h.match_of_copy hmode
  obtain ⟨hlen, hdist, -⟩ := standardMatch_source hm
  exact ⟨hcopy.val.trans_le hdist, hlen.trans_eq hcopy.len.symm⟩

/-- R220: a Copy of flavor RLE. -/
theorem Emitted.rle_copy (h : Emitted px cacheBits maxLen (rleMatch px maxLen) pos r) (hmode : r.mode = 2) :
    r.val = 1 ∧ (r.len = maxLen ∨ pos + r.len = px.length ∨
      (pos + r.len < px.length ∧ px.getD (pos + r.len) 0 ≠ px.getD (pos - 1) 0)) := by
  obtain ⟨m, hm, hcopy⟩ := h.match_of_copy hmode
  obtain ⟨-, hrun⟩ := rleMatch_eq_some.1 hm
  rw [hcopy.val, hcopy.len]
  exact ⟨congrArg Match.dist hrun, rleMatch_ends hm h.admissible.pos_lt⟩

end copies

/-- R222, R223: a proposal that is accepted encodes the pixels by admissible records. -/
theorem replayRefs_encodes {recs : List RefRec} {final : List Word}
    (h : replayRefs px cacheBits maxLen recs pos (cacheAfter px cacheBits pos) = some final) :
    Encodes px cacheBits (Admissible px cacheBits maxLen) pos ⟨recs, final⟩ := by
  induction recs generalizing pos with
  | nil =>
    obtain ⟨rfl, hfinal⟩ := Option.ite_none_right_eq_some.1 h
    obtain rfl := Option.some.inj hfinal
    exact .done
  | cons r recs ih =>
    obtain ⟨hr, hrest⟩ := Option.ite_none_right_eq_some.1 h
    rw [← cacheAfter_add] at hrest
    exact .cons hr (ih hrest)

variable {maxChain window : Nat} {chain : List Word}

/-- R219. -/
theorem refsStandard_encodes (hwindow : window ≤ maxDistance) (hmax : maxLen ≤ maxLength) :
    Encodes px cacheBits (Emitted px cacheBits maxLen (standardMatch px chain maxChain window maxLen)) 0
      (refsStandard px chain cacheBits maxChain window maxLen) :=
  emitLoop_encodes (standardMatch_fits px chain maxChain maxLen hwindow) hmax px.length (Nat.zero_le _)
    (Nat.zero_add _).ge

/-- R220. -/
theorem refsRle_encodes (hmaxLen : 1 ≤ maxLen) (hmax : maxLen ≤ maxLength) :
    Encodes px cacheBits (Emitted px cacheBits maxLen (rleMatch px maxLen)) 0 (refsRle px cacheBits maxLen) :=
  emitLoop_encodes (rleMatch_fits px hmaxLen) hmax px.length (Nat.zero_le _) (Nat.zero_add _).ge

/-- R222, R223: flavor Box, whatever its search proposes. -/
theorem refsBox_encodes (proposal : List RefRec) (hmaxLen : 1 ≤ maxLen) (hmax : maxLen ≤ maxLength) :
    Encodes px cacheBits (Admissible px cacheBits maxLen) 0 (refsBox proposal px cacheBits maxLen) := by
  unfold refsBox
  split
  case h_1 cache hreplay => exact replayRefs_encodes hreplay
  case h_2 =>
    exact (refsRle_encodes hmaxLen hmax).mono fun _ _ h => h.admissible

end Sys2Proof.Machine
end

/-! ### LZ.REFS leaves its stream (R217) -/

section
namespace Sys2Proof.Machine

/-- R217: the legal flavors. -/
theorem flavor_cases {f : BitVec 2} (hwf : (Instr.lzRefs f).wf = true) : f = 0 ∨ f = 1 ∨ f = 2 := by
  revert f; decide

/-- R355: the registers LZ.REFS checks. -/
theorem checkedRegs_lzRefs (f : BitVec 2) :
    checkedRegs (.lzRefs f) = if f = 1 then [.cacheBits, .maxLen] else [.cacheBits, .window, .maxLen] := rfl

variable {f : BitVec 2} {s : State}

theorem RefsReady.maxLen_legal (h : RefsReady f s) :
    1 ≤ s.regs.maxLen.toNat ∧ s.regs.maxLen.toNat ≤ maxLength := by
  obtain ⟨⟨-, -, hregs, -⟩, -⟩ := h
  exact of_decide_eq_true (hregs .maxLen (by rw [checkedRegs_lzRefs]; split <;> simp))

theorem RefsReady.cacheBits_legal (h : RefsReady f s) : s.regs.cacheBits.toNat ≤ maxCacheBits := by
  obtain ⟨⟨-, -, hregs, -⟩, -⟩ := h
  exact of_decide_eq_true (hregs .cacheBits (by rw [checkedRegs_lzRefs]; split <;> simp))

theorem RefsReady.window_legal (h : RefsReady f s) (hf : f ≠ 1) :
    1 ≤ s.regs.window.toNat ∧ s.regs.window.toNat ≤ maxDistance := by
  obtain ⟨⟨-, -, hregs, -⟩, -⟩ := h
  exact of_decide_eq_true (hregs .window (by rw [checkedRegs_lzRefs, if_neg hf]; simp))

theorem RefsReady.dims_legal (h : RefsReady f s) : s.DimsLegal := by
  obtain ⟨⟨-, hdims, -⟩, -⟩ := h
  exact hdims rfl

/-- R219, R220: the match a flavor takes at a position. -/
def State.chooseMatch (s : State) (f : BitVec 2) : Nat → Option Match :=
  if f = 0 then
    standardMatch s.pixels (s.readWords .chain 0 s.pixelCount) s.regs.maxChain.toNat s.regs.window.toNat
      s.regs.maxLen.toNat
  else rleMatch s.pixels s.regs.maxLen.toNat

/-- R219, R220: the flavors Standard and RLE emit the records of their matches. -/
theorem RefsReady.encodes_emitted (h : RefsReady f s) (hf : f ≠ 2) :
    Encodes s.pixels s.regs.cacheBits.toNat
      (Emitted s.pixels s.regs.cacheBits.toNat s.regs.maxLen.toNat (s.chooseMatch f)) 0 (s.refsResult f) := by
  obtain ⟨hmaxLen, hmax⟩ := h.maxLen_legal
  obtain rfl | rfl | rfl := flavor_cases h.1.1
  · exact refsStandard_encodes (h.window_legal (by decide)).2 hmax
  · exact refsRle_encodes hmaxLen hmax
  · exact absurd rfl hf

/-- R223: every flavor leaves admissible records. -/
theorem RefsReady.encodes (h : RefsReady f s) :
    Encodes s.pixels s.regs.cacheBits.toNat (Admissible s.pixels s.regs.cacheBits.toNat s.regs.maxLen.toNat) 0
      (s.refsResult f) := by
  by_cases hf : f = 2
  · subst hf
    exact refsBox_encodes s.boxProposal h.maxLen_legal.1 h.maxLen_legal.2
  · exact (h.encodes_emitted hf).mono fun _ _ hr => hr.admissible

theorem RefsReady.streamLength_eq (h : RefsReady f s) : streamLength (s.refsResult f).recs = s.pixelCount := by
  rw [← s.pixels_length, ← h.encodes.covers, Nat.zero_add]

/-- R217: a stream has no more records than pixels, and at least one. -/
theorem RefsReady.length_bounds (h : RefsReady f s) :
    1 ≤ (s.refsResult f).recs.length ∧ (s.refsResult f).recs.length ≤ s.pixelCount := by
  have hle := h.encodes.records.length_le fun _ _ hr => hr.len_pos
  rw [h.streamLength_eq] at hle
  refine ⟨Nat.one_le_iff_ne_zero.2 fun hzero => ?_, hle⟩
  have hempty := h.streamLength_eq
  rw [List.length_eq_zero_iff.1 hzero, streamLength_nil] at hempty
  obtain ⟨hwidth, -, hheight, -⟩ := h.dims_legal
  exact Nat.ne_of_lt (Nat.mul_pos hwidth hheight) hempty

theorem RefsReady.fits_refs (h : RefsReady f s) : (s.refsResult f).recs.length ≤ s.caps.refs.toNat := by
  obtain hpixels | hrecs := h.2.2
  · exact h.length_bounds.2.trans hpixels
  · exact hrecs

/-- R217, R351: LZ.REFS completes with its result. -/
theorem RefsReady.exec_eq (h : RefsReady f s) :
    exec (.lzRefs f) s = .next (s.writeRefs (s.refsResult f)).complete := by
  refine exec_of_commandError_none (i := .lzRefs f) ?_
  simp only [commandError, lzRefsError, Option.or_eq_none_iff, needLegal_eq_none, checkCacheBits_eq_none,
    checkMaxLen_eq_none, checkFits_eq_none]
  refine ⟨h.1.1, checkDim_of_dimsLegal h.dims_legal, h.cacheBits_legal, ?_, h.maxLen_legal, h.2.1, h.fits_refs⟩
  split
  case isTrue => rfl
  case isFalse hf => exact (checkWindow_eq_none s).2 (h.window_legal hf)

/-- R43, R217: NREFS is the number of records. -/
theorem RefsReady.nrefs_eq (h : RefsReady f s) :
    (s.writeRefs (s.refsResult f)).complete.regs.nrefs.toNat = (s.refsResult f).recs.length :=
  Nat.mod_eq_of_lt (h.fits_refs.trans_lt s.caps.refs.isLt)

theorem State.writeRefs_get_refs (s : State) (res : RefsResult) :
    (s.writeRefs res).mems.get .refs = (s.writeWords .refs 0 (refWords res.recs)).mems.get .refs :=
  State.writeWords_get_ne _ .ccache .refs 0 _ (by decide)

/-- R55, R217: the records are read back from REFS. -/
theorem State.storedRecords_writeRefs (h : s.mems.Canonical) (res : RefsResult) :
    (s.writeRefs res).storedRecords res.recs.length = res.recs := by
  rw [State.storedRecords, State.readWords_congr (s.writeRefs_get_refs res), ← refWords_length,
    State.readWords_writeWords h (by decide), recordsOf_refWords]

/-- R217, R221: the cache is read back from CCACHE. -/
theorem State.readWords_writeRefs_ccache (h : s.mems.Canonical) (res : RefsResult) :
    (s.writeRefs res).readWords .ccache 0 res.cache.length = res.cache :=
  State.readWords_writeWords (canonical_writeWords h .refs 0 _) (by decide) res.cache

theorem State.sameBut_writeRefs (s : State) (res : RefsResult) : SameBut s (s.writeRefs res) [.refs, .ccache] :=
  ⟨rfl, rfl, rfl, rfl, fun id hid => by
    obtain ⟨hrefs, hccache⟩ : id ≠ .refs ∧ id ≠ .ccache := by simpa using hid
    exact (State.writeWords_get_ne _ .ccache id 0 _ hccache).trans (s.writeWords_get_ne .refs id 0 _ hrefs)⟩

theorem State.sameOutside_writeRefs_refs (s : State) (res : RefsResult) :
    SameOutside s (s.writeRefs res) .refs 0 (2 * res.recs.length) := fun a ha =>
  (State.readWord_congr_get (s.writeRefs_get_refs res) a).trans
    (s.readWord_writeWords_outside .refs 0 _ a (by rwa [refWords_length]))

theorem State.sameOutside_writeRefs_ccache (s : State) (res : RefsResult) :
    SameOutside s (s.writeRefs res) .ccache 0 res.cache.length := fun a ha =>
  (State.readWord_writeWords_outside _ .ccache 0 res.cache a ha).trans
    (s.readWord_writeWords_ne .refs .ccache 0 _ a (by decide))

/-- R221: CCACHE receives as many words as the cache has. -/
theorem RefsReady.cache_length (h : RefsReady f s) :
    (s.refsResult f).cache.length = cacheSize s.regs.cacheBits.toNat := by
  rw [h.encodes.cache, cacheAfter_length]

/-- Settles O44: the records and the cache, read back, are those of an admissible stream. -/
theorem lzRefsStreamReplaysToThePixels : Obligations.LzRefsStreamReplaysToThePixels := by
  intro f s hwf hready
  have hcanon := s.memsWf_iff.1 hwf
  have hccache := s.sameOutside_writeRefs_ccache (s.refsResult f)
  have hread := State.readWords_writeRefs_ccache hcanon (s.refsResult f)
  rw [hready.cache_length] at hccache hread
  refine ⟨_, _, hready.exec_eq, rfl, hready.length_bounds.1, hready.length_bounds.2, s.sameBut_writeRefs _,
    s.sameOutside_writeRefs_refs _, hccache, ?_⟩
  have hreplay := replayStream_from_start hready.encodes.records
  rw [hready.streamLength_eq, ← s.pixels_length, List.take_length, ← hready.encodes.cache, ← hread] at hreplay
  rwa [← State.storedRecords_writeRefs hcanon (s.refsResult f)] at hreplay

end Sys2Proof.Machine
end

/-! ### The records of LZ.REFS, flavor by flavor (R219 to R223) -/

section
namespace Sys2Proof.Machine

/-- Settles O45. -/
theorem lzRefsRecordsKeepTheInvariants : Obligations.LzRefsRecordsKeepTheInvariants := by
  intro f s t hwf hready hexec recs hrecs
  have hcanon := s.memsWf_iff.1 hwf
  obtain rfl := Host.Outcome.next.inj (hready.exec_eq.symm.trans hexec)
  rw [hready.nrefs_eq] at hrecs
  obtain rfl : recs = (s.refsResult f).recs := hrecs.trans (State.storedRecords_writeRefs hcanon _)
  refine ⟨hready.streamLength_eq, fun j hj pos cache hpos hcache => ?_⟩
  rw [replayStream_from_start (hready.encodes.records.take j), ← hpos] at hcache
  subst hcache
  have hadm := hready.encodes.records.getElem hj
  have hemitted := fun hf => (hready.encodes_emitted hf).records.getElem hj
  rw [Nat.zero_add, ← hpos] at hadm
  simp only [Nat.zero_add, ← hpos] at hemitted
  generalize (s.refsResult f).recs[j] = r at hadm hemitted ⊢
  have hread : ∀ p < s.pixels.length, s.readWord .pix p = s.pixels.getD p 0 := fun p hp =>
    (s.pixels_getD hcanon (hp.trans_eq s.pixels_length)).symm
  obtain ⟨hzero, -, -, hform⟩ := admissible_iff.1 hadm
  rw [hread pos hadm.pos_lt]
  refine ⟨hzero, ?_, fun hf best hbest => ?_, fun hf => ?_⟩
  · obtain ⟨hmode, hone, hw1⟩ | ⟨hmode, hone, hhit, hval⟩ | ⟨hmode, hcopy⟩ := hform
    · exact .inl ⟨hmode, hone, hw1, fun hf => (hemitted hf).miss_of_literal hmode⟩
    · obtain ⟨hbits, hcache⟩ := cacheHit_iff.1 hhit
      have hlt := hashOf_lt (s.pixels.getD pos 0) (hready.cacheBits_legal.trans (by decide))
      exact .inr (.inl ⟨hmode, hone, hbits, hval, hval.trans_lt hlt, hval ▸ hcache⟩)
    · refine .inr (.inr ⟨hmode, hcopy.len_pos, hcopy.len_le, hcopy.dist_pos, hcopy.dist_le_pos, hcopy.dist_le,
        fun hf => ?_, fun hf => ?_, fun d hd => ?_⟩)
      · subst hf
        exact (hemitted (by decide)).standard_copy hmode
      · subst hf
        exact ((hemitted (by decide)).rle_copy hmode).1
      · have hend : pos + d < s.pixels.length := (Nat.add_lt_add_left hd pos).trans_le hadm.ends
        rw [hread _ hend, hread _ ((Nat.sub_le ..).trans_lt hend)]
        exact hcopy.getD_eq hd
  · subst hf hbest
    have hstandard := hemitted (by decide)
    exact ⟨hstandard.mode_eq_two_iff, fun m hm => ⟨(hstandard.copyOf hm).len, (hstandard.copyOf hm).val⟩⟩
  · subst hf
    have hrle := hemitted (by decide)
    rw [hread _ ((Nat.sub_le ..).trans_lt hadm.pos_lt)]
    refine ⟨hrle.mode_eq_two_iff.trans rleMatch_ne_none_iff, fun hmode => ?_⟩
    rw [← s.pixels_length]
    obtain hlen | hend | ⟨hlt, hne⟩ := (hrle.rle_copy hmode).2
    · exact .inl hlen
    · exact .inr (.inl hend)
    · exact .inr (.inr (by rwa [hread _ hlt]))

end Sys2Proof.Machine
end

/-! ### HIST.BUILD after LZ.REFS (R253) -/

section
namespace Sys2Proof.Machine

@[simp] theorem accumulate_length (width histoBits tilesX : Nat) (recs : List RefRec) (pos : Nat)
    (hists : List (List Nat)) : (accumulate width histoBits tilesX recs pos hists).length = hists.length := by
  induction recs generalizing pos hists with
  | nil => rfl
  | cons r recs ih => rw [accumulate, ih, List.length_modify]

/-- R252: HIST.BUILD makes one histogram for each tile. -/
theorem State.builtHistograms_length (s : State) : s.builtHistograms.length = s.histTiles := by
  simp [State.builtHistograms]

/-- R252, R253, R351: HIST.BUILD's pre-checks pass on legal operands and a valid stream. -/
theorem commandError_histBuild {s : State} (hdims : s.DimsLegal) (hcache : s.regs.cacheBits.toNat ≤ maxCacheBits)
    (hhisto : s.regLegal .histoBits = true) (hnrefs : s.regs.nrefs.toNat ≤ s.caps.refs.toNat)
    (htiles : s.histTiles ≤ s.caps.th.toNat)
    (hrecords : RecordsAt (fun pos r => recordValid s.pixelCount s.regs.cacheBits.toNat pos r = true) 0 s.refStream)
    (hlength : streamLength s.refStream = s.pixelCount) : commandError .histBuild s = none := by
  simp only [commandError, histBuildError, Option.or_eq_none_iff, needLegal_eq_none, checkCacheBits_eq_none,
    checkHistoBits_eq_none, checkNrefs_eq_none, checkFits_eq_none, checkStream, Option.map_eq_none_iff]
  exact ⟨rfl, checkDim_of_dimsLegal hdims, hcache, of_decide_eq_true hhisto, hnrefs, htiles,
    streamFault_eq_none 0 hrecords ((Nat.zero_add _).trans hlength)⟩

/-- R217, R252: the stream HIST.BUILD finds after LZ.REFS. -/
theorem RefsReady.refStream_eq {f : BitVec 2} {s : State} (h : RefsReady f s) (hcanon : s.mems.Canonical) :
    (s.writeRefs (s.refsResult f)).complete.refStream = (s.refsResult f).recs := by
  rw [State.refStream, h.nrefs_eq]
  exact State.storedRecords_writeRefs hcanon _

/-- Settles O47: the records are admissible, hence valid, and as many as NREFS says. -/
theorem lzRefsStreamSuitsHistBuild : Obligations.LzRefsStreamSuitsHistBuild := by
  intro f s hwf hready hhisto htiles
  have hstream := hready.refStream_eq (s.memsWf_iff.1 hwf)
  have hvalid := hready.encodes.records.mono fun pos r hr =>
    hr.recordValid hready.maxLen_legal.2 hready.cacheBits_legal
  have hlength := hready.streamLength_eq
  rw [s.pixels_length, ← hstream] at hvalid
  rw [← hstream] at hlength
  have hok := commandError_histBuild (s := (s.writeRefs (s.refsResult f)).complete) hready.dims_legal
    hready.cacheBits_legal hhisto (hready.nrefs_eq.trans_le hready.fits_refs) htiles hvalid hlength
  refine ⟨_, _, hready.exec_eq, exec_of_commandError_none hok, ?_⟩
  have hcount := State.builtHistograms_length (s.writeRefs (s.refsResult f)).complete
  exact congrArg (fun n => { (s.writeRefs (s.refsResult f)).complete.regs.completed with nhisto := BitVec.ofNat 32 n })
    hcount

end Sys2Proof.Machine
end

/-!
PROOFS, family 43_hist: the estimate and HIST.ENTROPY (R258, R270), HIST.EXPORT (R268), what HIST.BUILD and HIST.CLUSTER
report of a bad stream (R253, R262), the tallies of HIST.BUILD (R252 to R255), and the merges of HIST.CLUSTER (R260 to
R266).
-/

/-! ### The estimate and HIST.ENTROPY (R258, R270) -/

section
namespace Sys2Proof.Machine

/-- R351, R352: a command with a failing pre-check ends in the error of the first one. -/
theorem exec_of_commandError_some {i : Instr} {s : State} {e : CmdError} (h : commandError i s = some e) :
    exec i s = .next (s.errored e.code.num e.info) := by
  rw [exec_eq_runCommand, h, runCommand_some]
  rfl

theorem need_of_not {p : Prop} [Decidable p] (e : CmdError) (h : ¬ p) : need (decide p) e = some e :=
  (need_eq_some _ e e).2 ⟨decide_eq_false h, rfl⟩

theorem roundUp16_eq (v : Nat) : roundUp16 v = (v + 65535) / 65536 := by
  rw [roundUp16, Nat.shiftRight_eq_div_pow]

/-- All elements equal the first one just when any two are equal. -/
theorem all_eq_headD_iff (l : List Nat) :
    l.all (fun x => decide (x = l.headD 0)) = true ↔ ∀ x ∈ l, ∀ y ∈ l, x = y := by
  cases l with
  | nil => simp
  | cons a l =>
    rw [List.all_eq_true]
    exact ⟨fun h x hx y hy => (of_decide_eq_true (h x hx)).trans (of_decide_eq_true (h y hy)).symm,
      fun h x hx => decide_eq_true (h x hx a List.mem_cons_self)⟩

/-- R258: the machine's estimate is that of the three cases. -/
theorem ent_eq_estimate (c : List Nat) (corr : Nat) : ent c corr = estimate c corr := by
  simp only [ent, estimate, all_eq_headD_iff, roundUp16_eq]

section estimates
variable {c : List Nat} (corr : Nat)

theorem estimate_of_few (h : (c.filter (fun x => decide (0 < x))).length ≤ 1) : estimate c corr = 0 := if_pos h

theorem estimate_of_equal (htwo : 2 ≤ (c.filter (fun x => decide (0 < x))).length)
    (heq : ∀ x ∈ c.filter (fun x => decide (0 < x)), ∀ y ∈ c.filter (fun x => decide (0 < x)), x = y) :
    estimate c corr = (c.sum * flog2 (c.filter (fun x => decide (0 < x))).length + 65535) / 65536 :=
  (if_neg (Nat.not_le.2 htwo)).trans (if_pos heq)

theorem estimate_of_unequal (htwo : 2 ≤ (c.filter (fun x => decide (0 < x))).length)
    (hne : ¬ ∀ x ∈ c.filter (fun x => decide (0 < x)), ∀ y ∈ c.filter (fun x => decide (0 < x)), x = y) :
    estimate c corr = (((c.filter (fun x => decide (0 < x))).map
      (fun x => x * (flog2 c.sum - flog2 x))).sum + 65535) / 65536 + corr :=
  (if_neg (Nat.not_le.2 htwo)).trans (if_neg hne)

end estimates

/-- R355: NSYM outside its range. -/
theorem checkNsym_of_illegal {s : State} (h : s.regLegal .nsym = false) : checkNsym s = some (paramError .nsym) :=
  (need_eq_some _ _ _).2 ⟨(Bool.decide_and _ _).symm.trans h, rfl⟩

/-- R270: after the legality of the word HIST.ENTROPY checks NSYM, then the total. -/
theorem commandError_histEntropy (s : State) :
    commandError .histEntropy s = (checkNsym s).or (need (decide (s.counts.sum < 2 ^ 32)) ⟨.range, 0⟩) := rfl

/-- Settles O52. -/
theorem histEntropyEstimates : Obligations.HistEntropyEstimates := by
  rintro s _ _ rfl rfl
  refine ⟨fun hnsym => ?_, fun hnsym hsum => ?_, fun hnsym hsum => ?_⟩
  · refine exec_of_commandError_some (e := paramError .nsym) ?_
    rw [commandError_histEntropy, checkNsym_of_illegal hnsym, Option.some_or]
  · have hok := (checkNsym_eq_none s).2 (State.nsym_legal hnsym)
    refine exec_of_commandError_some (e := ⟨.range, 0⟩) ?_
    rw [commandError_histEntropy, hok, Option.none_or]
    exact need_of_not _ (Nat.not_lt.2 hsum)
  · have hok : commandError .histEntropy s = none :=
      Option.or_eq_none_iff.2 ⟨(checkNsym_eq_none s).2 (State.nsym_legal hnsym),
        (need_eq_none _ _).2 (decide_eq_true hsum)⟩
    refine ⟨ent s.counts s.regs.entCorr.toNat, exec_of_commandError_none hok, ?_⟩
    rw [ent_eq_estimate]
    exact ⟨estimate_of_few _, estimate_of_equal _, estimate_of_unequal _⟩

end Sys2Proof.Machine
end

/-! ### HIST.EXPORT (R268) -/

section
namespace Sys2Proof.Machine

/-- R56 to R58: TH, SYMS and HCNT store whole host words. -/
theorem MemId.keep_counter {id : MemId} (hid : id ∈ [MemId.th, .syms, .hcnt]) (i : Nat) (v : Word) :
    id.keep i v = v := by
  refine BitVec.eq_of_toNat_eq ((MemId.toNat_keep id i v).trans ?_)
  simp only [List.mem_cons, List.not_mem_nil, or_false] at hid
  obtain rfl | rfl | rfl := hid
  · rfl
  · rfl
  · rfl

/-- R268: the pre-checks after the legality of the word: CACHE_BITS for the literal array, NHISTO, then `k`. -/
theorem commandError_histExport {arr : BitVec 3} (k : BitVec 16) (s : State) (harr : arr.toNat ≤ 4) :
    commandError (.histExport arr k) s = (if arr = 0 then checkCacheBits s else none).or
      ((checkNhisto s).or (need (decide (k.toNat < s.regs.nhisto.toNat)) (paramError .nhisto))) := by
  simp only [commandError, histExportError, (needLegal_eq_none _).2 ((wf_histExport_iff arr k).2 harr), Option.none_or]

/-- R268: the check of CACHE_BITS passes on a legal value, and is not made for the other arrays. -/
theorem checkExportCacheBits_eq_none {arr : BitVec 3} {s : State} (h : arr = 0 → s.regs.cacheBits.toNat ≤ 10) :
    (if arr = 0 then checkCacheBits s else none) = none := by
  split
  case isTrue harr => exact (checkCacheBits_eq_none s).2 (h harr)
  case isFalse => rfl

/-- R268, R355: NHISTO is reported for its own range and for `k`. -/
theorem checkHistogramIndex_of_illegal {s : State} {k : Nat}
    (h : s.regs.nhisto.toNat = 0 ∨ s.caps.th.toNat < s.regs.nhisto.toNat ∨ s.regs.nhisto.toNat ≤ k) :
    (checkNhisto s).or (need (decide (k < s.regs.nhisto.toNat)) (paramError .nhisto)) = some (paramError .nhisto) := by
  by_cases hlegal : 1 ≤ s.regs.nhisto.toNat ∧ s.regs.nhisto.toNat ≤ s.caps.th.toNat
  · rw [(checkNhisto_eq_none s).2 hlegal, Option.none_or]
    exact need_of_not _ (by omega)
  · have hbad : checkNhisto s = some (paramError .nhisto) :=
      (need_eq_some _ _ _).2 ⟨(Bool.decide_and _ _).symm.trans (decide_eq_false hlegal), rfl⟩
    rw [hbad, Option.some_or]

/-- R56, R250, R268: the size and the place of the exported array, by its number. -/
theorem State.exportSize_eq (s : State) {arr : Nat} (h : arr ≤ 4) :
    s.exportSize arr = [280 + 2 ^ s.regs.cacheBits.toNat, 256, 256, 256, 40].getD arr 0 ∧
      arrayOffset arr = [0, 1304, 1560, 1816, 2072].getD arr 0 := by
  interval_cases arr
  all_goals exact ⟨rfl, rfl⟩

/-- R268: HCNT after `size` counters are exported from host word `start` of TH. -/
theorem State.readWord_writeExport {s : State} (h : s.mems.Canonical) (size start : Nat) {j : Nat} (hj : j < size) :
    (s.writeExport size (s.readWords .th start size)).readWord .hcnt j = s.readWord .th (start + j) := by
  have hread := s.readWord_writeWords_inside .hcnt 0 (s.readWords .th start size) j (by simpa using hj)
  simp only [Nat.zero_add, MemId.keep_counter (id := .hcnt) (by decide), State.readWords_eq_map h,
    List.getElem_map, List.getElem_range] at hread
  rw [← hread, ← State.readWords_eq_map h]
  rfl

/-- Settles O51. -/
theorem histExportCopiesOneArray : Obligations.HistExportCopiesOneArray := by
  rintro arr k s _ _ hwf harr rfl rfl
  have hcanon := s.memsWf_iff.1 hwf
  have hchecks := commandError_histExport k s harr
  obtain ⟨hsize, hbase⟩ := s.exportSize_eq harr
  refine ⟨fun ⟨hlit, hcache⟩ => ?_, fun hcache hbad => ?_, fun hcache hnhisto hk => ?_⟩
  · refine exec_of_commandError_some (e := paramError .cacheBits) ?_
    have hbad : ¬ s.regs.cacheBits.toNat ≤ maxCacheBits := Nat.not_le.2 hcache
    rw [hchecks, if_pos hlit, checkCacheBits, need_of_not _ hbad, Option.some_or]
  · refine exec_of_commandError_some (e := paramError .nhisto) ?_
    rw [hchecks, checkExportCacheBits_eq_none hcache, Option.none_or, checkHistogramIndex_of_illegal hbad]
  · have hok : commandError (.histExport arr k) s = none := by
      rw [hchecks, checkExportCacheBits_eq_none hcache, Option.none_or]
      exact Option.or_eq_none_iff.2 ⟨(checkNhisto_eq_none s).2 ⟨by omega, hnhisto⟩,
        (need_eq_none _ _).2 (decide_eq_true hk)⟩
    rw [← hsize, ← hbase]
    refine ⟨_, exec_of_commandError_none hok, rfl,
      ⟨rfl, rfl, rfl, rfl, fun id hid => s.writeWords_get_ne .hcnt id 0 _ (by simpa using hid)⟩,
      fun a ha => s.readWord_writeWords_outside .hcnt 0 _ a (by simpa using ha),
      fun j hj => State.readWord_writeExport hcanon _ _ hj⟩

end Sys2Proof.Machine
end

/-! ### What a bad stream or a bad symbol reports (R253, R262, R358) -/

section
namespace Sys2Proof.Machine

/-- R253: the machine's test of a record. -/
theorem recordValid_iff {n cacheBits pos : Nat} {r : RefRec} :
    recordValid n cacheBits pos r = true ↔ ValidRecord n cacheBits pos r := by
  simp only [recordValid, Bool.and_eq_true, Bool.or_eq_true, decide_eq_true_eq, and_assoc, or_assoc]
  exact Iff.rfl

/-- Records are valid one after the other when each is at the position of its index. -/
theorem recordsAt_of_getD {P : Nat → RefRec → Prop} {pos : Nat} {recs : List RefRec}
    (h : ∀ j < recs.length, P (pos + streamLength (recs.take j)) (recs.getD j ⟨0, 0⟩)) : RecordsAt P pos recs := by
  induction recs generalizing pos with
  | nil => trivial
  | cons r recs ih =>
    refine ⟨h 0 (Nat.succ_pos _), ih fun j hj => ?_⟩
    have hrec := h (j + 1) (Nat.succ_lt_succ hj)
    rwa [List.take_succ_cons, streamLength_cons, ← Nat.add_assoc] at hrec

/-- R253: the search for a fault passes over valid records. -/
theorem streamFault_append {n cacheBits pos : Nat} {pre : List RefRec} (post : List RefRec) (j : Nat)
    (h : RecordsAt (ValidRecord n cacheBits) pos pre) :
    streamFault n cacheBits (pre ++ post) j pos =
      streamFault n cacheBits post (j + pre.length) (pos + streamLength pre) := by
  induction pre generalizing pos j with
  | nil => rfl
  | cons r pre ih =>
    obtain ⟨hvalid, hrest⟩ := h
    rw [List.cons_append, streamFault, if_pos (recordValid_iff.2 hvalid), ih (j + 1) hrest, List.length_cons,
      streamLength_cons, Nat.add_assoc pos, Nat.add_assoc j, Nat.add_comm 1]

/-- R253: the lowest invalid record is the fault. -/
theorem streamFault_of_invalid {n cacheBits : Nat} {recs : List RefRec} {j : Nat} (hj : j < recs.length)
    (hbefore : ∀ j' < j, ValidRecord n cacheBits (streamLength (recs.take j')) (recs.getD j' ⟨0, 0⟩))
    (hbad : ¬ ValidRecord n cacheBits (streamLength (recs.take j)) (recs.getD j ⟨0, 0⟩)) :
    streamFault n cacheBits recs 0 0 = some j := by
  have hpre : RecordsAt (ValidRecord n cacheBits) 0 (recs.take j) := recordsAt_of_getD fun j' hj' => by
    have hlt : j' < j := hj'.trans_le (List.length_take_le ..)
    have hvalid := hbefore j' hlt
    rw [Nat.zero_add, List.take_take, Nat.min_eq_left hlt.le]
    simpa [List.getD_eq_getElem?_getD, List.getElem?_take, hlt] using hvalid
  have hfault := streamFault_append (recs.drop j) 0 hpre
  rw [List.take_append_drop, List.drop_eq_getElem_cons hj, List.length_take_of_le hj.le, Nat.zero_add, Nat.zero_add,
    ← List.getD_eq_getElem _ ⟨0, 0⟩ hj, streamFault, if_neg (recordValid_iff.not.2 hbad)] at hfault
  exact hfault

/-- R253: a stream of valid records that does not end with the image faults at its end. -/
theorem streamFault_of_length {n cacheBits : Nat} {recs : List RefRec}
    (hvalid : RecordsAt (ValidRecord n cacheBits) 0 recs) (hlen : streamLength recs ≠ n) :
    streamFault n cacheBits recs 0 0 = some recs.length := by
  have hfault := streamFault_append [] 0 hvalid
  rwa [List.append_nil, Nat.zero_add, Nat.zero_add, streamFault, if_neg hlen] at hfault

theorem recordsOf_length (ws : List Word) : (recordsOf ws).length = ws.length / 2 := by
  induction ws using recordsOf.induct with
  | case1 w0 w1 rest ih => simp only [recordsOf, List.length_cons, ih]; omega
  | case2 ws hshort =>
    match ws, hshort with
    | [], _ => rfl
    | [w], _ => simp [recordsOf]
    | w0 :: w1 :: rest, hshort => exact absurd rfl (hshort w0 w1 rest)

/-- R43, R252: the stream has NREFS records. -/
theorem State.refStream_length (s : State) : s.refStream.length = s.regs.nrefs.toNat := by
  rw [State.refStream, recordsOf_length, State.readWords_length, Nat.mul_div_cancel_left _ (by decide)]

/-- R252, R351: legal operands leave HIST.BUILD the check of its stream. -/
theorem commandError_histBuild_eq_checkStream {s : State} (hparams : ParamsLegal .histBuild s)
    (hfits : ResourcesFit .histBuild s) : commandError .histBuild s = checkStream s := by
  obtain ⟨-, hdims, hregs, -⟩ := hparams
  have hcache := (checkCacheBits_eq_none s).2 (of_decide_eq_true (hregs .cacheBits (by decide)))
  have hhisto := (checkHistoBits_eq_none s).2 (of_decide_eq_true (hregs .histoBits (by decide)))
  have hnrefs := (checkNrefs_eq_none s).2 (of_decide_eq_true (hregs .nrefs (by decide)))
  have htiles := (checkFits_eq_none s .th s.histTiles).2 (hfits (.th, s.histTiles) (by simp [resourceNeeds]))
  simp only [commandError, histBuildError, (needLegal_eq_none .histBuild).2 rfl, checkDim_of_dimsLegal (hdims rfl),
    hcache, hhisto, hnrefs, htiles, Option.none_or]

/-- R262, R351: legal operands leave HIST.CLUSTER the checks of its symbols and its totals. -/
theorem commandError_histCluster_eq {s : State} (hparams : ParamsLegal .histCluster s)
    (hfits : ResourcesFit .histCluster s) :
    commandError .histCluster s = (checkSymbols s).or (checkTotals s) := by
  obtain ⟨-, hdims, hregs, -⟩ := hparams
  have hcache := (checkCacheBits_eq_none s).2 (of_decide_eq_true (hregs .cacheBits (by decide)))
  have hhisto := (checkHistoBits_eq_none s).2 (of_decide_eq_true (hregs .histoBits (by decide)))
  have hnhisto := (checkNhisto_eq_none s).2 (of_decide_eq_true (hregs .nhisto (by decide)))
  have htiles := (checkFits_eq_none s .syms s.histTiles).2 (hfits (.syms, s.histTiles) (by simp [resourceNeeds]))
  simp only [commandError, histClusterError, (needLegal_eq_none .histCluster).2 rfl, checkDim_of_dimsLegal (hdims rfl),
    hcache, hhisto, hnhisto, htiles, Option.none_or]

/-- R262 (7): the lowest tile whose symbol is out of range is reported. -/
theorem checkSymbols_of_bad {s : State} (h : s.mems.Canonical) {k : Nat} (hk : k < s.histTiles)
    (hbefore : ∀ k' < k, (s.readWord .syms k').toNat < s.regs.nhisto.toNat)
    (hbad : s.regs.nhisto.toNat ≤ (s.readWord .syms k).toNat) :
    checkSymbols s = some ⟨.stream, BitVec.ofNat 32 k⟩ := by
  have hfind : s.tileSymbols.findIdx? (fun v => decide (s.regs.nhisto.toNat ≤ v)) = some k := by
    rw [State.tileSymbols, State.readNats_eq_map h, List.findIdx?_eq_some_iff_getElem]
    exact ⟨by simpa using hk, by simpa using hbad, fun j hj => by simpa using hbefore j hj⟩
  rw [checkSymbols, hfind, Option.map_some]

/-- Settles O30: the search stops at the first invalid record, at the end of a valid stream of the wrong length, or at
the first bad symbol. -/
theorem streamErrors : Obligations.StreamErrors := by
  intro s hwf
  refine ⟨fun hparams hfits => ?_, fun hparams hfits k hk hbefore hbad => ?_⟩
  · have report : ∀ j, streamFault s.pixelCount s.regs.cacheBits.toNat s.refStream 0 0 = some j →
        exec .histBuild s = .next (s.errored 0x05 (BitVec.ofNat 32 j)) := fun j hj => by
      refine exec_of_commandError_some (e := ⟨.stream, BitVec.ofNat 32 j⟩) ?_
      rw [commandError_histBuild_eq_checkStream hparams hfits, checkStream, hj, Option.map_some]
    refine ⟨fun j hj hbefore hbad => report j (streamFault_of_invalid hj hbefore hbad), fun hvalid hlen => ?_⟩
    have hrecords : RecordsAt (ValidRecord s.pixelCount s.regs.cacheBits.toNat) 0 s.refStream :=
      recordsAt_of_getD fun j hj => by rw [Nat.zero_add]; exact hvalid j hj
    have hend := report _ (streamFault_of_length hrecords hlen)
    rwa [s.refStream_length, BitVec.ofNat_toNat, BitVec.setWidth_eq] at hend
  · refine exec_of_commandError_some (e := ⟨.stream, BitVec.ofNat 32 k⟩) ?_
    rw [commandError_histCluster_eq hparams hfits, checkSymbols_of_bad (s.memsWf_iff.1 hwf) hk hbefore hbad,
      Option.some_or]

end Sys2Proof.Machine
end

/-! ### Histograms written to TH and their indices to SYMS (R56, R252, R266) -/

section
namespace Sys2Proof.Machine

/-- R56: counter `j` of histogram `k`. -/
def counterAt (hists : List (List Nat)) (k j : Nat) : Nat := (hists.getD k []).getD j 0

/-- R56: every histogram is a whole record of TH. -/
def WholeRecords (hists : List (List Nat)) : Prop := ∀ h ∈ hists, h.length = histWords

variable {hists : List (List Nat)}

theorem WholeRecords.flatten_length (h : WholeRecords hists) : hists.flatten.length = hists.length * histWords := by
  rw [List.length_flatten, List.map_congr_left h, List.map_const', List.sum_replicate, smul_eq_mul]

/-- R56: record `k` stands at host word `k * histWords` of TH. -/
theorem WholeRecords.flatten_getD (h : WholeRecords hists) (k : Nat) {j : Nat} (hj : j < histWords) :
    hists.flatten.getD (k * histWords + j) 0 = counterAt hists k j := by
  induction hists generalizing k with
  | nil => rfl
  | cons a rest ih =>
    obtain ⟨ha, hrest⟩ := List.forall_mem_cons.1 h
    rw [List.flatten_cons]
    cases k with
    | zero => rw [Nat.zero_mul, Nat.zero_add, List.getD_append _ _ _ _ (hj.trans_eq ha.symm)]; rfl
    | succ k =>
      rw [List.getD_append_right _ _ _ _ (by rw [ha, Nat.succ_mul]; omega),
        show (k + 1) * histWords + j - a.length = k * histWords + j by rw [ha, Nat.succ_mul]; omega, ih hrest]
      rfl

theorem State.writeHistograms_get_th (s : State) (hists : List (List Nat)) (syms : List Nat) :
    (s.writeHistograms hists syms).mems.get .th = (s.writeNats .th 0 hists.flatten).mems.get .th :=
  State.writeWords_get_ne _ .syms .th 0 _ (by decide)

theorem State.sameBut_writeHistograms (s : State) (hists : List (List Nat)) (syms : List Nat) :
    SameBut s (s.writeHistograms hists syms) [.th, .syms] :=
  ⟨rfl, rfl, rfl, rfl, fun id hid => by
    obtain ⟨hth, hsyms⟩ : id ≠ .th ∧ id ≠ .syms := by simpa using hid
    exact (State.writeWords_get_ne _ .syms id 0 _ hsyms).trans (s.writeWords_get_ne .th id 0 _ hth)⟩

theorem State.sameOutside_writeHistograms_th (s : State) (hhists : WholeRecords hists) (syms : List Nat) :
    SameOutside s (s.writeHistograms hists syms) .th 0 (hists.length * histWords) := fun a ha =>
  (State.readWord_congr_get (s.writeHistograms_get_th hists syms) a).trans
    (s.sameOutside_writeNats .th hists.flatten a (by rwa [hhists.flatten_length]))

theorem State.sameOutside_writeHistograms_syms (s : State) (hists : List (List Nat)) (syms : List Nat) :
    SameOutside s (s.writeHistograms hists syms) .syms 0 syms.length := fun a ha =>
  (State.sameOutside_writeNats _ .syms syms a ha).trans (s.readWord_writeWords_ne .th .syms 0 _ a (by decide))

/-- R56: a counter is read back from TH. -/
theorem State.readWord_writeHistograms_th (s : State) (hhists : WholeRecords hists) (syms : List Nat) {k j : Nat}
    (hk : k < hists.length) (hj : j < histWords) :
    (s.writeHistograms hists syms).readWord .th (k * histWords + j) = BitVec.ofNat 32 (counterAt hists k j) := by
  have hin : k * histWords + j < hists.flatten.length := by
    rw [hhists.flatten_length]
    calc k * histWords + j < (k + 1) * histWords := by rw [Nat.succ_mul]; omega
      _ ≤ hists.length * histWords := Nat.mul_le_mul_right _ hk
  apply BitVec.eq_of_toNat_eq
  rw [State.readWord_congr_get (s.writeHistograms_get_th hists syms), s.toNat_readWord_writeNats .th hin,
    hhists.flatten_getD k hj]
  rfl

/-- R57: a symbol is read back from SYMS. -/
theorem State.toNat_readWord_writeHistograms_syms (s : State) (hists : List (List Nat)) {syms : List Nat} {a : Nat}
    (ha : a < syms.length) (hfit : syms.getD a 0 < 2 ^ 32) :
    ((s.writeHistograms hists syms).readWord .syms a).toNat = syms.getD a 0 := by
  have hread := State.toNat_readWord_writeNats (s.writeNats .th 0 hists.flatten) .syms ha
  exact hread.trans (Nat.mod_eq_of_lt hfit)

end Sys2Proof.Machine
end

/-! ### The tallies of HIST.BUILD (R251 to R255) -/

section
namespace Sys2Proof.Machine

/-- R154: the code of a 16-bit value is below 32. -/
theorem prefixEncode_code_lt {v : Nat} (hv : v < 2 ^ 16) : (prefixEncode v).code < 32 := by
  cases v with
  | zero => decide
  | succ d =>
    by_cases hd : d < 2
    · rw [prefixEncode_small hd]; exact hd.trans (by decide)
    · obtain ⟨n, hle, htop, hp⟩ := prefixEncode_large (Nat.le_of_not_lt hd)
      have hn : n + 1 < 16 := msb_lt_of_lt_two_pow hle (by omega)
      simp only [hp]
      omega

/-- R254: `increments` counts how often a counter is among those of the record. -/
theorem count_recordCounters (r : RefRec) (j : Nat) : (recordCounters r).count j = increments r j := by
  have hval : r.w1.toNat < 4294967296 := r.w1.isLt
  unfold recordCounters increments
  split
  case isTrue =>
    have halpha : r.w1.toNat / 16777216 % 256 = r.w1.toNat / 16777216 := Nat.mod_eq_of_lt (by omega)
    rw [greenOf_eq, redOf_eq, blueOf_eq, alphaOf_eq, halpha]
    rfl
  case isFalse =>
    split
    case isTrue => rw [List.count_singleton]; simp only [beq_iff_eq, eq_comm (a := j)]; rfl
    case isFalse =>
      have hcode : (prefixEncode r.len).code < 32 := prefixEncode_code_lt (BitVec.isLt _)
      have hdist : arrayOffset 4 = 2072 := rfl
      simp only [List.count_cons, List.count_nil, beq_iff_eq, numLiteralCodes, hdist]
      split_ifs <;> omega

theorem getD_modify {α : Type} {l : List α} {j : Nat} (hj : j < l.length) (i : Nat) (f : α → α) (d : α) :
    (l.modify i f).getD j d = if i = j then f (l.getD j d) else l.getD j d := by
  rw [List.getD_eq_getElem _ d (by rwa [List.length_modify]), List.getElem_modify, List.getD_eq_getElem _ d hj]

/-- R254: a record adds its increments to every counter. -/
theorem addRecord_getD {h : List Nat} {j : Nat} (hj : j < h.length) (r : RefRec) :
    (addRecord h r).getD j 0 = h.getD j 0 + increments r j := by
  rw [← count_recordCounters, addRecord]
  induction recordCounters r generalizing h with
  | nil => rfl
  | cons i is ih =>
    rw [List.foldl_cons, ih (by rwa [List.length_modify]), List.count_cons, getD_modify hj]
    by_cases hij : i = j
    · rw [if_pos hij, if_pos (beq_iff_eq.2 hij)]; omega
    · rw [if_neg hij, if_neg (mt beq_iff_eq.1 hij), Nat.add_zero]

theorem histTileAt_eq (width histoBits tilesX pos : Nat) :
    histTileAt width histoBits tilesX pos =
      (pos / width / 2 ^ histoBits) * tilesX + pos % width / 2 ^ histoBits := by
  simp only [histTileAt, Nat.shiftRight_eq_div_pow]

theorem WholeRecords.modify {hists : List (List Nat)} (h : WholeRecords hists) (i : Nat) (r : RefRec) :
    WholeRecords (hists.modify i (fun h => addRecord h r)) := by
  intro h' hmem
  obtain ⟨k, hk⟩ := List.mem_iff_getElem?.1 hmem
  rw [List.getElem?_modify] at hk
  obtain ⟨old, hold, rfl⟩ := Option.map_eq_some_iff.1 hk
  have hlen := h old (List.mem_of_getElem? hold)
  split
  · exact (addRecord_length old r).trans hlen
  · exact hlen

/-- R252, R255: the records counted add their tallies. -/
theorem counterAt_accumulate {hists : List (List Nat)} (h : WholeRecords hists) (width histoBits tilesX : Nat)
    (recs : List RefRec) (pos : Nat) {k j : Nat} (hk : k < hists.length) (hj : j < histWords) :
    counterAt (accumulate width histoBits tilesX recs pos hists) k j =
      counterAt hists k j + tally width histoBits tilesX k j recs pos := by
  induction recs generalizing pos hists with
  | nil => rfl
  | cons r recs ih =>
    have hwhole : j < (hists.getD k []).length := by
      rw [List.getD_eq_getElem _ [] hk, h _ (List.getElem_mem hk)]; exact hj
    rw [accumulate, ih (h.modify _ r) _ (by rwa [List.length_modify]), tally, histTileAt_eq, counterAt,
      getD_modify hk]
    split
    · rw [addRecord_getD hwhole, Nat.add_assoc]; rfl
    · rw [Nat.zero_add]; rfl

theorem WholeRecords.accumulate {hists : List (List Nat)} (h : WholeRecords hists) (width histoBits tilesX pos : Nat)
    (recs : List RefRec) : WholeRecords (accumulate width histoBits tilesX recs pos hists) := by
  induction recs generalizing pos hists with
  | nil => exact h
  | cons r recs ih => exact ih (h.modify _ r) _

/-- R252: the histograms HIST.BUILD begins with. -/
theorem wholeRecords_zero (n : Nat) : WholeRecords (List.replicate n (List.replicate histWords 0)) := fun h hmem => by
  rw [List.eq_of_mem_replicate hmem, List.length_replicate]

theorem State.builtHistograms_whole (s : State) : WholeRecords s.builtHistograms := by
  rw [State.builtHistograms]
  exact (wholeRecords_zero _).accumulate _ _ _ _ _

/-- R252, R255: the counters HIST.BUILD makes are the tallies. -/
theorem State.counterAt_builtHistograms (s : State) {k j : Nat} (hk : k < s.histTiles) (hj : j < histWords) :
    counterAt s.builtHistograms k j =
      tally s.regs.width.toNat s.regs.histoBits.toNat s.histTilesX k j s.refStream 0 := by
  have hzero : counterAt (List.replicate s.histTiles (List.replicate histWords 0)) k j = 0 := by
    simp [counterAt, hk, hj]
  rw [State.builtHistograms, counterAt_accumulate (wholeRecords_zero _) _ _ _ _ _ (by simpa using hk) hj, hzero,
    Nat.zero_add]

/-- R252, R253: a valid stream passes HIST.BUILD's checks. -/
theorem BuildReady.commandError_eq_none {s : State} (h : BuildReady s) : commandError .histBuild s = none := by
  obtain ⟨hparams, hfits, hvalid, hlen⟩ := h
  have hrecords : RecordsAt (fun pos r => recordValid s.pixelCount s.regs.cacheBits.toNat pos r = true) 0 s.refStream :=
    recordsAt_of_getD fun j hj => by rw [Nat.zero_add]; exact recordValid_iff.2 (hvalid j hj)
  rw [commandError_histBuild_eq_checkStream hparams hfits, checkStream,
    streamFault_eq_none 0 hrecords ((Nat.zero_add _).trans hlen), Option.map_none]

/-- Settles O48. -/
theorem histBuildTalliesEachTile : Obligations.HistBuildTalliesEachTile := by
  intro s _ hready
  have hcount := s.builtHistograms_length
  have hwhole := s.builtHistograms_whole
  have hfit : s.histTiles ≤ s.caps.th.toNat := hready.2.1 (.th, s.histTiles) (by simp [resourceNeeds])
  have hth := s.sameOutside_writeHistograms_th hwhole (List.range s.histTiles)
  have hsyms := s.sameOutside_writeHistograms_syms s.builtHistograms (List.range s.histTiles)
  rw [hcount] at hth
  rw [List.length_range] at hsyms
  refine ⟨_, exec_of_commandError_none (BuildReady.commandError_eq_none hready), ?_,
    s.sameBut_writeHistograms _ _, hth, hsyms, fun k hk => ⟨?_, fun j hj => ?_⟩⟩
  · rw [← hcount]; rfl
  · have hsym : (List.range s.histTiles).getD k 0 = k := by simp [hk]
    exact (s.toNat_readWord_writeHistograms_syms s.builtHistograms (by simpa using hk)
      (by rw [hsym]; exact (hk.trans_le hfit).trans s.caps.th.isLt)).trans hsym
  · rw [← s.counterAt_builtHistograms hk hj]
    exact s.readWord_writeHistograms_th hwhole _ (hk.trans_eq hcount.symm) hj

end Sys2Proof.Machine
end

/-! ### The merge HIST.CLUSTER chooses (R260, R263, R264) -/

section
namespace Sys2Proof.Machine

/-- R258, R260: the cost by the estimates of the five arrays. -/
theorem histCost_eq (cb corr : Nat) (h : List Nat) : histCost cb corr h =
    estimate (h.take (280 + 2 ^ cb)) corr + estimate ((h.drop 1304).take 256) corr +
      estimate ((h.drop 1560).take 256) corr + estimate ((h.drop 1816).take 256) corr +
      estimate ((h.drop 2072).take 40) corr := by
  simp only [histCost, ent_eq_estimate]
  rfl

/-- R263: `m` joins the live histograms `a` and `b` with gain. -/
structure Merge.Joins (cb corr : Nat) (a b : Cluster) (m : Merge) : Prop where
  lo : a.index = m.lo
  hi : b.index = m.hi
  counters : m.counters = addCounters a.counters b.counters
  cost : m.cost = histCost cb corr m.counters
  gain : m.cost + m.gain = a.cost + b.cost
  gain_pos : 0 < m.gain

/-- R264: `m` comes before `x`: its lower index is smaller, or that is the same and its higher index is smaller. -/
def Merge.Before (m x : Merge) : Prop := m.lo < x.lo ∨ (m.lo = x.lo ∧ m.hi < x.hi)

variable {cb corr : Nat} {live : List Cluster}

theorem joins_of_candidate {a b : Cluster} {m : Merge} (h : candidate cb corr a b = some m) : m.Joins cb corr a b := by
  simp only [candidate, Option.ite_none_right_eq_some, Option.some.injEq] at h
  obtain ⟨hgain, rfl⟩ := h
  exact ⟨rfl, rfl, rfl, rfl, by simp only; omega, by simp only; omega⟩

theorem candidate_eq_none {a b : Cluster} : candidate cb corr a b = none ↔
    a.cost + b.cost ≤ histCost cb corr (addCounters a.counters b.counters) := by
  simp [candidate]

/-- R264: the candidates are the gainful pairs of live indices. -/
theorem mem_candidates (hlive : (live.map Cluster.index).Pairwise (· < ·)) {m : Merge} :
    m ∈ candidates cb corr live ↔
      ∃ a ∈ live, ∃ b ∈ live, a.index < b.index ∧ candidate cb corr a b = some m := by
  induction live with
  | nil => simp [candidates]
  | cons c rest ih =>
    obtain ⟨hc, hrest⟩ := List.pairwise_cons.1 hlive
    rw [List.forall_mem_map] at hc
    rw [candidates, List.mem_append, List.mem_filterMap, ih hrest]
    constructor
    · rintro (⟨b, hb, hm⟩ | ⟨a, ha, b, hb, hab, hm⟩)
      · exact ⟨c, List.mem_cons_self, b, List.mem_cons_of_mem c hb, hc b hb, hm⟩
      · exact ⟨a, List.mem_cons_of_mem c ha, b, List.mem_cons_of_mem c hb, hab, hm⟩
    · rintro ⟨a, ha, b, hb, hab, hm⟩
      obtain rfl | ha' := List.mem_cons.1 ha
      · obtain rfl | hb' := List.mem_cons.1 hb
        · exact absurd hab (Nat.lt_irrefl _)
        · exact .inl ⟨b, hb', hm⟩
      · obtain rfl | hb' := List.mem_cons.1 hb
        · exact absurd hab (Nat.lt_asymm (hc a ha'))
        · exact .inr ⟨a, ha', b, hb', hab, hm⟩

/-- R264: the candidates are listed by lowest `i`, then lowest `j`. -/
theorem candidates_pairwise (hlive : (live.map Cluster.index).Pairwise (· < ·)) :
    (candidates cb corr live).Pairwise Merge.Before := by
  induction live with
  | nil => exact List.Pairwise.nil
  | cons c rest ih =>
    obtain ⟨hc, hrest⟩ := List.pairwise_cons.1 hlive
    rw [List.forall_mem_map] at hc
    refine List.pairwise_append.2 ⟨?_, ih hrest, fun x hx y hy => ?_⟩
    · refine (List.pairwise_map.1 hrest).filterMap _ fun b b' hbb x hx y hy => .inr ?_
      have hx := joins_of_candidate hx
      have hy := joins_of_candidate hy
      exact ⟨hx.lo.symm.trans hy.lo, by rw [← hx.hi, ← hy.hi]; exact hbb⟩
    · obtain ⟨b, -, hx⟩ := List.mem_filterMap.1 hx
      obtain ⟨a, ha, b', -, -, hy⟩ := (mem_candidates hrest).1 hy
      left
      rw [← (joins_of_candidate hx).lo, ← (joins_of_candidate hy).lo]
      exact hc a ha

/-- R264: `m` has the largest gain of a list of merges and comes before the others of that gain. -/
structure FirstBest (merges : List Merge) (m : Merge) : Prop where
  mem : m ∈ merges
  best : ∀ x ∈ merges, x.gain < m.gain ∨ (x.gain = m.gain ∧ (x = m ∨ m.Before x))

theorem bestMerge_append_singleton (merges : List Merge) (a : Merge) :
    bestMerge (merges ++ [a]) = some ((bestMerge merges).elim a fun b => if b.gain < a.gain then a else b) := by
  rw [bestMerge, List.foldl_append, List.foldl_cons, List.foldl_nil, ← bestMerge]
  cases bestMerge merges with
  | none => rfl
  | some b => exact (apply_ite some _ _ _).symm

/-- A merge put last is chosen when its gain is larger than any before. -/
theorem FirstBest.append_singleton {merges : List Merge} {b a : Merge} (h : FirstBest merges b)
    (hbefore : b.Before a) : FirstBest (merges ++ [a]) (if b.gain < a.gain then a else b) := by
  split
  case isTrue hlt =>
    refine ⟨by simp, List.forall_mem_append.2 ⟨fun x hx => .inl ?_, by simp⟩⟩
    obtain hless | ⟨heq, -⟩ := h.best x hx
    · exact hless.trans hlt
    · exact heq.trans_lt hlt
  case isFalse hle =>
    refine ⟨List.mem_append_left _ h.mem, List.forall_mem_append.2 ⟨h.best, fun x hx => ?_⟩⟩
    obtain rfl := List.mem_singleton.1 hx
    obtain hlt | heq := Nat.lt_or_eq_of_le (Nat.le_of_not_lt hle)
    · exact .inl hlt
    · exact .inr ⟨heq, .inr hbefore⟩

/-- R264: of merges listed in order the first of largest gain is chosen; none of no merge. -/
theorem bestMerge_spec {merges : List Merge} (h : merges.Pairwise Merge.Before) :
    (bestMerge merges = none → merges = []) ∧ ∀ m, bestMerge merges = some m → FirstBest merges m := by
  induction merges using List.reverseRecOn with
  | nil => exact ⟨fun _ => rfl, fun m hm => nomatch hm⟩
  | append_singleton merges a ih =>
    obtain ⟨hmerges, -, hlast⟩ := List.pairwise_append.1 h
    obtain ⟨hnone, hsome⟩ := ih hmerges
    rw [bestMerge_append_singleton]
    refine ⟨fun hnone => absurd hnone (Option.some_ne_none _), fun m hm => ?_⟩
    obtain rfl := Option.some.inj hm
    cases hbest : bestMerge merges with
    | none =>
      obtain rfl := hnone hbest
      exact ⟨by simp, by simp⟩
    | some b => exact (hsome b hbest).append_singleton (hlast b (hsome b hbest).mem a (by simp))

/-- R264: when no merge is chosen, no pair gains. -/
theorem no_gain_of_bestMerge_none (hlive : (live.map Cluster.index).Pairwise (· < ·))
    (h : bestMerge (candidates cb corr live) = none) {c d : Cluster} (hc : c ∈ live) (hd : d ∈ live)
    (hcd : c.index < d.index) : c.cost + d.cost ≤ histCost cb corr (addCounters c.counters d.counters) := by
  have hempty := (bestMerge_spec (candidates_pairwise hlive)).1 h
  refine candidate_eq_none.1 (Option.eq_none_iff_forall_ne_some.2 fun x hx => ?_)
  have hmem := (mem_candidates (cb := cb) (corr := corr) hlive).2 ⟨c, hc, d, hd, hcd, hx⟩
  rw [hempty] at hmem
  exact List.not_mem_nil hmem

/-- R264: the merge chosen joins a live pair. -/
theorem joins_of_bestMerge (hlive : (live.map Cluster.index).Pairwise (· < ·)) {m : Merge}
    (h : bestMerge (candidates cb corr live) = some m) : ∃ a ∈ live, ∃ b ∈ live, m.lo < m.hi ∧ m.Joins cb corr a b := by
  obtain ⟨a, ha, b, hb, hab, hm⟩ := (mem_candidates hlive).1 (mem_of_bestMerge h)
  have hjoins := joins_of_candidate hm
  exact ⟨a, ha, b, hb, by rwa [← hjoins.lo, ← hjoins.hi], hjoins⟩

/-- R264: no pair gains more than the merge chosen, and a pair that gains as much comes later. -/
theorem best_of_bestMerge (hlive : (live.map Cluster.index).Pairwise (· < ·)) {m : Merge}
    (h : bestMerge (candidates cb corr live) = some m) {c d : Cluster} (hc : c ∈ live) (hd : d ∈ live)
    (hcd : c.index < d.index) :
    c.cost + d.cost ≤ histCost cb corr (addCounters c.counters d.counters) + m.gain ∧
      (c.cost + d.cost = histCost cb corr (addCounters c.counters d.counters) + m.gain →
        m.lo < c.index ∨ (m.lo = c.index ∧ m.hi ≤ d.index)) := by
  have hpos : 0 < m.gain := by
    obtain ⟨a, -, b, -, -, hjoins⟩ := joins_of_bestMerge hlive h
    exact hjoins.gain_pos
  cases hx : candidate cb corr c d with
  | none =>
    have hle := candidate_eq_none.1 hx
    omega
  | some x =>
    have hbest := ((bestMerge_spec (candidates_pairwise hlive)).2 m h).best x
      ((mem_candidates hlive).2 ⟨c, hc, d, hd, hcd, hx⟩)
    obtain ⟨hlo, hhi, hcounters, hcost, hgain, -⟩ := joins_of_candidate hx
    rw [← hcounters, ← hcost, ← hgain, hlo, hhi]
    obtain hlt | ⟨heq, rfl | hbefore⟩ := hbest
    · omega
    · omega
    · unfold Merge.Before at hbefore
      omega

/-- Settles O50. -/
theorem clusterPicksTheLargestGain : Obligations.ClusterPicksTheLargestGain := by
  refine ⟨histCost_eq, fun cb corr live hlive => ⟨fun m hm => ⟨?_, fun c hc d hd => best_of_bestMerge hlive hm hc hd⟩,
    fun hnone c hc d hd => no_gain_of_bestMerge_none hlive hnone hc hd⟩⟩
  obtain ⟨a, ha, b, hb, hlt, hjoins⟩ := joins_of_bestMerge hlive hm
  exact ⟨a, ha, b, hb, hjoins.lo, hjoins.hi, hlt, hjoins.counters, hjoins.cost, hjoins.gain, hjoins.gain_pos⟩

end Sys2Proof.Machine
end

/-! ### What a sequence of merges leaves (R263 to R265) -/

section
namespace Sys2Proof.Machine

/-- R264: the live indices after merges. -/
def liveAfter (merges : List (Nat × Nat)) (live : List Nat) : List Nat := merges.foldl (fun l m => l.erase m.2) live

/-- R264: the working histograms after merges. -/
def workAfter (merges : List (Nat × Nat)) (work : Nat → List Nat) : Nat → List Nat :=
  merges.foldl (fun w m => Function.update w m.1 (addCounters (w m.1) (w m.2))) work

/-- R264, R265: `parent` after merges. -/
def parentAfter (merges : List (Nat × Nat)) (parent : List Nat) : List Nat :=
  merges.foldl (fun p m => p.set m.2 m.1) parent

/-- R265: the index that holds the histogram of index `k` after merges. -/
def survivor : List (Nat × Nat) → Nat → Nat
  | [], k => k
  | (i, j) :: merges, k => survivor merges (if k = j then i else k)

/-- Each merge joins two indices that are live at its turn, the lower one first. -/
inductive LiveMerges : List (Nat × Nat) → List Nat → Prop
  | nil (live : List Nat) : LiveMerges [] live
  | cons {i j : Nat} {merges : List (Nat × Nat)} {live : List Nat} (hi : i ∈ live) (hj : j ∈ live) (hij : i < j)
      (rest : LiveMerges merges (live.erase j)) : LiveMerges ((i, j) :: merges) live

theorem liveMerges_of_greedy {cost : List Nat → Nat} {merges : List (Nat × Nat)} {live : List Nat}
    {work : Nat → List Nat} (h : GreedyMerges cost merges live work) : LiveMerges merges live := by
  induction merges generalizing live work with
  | nil => exact .nil live
  | cons m merges ih =>
    obtain ⟨⟨hi, hj, hij, -⟩, hrest⟩ := h
    exact .cons hi hj hij (ih hrest)

/-- R264: when the merges end, no pair gains. -/
theorem no_gain_of_greedy {cost : List Nat → Nat} {merges : List (Nat × Nat)} {live : List Nat}
    {work : Nat → List Nat} (h : GreedyMerges cost merges live work) :
    ∀ c ∈ liveAfter merges live, ∀ d ∈ liveAfter merges live, c < d →
      mergeGain cost (workAfter merges work c) (workAfter merges work d) ≤ 0 := by
  induction merges generalizing live work with
  | nil => exact h
  | cons m merges ih => exact ih h.2

theorem liveAfter_sublist (merges : List (Nat × Nat)) (live : List Nat) : (liveAfter merges live).Sublist live := by
  induction merges generalizing live with
  | nil => exact List.Sublist.refl live
  | cons m merges ih => exact (ih (live.erase m.2)).trans List.erase_sublist

theorem mem_erase_redirect {i j k : Nat} {live : List Nat} (hi : i ∈ live) (hij : i < j) (hk : k ∈ live) :
    (if k = j then i else k) ∈ live.erase j := by
  split
  case isTrue => exact (List.mem_erase_of_ne hij.ne).2 hi
  case isFalse hne => exact (List.mem_erase_of_ne hne).2 hk

namespace LiveMerges
variable {merges : List (Nat × Nat)} {live : List Nat}

/-- Each merge takes one index out of the live ones. -/
theorem length_add (h : LiveMerges merges live) : (liveAfter merges live).length + merges.length = live.length := by
  induction h with
  | nil => rfl
  | cons _ hj _ _ ih => rw [← List.length_erase_add_one hj, ← ih]; rfl

theorem survivor_mem (h : LiveMerges merges live) {k : Nat} (hk : k ∈ live) :
    survivor merges k ∈ liveAfter merges live := by
  induction h generalizing k with
  | nil => exact hk
  | cons hi _ hij _ ih => exact ih (mem_erase_redirect hi hij hk)

theorem survivor_le (h : LiveMerges merges live) (k : Nat) : survivor merges k ≤ k := by
  induction h generalizing k with
  | nil => exact Nat.le_refl k
  | cons _ _ hij _ ih =>
    refine (ih _).trans ?_
    split
    · omega
    · exact Nat.le_refl k

/-- R265: a live index holds its own histogram. -/
theorem survivor_of_mem (h : LiveMerges merges live) (hlive : live.Nodup) {r : Nat}
    (hr : r ∈ liveAfter merges live) : survivor merges r = r := by
  induction h with
  | nil => rfl
  | @cons i j merges live _ _ _ _ ih =>
    have hne : r ≠ j := fun hrj => hlive.not_mem_erase (hrj ▸ (liveAfter_sublist merges _).subset hr)
    rw [survivor, if_neg hne]
    exact ih (hlive.erase j) hr

theorem mem_live (h : LiveMerges merges live) {m : Nat × Nat} (hm : m ∈ merges) : m.1 ∈ live ∧ m.2 ∈ live := by
  induction h with
  | nil => exact absurd hm List.not_mem_nil
  | cons hi hj _ _ ih =>
    obtain rfl | hm := List.mem_cons.1 hm
    · exact ⟨hi, hj⟩
    · obtain ⟨hlo, hhi⟩ := ih hm
      exact ⟨List.mem_of_mem_erase hlo, List.mem_of_mem_erase hhi⟩

/-- R265: merged indices have one survivor. -/
theorem survivor_merged (h : LiveMerges merges live) (hlive : live.Nodup) {m : Nat × Nat} (hm : m ∈ merges) :
    survivor merges m.1 = survivor merges m.2 := by
  induction h with
  | nil => exact absurd hm List.not_mem_nil
  | @cons i j merges live _ _ hij rest ih =>
    rw [survivor, survivor]
    obtain rfl | hm := List.mem_cons.1 hm
    · rw [if_neg hij.ne, if_pos rfl]
    · obtain ⟨hlo, hhi⟩ := rest.mem_live hm
      have hne : ∀ k ∈ live.erase j, k ≠ j := fun k hk hkj => hlive.not_mem_erase (hkj ▸ hk)
      rw [if_neg (hne _ hlo), if_neg (hne _ hhi)]
      exact ih (hlive.erase j) hm

/-- R265: `parent` changes at live indices only. -/
theorem parentAfter_getD (h : LiveMerges merges live) (parent : List Nat) {k : Nat} (hk : k ∉ live) (d : Nat) :
    (parentAfter merges parent).getD k d = parent.getD k d := by
  induction h generalizing parent with
  | nil => rfl
  | @cons i j merges live _ hj _ _ ih =>
    have hne : j ≠ k := fun hjk => hk (hjk ▸ hj)
    refine (ih (parent.set j i) fun hmem => hk (List.mem_of_mem_erase hmem)).trans ?_
    simp [List.getD_eq_getElem?_getD, hne]

/-- R265: following `parent` leads to the survivor. -/
theorem rootOf_parentAfter (h : LiveMerges merges live) (hlive : live.Nodup) {parent : List Nat}
    (hself : ∀ k ∈ live, parent.getD k k = k) (hlen : ∀ k ∈ live, k < parent.length) {k fuel : Nat} (hk : k ∈ live)
    (hfuel : k ≤ fuel) : rootOf (parentAfter merges parent) fuel k = survivor merges k := by
  induction h generalizing parent k fuel with
  | nil =>
    cases fuel with
    | zero => rfl
    | succ fuel => exact if_pos (hself k hk)
  | @cons i j merges live hi hj hij rest ih =>
    have hgone : j ∉ live.erase j := hlive.not_mem_erase
    have hself' : ∀ k ∈ live.erase j, (parent.set j i).getD k k = k := fun k hk => by
      have hne : j ≠ k := fun hjk => hgone (hjk ▸ hk)
      simpa [List.getD_eq_getElem?_getD, hne] using hself k (List.mem_of_mem_erase hk)
    have hlen' : ∀ k ∈ live.erase j, k < (parent.set j i).length := fun k hk => by
      rw [List.length_set]; exact hlen k (List.mem_of_mem_erase hk)
    rw [survivor, show parentAfter ((i, j) :: merges) parent = parentAfter merges (parent.set j i) from rfl]
    by_cases hkj : k = j
    · subst hkj
      obtain ⟨fuel, rfl⟩ : ∃ n, fuel = n + 1 := Nat.exists_eq_add_one.2 (by omega)
      have hparent : (parentAfter merges (parent.set k i)).getD k k = i := by
        rw [rest.parentAfter_getD _ hgone]
        simp [List.getD_eq_getElem?_getD, hlen k hk]
      rw [rootOf, hparent, if_neg hij.ne, if_pos rfl]
      exact ih (hlive.erase k) hself' hlen' ((List.mem_erase_of_ne hij.ne).2 hi) (by omega)
    · rw [if_neg hkj]
      exact ih (hlive.erase j) hself' hlen' ((List.mem_erase_of_ne hkj).2 hk) hfuel

end LiveMerges

end Sys2Proof.Machine
end

/-! ### The counters after a sequence of merges (R263, R264) -/

section
namespace Sys2Proof.Machine

theorem sum_map_filter_eq (p : Nat → Bool) (f : Nat → Nat) (l : List Nat) :
    ((l.filter p).map f).sum = (l.map (fun k => if p k then f k else 0)).sum := by
  induction l with
  | nil => rfl
  | cons a l ih =>
    rw [List.filter_cons, List.map_cons, List.sum_cons, ← ih]
    split
    · rw [List.map_cons, List.sum_cons]
    · rw [Nat.zero_add]

/-- R263: a counter of a sum. -/
theorem addCounters_getD {a b : List Nat} (h : a.length = b.length) (x : Nat) :
    (addCounters a b).getD x 0 = a.getD x 0 + b.getD x 0 := by
  by_cases hx : x < a.length
  · have hb : x < b.length := h ▸ hx
    have hab : x < (addCounters a b).length := by simp [addCounters, hx, hb]
    rw [List.getD_eq_getElem _ 0 hx, List.getD_eq_getElem _ 0 hb, List.getD_eq_getElem _ 0 hab]
    exact List.getElem_zipWith
  · have hle : a.length ≤ x := Nat.le_of_not_lt hx
    have hab : (addCounters a b).length ≤ x := (List.length_zipWith ..).trans_le ((Nat.min_le_left ..).trans hle)
    rw [List.getD_eq_default _ _ hle, List.getD_eq_default _ _ (h.symm.trans_le hle), List.getD_eq_default _ _ hab]

/-- R263: a merge keeps the length of the histograms. -/
theorem length_update_addCounters {live : List Nat} {work : Nat → List Nat} {n i j : Nat}
    (hwork : ∀ k ∈ live, (work k).length = n) (hi : i ∈ live) (hj : j ∈ live) :
    ∀ k ∈ live.erase j, (Function.update work i (addCounters (work i) (work j)) k).length = n := by
  intro k hk
  by_cases hki : k = i
  · rw [hki, Function.update_self, addCounters, List.length_zipWith, hwork i hi, hwork j hj, Nat.min_self]
  · rw [Function.update_of_ne hki, hwork k (List.mem_of_mem_erase hk)]

namespace LiveMerges
variable {merges : List (Nat × Nat)} {live : List Nat} {work : Nat → List Nat} {n : Nat}

theorem length_workAfter (h : LiveMerges merges live) (hwork : ∀ k ∈ live, (work k).length = n) :
    ∀ r ∈ liveAfter merges live, (workAfter merges work r).length = n := by
  induction h generalizing work with
  | nil => exact hwork
  | cons hi hj _ _ ih => exact ih (length_update_addCounters hwork hi hj)

/-- R264, R266: a counter of a survivor is the sum of those of the indices it stands for. -/
theorem workAfter_getD (h : LiveMerges merges live) (hlive : live.Nodup) (hwork : ∀ k ∈ live, (work k).length = n)
    (x : Nat) {r : Nat} (hr : r ∈ liveAfter merges live) :
    (workAfter merges work r).getD x 0 =
      ((live.filter (fun k => decide (survivor merges k = r))).map (fun k => (work k).getD x 0)).sum := by
  induction h generalizing work with
  | nil live =>
    have hone : live.filter (fun k => decide (survivor [] k = r)) = [r] := by
      have hfilter : live.filter (fun k => decide (survivor [] k = r)) = _ := List.filter_beq r
      rwa [List.count_eq_one_of_mem hlive hr] at hfilter
    rw [hone]
    rfl
  | @cons i j merges live hi hj hij rest ih =>
    have hi' : i ∈ live.erase j := (List.mem_erase_of_ne hij.ne).2 hi
    have hsum := ih (hlive.erase j) (length_update_addCounters hwork hi hj) hr
    have hrest : ∀ k ∈ (live.erase j).erase i, k ≠ i ∧ k ≠ j := fun k hk =>
      ⟨fun hki => (hlive.erase j).not_mem_erase (hki ▸ hk),
        fun hkj => hlive.not_mem_erase (hkj ▸ List.mem_of_mem_erase hk)⟩
    have hsame : ((live.erase j).erase i).map (fun k => if decide (survivor ((i, j) :: merges) k = r) then
          (work k).getD x 0 else 0) =
        ((live.erase j).erase i).map (fun k => if decide (survivor merges k = r) then
          (Function.update work i (addCounters (work i) (work j)) k).getD x 0 else 0) :=
      List.map_congr_left fun k hk => by
        rw [survivor, if_neg (hrest k hk).2, Function.update_of_ne (hrest k hk).1]
    have hadd := addCounters_getD ((hwork i hi).trans (hwork j hj).symm) x
    rw [sum_map_filter_eq, ((List.perm_cons_erase hi').map _).sum_eq, List.map_cons, List.sum_cons,
      Function.update_self, hadd] at hsum
    rw [sum_map_filter_eq, ((List.perm_cons_erase hj).map _).sum_eq, List.map_cons, List.sum_cons,
      ((List.perm_cons_erase hi').map _).sum_eq, List.map_cons, List.sum_cons, hsame, survivor, survivor,
      if_neg hij.ne, if_pos rfl]
    refine hsum.trans ?_
    split <;> omega

end LiveMerges

end Sys2Proof.Machine
end

/-! ### The merge loop makes the merges of R264 -/

section
namespace Sys2Proof.Machine

/-- R263: the clusters of live indices with their working histograms. -/
def clustersOf (cost : List Nat → Nat) (live : List Nat) (work : Nat → List Nat) : List Cluster :=
  live.map (fun i => ⟨i, work i, cost (work i)⟩)

variable {live : List Nat} {work : Nat → List Nat}

@[simp] theorem map_index_clustersOf (cost : List Nat → Nat) (live : List Nat) (work : Nat → List Nat) :
    (clustersOf cost live work).map Cluster.index = live := by
  simp [clustersOf, Function.comp_def]

@[simp] theorem map_counters_clustersOf (cost : List Nat → Nat) (live : List Nat) (work : Nat → List Nat) :
    (clustersOf cost live work).map Cluster.counters = live.map work := by
  simp [clustersOf, Function.comp_def]

theorem mem_clustersOf {cost : List Nat → Nat} {i : Nat} (hi : i ∈ live) :
    (⟨i, work i, cost (work i)⟩ : Cluster) ∈ clustersOf cost live work := List.mem_map.2 ⟨i, hi, rfl⟩

/-- R264: after a merge the lower index holds the sum, and the higher one is no longer live. -/
theorem applyMerge_clustersOf {cost : List Nat → Nat} {m : Merge} (hlive : live.Nodup) (hne : m.lo ≠ m.hi)
    (hcost : m.cost = cost m.counters) :
    applyMerge m (clustersOf cost live work) =
      clustersOf cost (live.erase m.hi) (Function.update work m.lo m.counters) := by
  rw [hlive.erase_eq_filter]
  clear hlive
  induction live with
  | nil => rfl
  | cons k live ih =>
    rw [clustersOf, List.map_cons, applyMerge, List.filterMap_cons, ← clustersOf, ← applyMerge, ih, List.filter_cons]
    by_cases hlo : k = m.lo
    · have hkeep : (m.lo != m.hi) = true := bne_iff_ne.2 hne
      simp [clustersOf, hlo, hkeep, hcost]
    · by_cases hhi : k = m.hi
      · simp [hhi, Ne.symm hne]
      · have hkeep : (k != m.hi) = true := bne_iff_ne.2 hhi
        simp [clustersOf, hlo, hhi]

theorem mergeGain_eq_iff {cost : List Nat → Nat} {a b : List Nat} {g : Nat} :
    mergeGain cost a b = g ↔ cost a + cost b = cost (addCounters a b) + g := by
  unfold mergeGain; omega

theorem mergeGain_nonpos_iff {cost : List Nat → Nat} {a b : List Nat} :
    mergeGain cost a b ≤ 0 ↔ cost a + cost b ≤ cost (addCounters a b) := by
  unfold mergeGain; omega

variable {cb corr : Nat}

/-- R263, R264: the merge chosen is the best pair of its turn. -/
theorem bestPair_of_bestMerge (hlive : live.Pairwise (· < ·)) {m : Merge}
    (h : bestMerge (candidates cb corr (clustersOf (histCost cb corr) live work)) = some m) :
    BestPair (histCost cb corr) live work m.lo m.hi ∧ m.counters = addCounters (work m.lo) (work m.hi) ∧
      m.cost = histCost cb corr m.counters := by
  have hlive' : ((clustersOf (histCost cb corr) live work).map Cluster.index).Pairwise (· < ·) := by
    rwa [map_index_clustersOf]
  obtain ⟨a, ha, b, hb, hlt, hlo, hhi, hcounters, hcost, hgain, hpos⟩ := joins_of_bestMerge hlive' h
  obtain ⟨i, hi, rfl⟩ := List.mem_map.1 ha
  obtain ⟨j, hj, rfl⟩ := List.mem_map.1 hb
  simp only at hlo hhi hcounters hgain
  subst hlo hhi
  have hmerge : mergeGain (histCost cb corr) (work m.lo) (work m.hi) = m.gain := by
    rw [mergeGain_eq_iff, ← hcounters, ← hcost, hgain]
  refine ⟨⟨hi, hj, hlt, by omega, fun c hc d hd hcd => ?_⟩, hcounters, hcost⟩
  obtain ⟨hle, heq⟩ := best_of_bestMerge hlive' h (mem_clustersOf hc) (mem_clustersOf hd) hcd
  rw [hmerge]
  unfold mergeGain
  simp only at hle heq
  omega

/-- R264: from sorted live indices the loop makes the greedy merges, and enough turns bring it to their end. -/
theorem exists_greedyMerges (fuel : Nat) (hlive : live.Pairwise (· < ·)) (hfuel : live.length ≤ fuel)
    (parent : List Nat) :
    ∃ merges, GreedyMerges (histCost cb corr) merges live work ∧
      mergeLoop cb corr fuel (clustersOf (histCost cb corr) live work) parent =
        (clustersOf (histCost cb corr) (liveAfter merges live) (workAfter merges work), parentAfter merges parent) := by
  induction fuel generalizing live work parent with
  | zero =>
    obtain rfl := List.length_eq_zero_iff.1 (Nat.le_zero.1 hfuel)
    exact ⟨[], fun c hc => absurd hc List.not_mem_nil, rfl⟩
  | succ fuel ih =>
    cases hbest : bestMerge (candidates cb corr (clustersOf (histCost cb corr) live work)) with
    | none =>
      refine ⟨[], fun c hc d hd hcd => mergeGain_nonpos_iff.2 ?_, by rw [mergeLoop, hbest]; rfl⟩
      exact no_gain_of_bestMerge_none (by rwa [map_index_clustersOf]) hbest (mem_clustersOf hc) (mem_clustersOf hd) hcd
    | some m =>
      obtain ⟨hpair, hcounters, hcost⟩ := bestPair_of_bestMerge hlive hbest
      have ⟨hlo, hhi, hlt, _⟩ := hpair
      have hlen := List.length_erase_add_one hhi
      obtain ⟨merges, hgreedy, hloop⟩ := ih (work := Function.update work m.lo m.counters)
        (hlive.sublist (List.erase_sublist (a := m.hi))) (by omega) (parent.set m.hi m.lo)
      rw [← applyMerge_clustersOf (hlive.imp Nat.ne_of_lt) hlt.ne hcost] at hloop
      rw [hcounters] at hgreedy
      refine ⟨(m.lo, m.hi) :: merges, ⟨hpair, hgreedy⟩, ?_⟩
      rw [mergeLoop, hbest]
      refine hloop.trans ?_
      rw [hcounters]
      rfl

end Sys2Proof.Machine
end

/-! ### The new indices (R265, R266) -/

section
namespace Sys2Proof.Machine

theorem idxOf_lt_idxOf {l : List Nat} (hl : l.Pairwise (· < ·)) {a b : Nat} (ha : a ∈ l) (hb : b ∈ l) (hab : a < b) :
    l.idxOf a < l.idxOf b := by
  have hia := List.idxOf_lt_length_of_mem ha
  have hib := List.idxOf_lt_length_of_mem hb
  by_contra hle
  obtain hlt | heq := Nat.lt_or_eq_of_le (Nat.le_of_not_lt hle)
  · have hba := List.pairwise_iff_getElem.1 hl _ _ hib hia hlt
    rw [List.getElem_idxOf hib, List.getElem_idxOf hia] at hba
    exact Nat.lt_asymm hab hba
  · exact hab.ne ((List.idxOf_inj hb).1 heq).symm

/-- R266: the new index of old index `k`, of `n`: the place of its survivor among the live indices. -/
def newIndex (merges : List (Nat × Nat)) (n k : Nat) : Nat :=
  (liveAfter merges (List.range n)).idxOf (survivor merges k)

theorem liveAfter_range_pairwise (merges : List (Nat × Nat)) (n : Nat) :
    (liveAfter merges (List.range n)).Pairwise (· < ·) := List.pairwise_lt_range.sublist (liveAfter_sublist ..)

namespace LiveMerges
variable {merges : List (Nat × Nat)} {n : Nat}

theorem newIndex_lt (h : LiveMerges merges (List.range n)) {k : Nat} (hk : k < n) :
    newIndex merges n k < (liveAfter merges (List.range n)).length :=
  List.idxOf_lt_length_of_mem (h.survivor_mem (List.mem_range.2 hk))

theorem newIndex_merged (h : LiveMerges merges (List.range n)) {m : Nat × Nat} (hm : m ∈ merges) :
    newIndex merges n m.1 = newIndex merges n m.2 := by
  rw [newIndex, newIndex, h.survivor_merged List.nodup_range hm]

/-- R266: the indices with a new index are those its live index stands for. -/
theorem newIndex_eq_iff (h : LiveMerges merges (List.range n)) {k r : Nat} (hk : k < n)
    (hr : r < (liveAfter merges (List.range n)).length) :
    newIndex merges n k = r ↔ survivor merges k = (liveAfter merges (List.range n))[r] := by
  have hidx := List.Nodup.idxOf_getElem ((liveAfter_range_pairwise merges n).imp Nat.ne_of_lt) r hr
  conv_lhs => rw [newIndex, ← hidx]
  exact List.idxOf_inj (h.survivor_mem (List.mem_range.2 hk))

theorem exists_newIndex_eq (h : LiveMerges merges (List.range n)) {r : Nat}
    (hr : r < (liveAfter merges (List.range n)).length) : ∃ k < n, newIndex merges n k = r := by
  have hmem := List.getElem_mem hr
  have hk := List.mem_range.1 ((liveAfter_sublist _ _).subset hmem)
  exact ⟨_, hk, (h.newIndex_eq_iff hk hr).2 (h.survivor_of_mem List.nodup_range hmem)⟩

/-- R266: the lowest old index of a class is its live one, so the classes are numbered by it. -/
theorem newIndex_lt_of_first (h : LiveMerges merges (List.range n)) {k : Nat} (hk : k < n)
    (hfirst : ∀ k' < k, newIndex merges n k' ≠ newIndex merges n k) :
    ∀ k' < k, newIndex merges n k' < newIndex merges n k := by
  have hmem := h.survivor_mem (List.mem_range.2 hk)
  have hself : survivor merges k = k := by
    refine (h.survivor_le k).eq_of_not_lt fun hlt => hfirst _ hlt ?_
    rw [newIndex, h.survivor_of_mem List.nodup_range hmem, ← newIndex]
  intro k' hk'
  refine idxOf_lt_idxOf (liveAfter_range_pairwise merges n) (h.survivor_mem (List.mem_range.2 (hk'.trans hk))) hmem ?_
  rw [hself]
  exact (h.survivor_le k').trans_lt hk'

end LiveMerges

theorem startClusters_map_range (cb corr n : Nat) (work : Nat → List Nat) :
    startClusters cb corr ((List.range n).map work) = clustersOf (histCost cb corr) (List.range n) work :=
  List.ext_getElem (by simp [startClusters, clustersOf]) fun i _ _ => by simp [startClusters, clustersOf]

/-- R263 to R266: clustering keeps the live histograms after the greedy merges and renumbers the symbols. -/
theorem exists_clusterHistograms (cb corr n : Nat) (work : Nat → List Nat) {syms : List Nat}
    (hsyms : ∀ v ∈ syms, v < n) :
    ∃ merges, GreedyMerges (histCost cb corr) merges (List.range n) work ∧
      clusterHistograms cb corr ((List.range n).map work) syms =
        ⟨(liveAfter merges (List.range n)).map (workAfter merges work), syms.map (newIndex merges n)⟩ := by
  obtain ⟨merges, hgreedy, hloop⟩ := exists_greedyMerges (cb := cb) (corr := corr) (work := work) n
    List.pairwise_lt_range List.length_range.le (List.range n)
  refine ⟨merges, hgreedy, ?_⟩
  have hroot : ∀ v ∈ syms, rootOf (parentAfter merges (List.range n)) n v = survivor merges v := fun v hv =>
    (liveMerges_of_greedy hgreedy).rootOf_parentAfter List.nodup_range
      (fun k hk => by simp [List.mem_range.1 hk]) (fun k hk => by simpa using hk)
      (List.mem_range.2 (hsyms v hv)) (hsyms v hv).le
  rw [clusterHistograms, List.length_map, List.length_range, startClusters_map_range, hloop, map_index_clustersOf,
    map_counters_clustersOf]
  exact congrArg _ (List.map_congr_left fun v hv => congrArg (List.idxOf · _) (hroot v hv))

end Sys2Proof.Machine
end

/-! ### HIST.CLUSTER reads, merges and writes TH (R56, R262, R266) -/

section
namespace Sys2Proof.Machine
variable {s : State}

@[simp] theorem State.histogramAt_length (s : State) (k : Nat) : (s.histogramAt k).length = histWords :=
  State.readNats_length ..

theorem State.histogramAt_eq_map (h : s.mems.Canonical) (k : Nat) :
    s.histogramAt k = (List.range histWords).map (fun j => (s.readWord .th (k * histWords + j)).toNat) :=
  State.readNats_eq_map h ..

theorem State.histogramAt_getD (h : s.mems.Canonical) (k : Nat) {j : Nat} (hj : j < histWords) :
    (s.histogramAt k).getD j 0 = (s.readWord .th (k * histWords + j)).toNat := by
  rw [State.histogramAt_eq_map h]
  simp [hj]

theorem histogramsOf_eq_map (n : Nat) (ws : List Nat) :
    histogramsOf n ws = (List.range n).map (fun k => (ws.drop (k * histWords)).take histWords) := by
  induction n generalizing ws with
  | zero => rfl
  | succ n ih =>
    rw [histogramsOf, ih, List.range_succ_eq_map, List.map_cons, List.map_map, Nat.zero_mul, List.drop_zero]
    refine congrArg _ (List.map_congr_left fun k _ => ?_)
    rw [List.drop_drop, Function.comp_apply, Nat.succ_mul, Nat.add_comm]

/-- R262: the histograms HIST.CLUSTER reads. -/
theorem State.histograms_eq_map (h : s.mems.Canonical) :
    s.histograms = (List.range s.regs.nhisto.toNat).map s.histogramAt := by
  rw [State.histograms, histogramsOf_eq_map]
  refine List.map_congr_left fun k hk => ?_
  have hin : k * histWords + histWords ≤ s.regs.nhisto.toNat * histWords := by
    rw [← Nat.succ_mul]; exact Nat.mul_le_mul_right _ (List.mem_range.1 hk)
  rw [State.readNats_eq_map h, State.histogramAt_eq_map h]
  refine List.ext_getElem (by simp; omega) fun j _ _ => by simp

/-- R56: every counter of a record belongs to one of the five arrays. -/
theorem exists_array {j : Nat} (hj : j < histWords) :
    ∃ arr < 5, arrayOffset arr ≤ j ∧ j < arrayOffset arr + arraySize arr := by
  have hj : j < 2112 := hj
  by_cases h0 : j < 1304
  · exact ⟨0, by decide, Nat.zero_le j, h0⟩
  · by_cases h1 : j < 1560
    · exact ⟨1, by decide, Nat.le_of_not_lt h0, h1⟩
    · by_cases h2 : j < 1816
      · exact ⟨2, by decide, Nat.le_of_not_lt h1, h2⟩
      · by_cases h3 : j < 2072
        · exact ⟨3, by decide, Nat.le_of_not_lt h2, h3⟩
        · exact ⟨4, by decide, Nat.le_of_not_lt h3, hj⟩

theorem getD_le_sum_arrayOf (h : List Nat) {arr j : Nat} (hlow : arrayOffset arr ≤ j)
    (hhigh : j < arrayOffset arr + arraySize arr) : h.getD j 0 ≤ (arrayOf h arr (arraySize arr)).sum := by
  by_cases hj : j < h.length
  · refine List.le_sum_of_mem ?_
    rw [List.getD_eq_getElem _ 0 hj]
    refine List.mem_iff_getElem.2 ⟨j - arrayOffset arr, by simp [arrayOf]; omega, ?_⟩
    simp [arrayOf, Nat.add_sub_cancel' hlow]
  · rw [List.getD_eq_default _ _ (Nat.le_of_not_lt hj)]
    exact Nat.zero_le _

/-- R262 (8): legal totals bound the sum of a counter over any of the histograms. -/
theorem sum_counters_lt {n : Nat} {work : Nat → List Nat}
    (h : ∀ arr, arr < 5 → arrayTotal ((List.range n).map work) arr < 2 ^ 32) (p : Nat → Bool) {j : Nat}
    (hj : j < histWords) : (((List.range n).filter p).map (fun k => (work k).getD j 0)).sum < 2 ^ 32 := by
  obtain ⟨arr, harr, hlow, hhigh⟩ := exists_array hj
  refine Nat.lt_of_le_of_lt ?_ (h arr harr)
  rw [sum_map_filter_eq, arrayTotal, List.map_map]
  refine List.sum_le_sum fun k _ => ?_
  split
  · exact getD_le_sum_arrayOf _ hlow hhigh
  · exact Nat.zero_le _

/-- R262, R351: HIST.CLUSTER's pre-checks pass on legal operands, symbols and totals. -/
theorem ClusterReady.commandError_eq_none (h : ClusterReady s) : commandError .histCluster s = none := by
  obtain ⟨hparams, hfits, hsyms, htotals⟩ := h
  rw [commandError_histCluster_eq hparams hfits, Option.or_eq_none_iff, checkSymbols, checkTotals,
    Option.map_eq_none_iff, Option.map_eq_none_iff, List.findIdx?_eq_none_iff, List.find?_eq_none]
  exact ⟨fun v hv => by simpa using hsyms v hv, fun arr harr => by simpa using htotals arr (List.mem_range.1 harr)⟩

/-- R266: the histograms that merges leave, in the order of their live indices. -/
def State.classes (s : State) (merges : List (Nat × Nat)) : List (List Nat) :=
  (liveAfter merges (List.range s.regs.nhisto.toNat)).map (workAfter merges s.histogramAt)

/-- R266: the classes written to TH and their indices to SYMS. -/
def State.writeClasses (s : State) (merges : List (Nat × Nat)) : State :=
  s.writeHistograms (s.classes merges) (s.tileSymbols.map (newIndex merges s.regs.nhisto.toNat))

theorem State.classes_length (s : State) (merges : List (Nat × Nat)) :
    (s.classes merges).length = (liveAfter merges (List.range s.regs.nhisto.toNat)).length := List.length_map _

/-- R262 to R266: HIST.CLUSTER completes with the classes of the greedy merges. -/
theorem ClusterReady.exists_exec_eq (h : ClusterReady s) (hcanon : s.mems.Canonical) :
    ∃ merges, GreedyMerges (histCost s.regs.cacheBits.toNat s.regs.entCorr.toNat) merges
        (List.range s.regs.nhisto.toNat) s.histogramAt ∧
      exec .histCluster s = .next (s.writeClasses merges).complete := by
  obtain ⟨merges, hgreedy, hcluster⟩ := exists_clusterHistograms s.regs.cacheBits.toNat s.regs.entCorr.toNat
    s.regs.nhisto.toNat s.histogramAt h.2.2.1
  refine ⟨merges, hgreedy, (exec_of_commandError_none h.commandError_eq_none).trans ?_⟩
  rw [commandEffect, State.histograms_eq_map hcanon, hcluster]
  rfl

section classes
variable {merges : List (Nat × Nat)}

/-- R264: no two classes gain by a merge. -/
theorem classes_no_gain {cost : List Nat → Nat}
    (h : GreedyMerges cost merges (List.range s.regs.nhisto.toNat) s.histogramAt) {r r' : Nat} (hlt : r < r')
    (hr' : r' < (s.classes merges).length) :
    cost ((s.classes merges).getD r []) + cost ((s.classes merges).getD r' []) ≤
      cost (addCounters ((s.classes merges).getD r []) ((s.classes merges).getD r' [])) := by
  have hin := hr'.trans_eq (s.classes_length merges)
  have hgain := no_gain_of_greedy h _ (List.getElem_mem (hlt.trans hin)) _ (List.getElem_mem hin)
    (List.pairwise_iff_getElem.1 (liveAfter_range_pairwise ..) _ _ (hlt.trans hin) hin hlt)
  rw [List.getD_eq_getElem _ [] hr', List.getD_eq_getElem _ [] (hlt.trans hr')]
  simpa only [State.classes, List.getElem_map] using mergeGain_nonpos_iff.1 hgain

variable (hmerges : LiveMerges merges (List.range s.regs.nhisto.toNat))
include hmerges

theorem classes_whole : WholeRecords (s.classes merges) :=
  List.forall_mem_map.2 (hmerges.length_workAfter fun k _ => s.histogramAt_length k)

/-- R266: a counter of a class is the sum of those of its members. -/
theorem counterAt_classes {r : Nat} (hr : r < (s.classes merges).length) (j : Nat) :
    counterAt (s.classes merges) r j =
      (((List.range s.regs.nhisto.toNat).filter
        (fun k => decide (newIndex merges s.regs.nhisto.toNat k = r))).map
          (fun k => (s.histogramAt k).getD j 0)).sum := by
  have hlive := hr.trans_eq (s.classes_length merges)
  have hcounter := hmerges.workAfter_getD List.nodup_range (fun k _ => s.histogramAt_length k) j
    (List.getElem_mem hlive)
  rw [counterAt, List.getD_eq_getElem _ [] hr]
  simp only [State.classes, List.getElem_map, hcounter]
  refine congrArg (fun l : List Nat => (l.map fun k => (s.histogramAt k).getD j 0).sum)
    (List.filter_congr fun k hk => ?_)
  exact decide_eq_decide.2 (hmerges.newIndex_eq_iff (List.mem_range.1 hk) hlive).symm

variable (htotals : ∀ arr, arr < 5 → arrayTotal ((List.range s.regs.nhisto.toNat).map s.histogramAt) arr < 2 ^ 32)
include htotals

/-- R262 (8), R266: the sums fit, and are read back from TH. -/
theorem State.toNat_readWord_writeClasses_th {r j : Nat} (hr : r < (s.classes merges).length) (hj : j < histWords) :
    ((s.writeClasses merges).readWord .th (r * histWords + j)).toNat = counterAt (s.classes merges) r j := by
  have hfit := sum_counters_lt htotals (fun k => decide (newIndex merges s.regs.nhisto.toNat k = r)) hj
  rw [← counterAt_classes hmerges hr] at hfit
  rw [State.writeClasses, s.readWord_writeHistograms_th (classes_whole hmerges) _ hr hj, BitVec.toNat_ofNat,
    Nat.mod_eq_of_lt hfit]

/-- R266: the classes are read back from TH. -/
theorem State.histogramAt_writeClasses (hcanon : s.mems.Canonical) {r : Nat} (hr : r < (s.classes merges).length) :
    (s.writeClasses merges).complete.histogramAt r = (s.classes merges).getD r [] := by
  have hlen : ((s.classes merges).getD r []).length = histWords := by
    rw [List.getD_eq_getElem _ [] hr, classes_whole hmerges _ (List.getElem_mem hr)]
  have hcanon' : (s.writeClasses merges).complete.mems.Canonical := canonical_writeHistograms hcanon _ _
  rw [State.histogramAt_eq_map hcanon']
  refine List.ext_getElem (by simpa using hlen.symm) fun j _ hj => ?_
  rw [List.getElem_map, List.getElem_range, ← List.getD_eq_getElem _ 0 hj]
  exact State.toNat_readWord_writeClasses_th hmerges htotals hr (hj.trans_eq hlen)

omit htotals in
/-- R57, R266: the new symbols are read back from SYMS. -/
theorem State.toNat_readWord_writeClasses_syms (hcanon : s.mems.Canonical)
    (hsyms : ∀ v ∈ s.tileSymbols, v < s.regs.nhisto.toNat) {a : Nat} (ha : a < s.histTiles) :
    ((s.writeClasses merges).readWord .syms a).toNat =
      newIndex merges s.regs.nhisto.toNat (s.readWord .syms a).toNat := by
  have hin : a < s.tileSymbols.length := ha.trans_eq s.tileSymbols_length.symm
  have hold : s.tileSymbols[a] = (s.readWord .syms a).toNat := by
    simp [State.tileSymbols, State.readNats_eq_map hcanon]
  have hnew : (s.tileSymbols.map (newIndex merges s.regs.nhisto.toNat)).getD a 0 =
      newIndex merges s.regs.nhisto.toNat (s.readWord .syms a).toNat := by
    rw [List.getD_eq_getElem _ 0 (by simpa using hin), List.getElem_map, hold]
  have hfit : newIndex merges s.regs.nhisto.toNat (s.readWord .syms a).toNat < 2 ^ 32 := by
    refine (hmerges.newIndex_lt (hold ▸ hsyms _ (List.getElem_mem hin))).trans_le ?_
    have hlen := hmerges.length_add
    rw [List.length_range] at hlen
    exact (Nat.le.intro hlen).trans s.regs.nhisto.isLt.le
  rw [← hnew] at hfit ⊢
  exact s.toNat_readWord_writeHistograms_syms _ (by simpa using hin) hfit

end classes

/-- Settles O49: the classes are those of the greedy merges' survivors, in ascending order. -/
theorem histClusterMergesIntoClasses : Obligations.HistClusterMergesIntoClasses := by
  intro s hwf hready
  have hcanon := s.memsWf_iff.1 hwf
  obtain ⟨merges, hgreedy, hexec⟩ := ClusterReady.exists_exec_eq hready hcanon
  obtain ⟨⟨-, -, hregs, -⟩, -, hsyms, htotals⟩ := hready
  obtain ⟨hone, -⟩ : 1 ≤ s.regs.nhisto.toNat ∧ _ := of_decide_eq_true (hregs .nhisto (by decide))
  rw [State.histograms_eq_map hcanon] at htotals
  have hmerges := liveMerges_of_greedy hgreedy
  have hlen : (s.classes merges).length + merges.length = s.regs.nhisto.toNat := by
    rw [s.classes_length, hmerges.length_add, List.length_range]
  have hindex : ∀ k < s.regs.nhisto.toNat, newIndex merges s.regs.nhisto.toNat k < (s.classes merges).length :=
    fun k hk => (hmerges.newIndex_lt hk).trans_eq (s.classes_length merges).symm
  have hsymsOut := s.sameOutside_writeHistograms_syms (s.classes merges)
    (s.tileSymbols.map (newIndex merges s.regs.nhisto.toNat))
  rw [List.length_map, s.tileSymbols_length] at hsymsOut
  refine ⟨_, (s.classes merges).length, newIndex merges s.regs.nhisto.toNat, merges, hexec, rfl,
    Nat.one_le_of_lt (hindex 0 hone), Nat.le.intro hlen, s.sameBut_writeHistograms _ _,
    s.sameOutside_writeHistograms_th (classes_whole hmerges) _, hsymsOut, hgreedy, hlen,
    fun m hm => hmerges.newIndex_merged hm, hindex,
    fun r hr => hmerges.exists_newIndex_eq (hr.trans_eq (s.classes_length merges)),
    fun k hk => hmerges.newIndex_lt_of_first hk,
    fun a ha => State.toNat_readWord_writeClasses_syms hmerges hcanon hsyms ha, fun r hr j hj => ?_,
    fun r r' hlt hr' => ?_⟩
  · refine (State.toNat_readWord_writeClasses_th hmerges htotals hr hj).trans ?_
    rw [counterAt_classes hmerges hr]
    exact congrArg List.sum (List.map_congr_left fun k _ => State.histogramAt_getD hcanon k hj)
  · rw [State.histogramAt_writeClasses hmerges htotals hcanon (hlt.trans hr'),
      State.histogramAt_writeClasses hmerges htotals hcanon hr']
    exact classes_no_gain hgreedy hlt hr'

end Sys2Proof.Machine
end

/-!
PROOFS, family 44_pred: the predictors channel by channel (R295, R296), the mode of a tile (R297), what PRED.RESID
writes (R292 to R299) and how its residuals give the image back (R300).
-/

/-! ### The channels of a Pixel (R7, R159) -/

section
namespace Sys2Proof.Machine

theorem channel_zero (p : Word) : channel p 0 = blueOf p := by rw [blueOf_eq, channel, pow_zero, Nat.div_one]

theorem channel_one (p : Word) : channel p 1 = greenOf p := (greenOf_eq p).symm

theorem channel_two (p : Word) : channel p 2 = redOf p := (redOf_eq p).symm

theorem channel_three (p : Word) : channel p 3 = alphaOf p := (alphaOf_eq p).symm

theorem channel_lt (p : Word) (c : Nat) : channel p c < 256 := Nat.mod_lt _ (by decide)

variable {c : Nat}

/-- R159: a channel-wise operation on two Pixels, at one channel. -/
theorem channel_lanes2 (f : Nat → Nat → Nat) (p q : Word) (hc : c < 4) :
    channel (lanes2 f p q) c = f (channel p c) (channel q c) % 256 := by
  interval_cases c
  · simp only [channel_zero, lanes2, blueOf_pack]
  · simp only [channel_one, lanes2, greenOf_pack]
  · simp only [channel_two, lanes2, redOf_pack]
  · simp only [channel_three, lanes2, alphaOf_pack]

/-- R159: a channel-wise operation on three Pixels, at one channel. -/
theorem channel_lanes3 (f : Nat → Nat → Nat → Nat) (p q s : Word) (hc : c < 4) :
    channel (lanes3 f p q s) c = f (channel p c) (channel q c) (channel s c) % 256 := by
  interval_cases c
  · simp only [channel_zero, lanes3, blueOf_pack]
  · simp only [channel_one, lanes3, greenOf_pack]
  · simp only [channel_two, lanes3, redOf_pack]
  · simp only [channel_three, lanes3, alphaOf_pack]

/-- R150: the channels of a difference. -/
theorem channel_subPixels (a b : Word) (hc : c < 4) :
    channel (subPixels a b) c = (channel a c + 256 - channel b c) % 256 :=
  (channel_lanes2 _ a b hc).trans (Nat.mod_mod _ _)

/-- R7: a Pixel is made of its four channels. -/
theorem pixelOf_eq {f : Nat → Nat} {p : Word} (h : ∀ c < 4, f c = channel p c) : pixelOf f = p := by
  refine BitVec.eq_of_toNat_eq ?_
  rw [pixelOf, BitVec.toNat_ofNat, h 0 (by decide), h 1 (by decide), h 2 (by decide), h 3 (by decide), channel_zero,
    channel_one, channel_two, channel_three, blueOf_eq, greenOf_eq, redOf_eq, alphaOf_eq]
  omega

theorem absDiff_eq_gap (x y : Nat) : absDiff x y = gap x y := by
  unfold absDiff gap; omega

/-- R295: the sum of the absolute differences. -/
theorem lanesSum_absDiff (p q : Word) : lanesSum absDiff p q = pixelGap p q := by
  simp only [lanesSum, pixelGap, List.range_succ, List.range_zero, List.nil_append, List.cons_append, List.map_cons,
    List.map_nil, List.sum_cons, List.sum_nil, absDiff_eq_gap, channel_zero, channel_one, channel_two, channel_three]
  omega

end Sys2Proof.Machine
end

/-! ### The predictor table, channel by channel (R295, R296) -/

section
namespace Sys2Proof.Machine

/-- R295: clamping a difference: below 0 it is the truncated difference of natural numbers. -/
theorem clampByte_sub (a b : Nat) : clampByte ((a : Int) - b) = min 255 (a - b) := by
  unfold clampByte; split_ifs <;> omega

theorem clampByte_le (v : Int) : clampByte v ≤ 255 := by
  unfold clampByte; split_ifs <;> omega

theorem clampByte_mod (v : Int) : clampByte v % 256 = clampByte v :=
  Nat.mod_eq_of_lt (Nat.lt_succ_of_le (clampByte_le v))

theorem tdiv2_sub_of_le {x y : Nat} (h : y ≤ x) : tdiv2 ((x : Int) - y) = ((x - y) / 2 : Nat) := by
  rw [tdiv2, ← Nat.cast_sub h]
  exact (Int.ofNat_tdiv _ 2).symm

/-- R9, R295: division toward zero is symmetric. -/
theorem tdiv2_sub_comm (x y : Int) : tdiv2 (x - y) = -tdiv2 (y - x) := by
  rw [tdiv2, tdiv2, ← Int.neg_tdiv, neg_sub]

variable {c : Nat}

theorem channel_selectPixel (left top topLeft : Word) (c : Nat) :
    channel (selectPixel left top topLeft) c =
      if pixelGap top topLeft < pixelGap left topLeft then channel left c else channel top c := by
  rw [selectPixel, lanesSum_absDiff, lanesSum_absDiff, apply_ite (channel · c)]

theorem channel_black (hc : c < 4) : channel black c = if c = 3 then 255 else 0 := by
  interval_cases c <;> rfl

theorem channel_avg2 (p q : Word) (hc : c < 4) : channel (avg2 p q) c = (channel p c + channel q c) / 2 := by
  have hp := channel_lt p c
  have hq := channel_lt q c
  rw [avg2, channel_lanes2 _ p q hc]
  omega

theorem channel_casf (p q s : Word) (hc : c < 4) :
    channel (casf p q s) c = min 255 (channel p c + channel q c - channel s c) := by
  rw [casf, channel_lanes3 _ p q s hc, clampByte_mod, ← Nat.cast_add, clampByte_sub]

/-- R295: half of the difference is added toward zero, by the sign of the difference. -/
theorem channel_cash (p s : Word) (hc : c < 4) :
    channel (cash p s) c =
      if channel s c ≤ channel p c then min 255 (channel p c + (channel p c - channel s c) / 2)
      else channel p c - (channel s c - channel p c) / 2 := by
  have hp := channel_lt p c
  rw [cash, channel_lanes2 _ p s hc, clampByte_mod]
  split
  case isTrue hle =>
    rw [tdiv2_sub_of_le hle, ← Nat.cast_add]
    exact clampByte_sub _ 0
  case isFalse hlt =>
    rw [tdiv2_sub_comm, tdiv2_sub_of_le (Nat.le_of_not_le hlt), ← sub_eq_add_neg, clampByte_sub]
    omega

/-- R296: the machine's predictor is the table's, at each channel. -/
theorem channel_predictor (left top topRight topLeft : Word) (hc : c < 4) : ∀ m : Nat,
    channel (predictor m left top topRight topLeft) c = modeChannel m left top topRight topLeft c
  | 0 => channel_black hc
  | 1 => rfl
  | 2 => rfl
  | 3 => rfl
  | 4 => rfl
  | 5 => by rw [predictor, channel_avg2 _ _ hc, channel_avg2 _ _ hc]; rfl
  | 6 => channel_avg2 _ _ hc
  | 7 => channel_avg2 _ _ hc
  | 8 => channel_avg2 _ _ hc
  | 9 => channel_avg2 _ _ hc
  | 10 => by rw [predictor, channel_avg2 _ _ hc, channel_avg2 _ _ hc, channel_avg2 _ _ hc]; rfl
  | 11 => channel_selectPixel left top topLeft c
  | 12 => channel_casf left top topLeft hc
  | _ + 13 => (channel_cash _ topLeft hc).trans (by rw [channel_avg2 _ _ hc]; rfl)

end Sys2Proof.Machine
end

/-! ### The effective predictor, channel by channel (R291, R298) -/

section
namespace Sys2Proof.Machine

variable {orig : List Word} {width bits tilesX p c : Nat} {modes : List Nat}

/-- The top-right neighbour: below the first row, `p + 1 - width` and `p - width + 1` are one position. -/
theorem channel_predictAt (hrow : width ≤ p) (hc : c < 4) (m : Nat) :
    channel (predictAt orig width m p) c = predictedChannel orig width m p c := by
  rw [predictAt, channel_predictor _ _ _ _ hc, predictedChannel, Nat.sub_add_comm hrow]

theorem width_le_of_row (h : p / width ≠ 0) : width ≤ p := (Nat.div_ne_zero_iff.1 h).2

theorem channel_effectivePred (hc : c < 4) :
    channel (effectivePred orig width bits tilesX modes p) c = effectiveChannel orig width bits tilesX modes p c := by
  simp only [effectivePred, effectiveChannel, Nat.shiftRight_eq_div_pow]
  split
  case isTrue => exact channel_black hc
  case isFalse hrow =>
    split
    case isTrue => rfl
    case isFalse => exact channel_predictAt (width_le_of_row hrow) hc _

/-- R298: the first row. -/
theorem effectivePred_row_zero (h : p / width = 0) : effectivePred orig width bits tilesX modes p = black := if_pos h

/-- R298: the first column. -/
theorem effectivePred_column_zero (hrow : p / width ≠ 0) (hcol : p % width = 0) :
    effectivePred orig width bits tilesX modes p = orig.getD (p - 1) 0 := (if_neg hrow).trans (if_pos hcol)

/-- R291, R298: the interior. -/
theorem effectiveChannel_interior (hrow : p / width ≠ 0) (hcol : p % width ≠ 0) :
    effectiveChannel orig width bits tilesX modes p c =
      predictedChannel orig width (modes.getD ((p / width / 2 ^ bits) * tilesX + p % width / 2 ^ bits) 0) p c :=
  (if_neg hrow).trans (if_neg hcol)

/-- Off the first row and column the top-right neighbour is an earlier position. -/
theorem topRight_lt (hrow : p / width ≠ 0) (hcol : p % width ≠ 0) : p - width + 1 < p := by
  have hle := width_le_of_row hrow
  have hone : width ≠ 1 := fun h => hcol (by rw [h, Nat.mod_one])
  have hpos : width ≠ 0 := fun h => hrow (by rw [h, Nat.div_zero])
  omega

/-- R293, R298: the prediction at a position reads earlier pixels only. -/
theorem effectiveChannel_append (done rest : List Word) (c : Nat) :
    effectiveChannel (done ++ rest) width bits tilesX modes done.length c =
      effectiveChannel done width bits tilesX modes done.length c := by
  unfold effectiveChannel
  split
  case isTrue => rfl
  case isFalse hrow =>
    have hpos : done.length ≠ 0 := fun h => hrow (by rw [h, Nat.zero_div])
    have hwidth : width ≠ 0 := fun h => hrow (by rw [h, Nat.div_zero])
    have before {q : Nat} (hq : q < done.length) : (done ++ rest).getD q 0 = done.getD q 0 :=
      List.getD_append _ _ _ _ hq
    split
    case isTrue => rw [before (by omega)]
    case isFalse hcol =>
      rw [predictedChannel, predictedChannel, before (by omega), before (by omega), before (topRight_lt hrow hcol),
        before (by omega)]

end Sys2Proof.Machine
end

/-! ### The image comes back from its residuals (R300) -/

section
namespace Sys2Proof.Machine

variable {width bits tilesX : Nat} {modes : List Nat}

/-- R300: a pixel is its residual plus the prediction made from the pixels recovered before it. -/
theorem recovered_pixel (done rest : List Word) (v : Word) :
    pixelOf (fun c => (channel (subPixels v (effectivePred (done ++ rest) width bits tilesX modes done.length)) c +
      effectiveChannel done width bits tilesX modes done.length c) % 256) = v := by
  refine pixelOf_eq fun c hc => ?_
  rw [channel_subPixels _ _ hc, ← effectiveChannel_append done rest, ← channel_effectivePred hc]
  exact channel_sub_add (channel_lt ..) (channel_lt ..)

/-- R300: after the pixels `done`, the residuals still to come give the rest of the image. -/
theorem recoverPixels_from (rest done : List Word) :
    recoverPixels width bits tilesX modes
      ((rest.zipIdx done.length).map
        (fun v => subPixels v.1 (effectivePred (done ++ rest) width bits tilesX modes v.2))) done = done ++ rest := by
  induction rest generalizing done with
  | nil => rw [List.append_nil]; rfl
  | cons v rest ih =>
    have hnext := ih (done ++ [v])
    rw [List.length_append, List.length_singleton, List.append_assoc, List.singleton_append] at hnext
    rw [List.zipIdx_cons, List.map_cons, recoverPixels, recovered_pixel, hnext]

/-- R300: recovery undoes PRED.RESID's residuals. -/
theorem recoverPixels_residuals (orig : List Word) :
    recoverPixels width bits tilesX modes (residuals orig width bits tilesX modes) [] = orig :=
  recoverPixels_from orig []

end Sys2Proof.Machine
end

/-! ### The least entry (R297) -/

section
namespace Sys2Proof.Machine

/-- R297: `best` holds the least of the first `n` entries, and every entry below `best` is greater. -/
def FirstLeast (errors : List Nat) (n best : Nat) : Prop :=
  ∀ m < n, errors.getD best 0 ≤ errors.getD m 0 ∧ (m < best → errors.getD best 0 < errors.getD m 0)

theorem FirstLeast.step {errors : List Nat} {n best : Nat} (h : FirstLeast errors n best) (hbest : best ≤ n) :
    FirstLeast errors (n + 1) (if errors.getD n 0 < errors.getD best 0 then n else best) := by
  intro m hm
  obtain hlt | rfl := Nat.lt_succ_iff_lt_or_eq.1 hm
  · obtain ⟨hle, hfirst⟩ := h m hlt
    split
    case isTrue hless => exact ⟨hless.le.trans hle, fun _ => hless.trans_le hle⟩
    case isFalse => exact ⟨hle, hfirst⟩
  · split
    case isTrue => exact ⟨le_rfl, fun h => absurd h (Nat.lt_irrefl _)⟩
    case isFalse hless => exact ⟨Nat.le_of_not_lt hless, fun h => absurd h (Nat.not_lt.2 hbest)⟩

/-- R297: the search over the first `n` entries. -/
def leastAmong (errors : List Nat) (n : Nat) : Nat :=
  (List.range n).foldl (fun best m => if errors.getD m 0 < errors.getD best 0 then m else best) 0

theorem leastIndex_eq (errors : List Nat) : leastIndex errors = leastAmong errors errors.length := rfl

theorem leastAmong_succ (errors : List Nat) (n : Nat) :
    leastAmong errors (n + 1) =
      if errors.getD n 0 < errors.getD (leastAmong errors n) 0 then n else leastAmong errors n := by
  rw [leastAmong, List.range_succ, List.foldl_append]
  rfl

theorem leastAmong_le (errors : List Nat) (n : Nat) : leastAmong errors n ≤ n - 1 := by
  induction n with
  | zero => exact le_rfl
  | succ n ih =>
    rw [leastAmong_succ]
    split <;> omega

/-- R297: the search finds the first least entry. -/
theorem firstLeast_leastAmong (errors : List Nat) (n : Nat) : FirstLeast errors n (leastAmong errors n) := by
  induction n with
  | zero => exact fun m hm => absurd hm (Nat.not_lt_zero m)
  | succ n ih =>
    rw [leastAmong_succ]
    exact ih.step ((leastAmong_le errors n).trans (Nat.sub_le n 1))

theorem firstLeast_leastIndex {errors : List Nat} {n : Nat} (hn : errors.length = n) :
    FirstLeast errors n (leastIndex errors) := by
  rw [leastIndex_eq, hn]
  exact firstLeast_leastAmong errors n

variable (orig : List Word) (width height bits tx ty : Nat)

/-- R296: a best mode is one of the fourteen. -/
theorem bestMode_le : bestMode orig width height bits tx ty ≤ 13 :=
  (leastAmong_le _ _).trans_eq (by simp [predictorModes])

/-- R297: the best mode has the smallest error, and the lowest number among those of that error. -/
theorem bestMode_spec {m : Nat} (hm : m < 14) :
    tileError orig width height bits tx ty (bestMode orig width height bits tx ty) ≤
        tileError orig width height bits tx ty m ∧
      (m < bestMode orig width height bits tx ty →
        tileError orig width height bits tx ty (bestMode orig width height bits tx ty) <
          tileError orig width height bits tx ty m) := by
  have hentry {k : Nat} (hk : k < 14) :
      ((List.range predictorModes).map (tileError orig width height bits tx ty)).getD k 0 =
        tileError orig width height bits tx ty k := by
    simp [predictorModes, hk]
  have hlen : ((List.range predictorModes).map (tileError orig width height bits tx ty)).length = 14 := by
    simp [predictorModes]
  have hfirst := firstLeast_leastIndex hlen m hm
  rw [hentry hm, ← bestMode, hentry (Nat.lt_succ_of_le (bestMode_le ..))] at hfirst
  exact hfirst

end Sys2Proof.Machine
end

/-! ### The error of a tile (R297) -/

section
namespace Sys2Proof.Machine

/-- R290, R297: the coordinates of a tile. -/
theorem mem_interior {bits size t x : Nat} : x ∈ interior bits size t ↔ 1 ≤ x ∧ x < size ∧ x / 2 ^ bits = t := by
  have hpos : 0 < 2 ^ bits := Nat.two_pow_pos bits
  simp only [interior, List.mem_filter, List.mem_map, List.mem_range, Bool.and_eq_true, decide_eq_true_eq,
    Nat.shiftLeft_eq, Nat.one_mul]
  constructor
  · rintro ⟨⟨i, hi, rfl⟩, hone, hlt⟩
    refine ⟨hone, hlt, ?_⟩
    rw [Nat.mul_comm, Nat.mul_add_div hpos, Nat.div_eq_of_lt hi, Nat.add_zero]
  · rintro ⟨hone, hlt, rfl⟩
    exact ⟨⟨x % 2 ^ bits, Nat.mod_lt x hpos, Nat.div_add_mod' x _⟩, hone, hlt⟩

theorem nodup_interior (bits size t : Nat) : (interior bits size t).Nodup :=
  (List.nodup_range.map fun _ _ h => Nat.add_left_cancel h).filter _

/-- R297: the error of mode `m` at one interior position. -/
def pixelError (orig : List Word) (width m p : Nat) : Nat := pixelGap (orig.getD p 0) (predictAt orig width m p)

/-- R297: the positions whose errors `modeError` sums. -/
def tilePositions (n width bits tilesX tile : Nat) : List Nat :=
  (List.range n).filter (fun p =>
    decide (1 ≤ p % width) && decide (1 ≤ p / width) &&
      decide ((p / width / 2 ^ bits) * tilesX + p % width / 2 ^ bits = tile))

variable {n width bits tilesX tile p : Nat}

theorem mem_tilePositions : p ∈ tilePositions n width bits tilesX tile ↔
    p < n ∧ 1 ≤ p % width ∧ 1 ≤ p / width ∧ (p / width / 2 ^ bits) * tilesX + p % width / 2 ^ bits = tile := by
  simp only [tilePositions, List.mem_filter, List.mem_range, Bool.and_eq_true, decide_eq_true_eq, and_assoc]

theorem nodup_tilePositions (n width bits tilesX tile : Nat) : (tilePositions n width bits tilesX tile).Nodup :=
  List.nodup_range.filter _

theorem modeError_eq_sum (orig : List Word) (m : Nat) :
    modeError orig width bits tilesX tile m =
      ∑ p ∈ (tilePositions orig.length width bits tilesX tile).toFinset, pixelError orig width m p := by
  rw [List.sum_toFinset _ (nodup_tilePositions ..), modeError]
  refine congrArg List.sum (List.map_congr_left fun p hp => ?_)
  obtain ⟨-, -, hrow, -⟩ := mem_tilePositions.1 hp
  refine congrArg List.sum (List.map_congr_left fun c hc => ?_)
  rw [channel_predictAt (width_le_of_row (Nat.one_le_iff_ne_zero.1 hrow)) (List.mem_range.1 hc)]

/-- R297: the rows and columns whose errors `tileError` sums. -/
def tileGrid (width height bits tx ty : Nat) : Finset (Nat × Nat) :=
  (interior bits height ty).toFinset ×ˢ (interior bits width tx).toFinset

theorem mem_tileGrid {height tx ty : Nat} {v : Nat × Nat} : v ∈ tileGrid width height bits tx ty ↔
    (1 ≤ v.1 ∧ v.1 < height ∧ v.1 / 2 ^ bits = ty) ∧ 1 ≤ v.2 ∧ v.2 < width ∧ v.2 / 2 ^ bits = tx := by
  rw [tileGrid, Finset.mem_product, List.mem_toFinset, List.mem_toFinset, mem_interior, mem_interior]

theorem tileError_eq_sum (orig : List Word) (height tx ty m : Nat) :
    tileError orig width height bits tx ty m =
      ∑ v ∈ tileGrid width height bits tx ty, pixelError orig width m (v.1 * width + v.2) := by
  rw [tileGrid, Finset.sum_product, List.sum_toFinset _ (nodup_interior ..), tileError]
  refine congrArg List.sum (List.map_congr_left fun y _ => ?_)
  rw [List.sum_toFinset _ (nodup_interior ..)]
  exact congrArg List.sum (List.map_congr_left fun x _ => lanesSum_absDiff _ _)

/-- The number of a place in rows of `n`, and back: of a pixel in the image (R291) and of a tile in TDATA (R292). -/
theorem place_eq_iff {n x y k : Nat} (hx : x < n) : y * n + x = k ↔ k / n = y ∧ k % n = x := by
  rw [Nat.div_mod_unique (Nat.zero_lt_of_lt hx), Nat.mul_comm, Nat.add_comm]
  exact ⟨fun h => ⟨h, hx⟩, And.left⟩

/-- R297: `p = y * width + x` matches a tile's positions with its rows and columns, so the two sums are one. -/
theorem modeError_eq_tileError {orig : List Word} {height : Nat} (hlen : orig.length = width * height)
    (hwidth : 1 ≤ width) (htiles : width ≤ tilesX * 2 ^ bits) (m : Nat) :
    modeError orig width bits tilesX tile m =
      tileError orig width height bits (tile % tilesX) (tile / tilesX) m := by
  have hcolumn {x : Nat} (hx : x < width) : x / 2 ^ bits < tilesX :=
    Nat.div_lt_of_lt_mul (Nat.mul_comm .. ▸ hx.trans_le htiles)
  rw [modeError_eq_sum, tileError_eq_sum]
  refine Finset.sum_nbij' (fun p => (p / width, p % width)) (fun v => v.1 * width + v.2) ?_ ?_ ?_ ?_ ?_
  · intro p hp
    rw [List.mem_toFinset, mem_tilePositions, hlen, place_eq_iff (hcolumn (Nat.mod_lt p hwidth))] at hp
    obtain ⟨hlt, hcol, hrow, hty, htx⟩ := hp
    rw [mem_tileGrid]
    exact ⟨⟨hrow, Nat.div_lt_of_lt_mul hlt, hty.symm⟩, hcol, Nat.mod_lt p hwidth, htx.symm⟩
  · rintro ⟨y, x⟩ hv
    rw [mem_tileGrid] at hv
    obtain ⟨⟨hrow, hy, hty⟩, hcol, hx, htx⟩ := hv
    obtain ⟨hdiv, hmod⟩ := (place_eq_iff hx).1 rfl
    rw [List.mem_toFinset, mem_tilePositions, hdiv, hmod, hlen, place_eq_iff (hcolumn hx)]
    have hin : y * width + x < height * width := (Nat.div_lt_iff_lt_mul hwidth).1 (hdiv.trans_lt hy)
    exact ⟨hin.trans_eq (Nat.mul_comm ..), hcol, hrow, hty.symm, htx.symm⟩
  · exact fun p _ => Nat.div_add_mod' p width
  · rintro ⟨y, x⟩ hv
    rw [mem_tileGrid] at hv
    obtain ⟨-, -, hx, -⟩ := hv
    obtain ⟨hdiv, hmod⟩ := (place_eq_iff hx).1 rfl
    exact Prod.ext hdiv hmod
  · exact fun p _ => congrArg _ (Nat.div_add_mod' p width).symm

end Sys2Proof.Machine
end

/-! ### What PRED.RESID writes (R292, R299, R300) -/

section
namespace Sys2Proof.Machine

/-- R51, R52: PIX and TDATA store whole host words. -/
theorem MemId.keep_pixel {id : MemId} (hid : id ∈ [MemId.pix, .tdata]) (i : Nat) (v : Word) : id.keep i v = v := by
  refine BitVec.eq_of_toNat_eq ((MemId.toNat_keep id i v).trans ?_)
  simp only [List.mem_cons, List.not_mem_nil, or_false] at hid
  obtain rfl | rfl := hid
  · rfl
  · rfl

/-- R299: a mode stands in the green channel of an opaque word. -/
theorem toNat_modeWord {m : Nat} (hm : m ≤ 13) : (modeWord m).toNat = 0xFF000000 + 256 * m := by
  interval_cases m <;> rfl

theorem residuals_getElem {orig : List Word} {width bits tilesX : Nat} {modes : List Nat} {p : Nat}
    (hp : p < (residuals orig width bits tilesX modes).length) :
    (residuals orig width bits tilesX modes)[p] =
      subPixels (orig.getD p 0) (effectivePred orig width bits tilesX modes p) := by
  have hin : p < orig.length := by rwa [residuals_length] at hp
  simp only [residuals, List.getElem_map, List.getElem_zipIdx, Nat.zero_add, List.getD_eq_getElem _ 0 hin]

variable {s t : State}

theorem State.predModes_getD {k : Nat} (hk : k < s.predTiles) :
    s.predModes.getD k 0 = bestMode s.pixels s.regs.width.toNat s.regs.height.toNat s.regs.predBits.toNat
      (k % s.predTilesX) (k / s.predTilesX) := by
  simp [State.predModes, tileModes, hk]

theorem State.predModes_le {k : Nat} (hk : k < s.predTiles) : s.predModes.getD k 0 ≤ 13 :=
  (State.predModes_getD hk).trans_le (bestMode_le ..)

/-- R292: the residuals PRED.RESID writes. -/
def State.predResiduals (s : State) : List Word :=
  residuals s.pixels s.regs.width.toNat s.regs.predBits.toNat s.predTilesX s.predModes

theorem State.predResiduals_length (s : State) : s.predResiduals.length = s.pixelCount :=
  (residuals_length ..).trans s.pixels_length

/-- R292, R351: PRED.RESID completes on legal operands with deep enough memories. -/
theorem exec_predResid (hparams : ParamsLegal .predResid s) (hfits : ResourcesFit .predResid s) :
    exec .predResid s = .next (commandEffect .predResid s).complete := by
  obtain ⟨-, hdims, hregs, -⟩ := hparams
  refine exec_of_commandError_none ?_
  simp only [commandError, predResidError, Option.or_eq_none_iff, needLegal_eq_none, checkPredBits_eq_none,
    checkFits_eq_none]
  exact ⟨rfl, checkDim_of_dimsLegal (hdims rfl), of_decide_eq_true (hregs .predBits (by decide)),
    hfits (.pix, _) (by simp [resourceNeeds]), hfits (.tdata, s.predTiles) (by simp [resourceNeeds])⟩

theorem eq_of_exec_predResid (hparams : ParamsLegal .predResid s) (hfits : ResourcesFit .predResid s)
    (h : exec .predResid s = .next t) : t = (commandEffect .predResid s).complete :=
  Host.Outcome.next.inj (h.symm.trans (exec_predResid hparams hfits))

theorem sameBut_predResid (s : State) : SameBut s (commandEffect .predResid s) [.pix, .tdata] :=
  ⟨rfl, rfl, rfl, rfl, fun id hid => by
    obtain ⟨hpix, htdata⟩ : id ≠ .pix ∧ id ≠ .tdata := by simpa using hid
    exact (State.writeWords_get_ne _ .tdata id 0 _ htdata).trans (s.writeWords_get_ne .pix id 0 _ hpix)⟩

/-- The modes, written last, leave PIX as the residuals left it. -/
theorem readWord_pix_predResid (s : State) (a : Nat) :
    (commandEffect .predResid s).readWord .pix a = (s.writeWords .pix 0 s.predResiduals).readWord .pix a :=
  State.readWord_writeWords_ne _ .tdata .pix 0 _ a (by decide)

theorem sameOutside_predResid_pix (s : State) :
    SameOutside s (commandEffect .predResid s) .pix 0 s.pixelCount := fun a ha =>
  (readWord_pix_predResid s a).trans
    (s.readWord_writeWords_outside .pix 0 _ a (by rwa [State.predResiduals_length]))

theorem sameOutside_predResid_tdata (s : State) :
    SameOutside s (commandEffect .predResid s) .tdata 0 s.predTiles := fun a ha =>
  (State.readWord_writeWords_outside _ .tdata 0 _ a (by rwa [List.length_map, State.predModes_length])).trans
    (s.readWord_writeWords_ne .pix .tdata 0 _ a (by decide))

/-- R300: a host word of PIX after PRED.RESID is its entry of the residuals. -/
theorem readWord_pix_predResid_getElem (s : State) {p : Nat} (hp : p < s.predResiduals.length) :
    (commandEffect .predResid s).readWord .pix p = s.predResiduals[p] := by
  have hread := s.readWord_writeWords_inside .pix 0 s.predResiduals p hp
  rw [Nat.zero_add, MemId.keep_pixel (by decide)] at hread
  exact (readWord_pix_predResid s p).trans hread

/-- R299: TDATA after PRED.RESID. -/
theorem toNat_readWord_tdata_predResid (s : State) {k : Nat} (hk : k < s.predTiles) :
    ((commandEffect .predResid s).readWord .tdata k).toNat = 0xFF000000 + 256 * s.predModes.getD k 0 := by
  have hin : k < s.predModes.length := hk.trans_eq s.predModes_length.symm
  have hread := State.readWord_writeWords_inside (s.writeWords .pix 0 s.predResiduals) .tdata 0
    (s.predModes.map modeWord) k (by rwa [List.length_map])
  rw [Nat.zero_add, MemId.keep_pixel (by decide), List.getElem_map, ← List.getD_eq_getElem _ 0 hin] at hread
  exact (congrArg BitVec.toNat hread).trans (toNat_modeWord (State.predModes_le hk))

/-- R299: a reader of TDATA takes the mode from the green channel. -/
theorem modeByte_tdata_predResid (s : State) {k : Nat} (hk : k < s.predTiles) :
    ((commandEffect .predResid s).readWord .tdata k).toNat / 256 % 256 = s.predModes.getD k 0 := by
  have hmode := State.predModes_le hk
  rw [toNat_readWord_tdata_predResid s hk]
  omega

/-- R290, R297: the statements' error of a tile is the machine's, at that tile's coordinates. -/
theorem State.modeError_eq (s : State) (hdims : s.DimsLegal) (k m : Nat) :
    modeError s.pixels s.regs.width.toNat s.regs.predBits.toNat s.predTilesX k m =
      tileError s.pixels s.regs.width.toNat s.regs.height.toNat s.regs.predBits.toNat
        (k % s.predTilesX) (k / s.predTilesX) m := by
  obtain ⟨hwidth, -⟩ := hdims
  exact modeError_eq_tileError s.pixels_length hwidth (subSampleSize_bounds ..).1 m

variable (h : s.mems.Canonical)
include h

/-- R300: PIX after PRED.RESID. -/
theorem State.readWord_pix_residual {p : Nat} (hp : p < s.pixelCount) :
    (commandEffect .predResid s).readWord .pix p = subPixels (s.readWord .pix p)
      (effectivePred s.pixels s.regs.width.toNat s.regs.predBits.toNat s.predTilesX s.predModes p) := by
  have hin : p < s.predResiduals.length := hp.trans_eq s.predResiduals_length.symm
  rw [readWord_pix_predResid_getElem s hin, ← State.pixels_getD h hp]
  exact residuals_getElem hin

/-- R298: in the first column the prediction is the pixel before. -/
theorem State.effectivePred_column_zero {p : Nat} (hp : p < s.pixelCount) (hrow : p / s.regs.width.toNat ≠ 0)
    (hcol : p % s.regs.width.toNat = 0) :
    effectivePred s.pixels s.regs.width.toNat s.regs.predBits.toNat s.predTilesX s.predModes p =
      s.readWord .pix (p - 1) :=
  (Machine.effectivePred_column_zero hrow hcol).trans (State.pixels_getD h (by omega))

/-- R291, R296: off the first row and column the prediction is the table's, from the four neighbours in PIX. -/
theorem State.channel_effectivePred_interior {p c : Nat} (hp : p < s.pixelCount) (hrow : p / s.regs.width.toNat ≠ 0)
    (hcol : p % s.regs.width.toNat ≠ 0) (hc : c < 4) :
    channel (effectivePred s.pixels s.regs.width.toNat s.regs.predBits.toNat s.predTilesX s.predModes p) c =
      modeChannel (s.predModes.getD (p / s.regs.width.toNat / 2 ^ s.regs.predBits.toNat * s.predTilesX +
          p % s.regs.width.toNat / 2 ^ s.regs.predBits.toNat) 0)
        (s.readWord .pix (p - 1)) (s.readWord .pix (p - s.regs.width.toNat))
        (s.readWord .pix (p - s.regs.width.toNat + 1)) (s.readWord .pix (p - s.regs.width.toNat - 1)) c := by
  have hright := topRight_lt hrow hcol
  rw [channel_effectivePred hc, effectiveChannel_interior hrow hcol, predictedChannel, State.pixels_getD h (by omega),
    State.pixels_getD h (by omega), State.pixels_getD h (by omega), State.pixels_getD h (by omega)]

/-- R300: the pixel stream PRED.RESID leaves is the residuals. -/
theorem State.pixels_predResid : (commandEffect .predResid s).pixels = s.predResiduals := by
  have hlen : (commandEffect .predResid s).pixelCount = s.pixelCount := rfl
  rw [State.pixels, hlen, State.readWords_eq_map (canonical_commandEffect h .predResid)]
  refine List.ext_getElem (by simp [s.predResiduals_length]) fun p _ hp => ?_
  rw [List.getElem_map, List.getElem_range, Nat.zero_add, readWord_pix_predResid_getElem s hp]

/-- R299: the modes a reader of TDATA takes are those PRED.RESID chose. -/
theorem State.readModes_predResid :
    ((commandEffect .predResid s).readNats .tdata 0 s.predTiles).map (fun w => w / 256 % 256) = s.predModes := by
  rw [State.readNats_eq_map (canonical_commandEffect h .predResid), List.map_map]
  refine List.ext_getElem (by simp [s.predModes_length]) fun k _ hk => ?_
  have hread := modeByte_tdata_predResid s (hk.trans_eq s.predModes_length)
  rw [List.getD_eq_getElem _ 0 hk] at hread
  simpa using hread

end Sys2Proof.Machine
end

/-! ### The statements on PRED.RESID -/

section
namespace Sys2Proof.Machine

/-- Settles O53: the modes are those the machine chose. -/
theorem predResidWritesResidualsAndModes : Obligations.PredResidWritesResidualsAndModes := by
  intro s hwf hparams hfits
  have hcanon := s.memsWf_iff.1 hwf
  refine ⟨_, s.predModes, exec_predResid hparams hfits, rfl, sameBut_predResid s, sameOutside_predResid_pix s,
    sameOutside_predResid_tdata s, s.predModes_length,
    fun k hk => ⟨State.predModes_le hk, toNat_readWord_tdata_predResid s hk⟩, ?_⟩
  rintro p hp _ rfl
  have hresidual := State.readWord_pix_residual hcanon hp
  exact ⟨hresidual, fun c hc => (congrArg (channel · c) hresidual).trans (channel_subPixels _ _ hc),
    effectivePred_row_zero, State.effectivePred_column_zero hcanon hp,
    fun hrow hcol c hc => State.channel_effectivePred_interior hcanon hp hrow hcol hc⟩

/-- Settles O54: both sums of a tile's errors are one, and the search finds its first least mode. -/
theorem predResidPicksTheBestMode : Obligations.PredResidPicksTheBestMode := by
  intro s t _ hparams hfits hexec k hk m hm best hbest
  obtain rfl := eq_of_exec_predResid hparams hfits hexec
  have hmode : best = s.predModes.getD k 0 := hbest.trans (modeByte_tdata_predResid s hk)
  obtain ⟨-, hdims, -⟩ := hparams
  rw [s.modeError_eq (hdims rfl), s.modeError_eq (hdims rfl), hmode, State.predModes_getD hk]
  exact bestMode_spec _ _ _ _ _ _ hm

/-- Settles O55: what PRED.RESID leaves in PIX and TDATA are the residuals and modes that recovery undoes. -/
theorem residualsRecoverTheImage : Obligations.ResidualsRecoverTheImage := by
  intro s t hwf hparams hfits hexec
  have hcanon := s.memsWf_iff.1 hwf
  obtain rfl := eq_of_exec_predResid hparams hfits hexec
  have hpixels : (commandEffect .predResid s).complete.pixels = s.predResiduals := State.pixels_predResid hcanon
  have hmodes : ((commandEffect .predResid s).complete.readNats .tdata 0 s.predTiles).map (fun w => w / 256 % 256) =
      s.predModes := State.readModes_predResid hcanon
  rw [hpixels, hmodes]
  exact recoverPixels_residuals s.pixels

end Sys2Proof.Machine
end

/-!
PROOFS, family 45_pmap: the cells and their distance (R320, R321, R325), what seeding leaves (R323, R327), the flood of
one cell (R324, R326), what PMAP.BUILD writes (R327, R328) and what PMAP.QUERY answers (R330, R331).
-/

/-! ### The cell of a Pixel and the distance of two cells (R321, R325) -/

section
namespace Sys2Proof.Machine

/-- R321, in the arithmetic of the statements. -/
theorem idx_cellOf (px : Word) :
    (cellOf px).idx = px.toNat % 256 / 8 * 2048 + px.toNat / 256 % 256 / 4 * 32 + px.toNat / 65536 % 256 / 8 := by
  simp only [cellOf, PalCell.idx, Nat.shiftRight_eq_div_pow, blueOf_eq, greenOf_eq, redOf_eq, Nat.reducePow]

theorem idx_cellOf_lt (px : Word) : (cellOf px).idx < palCells := by
  rw [idx_cellOf, palCells]
  omega

/-- R321: the inverse of the index. -/
theorem cellAt_idx_cellOf (px : Word) : cellAt (cellOf px).idx = cellOf px := by
  have hred : redOf px >>> 3 < 32 := by rw [redOf_eq, Nat.shiftRight_eq_div_pow]; omega
  have hgreen : greenOf px >>> 2 < 64 := by rw [greenOf_eq, Nat.shiftRight_eq_div_pow]; omega
  simp only [cellOf, cellAt, PalCell.idx, PalCell.mk.injEq]
  omega

/-- R328: the machine's distance is the statements'. -/
theorem dist_cellAt (j k : Nat) : (cellAt j).dist (cellAt k) = cellGap j k := by
  simp only [PalCell.dist, cellAt, cellGap, ← absDiff_eq_gap, absDiff, max_assoc]

theorem cellGap_pos {j k : Nat} (h : j ≠ k) : 1 ≤ cellGap j k := by
  simp only [cellGap, gap]
  omega

/-- R326: no two cells of the cube are farther apart than its longest side. -/
theorem cellGap_lt {j k : Nat} (hj : j < palCells) (hk : k < palCells) : cellGap j k < 64 := by
  simp only [cellGap, gap, palCells] at *
  omega

end Sys2Proof.Machine
end

/-! ### What seeding leaves (R323, R327) -/

section
namespace Sys2Proof.Machine

/-- R327: entry `i` is the first of `n` in its cell, and a later one shares the cell. -/
def SharedFirst (cell : Nat → Nat) (n i : Nat) : Prop :=
  i < n ∧ (∀ j < i, cell j ≠ cell i) ∧ ∃ j, i < j ∧ j < n ∧ cell j = cell i

/-- R323: the first of `n` entries whose cell is `k`. -/
def firstOccupier (cell : Nat → Nat) (n k : Nat) : Option Nat := (List.range n).find? (fun i => decide (cell i = k))

variable {cell : Nat → Nat} {n i k : Nat}

theorem firstOccupier_eq_some : firstOccupier cell n k = some i ↔ i < n ∧ cell i = k ∧ ∀ j < i, cell j ≠ k := by
  simp only [firstOccupier, List.find?_range_eq_some, decide_eq_true_eq, List.mem_range, Bool.not_eq_true',
    decide_eq_false_iff_not]
  exact and_left_comm

theorem firstOccupier_eq_none : firstOccupier cell n k = none ↔ ∀ i < n, cell i ≠ k := by
  simp [firstOccupier]

/-- An entry enters its cell only when no entry before it did. -/
theorem firstOccupier_succ :
    firstOccupier cell (n + 1) k = (firstOccupier cell n k).or (if cell n = k then some n else none) := by
  by_cases h : cell n = k <;> simp [firstOccupier, List.range_succ, List.find?_append, h]

theorem not_sharedFirst_zero : ¬ SharedFirst cell 0 i := fun h => Nat.not_lt_zero i h.1

/-- R326: the last entry is never marked. -/
theorem not_sharedFirst_last : ¬ SharedFirst cell (n + 1) n := fun ⟨_, _, j, hlt, hj, _⟩ => by omega

/-- R323: an entry marks the first occupier of its cell, if there is one. -/
theorem sharedFirst_succ :
    SharedFirst cell (n + 1) i ↔ firstOccupier cell n (cell n) = some i ∨ SharedFirst cell n i := by
  rw [firstOccupier_eq_some]
  constructor
  · rintro ⟨-, hfirst, j, hij, hj, hcell⟩
    obtain hlt | rfl := Nat.lt_succ_iff_lt_or_eq.1 hj
    · exact .inr ⟨hij.trans hlt, hfirst, j, hij, hlt, hcell⟩
    · exact .inl ⟨hij, hcell.symm, hcell ▸ hfirst⟩
  · rintro (⟨hi, hcell, hfirst⟩ | ⟨hi, hfirst, j, hij, hj, hcell⟩)
    · exact ⟨Nat.lt_succ_of_lt hi, hcell ▸ hfirst, n, hi, Nat.lt_succ_self n, hcell.symm⟩
    · exact ⟨Nat.lt_succ_of_lt hi, hfirst, j, hij, Nat.lt_succ_of_lt hj, hcell⟩

/-- R323: what seeding with the first `n` entries leaves. -/
structure Seeded (cell : Nat → Nat) (n : Nat) (sd : Seeding) : Prop where
  claims : ∀ k, sd.claims.lookup k = firstOccupier cell n k
  marked : ∀ i, i ∈ sd.marked ↔ SharedFirst cell n i

theorem seeded_zero : Seeded cell 0 ⟨[], []⟩ :=
  ⟨fun _ => rfl, fun i => by simp [not_sharedFirst_zero]⟩

/-- R323: an entry in a free cell claims it. -/
theorem Seeded.claim {sd : Seeding} (h : Seeded cell n sd) (hfree : sd.claims.lookup (cell n) = none) :
    Seeded cell (n + 1) { sd with claims := (cell n, n) :: sd.claims } := by
  rw [h.claims] at hfree
  refine ⟨fun k => ?_, fun i => by simp [sharedFirst_succ, hfree, h.marked]⟩
  rw [firstOccupier_succ, List.lookup_cons, h.claims]
  by_cases hk : cell n = k
  · subst hk
    simp [hfree]
  · have hne : (k == cell n) = false := by simpa using Ne.symm hk
    simp [hk, hne]

/-- R323: an entry in a claimed cell marks its first occupier. -/
theorem Seeded.mark {sd : Seeding} {first : Nat} (h : Seeded cell n sd)
    (hclaimed : sd.claims.lookup (cell n) = some first) :
    Seeded cell (n + 1) { sd with marked := first :: sd.marked } := by
  rw [h.claims] at hclaimed
  refine ⟨fun k => ?_, fun i => by simp [sharedFirst_succ, hclaimed, h.marked, eq_comm]⟩
  rw [firstOccupier_succ, h.claims]
  by_cases hk : cell n = k
  · simp [← hk, hclaimed]
  · simp [hk]

theorem seeded_seedFrom (rest : List Word) (p : Nat) (sd : Seeding)
    (hcell : ∀ (i : Nat) (hi : i < rest.length), (cellOf rest[i]).idx = cell (p + i)) (h : Seeded cell p sd) :
    Seeded cell (p + rest.length) (seedFrom rest p sd) := by
  induction rest generalizing p sd with
  | nil => exact h
  | cons px rest ih =>
    have hhead : (cellOf px).idx = cell p := hcell 0 (Nat.zero_lt_succ _)
    have htail : ∀ (i : Nat) (hi : i < rest.length), (cellOf rest[i]).idx = cell (p + 1 + i) := fun i hi => by
      rw [Nat.add_right_comm]; exact hcell (i + 1) (Nat.succ_lt_succ hi)
    have hlen : p + (px :: rest).length = p + 1 + rest.length := Nat.add_right_comm p _ 1
    rw [hlen, seedFrom, hhead]
    cases hlookup : sd.claims.lookup (cell p) with
    | none => exact ih (p + 1) _ htail (h.claim hlookup)
    | some first => exact ih (p + 1) _ htail (h.mark hlookup)

theorem seeded_seed (palette : List Word)
    (hcell : ∀ (i : Nat) (hi : i < palette.length), (cellOf palette[i]).idx = cell i) :
    Seeded cell palette.length (seed palette) := by
  have h := seeded_seedFrom palette 0 ⟨[], []⟩ (by simpa using hcell) seeded_zero
  rwa [Nat.zero_add] at h

end Sys2Proof.Machine
end

/-! ### The flood of one cell (R324, R326) -/

section
namespace Sys2Proof.Machine

/-- R324: the entries that flood stand in ascending order. -/
theorem flooders_pairwise (palette : List Word) : (flooders palette).Pairwise (fun a b => a.1 < b.1) := by
  have hasc : palette.zipIdx.Pairwise (fun a b => a.2 < b.2) := by
    rw [← List.pairwise_map (f := Prod.snd), List.zipIdx_map_snd]
    exact List.pairwise_lt_range'
  exact (hasc.filter _).map _ fun _ _ h => h

theorem mem_flooders {palette : List Word} {e : Nat × PalCell} :
    e ∈ flooders palette ↔
      ∃ hi : e.1 < palette.length, e.1 ∉ (seed palette).marked ∧ e.2 = cellOf palette[e.1] := by
  obtain ⟨i, c⟩ := e
  simp only [flooders, List.mem_map, List.mem_filter, Prod.exists, List.mk_mem_zipIdx_iff_getElem?, Prod.mk.injEq,
    Bool.not_eq_true', List.contains_eq_mem, decide_eq_false_iff_not, List.getElem?_eq_some_iff]
  constructor
  · rintro ⟨px, j, ⟨⟨hj, rfl⟩, hmarked⟩, rfl, rfl⟩
    exact ⟨hj, hmarked, rfl⟩
  · rintro ⟨hi, hmarked, hc⟩
    exact ⟨_, i, ⟨⟨hi, rfl⟩, hmarked⟩, rfl, hc.symm⟩

/-- R324: the first offer to a cell is the nearest entry's, the lowest among the nearest, when no entry is nearer than
the step `s` and some entry is nearer than the last step. -/
theorem floodCell_spec {entries : List (Nat × PalCell)} (hasc : entries.Pairwise (fun a b => a.1 < b.1)) (c : PalCell)
    (fuel s : Nat) (hfar : ∀ e ∈ entries, s ≤ e.2.dist c) (hnear : ∃ e ∈ entries, e.2.dist c < s + fuel) :
    ∃ e ∈ entries, floodCell entries c fuel s = some e.1 ∧
      ∀ e' ∈ entries, e.2.dist c < e'.2.dist c ∨ (e.2.dist c = e'.2.dist c ∧ e.1 ≤ e'.1) := by
  induction fuel generalizing s with
  | zero =>
    obtain ⟨e, he, hlt⟩ := hnear
    exact absurd hlt (Nat.not_lt.2 (hfar e he))
  | succ fuel ih =>
    rw [floodCell]
    cases hfind : entries.find? (fun e => decide (e.2.dist c = s)) with
    | none =>
      have hne : ∀ e ∈ entries, e.2.dist c ≠ s := by simpa using hfind
      have hnear' : ∃ e ∈ entries, e.2.dist c < s + 1 + fuel := by rwa [Nat.add_right_comm]
      exact ih (s + 1) (fun e he => Nat.lt_of_le_of_ne (hfar e he) (hne e he).symm) hnear'
    | some e =>
      obtain ⟨hdist, before, after, rfl, hbefore⟩ := List.find?_eq_some_iff_append.1 hfind
      have hdist : e.2.dist c = s := of_decide_eq_true hdist
      have hafter : ∀ e' ∈ after, e.1 < e'.1 := (List.pairwise_cons.1 (List.pairwise_append.1 hasc).2.1).1
      refine ⟨e, by simp, rfl, fun e' he' => ?_⟩
      have hle := hfar e' he'
      obtain hlt | heq := Nat.lt_or_eq_of_le (hdist.trans_le hle)
      · exact .inl hlt
      · refine .inr ⟨heq, ?_⟩
        simp only [List.mem_append, List.mem_cons] at he'
        obtain hmem | rfl | hmem := he'
        · exact absurd (heq.symm.trans hdist) (by simpa using hbefore e' hmem)
        · exact Nat.le_refl _
        · exact Nat.le_of_lt (hafter e' hmem)

end Sys2Proof.Machine
end

/-! ### The claim of a cell (R327, R328) -/

section
namespace Sys2Proof.Machine

/-- R328: of `n` entries, `i` is the lowest among the nearest to cell `k` that flood. -/
def NearestFlooder (cell : Nat → Nat) (n k i : Nat) : Prop :=
  i < n ∧ ¬ SharedFirst cell n i ∧ ∀ j < n, ¬ SharedFirst cell n j →
    cellGap (cell i) k < cellGap (cell j) k ∨ (cellGap (cell i) k = cellGap (cell j) k ∧ i ≤ j)

/-- R324: the claim PMAP.BUILD computes for cell `k`. -/
def paletteClaim (palette : List Word) (k : Nat) : Option Nat :=
  claimOf (seed palette).claims (flooders palette) k

variable {palette : List Word} {cell : Nat → Nat} {k : Nat}
  (hcell : ∀ (i : Nat) (hi : i < palette.length), (cellOf palette[i]).idx = cell i)
include hcell

/-- R323: a palette entry's own cell. -/
theorem paletteClaim_of_occupied {i : Nat} (hi : i < palette.length) (hk : cell i = k) (hfirst : ∀ j < i, cell j ≠ k) :
    paletteClaim palette k = some i := by
  have hlookup := ((seeded_seed palette hcell).claims k).trans (firstOccupier_eq_some.2 ⟨hi, hk, hfirst⟩)
  simp only [paletteClaim, claimOf, hlookup]

theorem paletteClaim_of_free (hfree : ∀ i < palette.length, cell i ≠ k) :
    paletteClaim palette k = floodCell (flooders palette) (cellAt k) 63 1 := by
  have hlookup := ((seeded_seed palette hcell).claims k).trans (firstOccupier_eq_none.2 hfree)
  simp only [paletteClaim, claimOf, hlookup]

/-- R324: the entries that flood, with the statements' cells. -/
theorem mem_flooders_iff {e : Nat × PalCell} :
    e ∈ flooders palette ↔
      e.1 < palette.length ∧ ¬ SharedFirst cell palette.length e.1 ∧ e.2 = cellAt (cell e.1) := by
  rw [mem_flooders, ← (seeded_seed palette hcell).marked]
  have hcellOf : ∀ hi : e.1 < palette.length, cellOf palette[e.1] = cellAt (cell e.1) := fun hi => by
    rw [← hcell _ hi, cellAt_idx_cellOf]
  constructor
  · rintro ⟨hi, hfloods, hc⟩
    exact ⟨hi, hfloods, hc.trans (hcellOf hi)⟩
  · rintro ⟨hi, hfloods, hc⟩
    exact ⟨hi, hfloods, hc.trans (hcellOf hi).symm⟩

theorem mem_flooders_of_lt {i : Nat} (hi : i < palette.length) (hfloods : ¬ SharedFirst cell palette.length i) :
    (i, cellAt (cell i)) ∈ flooders palette :=
  (mem_flooders_iff hcell).2 ⟨hi, hfloods, rfl⟩

/-- R326: the flood ends by step 63, for the last entry floods. -/
theorem exists_near_flooder (hne : palette ≠ []) (hk : k < palCells) :
    ∃ e ∈ flooders palette, e.2.dist (cellAt k) < 64 := by
  have hpos := List.length_pos_of_ne_nil hne
  have hlast : palette.length - 1 < palette.length := by omega
  have hfloods : ¬ SharedFirst cell palette.length (palette.length - 1) := by
    obtain ⟨n, hn⟩ := Nat.exists_eq_add_of_le' hpos
    rw [hn]
    exact not_sharedFirst_last
  have hin : cell (palette.length - 1) < palCells := (hcell _ hlast).symm.trans_lt (idx_cellOf_lt _)
  exact ⟨_, mem_flooders_of_lt hcell hlast hfloods, (dist_cellAt _ k).trans_lt (cellGap_lt hin hk)⟩

/-- R328: a cell that is no entry's. -/
theorem exists_paletteClaim_of_free (hne : palette ≠ []) (hk : k < palCells)
    (hfree : ∀ i < palette.length, cell i ≠ k) :
    ∃ i, paletteClaim palette k = some i ∧ NearestFlooder cell palette.length k i := by
  have hdist : ∀ e ∈ flooders palette, e.2.dist (cellAt k) = cellGap (cell e.1) k := fun e he => by
    obtain ⟨-, -, hc⟩ := (mem_flooders_iff hcell).1 he
    rw [hc, dist_cellAt]
  have hfar : ∀ e ∈ flooders palette, 1 ≤ e.2.dist (cellAt k) := fun e he => by
    obtain ⟨hi, -⟩ := (mem_flooders_iff hcell).1 he
    rw [hdist e he]
    exact cellGap_pos (hfree e.1 hi)
  obtain ⟨e, he, hflood, hbest⟩ :=
    floodCell_spec (flooders_pairwise palette) (cellAt k) 63 1 hfar (exists_near_flooder hcell hne hk)
  obtain ⟨hi, hfloods, -⟩ := (mem_flooders_iff hcell).1 he
  refine ⟨e.1, (paletteClaim_of_free hcell hfree).trans hflood, hi, hfloods, fun j hj hjfloods => ?_⟩
  have hmem := mem_flooders_of_lt hcell hj hjfloods
  have hnear := hbest _ hmem
  rwa [hdist e he, hdist _ hmem] at hnear

/-- R327: every cell is claimed by an entry. -/
theorem exists_paletteClaim (hne : palette ≠ []) (hk : k < palCells) :
    ∃ i, paletteClaim palette k = some i := by
  cases hfirst : firstOccupier cell palette.length k with
  | none =>
    obtain ⟨i, hclaim, -⟩ := exists_paletteClaim_of_free hcell hne hk (firstOccupier_eq_none.1 hfirst)
    exact ⟨i, hclaim⟩
  | some i =>
    obtain ⟨hi, hik, hbefore⟩ := firstOccupier_eq_some.1 hfirst
    exact ⟨i, paletteClaim_of_occupied hcell hi hik hbefore⟩

end Sys2Proof.Machine
end

/-! ### What PMAP.BUILD writes (R322) -/

section
namespace Sys2Proof.Machine

/-- R322: the whole of PMATCH, TAKEN and SAME written. -/
def State.writeMap (s : State) (claims taken marks : List Nat) : State :=
  ((s.writeNats .pmatch 0 claims).writeNats .taken 0 taken).writeNats .same 0 marks

variable (s : State) (claims taken marks : List Nat)

theorem State.readWord_writeMap_pmatch (a : Nat) :
    (s.writeMap claims taken marks).readWord .pmatch a = (s.writeNats .pmatch 0 claims).readWord .pmatch a :=
  (State.readWord_writeWords_ne _ .same .pmatch 0 _ a (by decide)).trans
    (State.readWord_writeWords_ne _ .taken .pmatch 0 _ a (by decide))

theorem State.readWord_writeMap_taken (a : Nat) :
    (s.writeMap claims taken marks).readWord .taken a =
      ((s.writeNats .pmatch 0 claims).writeNats .taken 0 taken).readWord .taken a :=
  State.readWord_writeWords_ne _ .same .taken 0 _ a (by decide)

theorem State.sameBut_writeMap : SameBut s (s.writeMap claims taken marks) [.pmatch, .taken, .same] :=
  ⟨rfl, rfl, rfl, rfl, fun id hid => by
    obtain ⟨hpmatch, htaken, hsame⟩ : id ≠ .pmatch ∧ id ≠ .taken ∧ id ≠ .same := by simpa using hid
    exact (State.writeWords_get_ne _ .same id 0 _ hsame).trans
      ((State.writeWords_get_ne _ .taken id 0 _ htaken).trans (s.writeWords_get_ne .pmatch id 0 _ hpmatch))⟩

theorem State.sameOutside_writeMap_pmatch : SameOutside s (s.writeMap claims taken marks) .pmatch 0 claims.length :=
  fun a ha => (s.readWord_writeMap_pmatch claims taken marks a).trans (s.sameOutside_writeNats .pmatch claims a ha)

theorem State.sameOutside_writeMap_taken : SameOutside s (s.writeMap claims taken marks) .taken 0 taken.length :=
  fun a ha => (s.readWord_writeMap_taken claims taken marks a).trans
    ((State.sameOutside_writeNats _ .taken taken a ha).trans
      (s.readWord_writeWords_ne .pmatch .taken 0 _ a (by decide)))

theorem State.sameOutside_writeMap_same : SameOutside s (s.writeMap claims taken marks) .same 0 marks.length :=
  fun a ha => (State.sameOutside_writeNats _ .same marks a ha).trans
    ((State.readWord_writeWords_ne _ .taken .same 0 _ a (by decide)).trans
      (s.readWord_writeWords_ne .pmatch .same 0 _ a (by decide)))

/-- R64: PMATCH keeps an entry's number. -/
theorem State.toNat_readWord_writeMap_pmatch {k : Nat} (hk : k < claims.length) (hfit : claims.getD k 0 < 256) :
    ((s.writeMap claims taken marks).readWord .pmatch k).toNat = claims.getD k 0 := by
  rw [State.readWord_writeMap_pmatch, State.toNat_readWord_writeNats _ _ hk, storedBits, BitVec.toNat_ofNat,
    Nat.mod_mod_of_dvd _ (by decide), Nat.mod_eq_of_lt hfit]

/-- R65, R66: TAKEN and SAME keep a bit. -/
theorem State.readWord_writeNats_of_bit {id : MemId} (hid : id ∈ [MemId.taken, .same]) {vs : List Nat} {k b : Nat}
    (hk : k < vs.length) (hbit : vs.getD k 0 = b) (hb : b < 2) :
    (s.writeNats id 0 vs).readWord id k = BitVec.ofNat 32 b := by
  have hstored : storedBits id k (BitVec.ofNat 32 b) = b % 2 ^ 32 % 2 := by
    simp only [List.mem_cons, List.not_mem_nil, or_false] at hid
    obtain rfl | rfl := hid
    · rfl
    · rfl
  refine BitVec.eq_of_toNat_eq ?_
  rw [s.toNat_readWord_writeNats id hk, hbit, hstored, BitVec.toNat_ofNat]
  omega

end Sys2Proof.Machine
end

/-! ### PMAP.BUILD (R322, R327, R328) -/

section
namespace Sys2Proof.Machine

/-- R322, R351: PMAP.BUILD completes on a legal palette size. -/
theorem commandError_pmapBuild {s : State} (h : s.regLegal .palSize = true) : commandError .pmapBuild s = none :=
  Option.or_eq_none_iff.2 ⟨rfl, (checkPalSize_eq_none s).2 (of_decide_eq_true h)⟩

theorem State.palette_length (s : State) : s.palette.length = s.regs.palSize.toNat := s.readWords_length .pal 0 _

/-- R321: the cells of the palette the machine reads are those of the statements. -/
theorem State.idx_cellOf_palette {s : State} (h : s.mems.Canonical) (i : Nat) (hi : i < s.palette.length) :
    (cellOf s.palette[i]).idx = s.entryCell i := by
  have hentry : s.palette[i] = s.readWord .pal i := by simp [State.palette, State.readWords_eq_map h]
  rw [hentry, idx_cellOf]
  simp only [State.entryCell, channel, Nat.reducePow, Nat.div_one]

/-- R328: what PMAP.BUILD writes to PMATCH. -/
def State.builtMatch (s : State) : List Nat := (cellClaims s.palette).map (fun c => c.getD 0)

/-- R327: what PMAP.BUILD writes to TAKEN. -/
def State.builtTaken (s : State) : List Nat := (cellClaims s.palette).map (fun c => if c.isSome then 1 else 0)

/-- R327: what PMAP.BUILD writes to SAME. -/
def State.builtSame (s : State) : List Nat :=
  (List.range 256).map (fun i => if (seed s.palette).marked.contains i then 1 else 0)

theorem commandEffect_pmapBuild (s : State) :
    commandEffect .pmapBuild s = s.writeMap s.builtMatch s.builtTaken s.builtSame := rfl

/-- R324: PMAP.BUILD claims every cell. -/
theorem cellClaims_eq (palette : List Word) :
    cellClaims palette = (List.range palCells).map (paletteClaim palette) := rfl

theorem State.builtMatch_length (s : State) : s.builtMatch.length = 65536 := by
  simp [State.builtMatch, cellClaims_eq, palCells]

theorem State.builtTaken_length (s : State) : s.builtTaken.length = 65536 := by
  simp [State.builtTaken, cellClaims_eq, palCells]

theorem State.builtSame_length (s : State) : s.builtSame.length = 256 := by simp [State.builtSame]

section claimed
variable {s : State} {k i : Nat} (hk : k < 65536) (hclaim : paletteClaim s.palette k = some i)
include hk hclaim

/-- R327: a claimed cell is taken. -/
theorem readWord_taken_pmapBuild : (commandEffect .pmapBuild s).readWord .taken k = 1 := by
  have hbit : s.builtTaken.getD k 0 = 1 := by simp [State.builtTaken, cellClaims_eq, palCells, hk, hclaim]
  rw [commandEffect_pmapBuild, State.readWord_writeMap_taken]
  exact State.readWord_writeNats_of_bit _ (by decide) (hk.trans_eq s.builtTaken_length.symm) hbit (by decide)

/-- R328: a claimed cell holds the entry that claims it. -/
theorem toNat_readWord_pmatch_pmapBuild (hi : i < 256) :
    ((commandEffect .pmapBuild s).readWord .pmatch k).toNat = i := by
  have hvalue : s.builtMatch.getD k 0 = i := by simp [State.builtMatch, cellClaims_eq, palCells, hk, hclaim]
  rw [commandEffect_pmapBuild, State.toNat_readWord_writeMap_pmatch, hvalue]
  · exact hk.trans_eq s.builtMatch_length.symm
  · rwa [hvalue]

end claimed

/-- R327: SAME is the mark seeding left. -/
theorem readWord_same_pmapBuild (s : State) {i : Nat} (hi : i < 256) :
    (commandEffect .pmapBuild s).readWord .same i = if i ∈ (seed s.palette).marked then 1 else 0 := by
  have hin := hi.trans_eq s.builtSame_length.symm
  rw [commandEffect_pmapBuild, State.writeMap]
  split_ifs with hmarked
  · exact State.readWord_writeNats_of_bit _ (by decide) hin (by simp [State.builtSame, hi, hmarked]) (by decide)
  · exact State.readWord_writeNats_of_bit _ (by decide) hin (by simp [State.builtSame, hi, hmarked]) (by decide)

section marks
variable {s : State} (h : s.mems.Canonical) {i : Nat}
include h

theorem State.mem_marked_palette :
    i ∈ (seed s.palette).marked ↔ SharedFirst s.entryCell s.regs.palSize.toNat i := by
  rw [(seeded_seed _ (State.idx_cellOf_palette h)).marked, s.palette_length]

/-- R327: SAME marks the first occupiers of shared cells. -/
theorem readWord_same_pmapBuild_eq_one (hi : i < 256) (hshared : SharedFirst s.entryCell s.regs.palSize.toNat i) :
    (commandEffect .pmapBuild s).readWord .same i = 1 := by
  rw [readWord_same_pmapBuild s hi, if_pos ((State.mem_marked_palette h).2 hshared)]

/-- R327, R328: the entries SAME leaves unmarked are those that flood. -/
theorem readWord_same_pmapBuild_eq_zero_iff (hi : i < 256) :
    (commandEffect .pmapBuild s).readWord .same i = 0 ↔ ¬ SharedFirst s.entryCell s.regs.palSize.toNat i := by
  rw [readWord_same_pmapBuild s hi, ← State.mem_marked_palette h]
  split_ifs with hmarked <;> simp [hmarked]

end marks

/-- Settles O56: each cell holds its claim, and SAME marks the entries that do not flood. -/
theorem pmapBuildMatchesTheNearestEntry : Obligations.PmapBuildMatchesTheNearestEntry := by
  intro s hwf hlegal
  have hcanon := s.memsWf_iff.1 hwf
  obtain ⟨hpos, hmax⟩ : 1 ≤ s.regs.palSize.toNat ∧ s.regs.palSize.toNat ≤ 256 := of_decide_eq_true hlegal
  have hlen := s.palette_length
  have hcell := State.idx_cellOf_palette hcanon
  have hne : s.palette ≠ [] := List.ne_nil_of_length_pos (hpos.trans_eq hlen.symm)
  have hpmatch := s.sameOutside_writeMap_pmatch s.builtMatch s.builtTaken s.builtSame
  have htaken := s.sameOutside_writeMap_taken s.builtMatch s.builtTaken s.builtSame
  have hsame := s.sameOutside_writeMap_same s.builtMatch s.builtTaken s.builtSame
  rw [s.builtMatch_length] at hpmatch
  rw [s.builtTaken_length] at htaken
  rw [s.builtSame_length] at hsame
  refine ⟨_, exec_of_commandError_none (commandError_pmapBuild hlegal), rfl, s.sameBut_writeMap _ _ _, hpmatch, htaken,
    hsame, fun k hk => ⟨?taken, fun i hi hik hfirst => ?occupied, fun hfree => ?free⟩,
    fun i hi => ⟨readWord_same_pmapBuild_eq_one hcanon hi, (readWord_same_pmapBuild_eq_zero_iff hcanon hi).2⟩⟩
  case taken =>
    obtain ⟨i, hclaim⟩ := exists_paletteClaim hcell hne hk
    exact readWord_taken_pmapBuild hk hclaim
  case occupied =>
    have hclaim := paletteClaim_of_occupied hcell (hi.trans_eq hlen.symm) hik hfirst
    exact toNat_readWord_pmatch_pmapBuild hk hclaim (hi.trans_le hmax)
  case free =>
    obtain ⟨i, hclaim, hnearest⟩ := exists_paletteClaim_of_free hcell hne hk fun i hi => hfree i (hi.trans_eq hlen)
    rw [hlen] at hnearest
    obtain ⟨hi, hfloods, hbest⟩ := hnearest
    have hi256 := hi.trans_le hmax
    refine ⟨i, hi, (readWord_same_pmapBuild_eq_zero_iff hcanon hi256).2 hfloods,
      toNat_readWord_pmatch_pmapBuild hk hclaim hi256, fun j hj hjsame => hbest j hj ?_⟩
    exact (readWord_same_pmapBuild_eq_zero_iff hcanon (hj.trans_le hmax)).1 hjsame

end Sys2Proof.Machine
end

/-! ### PMAP.QUERY (R330, R331) -/

section
namespace Sys2Proof.Machine

/-- Settles O57: the cell's index in the words of the statement; PMATCH stores eight bits. -/
theorem pmapQueryLooksUpTheCell : Obligations.PmapQueryLooksUpTheCell := by
  rintro s i rfl
  refine ⟨?_, fun hwf => ?_⟩
  · rw [← idx_cellOf]
    exact exec_of_commandError_none (i := .pmapQuery) rfl
  · rw [State.toNat_readWord (s.memsWf_iff.1 hwf)]
    exact Nat.le_of_lt_succ (Nat.mod_lt _ (by decide))

end Sys2Proof.Machine
end

/-!
PROOFS, family 46_system: NOP (R340).
-/

/-! ### NOP (R13, R340) -/

section
namespace Sys2Proof.Machine

/-- R13: a legal command, issued, runs at the block's next turn. -/
theorem State.blockTurn_issue_encode (s : State) {i : Instr} (hwf : i.wf = true) :
    (s.issue (encode i)).blockTurn = exec i (s.issue (encode i)) :=
  State.blockTurn_legal _ i rfl (decode_encode i hwf)

/-- R340: NOP's one pre-check passes in every state, and it has no effect but its completion. -/
theorem exec_nop (s : State) : exec .nop s = .next s.complete :=
  exec_of_commandError_none (i := .nop) rfl

/-- R35: after a completion with no error and no refused access on record, DONE is the only bit set in STATUS. -/
theorem Regs.statusWord_completed {r : Regs} (herr : r.err = false) (haccv : r.accv = false) (hcode : r.errCode = 0) :
    r.completed.statusWord = 0x00000002 := by
  simp [Regs.statusWord, Regs.completed, herr, haccv, hcode, flag]

/-- Settles O33: the word 0 is NOP's, and completion from reset leaves DONE set and CMDCNT at 1. -/
theorem nopCompletes : Obligations.NopCompletes := by
  refine ⟨exec_nop, fun c t hturn => ?_⟩
  have hrun : ((State.resetWith c).issue 0x00000000).blockTurn =
      .next ((State.resetWith c).issue 0x00000000).complete :=
    ((State.resetWith c).blockTurn_issue_encode (i := .nop) rfl).trans (exec_nop _)
  obtain rfl : ((State.resetWith c).issue 0x00000000).complete = t := Host.Outcome.next.inj (hrun.symm.trans hturn)
  exact ⟨Regs.statusWord_completed rfl rfl rfl, rfl, rfl⟩

end Sys2Proof.Machine
end

/-!
PROOFS, families 60_exceptions and 70_reset_and_hazards: the pre-checks of every command in the one order of R351, the
error each of them reports (R354, R355, R357, R359, R360), and the state after a reset (R380, R381, R383).
-/

/-! ### The pre-checks in their one order (R351) -/

section
namespace Sys2Proof.Machine

/-- R354: the check of the dimensions, by a command that reads them. -/
def checkDims (i : Instr) (s : State) : Option CmdError := if readsDims i then checkDim s else none

/-- R355: the check of one register. -/
def checkReg (s : State) (r : Reg) : Option CmdError := need (s.regLegal r) (paramError r)

/-- R351: the first error of checks made in order. -/
def firstError (checks : List (Option CmdError)) : Option CmdError := checks.foldr Option.or none

/-- R355: the checks of a command's registers, in test order. -/
def checkRegs (i : Instr) (s : State) : Option CmdError := firstError ((checkedRegs i).map (checkReg s))

/-- R355: the check of `k` against NHISTO. -/
def checkIndex (i : Instr) (s : State) : Option CmdError := need (indexLegal s i) (paramError .nhisto)

/-- R357: the checks of a command's memories, in ascending id. -/
def checkNeeds (i : Instr) (s : State) : Option CmdError :=
  firstError ((resourceNeeds s i).map (fun x => checkFits s x.1 x.2))

/-- R351 (5) to (7): the checks of the contents of the memories a command reads. -/
def checkData : Instr → State → Option CmdError
  | .hufBuild L, s =>
    need (decide (usedCount s.histogram ≤ 2 ^ L.toNat)) ⟨.kraft, BitVec.ofNat 32 (usedCount s.histogram)⟩
  | .histBuild, s => checkStream s
  | .histCluster, s => (checkSymbols s).or (checkTotals s)
  | .histEntropy, s => need (decide (s.counts.sum < 2 ^ 32)) ⟨.range, 0⟩
  | _, _ => none

section registers
variable (s : State)

@[simp] theorem checkReg_nsym : checkReg s .nsym = checkNsym s := congrArg (need · _) (Bool.decide_and _ _)

@[simp] theorem checkReg_cacheBits : checkReg s .cacheBits = checkCacheBits s := rfl

@[simp] theorem checkReg_histoBits : checkReg s .histoBits = checkHistoBits s :=
  congrArg (need · _) (Bool.decide_and _ _)

@[simp] theorem checkReg_predBits : checkReg s .predBits = checkPredBits s := congrArg (need · _) (Bool.decide_and _ _)

@[simp] theorem checkReg_hashBits : checkReg s .hashBits = checkHashBits s := congrArg (need · _) (Bool.decide_and _ _)

@[simp] theorem checkReg_window : checkReg s .window = checkWindow s := congrArg (need · _) (Bool.decide_and _ _)

@[simp] theorem checkReg_maxLen : checkReg s .maxLen = checkMaxLen s := congrArg (need · _) (Bool.decide_and _ _)

@[simp] theorem checkReg_palSize : checkReg s .palSize = checkPalSize s := congrArg (need · _) (Bool.decide_and _ _)

@[simp] theorem checkReg_nrefs : checkReg s .nrefs = checkNrefs s := rfl

@[simp] theorem checkReg_nhisto : checkReg s .nhisto = checkNhisto s := congrArg (need · _) (Bool.decide_and _ _)

@[simp] theorem checkReg_nbitq : checkReg s .nbitq = checkNbitq s := rfl

end registers

/-- R217: LZ.REFS checks WINDOW unless the flavor is RLE. -/
theorem checkRegs_lzRefs (f : BitVec 2) (s : State) :
    checkRegs (.lzRefs f) s =
      (checkCacheBits s).or ((if f = 1 then none else checkWindow s).or (checkMaxLen s)) := by
  by_cases hf : f = 1
  · simp only [checkRegs, checkedRegs, if_pos hf]
    simp [firstError]
  · simp only [checkRegs, checkedRegs, if_neg hf]
    simp [firstError]

/-- R268: HIST.EXPORT checks CACHE_BITS for the literal array only. -/
theorem checkRegs_histExport (arr : BitVec 3) (k : BitVec 16) (s : State) :
    checkRegs (.histExport arr k) s = (if arr = 0 then checkCacheBits s else none).or (checkNhisto s) := by
  by_cases harr : arr = 0
  · simp only [checkRegs, checkedRegs, if_pos harr]
    simp [firstError]
  · simp only [checkRegs, checkedRegs, if_neg harr]
    simp [firstError]

/-- R351: every command makes its pre-checks in the one order, whatever its own rule lists. -/
theorem commandError_eq (i : Instr) (s : State) :
    commandError i s = (needLegal i).or ((checkDims i s).or ((checkRegs i s).or ((checkIndex i s).or
      ((checkNeeds i s).or (checkData i s))))) := by
  have hpixels : s.pixelCount = s.regs.width.toNat * s.regs.height.toNat := rfl
  cases i with
  | lzRefs f =>
    rw [checkRegs_lzRefs]
    simp [commandError, lzRefsError, checkDims, readsDims, checkIndex, indexLegal, need, checkNeeds, resourceNeeds,
      firstError, checkData, hpixels, Option.or_assoc]
  | histExport arr k =>
    rw [checkRegs_histExport]
    simp [commandError, histExportError, checkDims, readsDims, checkIndex, indexLegal, checkNeeds, resourceNeeds,
      firstError, checkData, Option.or_assoc]
  | nop | pmapQuery =>
    simp [commandError, checkDims, readsDims, checkRegs, checkedRegs, checkIndex, indexLegal, need, checkNeeds,
      resourceNeeds, firstError, checkData]
  | hufBuild | hufRle | hufStore | histEntropy | pmapBuild =>
    simp [commandError, hufBuildError, hufStoreError, histEntropyError, pmapBuildError, checkDims, readsDims, checkRegs,
      checkedRegs, checkIndex, indexLegal, need, checkNeeds, resourceNeeds, firstError, checkData, Option.or_assoc]
  | lzFill | histBuild | histCluster | predResid =>
    simp [commandError, lzFillError, histBuildError, histClusterError, predResidError, checkDims, readsDims, checkRegs,
      checkedRegs, checkIndex, indexLegal, need, checkNeeds, resourceNeeds, firstError, checkData, hpixels,
      Option.or_assoc]

/-! ### Which stage reports -/

theorem firstError_eq_none {checks : List (Option CmdError)} (h : ∀ c ∈ checks, c = none) :
    firstError checks = none := by
  induction checks with
  | nil => rfl
  | cons c checks ih =>
    obtain ⟨rfl, hrest⟩ := List.forall_mem_cons.1 h
    exact ih hrest

/-- R351: the first failing check decides. -/
theorem firstError_append_cons {pre : List (Option CmdError)} (h : ∀ c ∈ pre, c = none) (e : CmdError)
    (post : List (Option CmdError)) : firstError (pre ++ some e :: post) = some e := by
  induction pre with
  | nil => rfl
  | cons c pre ih =>
    obtain ⟨rfl, hrest⟩ := List.forall_mem_cons.1 h
    exact ih hrest

theorem checkReg_eq_none {s : State} {r : Reg} (h : s.regLegal r = true) : checkReg s r = none :=
  (need_eq_none _ _).2 h

theorem checkReg_eq_some {s : State} {r : Reg} (h : s.regLegal r = false) : checkReg s r = some (paramError r) :=
  (need_eq_some _ _ _).2 ⟨h, rfl⟩

theorem checkDims_eq_none {i : Instr} {s : State} (h : readsDims i = true → s.DimsLegal) : checkDims i s = none := by
  unfold checkDims
  split
  case isTrue hreads => exact checkDim_of_dimsLegal (h hreads)
  case isFalse => rfl

theorem checkRegs_eq_none {i : Instr} {s : State} (h : ∀ r ∈ checkedRegs i, s.regLegal r = true) :
    checkRegs i s = none :=
  firstError_eq_none (List.forall_mem_map.2 fun r hr => checkReg_eq_none (h r hr))

theorem checkIndex_eq_none {i : Instr} {s : State} (h : indexLegal s i = true) : checkIndex i s = none :=
  (need_eq_none _ _).2 h

theorem checkNeeds_eq_none {i : Instr} {s : State} (h : ResourcesFit i s) : checkNeeds i s = none :=
  firstError_eq_none (List.forall_mem_map.2 fun x hx => (checkFits_eq_none s x.1 x.2).2 (h x hx))

section stages
variable {i : Instr} {s : State}

/-- R351 (2): a legal word leaves the dimensions to check. -/
theorem commandError_of_wf (hwf : i.wf = true) : commandError i s = (checkDims i s).or ((checkRegs i s).or
    ((checkIndex i s).or ((checkNeeds i s).or (checkData i s)))) := by
  rw [commandError_eq, (needLegal_eq_none i).2 hwf, Option.none_or]

/-- R351 (3): legal dimensions leave the registers to check. -/
theorem commandError_of_dims (hwf : i.wf = true) (hdims : readsDims i = true → s.DimsLegal) :
    commandError i s = (checkRegs i s).or ((checkIndex i s).or ((checkNeeds i s).or (checkData i s))) := by
  rw [commandError_of_wf hwf, checkDims_eq_none hdims, Option.none_or]

/-- R351 (4): legal operands leave the memories to check. -/
theorem commandError_of_params (h : ParamsLegal i s) : commandError i s = (checkNeeds i s).or (checkData i s) := by
  obtain ⟨hwf, hdims, hregs, hindex⟩ := h
  rw [commandError_of_dims hwf hdims, checkRegs_eq_none hregs, checkIndex_eq_none hindex, Option.none_or,
    Option.none_or]

/-- R351 (5) to (7): memories deep enough leave their contents to check. -/
theorem commandError_of_fits (h : ParamsLegal i s) (hfits : ResourcesFit i s) : commandError i s = checkData i s := by
  rw [commandError_of_params h, checkNeeds_eq_none hfits, Option.none_or]

end stages

end Sys2Proof.Machine
end

/-! ### Which codes each stage can report (R350) -/

section
namespace Sys2Proof.Machine

/-- An outcome of pre-checks that is no error of class `c`. -/
def Avoids (c : ErrorCode) (check : Option CmdError) : Prop := ∀ e, check = some e → e.code ≠ c

variable {c : ErrorCode} {i : Instr} {s : State}

theorem Avoids.none : Avoids c none := nofun

theorem Avoids.some {e : CmdError} (h : e.code ≠ c) : Avoids c (some e) := by
  rintro _ ⟨⟩
  exact h

theorem Avoids.need {e : CmdError} (h : e.code ≠ c) (ok : Bool) : Avoids c (need ok e) := by
  cases ok
  · exact Avoids.some h
  · exact Avoids.none

theorem Avoids.or {a b : Option CmdError} (ha : Avoids c a) (hb : Avoids c b) : Avoids c (a.or b) := by
  cases a with
  | none => exact hb
  | some e => exact ha

theorem Avoids.firstError {checks : List (Option CmdError)} (h : ∀ a ∈ checks, Avoids c a) :
    Avoids c (firstError checks) := by
  induction checks with
  | nil => exact Avoids.none
  | cons a checks ih =>
    obtain ⟨hfirst, hrest⟩ := List.forall_mem_cons.1 h
    exact hfirst.or (ih hrest)

theorem Avoids.map {report : Nat → CmdError} (h : ∀ n, (report n).code ≠ c) (found : Option Nat) :
    Avoids c (found.map report) := by
  cases found with
  | none => exact Avoids.none
  | some n => exact Avoids.some (h n)

theorem avoids_needLegal (h : .illegal ≠ c) (i : Instr) : Avoids c (needLegal i) := Avoids.need h _

theorem avoids_checkDims (h : .dim ≠ c) (i : Instr) (s : State) : Avoids c (checkDims i s) := by
  unfold checkDims
  split
  · exact (Avoids.need h _).or (Avoids.need h _)
  · exact Avoids.none

theorem avoids_checkRegs (h : .param ≠ c) (i : Instr) (s : State) : Avoids c (checkRegs i s) :=
  Avoids.firstError (List.forall_mem_map.2 fun _ _ => Avoids.need h _)

theorem avoids_checkIndex (h : .param ≠ c) (i : Instr) (s : State) : Avoids c (checkIndex i s) := Avoids.need h _

theorem avoids_checkNeeds (h : .resource ≠ c) (i : Instr) (s : State) : Avoids c (checkNeeds i s) :=
  Avoids.firstError (List.forall_mem_map.2 fun _ _ => Avoids.need h _)

/-- R350, R359: the contents of memories are at fault in `E_STREAM`, `E_RANGE` and, in HUF.BUILD, `E_KRAFT` only. -/
theorem avoids_checkData (hstream : .stream ≠ c) (hrange : .range ≠ c)
    (hkraft : (∃ L, i = .hufBuild L) → .kraft ≠ c) (s : State) : Avoids c (checkData i s) := by
  cases i with
  | hufBuild L => exact Avoids.need (hkraft ⟨L, rfl⟩) _
  | histBuild => exact Avoids.map (fun _ => hstream) _
  | histCluster => exact (Avoids.map (fun _ => hstream) _).or (Avoids.map (fun _ => hrange) _)
  | histEntropy => exact Avoids.need hrange _
  | nop | hufRle | hufStore | lzFill | lzRefs | histExport | predResid | pmapBuild | pmapQuery => exact Avoids.none

/-- R351, R359: only the check of a memory's contents can be `E_KRAFT`. -/
theorem avoids_kraft_of_checkData (h : Avoids .kraft (checkData i s)) : Avoids .kraft (commandError i s) := by
  rw [commandError_eq]
  exact (avoids_needLegal (by decide) i).or ((avoids_checkDims (by decide) i s).or
    ((avoids_checkRegs (by decide) i s).or ((avoids_checkIndex (by decide) i s).or
      ((avoids_checkNeeds (by decide) i s).or h))))

theorem ErrorCode.num_injective {a b : ErrorCode} (h : a.num = b.num) : a = b := by
  revert h
  cases a <;> cases b <;> decide

/-- R39, R352: CMDCNT tells a completion from an error completion. -/
theorem State.complete_ne_errored {s t : State} (hcnt : t.regs.cmdCnt = s.regs.cmdCnt) (code : BitVec 8) (info : Word) :
    t.complete ≠ s.errored code info := by
  intro h
  have hnext : t.regs.cmdCnt + 1 = s.regs.cmdCnt := congrArg (fun u => u.regs.cmdCnt) h
  rw [hcnt] at hnext
  bv_omega

/-- R350, R351: a command reports no class its pre-checks avoid. -/
theorem exec_ne_errored (h : Avoids c (commandError i s)) (info : Word) : exec i s ≠ .next (s.errored c.num info) := by
  rw [exec_eq_runCommand]
  intro hrun
  obtain ⟨e, herr, heq⟩ | ⟨-, heq⟩ := runCommand_next _ _ _ _ hrun
  · have hcode : c.num = e.code.num := congrArg (fun u => u.regs.errCode) heq
    exact h e herr (ErrorCode.num_injective hcode).symm
  · have hcnt : (commandEffect i s).regs.cmdCnt = s.regs.cmdCnt := by rw [commandEffect_eq]; rfl
    exact State.complete_ne_errored hcnt _ _ heq.symm

end Sys2Proof.Machine
end

/-! ### What each error reports (R354, R355, R357, R359, R360) -/

section
namespace Sys2Proof.Machine

theorem legalDim_eq_false {v : Word} (h : v.toNat = 0 ∨ 16384 ≤ v.toNat) : legalDim v = false := by
  rw [legalDim, Bool.and_eq_false_iff, decide_eq_false_iff_not, decide_eq_false_iff_not]
  simp only [maxDimension]
  omega

theorem legalDim_eq_true {v : Word} (h : 1 ≤ v.toNat ∧ v.toNat ≤ 16383) : legalDim v = true := by
  rw [legalDim, Bool.and_eq_true_iff, decide_eq_true_iff, decide_eq_true_iff]
  simp only [maxDimension]
  omega

/-- R354: WIDTH is at fault. -/
theorem checkDim_of_width {s : State} (h : s.regs.width.toNat = 0 ∨ 16384 ≤ s.regs.width.toNat) :
    checkDim s = some ⟨.dim, 0⟩ := by
  rw [checkDim, (need_eq_some _ _ _).2 ⟨legalDim_eq_false h, rfl⟩, Option.some_or]

/-- R354: HEIGHT is at fault after a legal WIDTH. -/
theorem checkDim_of_height {s : State} (hwidth : 1 ≤ s.regs.width.toNat ∧ s.regs.width.toNat ≤ 16383)
    (h : s.regs.height.toNat = 0 ∨ 16384 ≤ s.regs.height.toNat) : checkDim s = some ⟨.dim, 1⟩ := by
  rw [checkDim, (need_eq_none _ _).2 (legalDim_eq_true hwidth), (need_eq_some _ _ _).2 ⟨legalDim_eq_false h, rfl⟩,
    Option.none_or]

/-- R351: a command that reads the dimensions reports their error right after the legality of the word. -/
theorem exec_of_checkDim {i : Instr} {s : State} {e : CmdError} (hwf : i.wf = true) (hreads : readsDims i = true)
    (h : checkDim s = some e) : exec i s = .next (s.errored e.code.num e.info) := by
  have hdims : checkDims i s = some e := (if_pos hreads).trans h
  refine exec_of_commandError_some ?_
  rw [commandError_of_wf hwf, hdims, Option.some_or]

/-- Settles O27: the dimensions are the first operands checked, and no other check reports `E_DIM`. -/
theorem dimensionErrors : Obligations.DimensionErrors := by
  intro i s hwf
  refine ⟨fun hreads => ⟨fun hwidth => ?_, fun hwidth hheight => ?_⟩, fun hdims info => ?_, ?_⟩
  · exact exec_of_checkDim hwf hreads (checkDim_of_width hwidth)
  · exact exec_of_checkDim hwf hreads (checkDim_of_height hwidth hheight)
  · refine exec_ne_errored (c := .dim) ?_ info
    rw [commandError_of_dims hwf hdims]
    exact (avoids_checkRegs (by decide) i s).or ((avoids_checkIndex (by decide) i s).or
      ((avoids_checkNeeds (by decide) i s).or (avoids_checkData (by decide) (by decide) (fun _ => by decide) s)))
  · rintro ⟨-, hwidth, -, hheight⟩
    exact Nat.mul_le_mul hwidth hheight

/-- Settles O28: the registers are checked in the order of the table, `k` after them, and no later check reports
`E_PARAM`. -/
theorem parameterErrors : Obligations.ParameterErrors := by
  intro i s hwf hdims
  refine ⟨fun pre r post hsplit hpre hbad => ?_, fun hregs hindex => ?_, fun hregs hindex info => ?_⟩
  · refine exec_of_commandError_some (e := paramError r) ?_
    have hregs : checkRegs i s = some (paramError r) := by
      rw [checkRegs, hsplit, List.map_append, List.map_cons, checkReg_eq_some hbad]
      exact firstError_append_cons (List.forall_mem_map.2 fun q hq => checkReg_eq_none (hpre q hq)) _ _
    rw [commandError_of_dims hwf hdims, hregs, Option.some_or]
  · refine exec_of_commandError_some (e := paramError .nhisto) ?_
    have hbad : checkIndex i s = some (paramError .nhisto) := (need_eq_some _ _ _).2 ⟨hindex, rfl⟩
    rw [commandError_of_dims hwf hdims, checkRegs_eq_none hregs, hbad, Option.none_or, Option.some_or]
  · refine exec_ne_errored (c := .param) ?_ info
    rw [commandError_of_params ⟨hwf, hdims, hregs, hindex⟩]
    exact (avoids_checkNeeds (by decide) i s).or (avoids_checkData (by decide) (by decide) (fun _ => by decide) s)

/-- Settles O29: the memories are checked in ascending id, and no later check reports `E_RESOURCE`. -/
theorem resourceErrors : Obligations.ResourceErrors := by
  intro i s hparams
  refine ⟨fun pre id n post hsplit hpre hsmall => ?_, fun hfits info => ?_⟩
  · refine exec_of_commandError_some (e := resourceError id) ?_
    have hneeds : checkNeeds i s = some (resourceError id) := by
      have hbad : checkFits s id n = some (resourceError id) := need_of_not _ (Nat.not_le.2 hsmall)
      rw [checkNeeds, hsplit, List.map_append, List.map_cons, hbad]
      exact firstError_append_cons (List.forall_mem_map.2 fun x hx => (checkFits_eq_none s x.1 x.2).2 (hpre x hx)) _ _
    rw [commandError_of_params hparams, hneeds, Option.some_or]
  · refine exec_ne_errored (c := .resource) ?_ info
    rw [commandError_of_fits hparams hfits]
    exact avoids_checkData (by decide) (by decide) (fun _ => by decide) s

/-- R172: the machine's `m` is the number of non-zero counts in HCNT. -/
theorem State.usedCount_histogram (s : State) : usedCount s.histogram =
    ((s.readNats .hcnt 0 s.regs.nsym.toNat).filter (fun c => decide (0 < c))).length := usedCount_eq _

/-- R172, R359: at most `2^L` used symbols pass the check of HUF.BUILD. -/
theorem checkData_hufBuild_eq_none {L : BitVec 4} {s : State} (h : usedCount s.histogram ≤ 2 ^ L.toNat) :
    checkData (.hufBuild L) s = none := (need_eq_none _ _).2 (decide_eq_true h)

/-- R359: with legal operands HUF.BUILD is left the check of the Kraft sum. -/
theorem commandError_hufBuild {L : BitVec 4} {s : State} (hL : L ≠ 0) (hnsym : s.regLegal .nsym = true) :
    commandError (.hufBuild L) s = checkData (.hufBuild L) s := by
  have hparams : ParamsLegal (.hufBuild L) s :=
    ⟨by simpa [Instr.wf] using hL, nofun, by simpa [checkedRegs] using hnsym, rfl⟩
  exact commandError_of_fits hparams nofun

/-- R351, R359: an illegal `L`, an illegal NSYM or few enough symbols are no `E_KRAFT`. -/
theorem hufBuild_avoids_kraft {L : BitVec 4} {s : State}
    (h : L = 0 ∨ s.regLegal .nsym = false ∨ usedCount s.histogram ≤ 2 ^ L.toNat) :
    Avoids .kraft (commandError (.hufBuild L) s) := by
  rcases h with rfl | hnsym | hfew
  · rw [commandError_illegal _ _ rfl]
    exact Avoids.some (by decide)
  · have hregs : checkRegs (.hufBuild L) s = some (paramError .nsym) :=
      Option.or_none.trans (checkReg_eq_some hnsym)
    rw [commandError_eq, hregs, Option.some_or]
    exact (avoids_needLegal (by decide) _).or ((avoids_checkDims (by decide) _ s).or (Avoids.some (by decide)))
  · refine avoids_kraft_of_checkData ?_
    rw [checkData_hufBuild_eq_none hfew]
    exact Avoids.none

/-- R42, R359: NSYM is at most 1304, so `L = 15` has codes enough. -/
theorem hufBuild_fifteen_avoids_kraft (s : State) : Avoids .kraft (commandError (.hufBuild 15) s) := by
  refine hufBuild_avoids_kraft (.inr ?_)
  cases hnsym : s.regLegal .nsym with
  | false => exact .inl rfl
  | true =>
    have hsize : s.regs.nsym.toNat ≤ 1304 := (State.nsym_legal hnsym).2
    have hused : usedCount s.histogram ≤ s.regs.nsym.toNat := by
      rw [usedCount_eq, ← s.histogram_length]
      exact List.length_filter_le _ _
    exact .inr (hused.trans (hsize.trans (by decide)))

/-- Settles O31: the check of the Kraft sum is the last of HUF.BUILD, and no other command makes it. -/
theorem kraftErrors : Obligations.KraftErrors := by
  rintro i s m rfl
  rw [← s.usedCount_histogram]
  refine ⟨?_, ?_⟩
  · rintro L rfl
    refine ⟨fun hL hnsym hmany => ?_, fun h => exec_ne_errored (hufBuild_avoids_kraft h)⟩
    refine exec_of_commandError_some (e := ⟨.kraft, BitVec.ofNat 32 (usedCount s.histogram)⟩) ?_
    rw [commandError_hufBuild hL hnsym]
    exact need_of_not _ (Nat.not_le.2 hmany)
  · rintro (rfl | hother)
    · exact exec_ne_errored (hufBuild_fifteen_avoids_kraft s)
    · refine exec_ne_errored (avoids_kraft_of_checkData ?_)
      exact avoids_checkData (by decide) (by decide) (fun ⟨L, hL⟩ => absurd hL (hother L)) s

/-- R262 (7): symbols below NHISTO pass. -/
theorem checkSymbols_eq_none {s : State} (h : ∀ v ∈ s.tileSymbols, v < s.regs.nhisto.toNat) :
    checkSymbols s = none := by
  have hfind : s.tileSymbols.findIdx? (fun v => decide (s.regs.nhisto.toNat ≤ v)) = none :=
    List.findIdx?_eq_none_iff.2 fun v hv => decide_eq_false (Nat.not_le.2 (h v hv))
  rw [checkSymbols, hfind, Option.map_none]

/-- R262 (8), R360: the lowest array whose total is too large is reported. -/
theorem checkTotals_of_large {s : State} {arr : Nat} (harr : arr < 5)
    (hbefore : ∀ arr' < arr, arrayTotal s.histograms arr' < 2 ^ 32) (hlarge : 2 ^ 32 ≤ arrayTotal s.histograms arr) :
    checkTotals s = some ⟨.range, BitVec.ofNat 32 arr⟩ := by
  have hfind : (List.range 5).find? (fun a => decide (2 ^ 32 ≤ arrayTotal s.histograms a)) = some arr := by
    rw [List.find?_range_eq_some]
    exact ⟨decide_eq_true hlarge, List.mem_range.2 harr, fun j hj => by simpa using hbefore j hj⟩
  rw [checkTotals, hfind, Option.map_some]

/-- Settles O32: the totals are the last checks of their commands. -/
theorem rangeErrors : Obligations.RangeErrors := by
  intro s
  refine ⟨fun hnsym hsum => ?_, fun hparams hfits hsyms arr harr hbefore hlarge => ?_⟩
  · obtain ⟨-, hreport, -⟩ := histEntropyEstimates s _ _ rfl rfl
    exact hreport hnsym hsum
  · refine exec_of_commandError_some (e := ⟨.range, BitVec.ofNat 32 arr⟩) ?_
    rw [commandError_histCluster_eq hparams hfits, checkSymbols_eq_none hsyms, Option.none_or,
      checkTotals_of_large harr hbefore hlarge]

end Sys2Proof.Machine
end

/-! ### The state after a reset (R380, R381, R383) -/

section
namespace Sys2Proof.Machine

/-- R380: the values of the registers after reset, whichever reset it was. -/
theorem State.readReg_of_reset {t : State} (hregs : t.regs = Regs.reset) (r : Reg) :
    t.readReg r = resetValue t.caps r := by
  cases r with
  | id | cmd | memData | capPix | capTd | capRefs | capTh | capBitq | capHash => rfl
  | _ => simp only [State.readReg, hregs]; rfl

/-- R380: `t` is a state just after a reset of `s`. -/
theorem reset_regs_caps {s t : State} (h : t = State.resetWith s.caps ∨ t = s.softReset ∨ ∃ o, t = s.hardReset o) :
    t.regs = Regs.reset ∧ t.caps = s.caps := by
  obtain rfl | rfl | ⟨o, rfl⟩ := h
  · exact ⟨rfl, rfl⟩
  · exact ⟨s.softReset_regs, s.softReset_caps⟩
  · exact ⟨rfl, rfl⟩

/-- R355, R380: a command that reads no dimensions checks NSYM, NHISTO or PAL_SIZE, after CACHE_BITS at most. -/
theorem checkedRegs_split {i : Instr} (hdims : readsDims i = false) (hnop : i ≠ .nop) (hquery : i ≠ .pmapQuery) :
    ∃ pre r post, checkedRegs i = pre ++ r :: post ∧ (∀ q ∈ pre, q = .cacheBits) ∧
      r ∈ [Reg.nsym, .nhisto, .palSize] := by
  cases i with
  | hufBuild | hufRle | histEntropy => exact ⟨[], .nsym, [], rfl, nofun, by decide⟩
  | hufStore => exact ⟨[], .nsym, [.nbitq], rfl, nofun, by decide⟩
  | pmapBuild => exact ⟨[], .palSize, [], rfl, nofun, by decide⟩
  | histExport arr k =>
    by_cases harr : arr = 0
    · exact ⟨[.cacheBits], .nhisto, [], if_pos harr, by simp, by decide⟩
    · exact ⟨[], .nhisto, [], if_neg harr, nofun, by decide⟩
  | nop => exact absurd rfl hnop
  | pmapQuery => exact absurd rfl hquery
  | lzFill | lzRefs | histBuild | histCluster | predResid => exact absurd hdims Bool.noConfusion

/-- R380: of the zeros after reset, those of NSYM, NHISTO and PAL_SIZE are outside their ranges. -/
theorem regLegal_issue_of_reset {t : State} (hregs : t.regs = Regs.reset) (w : Word) {r : Reg}
    (hr : r ∈ [Reg.nsym, .nhisto, .palSize]) : (t.issue w).regLegal r = false := by
  simp only [List.mem_cons, List.not_mem_nil, or_false] at hr
  obtain rfl | rfl | rfl := hr
  all_goals simp [State.regLegal, hregs, Regs.reset]

/-- R380: the zero of CACHE_BITS is legal. -/
theorem cacheBits_legal_issue_of_reset {t : State} (hregs : t.regs = Regs.reset) (w : Word) :
    (t.issue w).regLegal .cacheBits = true := by
  simp [State.regLegal, hregs, Regs.reset]

/-- R380: just after a reset every command but NOP and PMAP.QUERY ends in `E_DIM`, of WIDTH, or in `E_PARAM`. -/
theorem exec_issue_of_reset {t : State} (hregs : t.regs = Regs.reset) (w : Word) {i : Instr} (hwf : i.wf = true)
    (hnop : i ≠ .nop) (hquery : i ≠ .pmapQuery) :
    ∃ code info, (code = 0x02 ∨ code = 0x03) ∧ exec i (t.issue w) = .next ((t.issue w).errored code info) := by
  cases hreads : readsDims i with
  | true =>
    have hwidth : (t.issue w).regs.width.toNat = 0 := by rw [State.issue_regs, hregs]; rfl
    obtain ⟨hdim, -⟩ := dimensionErrors i (t.issue w) hwf
    exact ⟨0x02, 0, .inl rfl, (hdim hreads).1 (.inl hwidth)⟩
  | false =>
    obtain ⟨pre, r, post, hsplit, hpre, hr⟩ := checkedRegs_split hreads hnop hquery
    obtain ⟨hparam, -⟩ := parameterErrors i (t.issue w) hwf fun h => absurd h (by simp [hreads])
    refine ⟨0x03, _, .inr rfl, hparam pre r post hsplit (fun q hq => ?_) (regLegal_issue_of_reset hregs w hr)⟩
    rw [hpre q hq]
    exact cacheBits_legal_issue_of_reset hregs w

/-- Settles O16: both resets leave the registers of R380, which hold no legal operands for the other commands. -/
theorem resetRegisterValues : Obligations.ResetRegisterValues := by
  intro s t hreset
  obtain ⟨hregs, hcaps⟩ := reset_regs_caps hreset
  refine ⟨fun r => hcaps ▸ State.readReg_of_reset hregs r, ?_, fun i hwf hnop hquery => ?_⟩
  · simp only [State.irq, hregs]
    rfl
  · exact exec_issue_of_reset hregs (encode i) hwf hnop hquery

/-- Settles O13: no flag is set and no memory holds a written word. -/
theorem resetMeetsTheInvariants : Obligations.ResetMeetsTheInvariants := fun c =>
  ⟨rfl, (State.memsWf_iff _).2 (Mems.Canonical.unspecified 0),
    (State.memsInside_iff _).2 (Mems.Inside.unspecified c 0)⟩

/-- Settles O17: the turn is the hard reset, which leaves every memory unspecified. -/
theorem hardResetForgetsEveryMemory : Obligations.HardResetForgetsEveryMemory := by
  intro s t o rest hagenda hstep
  rw [step_hardReset s o rest hagenda] at hstep
  cases hstep
  refine ⟨rfl, rfl, rfl, fun id a => ?_⟩
  rw [State.readWord, State.hardReset_mems, Mems.get_unspecified]
  exact ⟨Memory.get?_unspecified _ _, Memory.toNat_read_unspecified _ _ _⟩

end Sys2Proof.Machine
end
